-- ==== Sys2Proof/Word.lean ====
section
/-!
DEFINITION. The words the FL36 and its host exchange: the 32-bit word and the byte (00_scope.md, Conventions; R213),
the 24-bit host byte address and the 21-bit memory-bus word address (00_scope.md, Pin summary).
-/
namespace Sys2Proof

/-- A word of lighting memory or of a control word (R213). -/
abbrev Word := BitVec 32

/-- One byte, or one 8-bit channel (R213, R220). -/
abbrev Byte := BitVec 8

/-- A host byte address (00_scope.md, Conventions). -/
abbrev Addr := BitVec 24

/-- A word address of the memory bus (00_scope.md, Pin summary; R182). -/
abbrev WordAddr := BitVec 21

end Sys2Proof
end

