-- ==== Sys2Proof/Syntax.lean ====
section
/-!
DEFINITION. The commands the FL36 answers: one constructor per row of spec/opcode_table.json. The table gives its rows no
fields; the two operands that the rules name are the host transfer of R167 and the cue line of R97.
-/
namespace Sys2Proof

/-- A host transfer on the lighting bus (R167): direction, byte address, byte enables and, for a write, the data. -/
structure HostTransfer where
  /-- Set for a write, clear for a read. -/
  write : Bool
  addr : Addr
  be : BitVec 4
  data : Word
deriving DecidableEq, Repr

/-- The steps of the part, each whole and indivisible (95_what_each_step_holds.md). -/
inductive Instr where
  | resetAsserted
  | resetReleased
  | rootReadCompletion
  | startResultWriteCompletion
  | profileReadCompletion
  | blankingWriteCompletion
  | transferArrival (t : HostTransfer)
  | holdTimerExpiry
  | passiveTransferCompletion
  | directTransferCompletion
  | memoryGrant
  | plainWriteTaken
  | plainWriteCompletion
  | sealWord
  | takeover
  | reportWord
  | acknowledgeWord
  | standbyWord
  | profileReloadWord
  | reelStopWord
  | restartWord
  | playWord
  | cueLineEdge (line : Fin 4)
  | canvasWriteTaken
  | canvasReadTaken
  | plainReadTaken
  | plainReadCompletion
  | ctRequestTaken
  | directoryReadCompletion
  | segmentReadCompletion
  | flagWordWriteCompletion
  | hitWriteBackCompletion
  | entryGrant
  | slotGrant
  | baseReadCompletion
  | canvasReadMemoryCompletion
  | batchTaken
  | measureEnd
  | firstPassWriteCompletion
  | secondPassWriteCompletion
  | frameMark
  | lossWindowExpiry
  | paceTimerExpiry
  | headerReadCompletion
  | updatePairReadCompletion
  | statusWriteCompletion
deriving DecidableEq, Repr

end Sys2Proof
end

