-- ==== Sys2Proof/Config.lean ====
section
/-!
DEFINITION. What an implementation fixes or the manual leaves open. The numbers the manual itself gives (512 journal
entries, 8 batch slots, 16 cache entries, 16 places of the queue, the age guard's 8) stand where they are used.
-/
namespace Sys2Proof

/-- FREE VALUE (log entry 6). When reset is asserted with a partial write in flight, R190 asks whether its read or its
write is on the bus, and no event of the manual says when the one gives way to the other. The n-th such question is
answered by this value: set when the write is on the bus. -/
opaque Config.partialWriteOnBus : Nat → Bool

/-- FREE VALUE (log entry 38). R117 gives an abort taken second, after a stop at the same moment, its report and REEL_ENDED, while a
later event of the stopped reel changes nothing (R113, R115, R189); commands in a queue do not say which events share a moment. The
n-th such question is answered by this value: set when the abort and the stop are together. -/
opaque Config.abortWithStop : Nat → Bool

/-- FREE VALUE (log entry 39). R191 lets the grant at a completion and an event of that completion be taken in either order. The n-th
such question is answered by this value: set when the grant is taken first. -/
opaque Config.grantBeforeEvent : Nat → Bool

/-- FREE VALUE (log entry 40). Of two requests made at the same moment to a free port with none waiting either may be taken first
(R185). The n-th such question is answered by this value: the place whose request is taken first. -/
opaque Config.takenFirst : Nat → Fin 6

/-- FREE VALUE (log entry 43). An abort may come at the moment of the seal before it, where the Release Engine can take a batch. Either
is taken first (R46, R117). The n-th such question is answered by this value: set when the engine takes its batch first. -/
opaque Config.takeBeforeAbort : Nat → Bool

/-- FREE VALUE (log entry 35). A host write that lands on the word of a profile read between the asking of the read and its performance
is seen by the read (R152) or waits for the next load (R156). The n-th such question is answered by this value: set when it waits. -/
opaque Config.profileReadKeeps : Nat → Bool

end Sys2Proof
end

