-- ==== Sys2Proof/Machine/State.lean ====
section
/-!
DEFINITION. The state of the FL36, block by block as the block diagram of 00_scope.md owns it, as plain data, with the
value of every piece while reset is asserted. INVENTORY.md lists each piece with the rule that names it.
-/
namespace Sys2Proof.Machine

/-! ### Names -/

/-- The two frame buffers (00_scope.md, Terms). -/
inductive Buf where | a | b
deriving DecidableEq, Repr

/-- Parity sense (R186). -/
inductive Sense where | odd | even
deriving DecidableEq, Repr

/-- Path of the memory port (R183). -/
inductive Path where | arbitrated | direct
deriving DecidableEq, Repr

/-- The three views of the canvas window (R122). -/
inductive View where | replace | level | add
deriving DecidableEq, Repr

/-- The two requesters of the CT and of the JC (R10, R146). -/
inductive Requester where | aq | rp
deriving DecidableEq, Repr

/-- Start sub-state (R193). -/
inductive SubState where | readRoot | loadProfiles | blanking
deriving DecidableEq, Repr

/-- Part state; the sub-state is present in STARTING only (R193). -/
inductive Part where
  | bypass
  | starting (sub : SubState)
  | running
  | passive
  | standby
deriving DecidableEq, Repr

/-- State of a batch table slot other than FREE (R4). -/
inductive Phase where | opened | sealed | measure | firstPass | armed | secondPass
deriving DecidableEq, Repr

/-- Engine state (R33). -/
inductive Engine where | idle | blanking | measure | firstPass | armed | secondPass
deriving DecidableEq, Repr

/-- Mark state (R75). -/
inductive MarkState where | ok | lost
deriving DecidableEq, Repr

/-- Player state (R94). -/
inductive Player where | idle | loading | waiting | ending | stopping
deriving DecidableEq, Repr

/-- Fault kinds (R208), in the order of their codes (R222). -/
inductive FaultKind where
  | addressRefused | protectedWrite | partialCanvas | holdExpired | zoneAbsent | segmentBeyond | segmentAbsent
  | segmentBad | pixelBeyond | profileVoid | walkParity | readParity | journalOverflow | reelTruncated | reelAborted
  | reelUpdateBad | startFailed
deriving DecidableEq, Repr

/-- Fault origins (R208, R222). -/
inductive FaultOrigin where | drawnWrite | canvasRead | reelUpdate | busTransfer | start
deriving DecidableEq, Repr

/-- Attention causes (R211), in the order of their mask bits (R222). -/
inductive Cause where
  | fault | journalLow | reelEnded | markLost | counterOverflow | standbyCancelled | restartRefused
deriving DecidableEq, Repr

/-- Counters (R209), in the order of the counter block (R222). -/
inductive CounterKind where | translate | refuse | hold | overflow | slip | derate | parity | loss
deriving DecidableEq, Repr

/-- The records the RU writes (R207). -/
inductive Record where | fault | status | counters
deriving DecidableEq, Repr

/-- Kind of a counter transfer (R210). -/
inductive CaptureKind where | manual | automatic
deriving DecidableEq, Repr

/-- Source of a cue (R94). -/
inductive CueSource where | cueLine | playWord
deriving DecidableEq, Repr

/-- A canvas request of one of the three kinds of R123. -/
inductive ReqKind where | drawnWrite | canvasRead | reelUpdate
deriving DecidableEq, Repr

/-! ### Values -/

/-- A pixel value as the host writes it: red, green, blue, level (00_scope.md, Conventions). -/
structure Pixel where
  red : Byte
  green : Byte
  blue : Byte
  level : Byte
deriving DecidableEq, Repr

/-- A stored value: three colour channels in wiring order, then level (00_scope.md, Conventions). -/
structure Stored where
  c1 : Byte
  c2 : Byte
  c3 : Byte
  level : Byte
deriving DecidableEq, Repr

/-- The fields of a profile as its record gives them (R149, R218); the second word's bytes are the gains in NONE mode and
the substitute colours in SUBSTITUTE mode. -/
structure Profile where
  order : BitVec 3
  mode : BitVec 2
  cap : Byte
  subLevel : Byte
  red : Byte
  green : Byte
  blue : Byte
deriving DecidableEq, Repr

/-! ### The lighting memory -/

/-- What the lighting memory stores: a data byte and a parity bit at every byte address of the plain window (R182), each
as a canonical list (addresses strictly rising, no entry equal to what an unlisted address reads as; log entry 4). -/
structure Memory where
  data : List Host.Cell
  par : List (Nat × Bool)
deriving DecidableEq, Repr

/-! ### Start and Power Control -/

/-- R193. The words read from the root so far; their number is the count "root words read". -/
structure Spc where
  part : Part
  rootWords : List Word
  standbyPending : Bool
deriving DecidableEq, Repr

/-! ### Upstream Port and Arrival Queue -/

/-- Where the arrived and unanswered transfer stands: waiting for a place of the full queue (R172, R173), queued (a read,
R173), waiting to be handed to the MP or handed to it in PASSIVE (R179), or, since reset was asserted, to be carried on the
direct path or refused once the memory is free (R180). -/
inductive WaitPlace where | forPlace | queued | forPort | atPort | direct
deriving DecidableEq, Repr

/-- The UP's waiting transfer (R168). -/
structure Waiting where
  xfer : HostTransfer
  place : WaitPlace
deriving DecidableEq, Repr

/-- The protected bounds (R168): frame buffer bases, slot count and status area base. -/
structure Bounds where
  bufA : Nat
  bufB : Nat
  slotCount : Nat
  status : Nat
deriving DecidableEq, Repr

/-- What the UP drives on the lighting bus as the answer to a transfer (R167): ready or error, and the data of a read. -/
structure Answer where
  ready : Bool
  data : Option Word
deriving DecidableEq, Repr

/-- R168. The hold timer is stopped, or runs with the hold limit (in microseconds) it was started with (log entry 3). -/
structure Up where
  waiting : Option Waiting
  holdTimer : Option Nat
  holdLimit : Nat
  bounds : Option Bounds
  answer : Option Answer
deriving DecidableEq, Repr

/-- R171. The oldest transfer is the head of the list; `taken` says that the head is in service. -/
structure Aq where
  queue : List HostTransfer
  taken : Bool
deriving DecidableEq, Repr

/-! ### Journal Controller -/

/-- A journal entry in use (R1); the batch slot it belongs to is the slot whose record holds it (log entry 26). -/
structure Entry where
  frameSlot : Nat
  rail : Fin 8
  value : Option Stored
  shown : Option Stored
  newLoad : Option Nat
deriving DecidableEq, Repr

/-- Origin of a batch (R4); `earlier` is the play field of a reel batch, CURRENT when clear and EARLIER when set (R8). -/
inductive Origin where
  | drawn
  | reel (reel : Fin 4) (frame : Nat) (earlier : Bool)
deriving DecidableEq, Repr

/-- A batch record of a slot that is not FREE (R4). The entry count is the number of entries. -/
structure Batch where
  phase : Phase
  origin : Origin
  hold : Nat
  entries : List Entry
  sealOrder : Option Nat
  tag : Option (BitVec 16)
  takeover : Option Bool
  release : Option (BitVec 8)
  derate : Option (Vector Nat 8)
  removed : Option (Vector Nat 8)
  added : Option (Vector Nat 8)
deriving DecidableEq, Repr

/-- What a staged write brings (R10): a finished stored value, or a request for combination with a base value. -/
inductive Payload where
  | finished (v : Stored)
  | combine
deriving DecidableEq, Repr

/-- What a staged write waits for (R18). -/
inductive StageWait where | slot | entry | base
deriving DecidableEq, Repr

/-- A staged write (R10). -/
structure Staged where
  view : View
  frameSlot : Nat
  rail : Fin 8
  canvas : Addr
  payload : Payload
  wait : StageWait
deriving DecidableEq, Repr

/-- The RP's request for a reel batch while it waits for a slot (R12, R24). -/
structure ReelOpen where
  reel : Fin 4
  frame : Nat
  hold : Nat
deriving DecidableEq, Repr

/-- A canvas read that waits for its shown-buffer read (R23). -/
structure ReadBack where
  order : BitVec 3
  canvas : Addr
deriving DecidableEq, Repr

/-- The JC. A slot is `none` when FREE (R4). `waiters` are the waiting entry requests, longest waiting first (R24). -/
structure Jc where
  slots : Vector (Option Batch) 8
  sealCounter : Nat
  almostFull : Nat
  lowFlag : Bool
  drawn : Option Staged
  reel : Option Staged
  waiters : List Requester
  reelOpen : Option ReelOpen
  readBack : Option ReadBack
deriving DecidableEq, Repr

/-! ### Release Engine and Load Limiter -/

/-- What the last flip recorded beside the release number (R33, R47). -/
inductive FlipOrigin where
  | drawn (tag : BitVec 16) (takeover : Bool)
  | reel (reel : Fin 4) (frame : Nat)
deriving DecidableEq, Repr

/-- Last flipped (R33). -/
structure LastFlip where
  release : BitVec 8
  origin : FlipOrigin
deriving DecidableEq, Repr

/-- R33. `blankPos` is the number of blanking writes completed (R53). -/
structure Re where
  state : Engine
  current : Option (Fin 8)
  position : Nat
  blankPos : Nat
  hold : Nat
  select : Buf
  bufA : Nat
  bufB : Nat
  slotCount : Nat
  lastRelease : BitVec 8
  lastFlipped : Option LastFlip
deriving DecidableEq, Repr

/-- R61. `bounds` are boundaries 1 to 7; `loads` is the slot load table as a canonical list with default 0. -/
structure Ll where
  bounds : Vector Nat 7
  limits : Vector Nat 8
  loads : List (Nat × Nat)
  totals : Vector Nat 8
deriving DecidableEq, Repr

/-! ### Mark Monitor -/

/-- R75. Each timer is stopped, or runs with the duration (in milliseconds) it was started with (log entry 3). -/
structure Mm where
  state : MarkState
  good : Nat
  lossTimer : Option Nat
  paceTimer : Option Nat
  lossWindow : Nat
  pacing : Nat
  watching : Bool
deriving DecidableEq, Repr

/-! ### Reel Player -/

/-- The header of the frame in loading (R94). -/
structure Header where
  count : Nat
  hold : Nat
  addr : Nat
deriving DecidableEq, Repr

/-- Last ignored cue (R94): the reel number is absent when the reason is OUT_OF_RANGE, and present when it is DISABLED. -/
structure Ignored where
  source : CueSource
  reel : Option (Fin 4)
deriving DecidableEq, Repr

/-- An entry of the reel directory (R92); enablement is decided once and kept with the entry. -/
structure DirEntry where
  start : Nat
  frames : Nat
  loops : Nat
  enabled : Bool
deriving DecidableEq, Repr

/-- Where the loading of a frame stands (R104, R105): the header read, the reel slot request, the read of the address word
or of the value word of pair i (with the address word read and whether it was in error), update i in hand and kept back from the
CT (with its words), update i at the CT or the JC. -/
inductive LoadStep where
  | none
  | header
  | slot
  | pairAddr (i : Nat)
  | pairValue (i : Nat) (addr : Word) (bad : Bool)
  | held (i : Nat) (addr : Word) (value : Word)
  | update (i : Nat)
deriving DecidableEq, Repr

/-- R94. `endedDue` says that an aborted reel counts as ended, so that REEL_ENDED is due at IDLE (R116). -/
structure Rp where
  state : Player
  reel : Option (Fin 4)
  frame : Nat
  plays : BitVec 4
  readAddr : Nat
  header : Option Header
  step : LoadStep
  unflipped : Nat
  finalFlipped : Bool
  endedDue : Bool
  pendingCue : Option (Fin 4)
  lastIgnored : Option Ignored
  watching : Bool
  directory : Vector DirEntry 4
deriving DecidableEq, Repr

/-! ### Canvas Translator -/

/-- A request at the CT (R123). `discard` is set when a reel stop or abort has withdrawn the update it serves (R136). -/
structure CtReq where
  kind : ReqKind
  canvas : Addr
  value : Word
  discard : Bool
deriving DecidableEq, Repr

/-- The fields of a segment entry (R125). -/
structure SegFields where
  present : Bool
  touched : Bool
  changed : Bool
  reverse : Bool
  ring : Bool
  profile : Fin 16
  slotBase : Nat
  length : Nat
deriving DecidableEq, Repr

/-- A valid cache entry (R137). -/
structure CacheEntry where
  zone : Nat
  segment : Nat
  fields : SegFields
  sources : List WordAddr
  known : Bool
deriving DecidableEq, Repr

/-- A translation that passed its six checks (R123, R155): frame slot, rail group and the profile's fields. -/
structure Translation where
  frameSlot : Nat
  rail : Fin 8
  profile : Profile
deriving DecidableEq, Repr

/-- The result of a translation: what is handed on, or the fault (R131). -/
inductive TrResult where
  | ok (t : Translation)
  | bad (k : FaultKind)
deriving DecidableEq, Repr

/-- The step a walk has reached (R132, R133): a read or a flag-word write asked, or a profile question held. -/
inductive WalkStep where | dirFirst | dirSecond | dirFlag | segFirst | segSecond | profile | segFlag
deriving DecidableEq, Repr

/-- A walk in flight (R127): its step, the words of the directory entry and of the segment entry read so far, whether a read
of the present entry was in error, the word address of the segment entry's flag word, the source words in the order their
reads were asked (R142), the stale mark, whether it has set changed in the flag word (R139), and its result once decided. -/
structure Walk where
  step : WalkStep
  dir1 : Word
  dir2 : Word
  seg1 : Word
  seg2 : Word
  bad : Bool
  segWord : WordAddr
  sources : List WordAddr
  stale : Bool
  wroteChanged : Bool
  result : Option TrResult
deriving DecidableEq, Repr

/-- A hit that waits for a profile (R130) or for its hit write-back (R138): the cached fields it was taken with, the flag
word's address, whether changed known was set, whether a host write has overtaken the write-back (R144), and the translation
once the profile has answered (the write-back is then asked). -/
structure Hit where
  fields : SegFields
  flagWord : WordAddr
  known : Bool
  overtaken : Bool
  result : Option Translation
deriving DecidableEq, Repr

/-- R127. `cache` is in recency order, most recent first. -/
structure Ct where
  cache : List CacheEntry
  current : Option CtReq
  walk : Option Walk
  hit : Option Hit
  last : Requester
  dirBase : Nat
  slotCount : Nat
  offerAq : Option CtReq
  offerRp : Option CtReq
deriving DecidableEq, Repr

/-! ### Profile Unit -/

/-- Condition and fields of one profile (R150). -/
structure ProfileSlot where
  valid : Bool
  fields : Profile
deriving DecidableEq, Repr

/-- A profile load in progress (R150): the profile, the first word once read, whether a read was in error, and whether the
profile has become due again during the load (R154). The last field is the model's own: the word of the read now asked, as it
stands but for the host writes that have landed since the read was asked (R152, R156; log entry 35). -/
structure Load where
  profile : Fin 16
  first : Option Word
  bad : Bool
  again : Bool
  asked : Word
deriving DecidableEq, Repr

/-- A write held at the PU until its base value comes (R165). -/
structure HeldWrite where
  view : View
  value : Pixel
  profile : Profile
deriving DecidableEq, Repr

/-- R150. -/
structure Pu where
  base : Nat
  store : Vector ProfileSlot 16
  pending : Vector Bool 16
  load : Option Load
  heldDrawn : Option HeldWrite
  heldReel : Option HeldWrite
deriving DecidableEq, Repr

/-! ### Memory Port -/

/-- The six places of the arbiter, in their fixed order (R184): 0 SPC with the PU, 1 RE, 2 CT, 3 AQ head, 4 RP, 5 RU. -/
abbrev Place := Fin 6

/-- Which work a transfer serves, and so who asked it and what its completion is for (R184). -/
inductive Owner where
  | rootRead
  | startResult (code : Nat)
  | profileRead
  | blankingWrite
  | firstPassWrite
  | secondPassWrite
  | dirRead
  | segRead
  | walkFlag
  | hitFlag
  | plainWrite
  | plainRead
  | baseDrawn
  | canvasRead
  | passive
  | header
  | pairRead
  | baseReel
  | status
  | direct
deriving DecidableEq, Repr

/-- What a transfer does (R182): a read, or a write of the enabled bytes, partial unless all four are enabled. -/
inductive MemOp where
  | read
  | write (be : BitVec 4) (data : Word)
deriving DecidableEq, Repr

/-- A transfer asked of the MP (R183). -/
structure Request where
  owner : Owner
  op : MemOp
  word : WordAddr
deriving DecidableEq, Repr

/-- Which half of a transfer is on the bus (R183). -/
inductive Half where | read | write
deriving DecidableEq, Repr

/-- The half a transfer begins with: a read, and the read of a partial write, or a full-word write (R182). -/
def Half.first : MemOp → Half
  | .read => .read
  | .write be _ => if be = 15 then .write else .read

/-- The transfer in flight, with the parity sense and check of its grant (R186, R187) and whether what it delivers is to be
discarded (R184, R190). `half` says which half is on the bus (R183). A partial write begins with its read, and no event of the
manual says when its write comes onto the bus, so its half is read until a question of R190 finds it there (log entry 6). -/
structure InFlight where
  req : Request
  sense : Sense
  check : Bool
  discard : Bool
  half : Half
deriving DecidableEq, Repr

/-- A request put on the bus, with the sense and check in force. -/
def Request.onBus (r : Request) (sense : Sense) (check : Bool) : InFlight :=
  { req := r, sense := sense, check := check, discard := false, half := Half.first r.op }

/-- R183. `cut` stands from the completion at which a reel stop is acted on to the next completion, that is for the stop's
moment: the address of the header at which the stop has cut the reel off, where an abort at that header can be the second of the
two taken (R117; log entry 38). `completing` is set at a
completion and stands until the grant that follows it, or until nothing is left that answers it: what is asked meanwhile waits at
that grant (R185; log entry 40). -/
structure Mp where
  requests : Vector (Option Request) 6
  passed : Vector Nat 6
  completing : Bool
  inFlight : Option InFlight
  sense : Sense
  check : Bool
  path : Path
  cut : Option Nat
deriving DecidableEq, Repr

/-! ### Report Unit -/

/-- The fault record copy when it is not empty (R208). -/
structure FaultCopy where
  kind : FaultKind
  origin : FaultOrigin
  addr : Addr
  more : BitVec 8
deriving DecidableEq, Repr

/-- A counter with its overflow flag (R209). -/
structure Counter where
  count : BitVec 16
  flag : Bool
deriving DecidableEq, Repr

/-- The record being written (R205): its captured words, its base and the number of words written. -/
structure RuWrite where
  record : Record
  words : List Word
  base : Nat
  written : Nat
deriving DecidableEq, Repr

/-- R205. -/
structure Ru where
  base : Option Nat
  mask : BitVec 7
  interval : Nat
  markCount : Nat
  causes : BitVec 7
  fault : Option FaultCopy
  counters : Vector Counter 8
  snapshotNo : BitVec 16
  captureNo : BitVec 16
  dueStatus : Bool
  dueFault : Bool
  dueCounters : Option CaptureKind
  writing : Option RuWrite
deriving DecidableEq, Repr

/-! ### The whole part -/

/-- The FL36 and its lighting memory. `pending` is the queue of commands that wait, first in first out; `freeCount` numbers
the free values drawn so far (log entry 6) and is the model's own. -/
structure State where
  pending : List Instr
  spc : Spc
  up : Up
  aq : Aq
  jc : Jc
  re : Re
  ll : Ll
  mm : Mm
  rp : Rp
  ct : Ct
  pu : Pu
  mp : Mp
  ru : Ru
  memory : Memory
  freeCount : Nat
deriving DecidableEq, Repr

/-- The part has no fault that stops it: every fault of the manual is a report (R208), after which the part goes on. -/
inductive Fault where
deriving DecidableEq, Repr

/-- Why a command has no outcome. -/
inductive Refusal where
  /-- Raised by the dispatcher for a command that has no meaning yet (no command is in that case). Safe: nothing is claimed
  of a command without a meaning. -/
  | notModelled (mnemonic : String)
deriving DecidableEq, Repr

namespace State

/-! ### One update per block -/

def setPending (s : State) (x : List Instr) : State := { s with pending := x }
def setSpc (s : State) (x : Spc) : State := { s with spc := x }
def setUp (s : State) (x : Up) : State := { s with up := x }
def setAq (s : State) (x : Aq) : State := { s with aq := x }
def setJc (s : State) (x : Jc) : State := { s with jc := x }
def setRe (s : State) (x : Re) : State := { s with re := x }
def setLl (s : State) (x : Ll) : State := { s with ll := x }
def setMm (s : State) (x : Mm) : State := { s with mm := x }
def setRp (s : State) (x : Rp) : State := { s with rp := x }
def setCt (s : State) (x : Ct) : State := { s with ct := x }
def setPu (s : State) (x : Pu) : State := { s with pu := x }
def setMp (s : State) (x : Mp) : State := { s with mp := x }
def setRu (s : State) (x : Ru) : State := { s with ru := x }
def setMemory (s : State) (x : Memory) : State := { s with memory := x }
def setFreeCount (s : State) (x : Nat) : State := { s with freeCount := x }

end State

/-! ### Reset -/

/-- R193, column "Reset asserted". -/
def Spc.reset : Spc := { part := .bypass, rootWords := [], standbyPending := false }

/-- R168; hold limit 200 microseconds. -/
def Up.reset : Up := { waiting := none, holdTimer := none, holdLimit := 200, bounds := none, answer := none }

/-- R171. -/
def Aq.reset : Aq := { queue := [], taken := false }

/-- R2, R7, R9, R29. -/
def Jc.reset : Jc :=
  { slots := Vector.replicate 8 none, sealCounter := 0, almostFull := 32, lowFlag := false, drawn := none, reel := none,
    waiters := [], reelOpen := none, readBack := none }

/-- R33. -/
def Re.reset : Re :=
  { state := .idle, current := none, position := 0, blankPos := 0, hold := 0, select := .a, bufA := 0, bufB := 0,
    slotCount := 4096, lastRelease := 255, lastFlipped := none }

/-- R61. -/
def Ll.reset : Ll :=
  { bounds := Vector.replicate 7 4096, limits := Vector.replicate 8 16777215, loads := [], totals := Vector.replicate 8 0 }

/-- R75, R85. -/
def Mm.reset : Mm :=
  { state := .lost, good := 0, lossTimer := none, paceTimer := none, lossWindow := 50, pacing := 16, watching := false }

/-- R92: every entry is disabled until the first valid root (its other fields: log entry 30). -/
def DirEntry.reset : DirEntry := { start := 0, frames := 0, loops := 0, enabled := false }

/-- R94. -/
def Rp.reset : Rp :=
  { state := .idle, reel := none, frame := 0, plays := 0, readAddr := 0, header := none, step := .none, unflipped := 0,
    finalFlipped := false, endedDue := false, pendingCue := none, lastIgnored := none, watching := false,
    directory := Vector.replicate 4 DirEntry.reset }

/-- R127. -/
def Ct.reset : Ct :=
  { cache := [], current := none, walk := none, hit := none, last := .rp, dirBase := 0, slotCount := 4096, offerAq := none,
    offerRp := none }

/-- The fields of a profile with every field 0 (R150, R151). -/
def Profile.zero : Profile := { order := 0, mode := 0, cap := 0, subLevel := 0, red := 0, green := 0, blue := 0 }

/-- R150. -/
def Pu.reset : Pu :=
  { base := 0, store := Vector.replicate 16 { valid := false, fields := Profile.zero }, pending := Vector.replicate 16 false,
    load := none, heldDrawn := none, heldReel := none }

/-- R183. -/
def Mp.reset : Mp :=
  { requests := Vector.replicate 6 none, passed := Vector.replicate 6 0, inFlight := none, sense := .odd, check := true,
    path := .direct, cut := none, completing := false }

/-- R205. -/
def Ru.reset : Ru :=
  { base := none, mask := 127, interval := 0, markCount := 0, causes := 0, fault := none,
    counters := Vector.replicate 8 { count := 0, flag := false }, snapshotNo := 0, captureNo := 0, dueStatus := false,
    dueFault := false, dueCounters := none, writing := none }

/-- The lighting memory with nothing listed (log entry 4). -/
def Memory.empty : Memory := { data := [], par := [] }

/-- The part while reset is asserted (R194): every block at the value its own chapter gives for reset asserted, no command
waiting, and the lighting memory with nothing listed (log entries 4 and 5). -/
def State.reset : State :=
  { pending := [], spc := Spc.reset, up := Up.reset, aq := Aq.reset, jc := Jc.reset, re := Re.reset, ll := Ll.reset,
    mm := Mm.reset, rp := Rp.reset, ct := Ct.reset, pu := Pu.reset, mp := Mp.reset, ru := Ru.reset, memory := Memory.empty,
    freeCount := 0 }

end Sys2Proof.Machine
end

