-- ==== Sys2Proof/Machine/Ops.lean ====
section
/-!
DEFINITION. The named operations over memory and over the tables of the part: fixed tables, sparse lists in canonical form,
the bytes and words of the lighting memory with their parity bits (R182, R186, R213), and the requests of the memory port
(R183, R184).
-/
namespace Sys2Proof.Machine

/-! ### Fixed tables -/

/-- Row `i` of a table. -/
def tget {α : Type} {n : Nat} (v : Vector α n) (i : Fin n) : α :=
  v.get i

/-- A table with row `i` replaced. -/
def tset {α : Type} {n : Nat} (v : Vector α n) (i : Fin n) (x : α) : Vector α n :=
  v.set i.val x i.isLt

/-- A table with every row changed. -/
def tmap {α β : Type} {n : Nat} (f : α → β) (v : Vector α n) : Vector β n :=
  Vector.ofFn (fun i => f (tget v i))

/-! ### Sparse lists -/

/-- What the list gives at key `a`; an unlisted key reads as `d`. -/
def Sparse.get {α : Type} (d : α) : List (Nat × α) → Nat → α
  | [], _ => d
  | (k, v) :: r, a => if k = a then v else Sparse.get d r a

/-- The list with the pair `(a, x)` put in front of the first larger key. -/
def Sparse.insert {α : Type} (a : Nat) (x : α) : List (Nat × α) → List (Nat × α)
  | [] => [(a, x)]
  | (k, v) :: r => if a < k then (a, x) :: (k, v) :: r else (k, v) :: Sparse.insert a x r

/-- The list with key `a` set to `x`; writing what an unlisted key reads as removes the entry. -/
def Sparse.set {α : Type} [DecidableEq α] (d : α) (l : List (Nat × α)) (a : Nat) (x : α) : List (Nat × α) :=
  let r := l.filter (fun c => c.1 != a)
  if x = d then r else Sparse.insert a x r

/-- Keys strictly rising. -/
def Sparse.rising {α : Type} : List (Nat × α) → Bool
  | [] => true
  | [_] => true
  | (k, _) :: (k', v') :: r => decide (k < k') && Sparse.rising ((k', v') :: r)

/-- The canonical form: keys strictly rising, and no entry equal to what an unlisted key reads as. -/
def Sparse.wf {α : Type} [DecidableEq α] (d : α) (l : List (Nat × α)) : Bool :=
  Sparse.rising l && l.all (fun c => decide (c.2 ≠ d))

/-! ### Bytes, words and parity -/

/-- Byte k of a word holds bits 8k to 8k + 7 (R213). -/
def byteOf (x : Word) (k : Nat) : Byte :=
  x.extractLsb' (8 * k) 8

/-- The word whose bytes 0 to 3 are given (R213). -/
def wordOfBytes (b0 b1 b2 b3 : Byte) : Word :=
  b3 ++ b2 ++ b1 ++ b0

/-- Bits hi down to lo of a word as a number. -/
def bits (x : Word) (hi lo : Nat) : Nat :=
  (x.toNat / 2 ^ lo) % 2 ^ (hi - lo + 1)

/-- Bit k of a word. -/
def flagBit (x : Word) (k : Nat) : Bool :=
  x.getLsbD k

/-- Whether a byte holds an odd number of ones. -/
def oddOnes (b : Byte) : Bool :=
  xor (xor (xor (b.getLsbD 0) (b.getLsbD 1)) (xor (b.getLsbD 2) (b.getLsbD 3)))
    (xor (xor (b.getLsbD 4) (b.getLsbD 5)) (xor (b.getLsbD 6) (b.getLsbD 7)))

/-- The parity bit generated for a byte (R186): under odd sense set when the byte holds an even number of ones, under even
sense set when it holds an odd number. -/
def parityBit (p : Sense) (b : Byte) : Bool :=
  match p with
  | .odd => !oddOnes b
  | .even => oddOnes b

/-- The data byte at a byte address; an unlisted byte reads 0 (log entry 4). -/
def Memory.byte (m : Memory) (a : Nat) : Byte :=
  Sparse.get 0 m.data a

/-- The parity bit at a byte address; an unlisted bit reads set (log entry 4). -/
def Memory.bit (m : Memory) (a : Nat) : Bool :=
  Sparse.get true m.par a

/-- A byte written with a parity bit. -/
def Memory.writeByte (m : Memory) (a : Nat) (b : Byte) (p : Bool) : Memory :=
  { data := Sparse.set 0 m.data a b, par := Sparse.set true m.par a p }

/-- The four data bytes of a word as read (R182). -/
def Memory.readWord (m : Memory) (w : WordAddr) : Word :=
  wordOfBytes (m.byte (4 * w.toNat)) (m.byte (4 * w.toNat + 1)) (m.byte (4 * w.toNat + 2)) (m.byte (4 * w.toNat + 3))

/-- Whether a byte's nine bits fail to match the sense (R187). -/
def Memory.badByte (m : Memory) (p : Sense) (a : Nat) : Bool :=
  m.bit a != parityBit p (m.byte a)

/-- Whether any of a word's four bytes fails the check (R187). -/
def Memory.badWord (m : Memory) (p : Sense) (w : WordAddr) : Bool :=
  m.badByte p (4 * w.toNat) || m.badByte p (4 * w.toNat + 1) || m.badByte p (4 * w.toNat + 2)
    || m.badByte p (4 * w.toNat + 3)

/-- Byte k of a word written with generated parity if it is enabled, and otherwise left as memory held it, parity bit
included (R182). -/
def Memory.writeEnabled (m : Memory) (w : WordAddr) (be : BitVec 4) (x : Word) (p : Sense) (k : Nat) : Memory :=
  if be.getLsbD k then m.writeByte (4 * w.toNat + k) (byteOf x k) (parityBit p (byteOf x k)) else m

/-- A full-word or partial write of a word (R182). -/
def Memory.writeWord (m : Memory) (w : WordAddr) (be : BitVec 4) (x : Word) (p : Sense) : Memory :=
  (((m.writeEnabled w be x p 0).writeEnabled w be x p 1).writeEnabled w be x p 2).writeEnabled w be x p 3

/-- The canonical form of the lighting memory. -/
def Memory.wf (m : Memory) : Bool :=
  Sparse.wf 0 m.data && Sparse.wf true m.par

/-! ### Addresses -/

/-- The word address of the word that contains a byte address (R167, R182). -/
def wordAt (a : Nat) : WordAddr :=
  BitVec.ofNat 21 (a / 4)

/-- The byte address of a word in the plain window, four times its word address (R189). -/
def byteAddr (w : WordAddr) : Addr :=
  BitVec.ofNat 24 (4 * w.toNat)

/-- All four byte enables set (00_scope.md, Conventions). -/
def fullWord : BitVec 4 := 15

/-- A word of the control page, 0x000000 to 0x0000FF (R186). -/
def controlPage (w : WordAddr) : Bool :=
  decide (w.toNat < 64)

/-! ### Requests of the memory port -/

def placeSpc : Place := 0
def placeRe : Place := 1
def placeCt : Place := 2
def placeAq : Place := 3
def placeRp : Place := 4
def placeRu : Place := 5

/-- The places in their fixed order (R184). -/
def places : List Place := [0, 1, 2, 3, 4, 5]

namespace State

/-- A block asks the MP for a transfer in its place (R184); a new request has been passed over by no grant (R185). -/
def ask (s : State) (p : Place) (r : Request) : State :=
  s.setMp { s.mp with requests := tset s.mp.requests p (some r), passed := tset s.mp.passed p 0 }

/-- A requester withdraws a request that has not been granted; the place's passed-over count becomes 0 (R184). -/
def withdraw (s : State) (p : Place) : State :=
  s.setMp { s.mp with requests := tset s.mp.requests p none, passed := tset s.mp.passed p 0 }

/-- The requester will discard what the transfer in flight delivers, if the transfer is one of those named (R184). -/
def discardInFlight (s : State) (mine : Owner → Bool) : State :=
  match s.mp.inFlight with
  | some f => if mine f.req.owner then s.setMp { s.mp with inFlight := some { f with discard := true } } else s
  | none => s

/-- Ask for the read of a word. -/
def askRead (s : State) (p : Place) (o : Owner) (w : WordAddr) : State :=
  s.ask p { owner := o, op := .read, word := w }

/-- Ask for the full-word write of a word. -/
def askWrite (s : State) (p : Place) (o : Owner) (w : WordAddr) (x : Word) : State :=
  s.ask p { owner := o, op := .write fullWord x, word := w }

end State

end Sys2Proof.Machine
end

