-- ==== Sys2Proof/Machine/Flags.lean ====
section
/-!
DEFINITION. The Report Unit's flags: attention causes and the attention line (R211), counters with their overflow flags
(R209), the fault record copy (R208), and the marks that make a record due (R206, R207).
-/
namespace Sys2Proof.Machine

/-- Position of a cause in every cause mask (R222). -/
def Cause.bit : Cause → Nat
  | .fault => 0
  | .journalLow => 1
  | .reelEnded => 2
  | .markLost => 3
  | .counterOverflow => 4
  | .standbyCancelled => 5
  | .restartRefused => 6

/-- The mask that holds one cause (R222). -/
def Cause.mask (c : Cause) : BitVec 7 :=
  1#7 <<< c.bit

/-- Position of a counter in the counter block (R222). -/
def CounterKind.index : CounterKind → Fin 8
  | .translate => 0
  | .refuse => 1
  | .hold => 2
  | .overflow => 3
  | .slip => 4
  | .derate => 5
  | .parity => 6
  | .loss => 7

/-- Codes of the fault kinds (R222). -/
def FaultKind.code : FaultKind → Nat
  | .addressRefused => 1
  | .protectedWrite => 2
  | .partialCanvas => 3
  | .holdExpired => 4
  | .zoneAbsent => 5
  | .segmentBeyond => 6
  | .segmentAbsent => 7
  | .segmentBad => 8
  | .pixelBeyond => 9
  | .profileVoid => 10
  | .walkParity => 11
  | .readParity => 12
  | .journalOverflow => 13
  | .reelTruncated => 14
  | .reelAborted => 15
  | .reelUpdateBad => 16
  | .startFailed => 17

/-- Codes of the fault origins (R222). -/
def FaultOrigin.code : FaultOrigin → Nat
  | .drawnWrite => 0
  | .canvasRead => 1
  | .reelUpdate => 2
  | .busTransfer => 3
  | .start => 5

/-- Whether a cause is set. -/
def Ru.isSet (u : Ru) (c : Cause) : Bool :=
  u.causes.getLsbD c.bit

/-- A block raises a cause (R211). Only an event that sets it from clear is a raise, which asks for a snapshot (R206). -/
def Ru.raise (u : Ru) (c : Cause) : Ru :=
  if u.isSet c then u else { u with causes := u.causes ||| c.mask, dueStatus := true }

/-- One count event (R209): below 65,535 the counter rises; at 65,535 it stays and its overflow flag is set, which raises
COUNTER_OVERFLOW if the flag was clear. -/
def Ru.count (u : Ru) (k : CounterKind) : Ru :=
  let c := tget u.counters k.index
  if c.count ≠ 65535 then
    { u with counters := tset u.counters k.index { c with count := c.count + 1 } }
  else if c.flag then u
  else { u with counters := tset u.counters k.index { c with flag := true } }.raise .counterOverflow

/-- A fault reaches the RU (R208): it fills an empty copy with more-count 0, or raises the more-count, saturating at 255; it
raises FAULT and makes the fault record due. -/
def Ru.report (u : Ru) (k : FaultKind) (o : FaultOrigin) (a : Addr) : Ru :=
  let copy : FaultCopy :=
    match u.fault with
    | none => { kind := k, origin := o, addr := a, more := 0 }
    | some f => { f with more := if f.more = 255 then 255 else f.more + 1 }
  { u with fault := some copy, dueFault := true }.raise .fault

namespace State

/-- A block raises an attention cause (R211). -/
def raise (s : State) (c : Cause) : State := s.setRu (s.ru.raise c)

/-- A block sends a count event (R209). -/
def count (s : State) (k : CounterKind) : State := s.setRu (s.ru.count k)

/-- A block sends a fault (R208). -/
def report (s : State) (k : FaultKind) (o : FaultOrigin) (a : Addr) : State := s.setRu (s.ru.report k o a)

/-- A snapshot is asked for: the status record becomes due (R206). -/
def snapshot (s : State) : State := s.setRu { s.ru with dueStatus := true }

/-- The attention line (R211): released while reset is asserted, asserted in PASSIVE, and otherwise asserted while any cause
is set whose enable is set. -/
def attention (s : State) : Bool :=
  match s.spc.part with
  | .bypass => false
  | .passive => true
  | .starting _ | .running | .standby => decide (s.ru.causes &&& s.ru.mask ≠ 0)

end State

end Sys2Proof.Machine
end

