-- ==== Sys2Proof/Machine/Operands.lean ====
section
/-!
DEFINITION. The operand forms: host transfers and control words (R167, R176, R216), canvas addresses (R122), pixel and frame
slot words (R220), and the records the part reads: the root record (R214, R215), directory and segment entries (R217),
profile records (R218) and reel frame headers (R220).
-/
namespace Sys2Proof.Machine

/-! ### Host transfers -/

/-- The windows of the host address map (00_scope.md). -/
inductive Region where | plain | canvas | unassigned
deriving DecidableEq, Repr

/-- The window a host address lies in (00_scope.md, Host address map). -/
def regionOf (a : Addr) : Region :=
  if a.toNat < 0x800000 then .plain else if a.toNat < 0xB00000 then .canvas else .unassigned

/-- The window a transfer addresses. -/
def region (t : HostTransfer) : Region := regionOf t.addr

/-- The word a transfer addresses: the two lowest address bits choose no word (R167). -/
def wordOfTransfer (t : HostTransfer) : WordAddr := wordAt t.addr.toNat

/-- A transfer is full-word when all four byte enables are set (R167). -/
def isFull (t : HostTransfer) : Bool := t.be == fullWord

def isPlainWrite (t : HostTransfer) : Bool := t.write && region t == .plain
def isPlainRead (t : HostTransfer) : Bool := !t.write && region t == .plain
def isCanvasWrite (t : HostTransfer) : Bool := t.write && region t == .canvas
def isCanvasRead (t : HostTransfer) : Bool := !t.write && region t == .canvas

/-- The eight control words the part acts on (R176); the start result word is plain memory to the host's write. -/
inductive ControlWord where | seal | report | acknowledge | standby | profileReload | reelStop | restart | play
deriving DecidableEq, Repr

/-- The control word at a word address (R176, R216). -/
def controlAt (w : WordAddr) : Option ControlWord :=
  if w = wordAt 0x80 then some .seal
  else if w = wordAt 0x84 then some .report
  else if w = wordAt 0x88 then some .acknowledge
  else if w = wordAt 0x8C then some .standby
  else if w = wordAt 0x90 then some .profileReload
  else if w = wordAt 0x94 then some .reelStop
  else if w = wordAt 0x98 then some .restart
  else if w = wordAt 0xA0 then some .play
  else none

/-- The word address of the start result word (R176). -/
def startResultWord : WordAddr := wordAt 0x9C

/-- The control word a plain write is acted on as: a full-word write only (R176). -/
def controlOf (t : HostTransfer) : Option ControlWord :=
  if t.write && region t == .plain && isFull t then controlAt (wordOfTransfer t) else none

/-- The seal word's tag (R216). -/
def sealTag (x : Word) : BitVec 16 := x.setWidth 16

/-- The seal word's takeover flag (R216). -/
def sealTakeover (x : Word) : Bool := flagBit x 31

/-! ### Canvas addresses (R122) -/

/-- The view of a canvas address. -/
def viewOf (a : Addr) : View :=
  if a.toNat < 0x900000 then .replace else if a.toNat < 0xA00000 then .level else .add

/-- The offset of a canvas address within its view. -/
def canvasOffset (a : Addr) : Nat := a.toNat % 0x100000

def zoneOf (a : Addr) : Nat := canvasOffset a / 16384
def segmentOf (a : Addr) : Nat := canvasOffset a / 256 % 64
def pixelOf (a : Addr) : Nat := canvasOffset a / 4 % 64

/-! ### Pixel words and frame slot words (R220) -/

def Pixel.ofWord (x : Word) : Pixel :=
  { red := byteOf x 0, green := byteOf x 1, blue := byteOf x 2, level := byteOf x 3 }

def Pixel.toWord (p : Pixel) : Word := wordOfBytes p.red p.green p.blue p.level

def Stored.ofWord (x : Word) : Stored :=
  { c1 := byteOf x 0, c2 := byteOf x 1, c3 := byteOf x 2, level := byteOf x 3 }

def Stored.toWord (v : Stored) : Word := wordOfBytes v.c1 v.c2 v.c3 v.level

/-- The zero pixel (R220). -/
def Stored.zero : Stored := { c1 := 0, c2 := 0, c3 := 0, level := 0 }

/-! ### The root record (R214, R215) -/

/-- The fields of a root record. -/
structure Root where
  marker : Nat
  even : Bool
  check : Bool
  slotCount : Nat
  bufA : Nat
  bufB : Nat
  status : Nat
  dirBase : Nat
  profileBase : Nat
  bounds : Vector Nat 7
  limits : Vector Nat 8
  lossWindow : Nat
  pacing : Nat
  holdLimit : Nat
  almostFull : Nat
  interval : Nat
  mask : BitVec 7
  reels : Vector DirEntry 4
deriving DecidableEq, Repr

/-- A base address field: bits 23-0 with the two lowest disregarded (R215). -/
def baseField (x : Word) : Nat := bits x 23 0 / 4 * 4

/-- A field of which 0 is taken as 1 (R215). -/
def oneIfZero (n : Nat) : Nat := if n = 0 then 1 else n

/-- A reel directory entry (R92, R215): a frame count above 1,024 is read as 1,024, and enablement is decided here, once. -/
def reelEntry (first second : Word) : DirEntry :=
  let start := bits first 23 0
  let frames := min 1024 (bits second 10 0)
  { start := start, frames := frames, loops := bits second 19 16,
    enabled := flagBit second 31 && decide (1 ≤ frames) && decide (start % 4 = 0) && decide (start ≤ 0x7FFFFC) }

/-- The fields of the words read from 0x00 to 0x74, in order. -/
def Root.ofWords (ws : List Word) : Root :=
  let w (a : Nat) : Word := ws.getD (a / 4) 0
  { marker := bits (w 0x00) 15 0, even := flagBit (w 0x00) 16, check := flagBit (w 0x00) 17
    slotCount := bits (w 0x04) 12 0
    bufA := baseField (w 0x08), bufB := baseField (w 0x0C), status := baseField (w 0x10)
    dirBase := baseField (w 0x14), profileBase := baseField (w 0x18)
    bounds := #v[bits (w 0x1C) 12 0, bits (w 0x1C) 28 16, bits (w 0x20) 12 0, bits (w 0x20) 28 16, bits (w 0x24) 12 0,
      bits (w 0x24) 28 16, bits (w 0x28) 12 0]
    limits := #v[bits (w 0x2C) 23 0, bits (w 0x30) 23 0, bits (w 0x34) 23 0, bits (w 0x38) 23 0, bits (w 0x3C) 23 0,
      bits (w 0x40) 23 0, bits (w 0x44) 23 0, bits (w 0x48) 23 0]
    lossWindow := oneIfZero (bits (w 0x4C) 7 0), pacing := oneIfZero (bits (w 0x4C) 15 8)
    holdLimit := 10 * oneIfZero (bits (w 0x4C) 23 16), almostFull := bits (w 0x4C) 31 24
    interval := bits (w 0x50) 7 0, mask := (w 0x50).extractLsb' 8 7
    reels := #v[reelEntry (w 0x54) (w 0x58), reelEntry (w 0x5C) (w 0x60), reelEntry (w 0x64) (w 0x68),
      reelEntry (w 0x6C) (w 0x70)] }

/-- A range of byte addresses, first to last. -/
structure Span where
  first : Nat
  last : Nat
deriving DecidableEq, Repr

def Span.has (r : Span) (a : Nat) : Bool := decide (r.first ≤ a) && decide (a ≤ r.last)
def Span.apart (r q : Span) : Bool := decide (r.last < q.first) || decide (q.last < r.first)

/-- The bytes of a frame buffer: its base up to base + 4 × slot count - 1 (R168, R196). -/
def bufSpan (base slotCount : Nat) : Span := { first := base, last := base + 4 * slotCount - 1 }

/-- The bytes of the status area: 128 from its base (R168, R196). -/
def statusSpan (base : Nat) : Span := { first := base, last := base + 127 }

/-- Check 3 of R196 for one area: it lies within 0x000100 to 0x7FFFFF. -/
def Span.placed (r : Span) : Bool := decide (0x100 ≤ r.first) && decide (r.last ≤ 0x7FFFFF)

/-- Check 4 of R196: the boundaries do not decrease, and boundary 7 does not exceed the slot count (R59). -/
def boundsPass (b : Vector Nat 7) (slotCount : Nat) : Bool :=
  decide (tget b 0 ≤ tget b 1) && decide (tget b 1 ≤ tget b 2) && decide (tget b 2 ≤ tget b 3)
    && decide (tget b 3 ≤ tget b 4) && decide (tget b 4 ≤ tget b 5) && decide (tget b 5 ≤ tget b 6)
    && decide (tget b 6 ≤ slotCount)

/-- The checks of R196, in order: the code of the first that fails, or none. -/
def Root.failure (r : Root) : Option Nat :=
  let a := bufSpan r.bufA r.slotCount
  let b := bufSpan r.bufB r.slotCount
  let t := statusSpan r.status
  if r.marker ≠ 0x1C5A then some 1
  else if ¬(64 ≤ r.slotCount ∧ r.slotCount ≤ 4096 ∧ r.slotCount % 64 = 0) then some 2
  else if ¬(a.placed ∧ b.placed ∧ t.placed ∧ a.apart b ∧ a.apart t ∧ b.apart t) then some 3
  else if ¬boundsPass r.bounds r.slotCount then some 4
  else none

/-! ### Directory and segment entries (R217) -/

def dirPresent (first : Word) : Bool := flagBit first 0
def dirTouched (first : Word) : Bool := flagBit first 1
def dirCount (first : Word) : Nat := bits first 14 8

/-- The segment table base: bits 31-24 and the two lowest disregarded (R219). -/
def segTableBase (second : Word) : Nat := baseField second

/-- The fields of a segment entry. -/
def SegFields.ofWords (first second : Word) : SegFields :=
  { present := flagBit first 0, touched := flagBit first 1, changed := flagBit first 2, reverse := flagBit first 3,
    ring := flagBit first 4, profile := ⟨bits first 11 8 % 16, Nat.mod_lt _ (by decide)⟩,
    slotBase := bits second 11 0, length := bits second 22 16 }

/-- The flag word with touched set, and with changed set where asked; every other bit as read (R126). -/
def markWord (first : Word) (changed : Bool) : Word :=
  if changed then first ||| 6#32 else first ||| 2#32

/-- The flag word of a hit write-back (R138, R219): formed from the cached copy with touched and changed set, and the bits
that belong to no field written as 0. -/
def SegFields.writeBackWord (f : SegFields) : Word :=
  BitVec.ofNat 32 (f.present.toNat + 2 + 4 + 8 * f.reverse.toNat + 16 * f.ring.toNat + 256 * f.profile.val)

/-! ### Profile records (R218) -/

/-- The fields of a profile record. -/
def Profile.ofWords (first second : Word) : Profile :=
  { order := first.setWidth 3, mode := first.extractLsb' 4 2, cap := byteOf first 1, subLevel := byteOf first 2,
    red := byteOf second 0, green := byteOf second 1, blue := byteOf second 2 }

/-! ### Reel frame headers (R220, R221) -/

/-- The header word read at an address: update count, and hold with 0 read as 1 (R93). -/
def Header.ofWord (x : Word) (a : Nat) : Header :=
  { count := bits x 7 0, hold := oneIfZero (bits x 15 8), addr := a }

/-! ### Words the part writes -/

/-- A word from its fields, each a value and the position of its lowest bit. -/
def pack (fields : List (Nat × Nat)) : Word :=
  BitVec.ofNat 32 ((fields.map (fun f => f.1 * 2 ^ f.2)).sum)

end Sys2Proof.Machine
end

