-- ==== Sys2Proof/Machine/Table.lean ====
section
/-!
DEFINITION. Questions about the journal and the batch table: entries in use and free (R2), the slots by origin and state (R5,
R6), eligibility (R35), the starvation check (R25), and the lookups of R15, R16 and R22.
-/
namespace Sys2Proof.Machine

/-- The batch slots in ascending order. -/
def slotList : List (Fin 8) := [0, 1, 2, 3, 4, 5, 6, 7]

def Batch.isDrawn (b : Batch) : Bool :=
  match b.origin with
  | .drawn => true
  | .reel _ _ _ => false

def Batch.isReel (b : Batch) : Bool := !b.isDrawn

/-- A reel batch whose play is CURRENT (R8). -/
def Batch.isCurrentPlay (b : Batch) : Bool :=
  match b.origin with
  | .drawn => false
  | .reel _ _ earlier => !earlier

def Batch.isOpen (b : Batch) : Bool := b.phase == .opened
def Batch.isSealed (b : Batch) : Bool := b.phase == .sealed

/-- A batch in MEASURE, FIRST_PASS, ARMED or SECOND_PASS (R25). -/
def Batch.inRelease (b : Batch) : Bool :=
  b.phase == .measure || b.phase == .firstPass || b.phase == .armed || b.phase == .secondPass

/-- The record of a slot, absent when FREE. -/
def Jc.at (j : Jc) (i : Fin 8) : Option Batch := tget j.slots i

/-- Whether the slot holds a batch with the property. -/
def Jc.slotHas (j : Jc) (p : Batch → Bool) (i : Fin 8) : Bool :=
  match j.at i with
  | some b => p b
  | none => false

/-- The lowest-numbered slot whose batch has the property. -/
def Jc.find (j : Jc) (p : Batch → Bool) : Option (Fin 8) := slotList.find? (j.slotHas p)

/-- How many batches have the property. -/
def Jc.countOf (j : Jc) (p : Batch → Bool) : Nat := (slotList.filter (j.slotHas p)).length

/-- Whether any batch has the property. -/
def Jc.any (j : Jc) (p : Batch → Bool) : Bool := slotList.any (j.slotHas p)

def Jc.openDrawn (j : Jc) : Option (Fin 8) := j.find (fun b => b.isDrawn && b.isOpen)
def Jc.openReel (j : Jc) : Option (Fin 8) := j.find (fun b => b.isReel && b.isOpen)
def Jc.drawnCount (j : Jc) : Nat := j.countOf Batch.isDrawn
def Jc.reelCount (j : Jc) : Nat := j.countOf Batch.isReel

/-- The slots not FREE (R6, R32). -/
def Jc.slotsInUse (j : Jc) : Nat := j.countOf (fun _ => true)

/-- The lowest-numbered FREE slot (R6). -/
def Jc.lowestFree (j : Jc) : Option (Fin 8) := slotList.find? (fun i => (j.at i).isNone)

/-- The number of entries a slot's batch holds. -/
def Jc.entryCount (j : Jc) (i : Fin 8) : Nat :=
  match j.at i with
  | some b => b.entries.length
  | none => 0

/-- The journal entries in use (R2, R32). -/
def Jc.inUse (j : Jc) : Nat := (slotList.map j.entryCount).sum

/-- The free entries of the journal (R2). -/
def Jc.free (j : Jc) : Nat := 512 - j.inUse

/-- The entry count of the OPEN drawn batch, or 0 (R32). -/
def Jc.openDrawnCount (j : Jc) : Nat :=
  match j.openDrawn with
  | some i => j.entryCount i
  | none => 0

/-- The table with one slot replaced. -/
def Jc.put (j : Jc) (i : Fin 8) (b : Option Batch) : Jc := { j with slots := tset j.slots i b }

/-- The table with one batch changed; a FREE slot stays FREE. -/
def Jc.modify (j : Jc) (i : Fin 8) (f : Batch → Batch) : Jc :=
  match j.at i with
  | some b => j.put i (some (f b))
  | none => j

/-- The table with every batch changed. -/
def Jc.mapBatches (j : Jc) (f : Batch → Batch) : Jc := { j with slots := tmap (Option.map f) j.slots }

/-- The batch of the RE that a batch record of this origin would be eligible as (R35): a SEALED reel batch in every RP state,
a SEALED drawn batch while the RP is IDLE. -/
def eligible (rp : Player) (b : Batch) : Bool :=
  b.isSealed && (b.isReel || rp == .idle)

/-- Whether an eligible batch exists (R36, R45). -/
def State.eligibleExists (s : State) : Bool := s.jc.any (eligible s.rp.state)

/-- The starvation check (R25): some batch is SEALED and eligible, or in MEASURE, FIRST_PASS, ARMED or SECOND_PASS. -/
def State.canFree (s : State) : Bool := s.jc.any (fun b => eligible s.rp.state b || b.inRelease)

/-- A batch's seal order as a number; a batch not yet sealed has none. -/
def Batch.order (b : Batch) : Nat := b.sealOrder.getD 0

/-- Of two slots, the one whose batch has the smaller seal order. -/
def Jc.older (j : Jc) (best : Option (Fin 8)) (i : Fin 8) : Option (Fin 8) :=
  match best, j.at i with
  | none, _ => some i
  | some k, some b =>
    match j.at k with
    | some c => if b.order < c.order then some i else some k
    | none => some i
  | some k, none => some k

/-- Of two slots, the one whose batch has the greater seal order. -/
def Jc.younger (j : Jc) (best : Option (Fin 8)) (i : Fin 8) : Option (Fin 8) :=
  match best, j.at i with
  | none, _ => some i
  | some k, some b =>
    match j.at k with
    | some c => if c.order < b.order then some i else some k
    | none => some i
  | some k, none => some k

/-- Among the batches with the property, the slot with the smallest seal order (R36). -/
def Jc.oldest (j : Jc) (p : Batch → Bool) : Option (Fin 8) :=
  (slotList.filter (j.slotHas p)).foldl j.older none

/-- Among the batches with the property, the slot with the greatest seal order (R15). -/
def Jc.youngest (j : Jc) (p : Batch → Bool) : Option (Fin 8) :=
  (slotList.filter (j.slotHas p)).foldl j.younger none

/-! ### Lookups -/

/-- The entry of a batch for a frame slot; a batch holds at most one (R3). -/
def Batch.entryFor (b : Batch) (f : Nat) : Option Entry := b.entries.find? (fun e => e.frameSlot == f)

/-- What an entry answers a lookup with: its shown value if present, and its value otherwise (R15). -/
def Entry.answer (e : Entry) : Option Stored := e.shown.or e.value

/-- What a batch answers for a frame slot. -/
def Batch.valueFor (b : Batch) (f : Nat) : Option Stored := (b.entryFor f).bind Entry.answer

/-- What the batch of a slot answers for a frame slot. -/
def Jc.valueAt (j : Jc) (f : Nat) (i : Fin 8) : Option Stored := (j.at i).bind (fun b => b.valueFor f)

/-- The youngest batch with the property that holds a value for the frame slot (R15, R16). -/
def Jc.youngestValue (j : Jc) (f : Nat) (p : Batch → Bool) : Option Stored :=
  (j.youngest (fun b => p b && (b.valueFor f).isSome)).bind (j.valueAt f)

/-- Steps 1 and 2 of R15 and of R22: the OPEN drawn batch, then the youngest drawn batch past OPEN. -/
def Jc.drawnLookup (j : Jc) (f : Nat) : Option Stored :=
  (j.openDrawn.bind (j.valueAt f)).or (j.youngestValue f (fun b => b.isDrawn && !b.isOpen))

/-- Steps 1 and 2 of R16: the OPEN reel batch, then the youngest reel batch past OPEN with play CURRENT. -/
def Jc.reelLookup (j : Jc) (f : Nat) : Option Stored :=
  (j.openReel.bind (j.valueAt f)).or (j.youngestValue f (fun b => b.isCurrentPlay && !b.isOpen))

/-- Whether the RE serves a reel batch (R113): a reel batch in MEASURE, FIRST_PASS, ARMED or SECOND_PASS. -/
def Jc.reelInRelease (j : Jc) : Bool := j.any (fun b => b.isReel && b.inRelease)

/-! ### Frame buffers -/

/-- The base of a frame buffer (R33). -/
def Re.baseOf (r : Re) : Buf → Nat
  | .a => r.bufA
  | .b => r.bufB

def Buf.other : Buf → Buf
  | .a => .b
  | .b => .a

/-- The word of a frame slot in a buffer (R40). -/
def Re.slotWord (r : Re) (x : Buf) (f : Nat) : WordAddr := wordAt (r.baseOf x + 4 * f)

/-- The hidden buffer is the one the select line does not name (R40, R48). -/
def Re.hidden (r : Re) : Buf := r.select.other

end Sys2Proof.Machine
end

