-- ==== Sys2Proof/Machine/Report.lean ====
section
/-!
DEFINITION. The records of the status area (R206, R207, R208, R210, R222, R223): their words as captured, and how the Report
Unit begins the next due record.
-/
namespace Sys2Proof.Machine

/-- Code of the part state (R222); 0 stands for BYPASS and is never written (R206). -/
def Part.code : Part → Nat
  | .bypass => 0
  | .starting _ => 1
  | .running => 2
  | .passive => 3
  | .standby => 4

/-- Code of the engine state (R222). -/
def Engine.code : Engine → Nat
  | .idle => 0
  | .blanking => 1
  | .measure => 2
  | .firstPass => 3
  | .armed => 4
  | .secondPass => 5

/-- Code of the player state (R222). -/
def Player.code : Player → Nat
  | .idle => 0
  | .loading => 1
  | .waiting => 2
  | .ending => 3
  | .stopping => 4

/-- Word 0x04 of the status record. -/
def State.statusWord1 (s : State) : Word :=
  pack [(s.spc.part.code, 0), (s.re.state.code, 4), ((s.re.select == .b).toNat, 8), ((s.mm.state == .lost).toNat, 9),
    (s.rp.state.code, 12)]

/-- Words 0x08 and 0x0C of the status record: last flipped. -/
def Re.flipWords (r : Re) : Word × Word :=
  match r.lastFlipped with
  | none => (0, 0)
  | some f =>
    match f.origin with
    | .drawn tag takeover => (pack [(f.release.toNat, 0), (1, 8), (takeover.toNat, 12)], pack [(tag.toNat, 0)])
    | .reel n i => (pack [(f.release.toNat, 0), (2, 8)], pack [(i, 0), (n.val, 16)])

/-- Word 0x10 of the status record: the three figures of R32. -/
def Jc.statusWord (j : Jc) : Word :=
  pack [(j.inUse, 0), (j.openDrawnCount, 16), (j.slotsInUse, 28)]

/-- Word 0x14 of the status record: reel, play count and frame index. -/
def Rp.reelWord (r : Rp) : Word :=
  pack [((r.reel.getD 0).val, 0), (r.reel.isSome.toNat, 2), (r.plays.toNat, 8), (r.frame, 16)]

/-- Word 0x18 of the status record: pending cue and last ignored cue. -/
def Rp.cueWord (r : Rp) : Word :=
  let cue := pack [((r.pendingCue.getD 0).val, 0), (r.pendingCue.isSome.toNat, 2)]
  match r.lastIgnored with
  | none => cue
  | some g => cue ||| pack [(1, 8), ((g.source == .playWord).toNat, 9), (g.reel.isNone.toNat, 10), ((g.reel.getD 0).val, 12)]

/-- The twelve words of the status record as captured now, under the snapshot number given (R206, R222, R223). -/
def State.statusWords (s : State) (number : BitVec 16) : List Word :=
  [number.setWidth 32, s.statusWord1, s.re.flipWords.1, s.re.flipWords.2, s.jc.statusWord, s.rp.reelWord, s.rp.cueWord,
    s.ru.causes.setWidth 32, 0, 0, 0, number.setWidth 32]

/-- The four words of the fault record; an empty copy is four words of 0 (R222, R223). -/
def Ru.faultWords (u : Ru) : List Word :=
  match u.fault with
  | none => [0, 0, 0, 0]
  | some f => [pack [(f.kind.code, 0), (f.origin.code, 8)], f.addr.setWidth 32, f.more.setWidth 32, 0]

/-- The sixteen words of the counter block under the capture number given (R210, R222, R223). -/
def Ru.counterWords (u : Ru) (number : BitVec 16) (kind : CaptureKind) : List Word :=
  [number.setWidth 32,
    pack ((((kind == .automatic).toNat, 0)) :: (List.finRange 8).map (fun i => ((tget u.counters i).flag.toNat, 8 + i.val)))]
  ++ (List.finRange 8).map (fun i => (tget u.counters i).count.setWidth 32)
  ++ [0, 0, 0, 0, 0, number.setWidth 32]

/-- Byte offset of a record in the status area (R222). -/
def Record.offset : Record → Nat
  | .status => 0x00
  | .fault => 0x30
  | .counters => 0x40

/-- The address of a word of a record (R207, R222). -/
def RuWrite.wordAddr (w : RuWrite) (k : Nat) : WordAddr := wordAt (w.base + w.record.offset + 4 * k)

namespace State

/-- The RU asks for the write of the next word of the record in progress, in the sixth place (R207). -/
def askRecordWord (s : State) (w : RuWrite) : State :=
  s.askWrite placeRu .status (w.wordAddr w.written) (w.words.getD w.written 0)

/-- A record is begun: its content is captured and its first word asked (R207). -/
def beginRecord (s : State) (r : Record) (words : List Word) (base : Nat) : State :=
  let w : RuWrite := { record := r, words := words, base := base, written := 0 }
  (s.setRu { s.ru with writing := some w }).askRecordWord w

/-- The fault record is captured as the copy stands (R208). -/
def beginFault (s : State) (base : Nat) : State :=
  (s.setRu { s.ru with dueFault := false }).beginRecord .fault s.ru.faultWords base

/-- The status record is captured; the snapshot number rises by one, wrapping (R206). -/
def beginStatus (s : State) (base : Nat) : State :=
  let n := s.ru.snapshotNo + 1
  (s.setRu { s.ru with dueStatus := false, snapshotNo := n }).beginRecord .status (s.statusWords n) base

/-- The counters are captured, then cleared with their flags; the capture number rises by one and the mark count becomes 0
(R210). -/
def beginCounters (s : State) (kind : CaptureKind) (base : Nat) : State :=
  let n := s.ru.captureNo + 1
  (s.setRu { s.ru with dueCounters := none, captureNo := n, markCount := 0
                       counters := Vector.replicate 8 { count := 0, flag := false } }).beginRecord .counters
    (s.ru.counterWords n kind) base

/-- When no write is in progress and a record is due, the RU begins the first due record in the order fault record, status
record, counter block; without a status area base it writes nothing (R205, R207). -/
def beginDueRecord (s : State) : State :=
  match s.ru.writing, s.ru.base with
  | none, some base =>
    if s.ru.dueFault then s.beginFault base
    else if s.ru.dueStatus then s.beginStatus base
    else match s.ru.dueCounters with
      | some kind => s.beginCounters kind base
      | none => s
  | _, _ => s

end State

end Sys2Proof.Machine
end

