-- ==== Sys2Proof/Machine/Port.lean ====
section
/-!
DEFINITION. The Memory Port at work (R182, R185 to R188, R190), the UP's answers (R167), and how the head leaves the arrival
queue (R171, R172, R178). Every completion row goes through `State.onCompletion`.
-/
namespace Sys2Proof.Machine

/-! ### The arbiter (R185) -/

/-- Whether a place holds a request. -/
def Mp.holds (m : Mp) (p : Place) : Bool := (tget m.requests p).isSome

/-- The places that hold a request, in the fixed order. -/
def Mp.held (m : Mp) : List Place := places.filter m.holds

/-- The place granted among those that take part: the first in the fixed order with a passed-over count of 8, otherwise the
first. -/
def Mp.choice (m : Mp) (part : List Place) : Option Place :=
  (part.find? (fun p => tget m.passed p == 8)).or part.head?

/-- A place's passed-over count after a grant to `p`: 0 for the granted place, one more, up to 8, for each other place that takes
part; one that holds a request taken after the grant keeps its count, and a place with no request has 0. -/
def Mp.passedAfter (m : Mp) (part : List Place) (p q : Place) : Nat :=
  if q = p then 0 else if q ∈ part then min 8 (tget m.passed q + 1) else if m.holds q then tget m.passed q else 0

/-- Two or more requests have been made at the same moment to a free port with none waiting: no completion's grant is due, and no
transfer is in flight (R185; log entry 40). -/
def Mp.orderOpen (m : Mp) : Bool := !m.completing && decide (2 ≤ m.held.length)

/-- The places that take part in the grant now due, the `n`-th free value of log entry 40 at hand: all that hold a request, or, of
requests made at the same moment to a free port, the one taken first (R185). -/
def Mp.taking (m : Mp) (n : Nat) : List Place :=
  if m.orderOpen then
    if m.holds (Config.takenFirst n) then [Config.takenFirst n] else m.held.take 1
  else m.held

/-- The parity sense of a transfer of a word: odd for the control page, otherwise the sense in force (R186). -/
def Mp.senseFor (m : Mp) (w : WordAddr) : Sense := if controlPage w then .odd else m.sense

/-- The port after the grant of request `r` in place `p`. What still waits is chosen at the next completion (R185). -/
def Mp.grant (m : Mp) (part : List Place) (p : Place) (r : Request) : Mp :=
  { m with requests := tset m.requests p none, passed := Vector.ofFn (m.passedAfter part p)
           completing := false
           inFlight := some (r.onBus (m.senseFor r.word) m.check) }

/-! ### Completion (R182, R187) -/

/-- What a transfer delivers at its completion: the data bytes as read, and whether the check found an error. -/
structure Delivered where
  data : Word
  error : Bool
deriving DecidableEq, Repr

/-- Whether a transfer is a read. -/
def MemOp.isRead : MemOp → Bool
  | .read => true
  | .write _ _ => false

/-- What the transfer in flight delivers, from memory as it stands at the completion (R152, R182; for a profile read see
log entry 35). -/
def State.delivered (s : State) (f : InFlight) : Delivered :=
  { data := s.memory.readWord f.req.word
    error := f.req.op.isRead && f.check && s.memory.badWord f.sense f.req.word }

/-- The lighting memory after a transfer: a write lands with parity generated under the sense of its grant (R182, R186). -/
def Memory.after (m : Memory) (f : InFlight) : Memory :=
  match f.req.op with
  | .read => m
  | .write be x => m.writeWord f.req.word be x f.sense

/-- A transfer of the host: at the head of the queue, handed over in PASSIVE, or on the direct path (R184, R190). -/
def Owner.isHost (o : Owner) : Bool := o == .plainWrite || o == .plainRead || o == .passive || o == .direct

/-- The byte address of a profile's record (R149). -/
def Pu.recordAddr (u : Pu) (p : Fin 16) : Nat := u.base + 8 * p.val

/-- The word whose read a load has asked: the first of the record, and then the second (R152). -/
def Pu.loadWord (u : Pu) (l : Load) : WordAddr := wordAt (u.recordAddr l.profile + if l.first.isSome then 4 else 0)

/-- The PU after a transfer. A write that is not the host's, landing on the word of a profile read that is asked and not yet
performed, is seen by that read (R152), whatever the host has written there before; such writes are full-word. A host write is
left to the free value of log entry 35 (R156). -/
def Pu.after (u : Pu) (f : InFlight) : Pu :=
  match u.load, f.req.op with
  | some l, .write _ x =>
    if f.req.owner.isHost = false ∧ f.req.word = u.loadWord l then { u with load := some { l with asked := x } } else u
  | _, _ => u

/-- The operation of a host transfer on the memory bus. -/
def opOf (t : HostTransfer) : MemOp := if t.write then .write t.be t.data else .read

namespace State

/-- The transfer in flight completes: memory changes, a profile read still asked sees the part's own write to its word (R152), the
port is free, and a detected error is counted once (R187). It is a moment of its own, since one transfer at most is in flight (log
entry 38). -/
def complete (s : State) (f : InFlight) : State :=
  let s1 := ((s.setMemory (s.memory.after f)).setPu (s.pu.after f)).setMp { s.mp with
    inFlight := none, cut := none, completing := true }
  if (s.delivered f).error then s1.count .parity else s1

/-! ### Grants -/

/-- The MP grants the request of a place among those that take part (R185). -/
def grantAt (s : State) (part : List Place) (p : Place) : State :=
  match tget s.mp.requests p with
  | some r => s.setMp (s.mp.grant part p r)
  | none => s

/-- The place that a grant made now among the places `part` would choose (R185): the port is free on the arbitrated path and a
request waits. -/
def grantDue (s : State) (part : List Place) : Option Place :=
  match s.mp.path, s.mp.inFlight with
  | .arbitrated, none => s.mp.choice part
  | _, _ => none

/-- The grant (R185), of the request that the port chooses among those that take part (log entry 40). -/
def grant (s : State) : State :=
  let part := s.mp.taking s.freeCount
  match s.grantDue part with
  | some p => (if s.mp.orderOpen then s.setFreeCount (s.freeCount + 1) else s).grantAt part p
  | none => s

/-- The grant at a completion meets an event of that completion, and either may be taken first (R191). Where the place it would
choose is one of those named, the free value of log entry 39 says whether it is made now, before the event, or left to
MEMORY_GRANT after it. -/
def grantFirst (s : State) (mine : Place → Bool) : State :=
  match s.grantDue s.mp.held with
  | some p =>
    if mine p then
      let s1 := s.setFreeCount (s.freeCount + 1)
      if Config.grantBeforeEvent s.freeCount then s1.grantAt s.mp.held p else s1
    else s
  | none => s

/-! ### Answers to the host -/

/-- The UP answers the transfer that has arrived (R167). -/
def answerHost (s : State) (ready : Bool) (data : Option Word) : State :=
  s.setUp { s.up with waiting := none, answer := some { ready := ready, data := data } }

/-- Error, with zero data for a read (R167). -/
def refuseHost (s : State) (t : HostTransfer) : State :=
  s.answerHost false (if t.write then none else some 0)

/-- The hold timer is stopped. -/
def stopHold (s : State) : State := s.setUp { s.up with holdTimer := none }

/-! ### The arrival queue -/

/-- The head leaves the queue, and a transfer that waits for a place takes the freed one: a write is answered with ready and
its hold timer stopped (R172), a read is queued with its timer running (R173). -/
def headLeaves (s : State) : State :=
  let q := s.aq.queue.tail
  match s.up.waiting with
  | some ⟨t, .forPlace⟩ =>
    let s1 := s.setAq { queue := q ++ [t], taken := false }
    if t.write then (s1.answerHost true none).stopHold
    else s1.setUp { s1.up with waiting := some ⟨t, .queued⟩ }
  | _ => s.setAq { queue := q, taken := false }

/-- The AQ begins the service of its head (R171). -/
def takeHead (s : State) : State := s.setAq { s.aq with taken := true }

/-- The AQ head's place serves a transfer that the UP has handed to the MP in PASSIVE (R179, R184). -/
def portTaken (s : State) : Bool := s.up.waiting.any (fun w => w.place == .atPort)

/-- The head, if the AQ may take it: a transfer stands there, none is in service, its place in the arbiter serves no other
transfer (R184), and the part is RUNNING, or PASSIVE with transfers held from before (R171, R178; log entry 17). -/
def headToTake (s : State) : Option HostTransfer :=
  if s.aq.taken || s.portTaken then none
  else if s.spc.part = .running ∨ s.spc.part = .passive then s.aq.queue.head?
  else none

/-! ### What follows every step -/

/-- A transfer for the direct path is taken as a BYPASS transfer once the memory is free (R180, R190; log entries 7 and 8): a plain
one is put on the memory bus, written with odd parity and read unchecked, and any other is answered with error. -/
def startDirect (s : State) : State :=
  match s.mp.inFlight, s.up.waiting with
  | none, some ⟨t, .direct⟩ =>
    if region t = .plain then
      s.setMp { s.mp with
        inFlight := some (Request.onBus { owner := .direct, op := opOf t, word := wordOfTransfer t } .odd false) }
    else s.refuseHost t
  | _, _ => s

/-- In PASSIVE the held canvas transfers that have come to the head are discarded, a read among them answered with error and
zero data (R178). -/
def dropHeldCanvas (s : State) : State :=
  let held := s.aq.queue.takeWhile (fun t => region t != .plain)
  let s1 := s.setAq { s.aq with queue := s.aq.queue.dropWhile (fun t => region t != .plain) }
  if held.any (fun t => !t.write) then s1.answerHost false (some 0) else s1

/-- In PASSIVE a plain transfer that has arrived is handed to the MP in the AQ head's place, once no held transfer is left
(R179; log entry 17). -/
def handToPort (s : State) : State :=
  match s.aq.queue, s.up.waiting with
  | [], some ⟨t, .forPort⟩ =>
    (s.setUp { s.up with waiting := some ⟨t, .atPort⟩ }).ask placeAq
      { owner := .passive, op := opOf t, word := wordOfTransfer t }
  | _, _ => s

/-- What the AQ and the UP do in PASSIVE between services. -/
def servePassive (s : State) : State :=
  if s.spc.part = .passive ∧ s.aq.taken = false then s.dropHeldCanvas.handToPort else s

/-- Whether a step of the part's own can still follow in the same moment and ask a transfer in answer to a completion: the AQ
takes its head (R175), the CT a request (R146), or the JC serves a waiting one (R28). -/
def followsUp (s : State) : Bool :=
  s.headToTake.isSome
    || (s.ct.current.isNone && (s.ct.offerAq.isSome || s.ct.offerRp.isSome))
    || (!s.jc.waiters.isEmpty && decide (0 < s.jc.free))
    || (s.jc.drawn.any (fun w => w.wait == .slot) && decide (s.jc.drawnCount < 6))
    || (s.jc.reelOpen.isSome && decide (s.jc.reelCount < 2))

/-- What ends every step: the RU begins a due record, whose content is captured as the step leaves the part (R207; log entry 12);
and the moment of a completion is over once no request waits and none is still to be asked in answer to it (log entry 40). -/
def endStep (s : State) : State :=
  let s1 := s.beginDueRecord
  s1.setMp { s1.mp with completing := s1.mp.completing && (!s1.mp.held.isEmpty || s1.followsUp) }

/-- What follows inside every step: a transfer waiting for the direct path, held transfers in PASSIVE, and what
ends it (`State.endStep`). -/
def settle (s : State) : State := s.startDirect.servePassive.endStep

/-- The completion of the transfer in flight, if it is one of those named: memory changes and the requester takes what was
delivered, unless it is to be discarded (R182, R184). Where no such transfer is in flight the command finds nothing to complete
(log entry 1). The grant at this completion is MEMORY_GRANT after it, but where an event of the completion asks whether it comes
first (R191; `State.grantFirst`, log entry 39). -/
def onCompletion (s : State) (mine : Owner → Bool) (k : Delivered → InFlight → State → State) : State :=
  match s.mp.inFlight with
  | some f =>
    if mine f.req.owner then
      (if f.discard then s.complete f else k (s.delivered f) f (s.complete f)).settle
    else s
  | none => s

end State

end Sys2Proof.Machine
end

