-- ==== Sys2Proof/Machine/Power.lean ====
section
/-!
DEFINITION. Start and Power Control while the part runs: quiet (R193), wake (R204), standby and its cancellation (R202, R203),
with what the Mark Monitor does at a forced entry to MARKS_LOST (R87 to R90).
-/
namespace Sys2Proof.Machine.State

/-- The part is quiet: the RE is IDLE, the RP is IDLE with no pending cue, and no journal entry is in use (R193). -/
def quiet (s : State) : Bool :=
  s.re.state == .idle && s.rp.state == .idle && s.rp.pendingCue.isNone && s.jc.inUse == 0

/-- The MM is put into MARKS_LOST with good count 0 and the loss-window timer stopped; a change from MARKS_OK asks for a
snapshot, with no LOSS count and no MARK_LOST cause (R87 to R91). -/
def loseMarks (s : State) (watching : Bool) (pace : Option Nat) : State :=
  (if s.mm.state = .ok then s.snapshot else s).setMm
    { s.mm with state := .lost, good := 0, lossTimer := none, paceTimer := pace, watching := watching }

/-- A wake request (R204): the part is RUNNING, and the MM watches in MARKS_LOST with the pace timer started (R90). -/
def wake (s : State) : State :=
  (s.setSpc { s.spc with part := .running }).snapshot.loseMarks true (some s.mm.pacing)

/-- Entry to STANDBY (R203, R89); an AQ that holds a transfer wakes the part at once (R181). -/
def enterStandby (s : State) : State :=
  let s1 := (s.setSpc { s.spc with part := .standby, standbyPending := false }).snapshot.loseMarks false none
  if s1.aq.queue.isEmpty then s1 else s1.wake

/-- The SPC reads the quiet conditions at each return of the RE and each change of the RP to IDLE (R202). -/
def standbyCheck (s : State) : State :=
  if s.spc.standbyPending && s.spc.part == .running && s.quiet then s.enterStandby else s

/-- A drawn write, a seal word or a reported cue cancels a pending standby (R202). -/
def cancelStandby (s : State) : State :=
  if s.spc.standbyPending then (s.setSpc { s.spc with standbyPending := false }).raise .standbyCancelled else s

end Sys2Proof.Machine.State
end

