-- ==== Sys2Proof/Machine/Limiter.lean ====
section
/-!
DEFINITION. The Load Limiter: rail groups (R58), loads and derated values (R63, R64), removed and added sums and the choice of
derate levels (R67 to R70), and the account at the flip and at blanking (R71, R73).
-/
namespace Sys2Proof.Machine

/-- The load of a stored value (R63). -/
def Stored.load (v : Stored) : Nat :=
  (v.c1.toNat + v.c2.toNat + v.c3.toNat) * v.level.toNat / 255

/-- The derated value at level d: the level channel becomes floor(level × (8 − d) / 8) (R64). -/
def Stored.derated (v : Stored) (d : Nat) : Stored :=
  { v with level := BitVec.ofNat 8 (v.level.toNat * (8 - d) / 8) }

/-- The rail group of a frame slot: the number of boundaries at or below it (R58). -/
def Ll.railGroup (l : Ll) (f : Nat) : Fin 8 :=
  ⟨((List.finRange 7).filter (fun i => decide (tget l.bounds i ≤ f))).length,
    lt_of_le_of_lt (List.length_filter_le _ _) (by simp)⟩

/-- The load of an entry's value derated at level d. -/
def Entry.loadAt (e : Entry) (d : Nat) : Nat :=
  match e.value with
  | some v => (v.derated d).load
  | none => 0

/-- The entries of a batch in a rail group. -/
def Batch.inGroup (b : Batch) (g : Fin 8) : List Entry := b.entries.filter (fun e => e.rail == g)

/-- The removed sum of a group: the table's loads at the batch's frame slots in it (R67). -/
def Ll.removedSum (l : Ll) (b : Batch) (g : Fin 8) : Nat :=
  ((b.inGroup g).map (fun e => Sparse.get 0 l.loads e.frameSlot)).sum

/-- The added sum of a group at a derate level (R68). -/
def Batch.addedSum (b : Batch) (g : Fin 8) (d : Nat) : Nat :=
  ((b.inGroup g).map (fun e => e.loadAt d)).sum

/-- The choice's condition: total less removed sum plus added sum at d is at most the limit, with the removed sum moved to the
other side (R69). -/
def Ll.fits (l : Ll) (b : Batch) (g : Fin 8) (d : Nat) : Bool :=
  decide (tget l.totals g + b.addedSum g d ≤ tget l.limits g + l.removedSum b g)

/-- The derate level of a group: the smallest of 0 to 8 that fits, and 0 for a group without an entry (R69). -/
def Ll.chosen (l : Ll) (b : Batch) (g : Fin 8) : Nat :=
  if (b.inGroup g).isEmpty then 0 else ((List.range 9).find? (l.fits b g)).getD 8

/-- What the measure stores in a batch: new loads, derate levels, removed and added sums (R38, R70). -/
def Ll.measured (l : Ll) (b : Batch) : Batch :=
  let d : Vector Nat 8 := Vector.ofFn (l.chosen b)
  { b with entries := b.entries.map (fun e => { e with newLoad := some (e.loadAt (tget d e.rail)) })
           derate := some d
           removed := some (Vector.ofFn (l.removedSum b))
           added := some (Vector.ofFn (fun g => b.addedSum g (tget d g))) }

/-- A group's sum as a batch record holds it; absent before the end of its measure. -/
def sumOf (v : Option (Vector Nat 8)) (g : Fin 8) : Nat :=
  match v with
  | some x => tget x g
  | none => 0

/-- The account after the flip of a batch (R71). -/
def Ll.applied (l : Ll) (b : Batch) : Ll :=
  { l with loads := b.entries.foldl (fun t e => Sparse.set 0 t e.frameSlot (e.newLoad.getD 0)) l.loads
           totals := Vector.ofFn (fun g => tget l.totals g + sumOf b.added g - sumOf b.removed g) }

/-- The account at the start of blanking (R73). -/
def Ll.zeroed (l : Ll) : Ll :=
  { l with loads := [], totals := Vector.replicate 8 0 }

/-- One DERATE count for each rail group given a level above 0 (R70). -/
def State.countDerates (s : State) (b : Batch) : State :=
  ((List.finRange 8).filter (fun g => decide (0 < sumOf b.derate g))).foldl (fun t _ => t.count .derate) s

end Sys2Proof.Machine
end

