-- ==== Sys2Proof/Machine/Engine.lean ====
section
/-!
DEFINITION. The Release Engine up to ARMED: the choice of a batch (R36, R37), the end of the measure (R38), the first pass
(R40, R41), and the writes of the second pass (R49) and of blanking (R53).
-/
namespace Sys2Proof.Machine

/-- The value the first pass writes for an entry: derated at the level chosen for its rail group (R40). -/
def Batch.shownOf (b : Batch) (e : Entry) : Stored :=
  (e.value.getD Stored.zero).derated (sumOf b.derate e.rail)

namespace State

/-- The RE's current batch with its slot. -/
def currentBatch (s : State) : Option (Fin 8 × Batch) :=
  s.re.current.bind (fun i => (s.jc.at i).map (fun b => (i, b)))

/-- The slot's state and the engine's state change together (R34). -/
def setStage (s : State) (i : Fin 8) (p : Phase) (e : Engine) : State :=
  (s.setJc (s.jc.modify i (fun b => { b with phase := p }))).setRe { s.re with state := e }

/-- The RE asks for the first-pass write of the entry at the pass position, into the hidden buffer, or is ARMED when none is
left (R40, R41). -/
def firstPassNext (s : State) : State :=
  match s.currentBatch with
  | some (i, b) =>
    match b.entries[s.re.position]? with
    | some e => s.askWrite placeRe .firstPassWrite (s.re.slotWord s.re.hidden e.frameSlot) (b.shownOf e).toWord
    | none => s.setStage i .armed .armed
  | none => s

/-- The end of the measure (R38, R70): results stored, DERATE counted, and the first pass begun. -/
def endMeasure (s : State) : State :=
  match s.currentBatch with
  | some (i, b) =>
    let m := s.ll.measured b
    let s1 := (s.setJc (s.jc.put i (some { m with phase := .firstPass }))).setRe
      { s.re with state := .firstPass, position := 0 }
    (s1.countDerates m).firstPassNext
  | none => s

/-- The completion of a first-pass write: the entry's shown value is recorded and the pass goes on (R40). -/
def firstPassDone (s : State) : State :=
  match s.currentBatch with
  | some (i, b) =>
    let b1 := { b with entries := b.entries.modify s.re.position (fun e => { e with shown := some (b.shownOf e) }) }
    ((s.setJc (s.jc.put i (some b1))).setRe { s.re with position := s.re.position + 1 }).firstPassNext
  | none => s

/-- The three conditions of R36. -/
def canTake (s : State) : Bool :=
  s.re.state == .idle && s.spc.part == .running && s.eligibleExists

/-- The RE takes the eligible batch with the smallest seal order into MEASURE with the next release number (R36, R37). The
measure of a batch of 0 entries ends at once (R38). -/
def takeBatch (s : State) : State :=
  match s.jc.oldest (eligible s.rp.state) with
  | some i =>
    let n := s.re.lastRelease + 1
    let s1 := (s.setJc (s.jc.modify i (fun b => { b with phase := .measure, release := some n }))).setRe
      { s.re with state := .measure, current := some i, lastRelease := n }
    if s1.jc.entryCount i = 0 then s1.endMeasure else s1
  | none => s

/-- R36 at an event that can make its conditions true. -/
def takeIfEligible (s : State) : State :=
  if s.canTake then s.takeBatch else s

/-- The RE asks for the second-pass write of an entry: its recorded shown value, into the buffer hidden since the flip
(R49). -/
def askSecondPass (s : State) (e : Entry) : State :=
  s.askWrite placeRe .secondPassWrite (s.re.slotWord s.re.hidden e.frameSlot) (e.shown.getD Stored.zero).toWord

/-- The word of blanking write `k`: the slots of buffer A in ascending order, then those of buffer B (R53). -/
def blankWord (s : State) (k : Nat) : WordAddr :=
  if k < s.re.slotCount then s.re.slotWord .a k else s.re.slotWord .b (k - s.re.slotCount)

/-- The RE asks for the blanking write at the blanking position. -/
def askBlanking (s : State) : State :=
  s.askWrite placeRe .blankingWrite (s.blankWord s.re.blankPos) 0

end State

end Sys2Proof.Machine
end

