-- ==== Sys2Proof/Machine/Player.lean ====
section
/-!
DEFINITION. The Reel Player: cues (R98 to R102), the loading of frames (R104 to R109), the end of a reel (R111), and stop and
abort (R113 to R116), with the JC's discard of reel batches (R31) and the recheck of a waiting drawn write (R28).
-/
namespace Sys2Proof.Machine

/-- A reel batch of an earlier play (R8); a drawn batch has no play field. -/
def Batch.toEarlier (b : Batch) : Batch :=
  match b.origin with
  | .drawn => b
  | .reel n f _ => { b with origin := .reel n f true }

/-- The low flag clears when a return to the pool raises the free count above the offset (R29). -/
def Jc.refreshLow (j : Jc) : Jc :=
  { j with lowFlag := j.lowFlag && decide (j.free ≤ j.almostFull) }

/-- A reel batch that a discard takes: OPEN or SEALED (R31). -/
def Batch.discardable (b : Batch) : Bool := b.isReel && (b.isOpen || b.isSealed)

/-- The discard of the OPEN and the SEALED reel batches (R31). -/
def Jc.discardReels (j : Jc) : Jc :=
  { j with slots := tmap (Option.filter (fun b => !b.discardable)) j.slots }.refreshLow

/-- The reads asked in the RP's place: its own, and the JC's base reads for a reel update (R184). -/
def Owner.isReelRead : Owner → Bool
  | .header | .pairRead | .baseReel => true
  | .rootRead | .startResult _ | .profileRead | .blankingWrite | .firstPassWrite | .secondPassWrite | .dirRead | .segRead
  | .walkFlag | .hitFlag | .plainWrite | .plainRead | .baseDrawn | .canvasRead | .passive | .status | .direct => false

/-- A header read is in flight whose result the RP awaits (R104). -/
def Mp.headerFlying (m : Mp) : Bool :=
  match m.inFlight with
  | some f => f.req.owner == .header && !f.discard
  | none => false

/-- A reel batch that the RE has taken and not yet flipped (R43). -/
def Batch.awaitsFlip (b : Batch) : Bool :=
  b.isReel && (b.phase == .measure || b.phase == .firstPass || b.phase == .armed)

/-- A batch becomes SEALED with the next seal order, and the seal counter advances (R7). -/
def Jc.sealBatch (j : Jc) (i : Fin 8) (f : Batch → Batch) : Jc :=
  { j.modify i (fun b => { f b with phase := .sealed, sealOrder := some j.sealCounter }) with
    sealCounter := j.sealCounter + 1 }

namespace State

/-! ### The player state and the start of a play -/

/-- The player enters a state; each change asks for a snapshot (R95). -/
def setPlayer (s : State) (p : Player) : State :=
  if s.rp.state = p then s else (s.setRp { s.rp with state := p }).snapshot

/-- A play begins, and the JC marks every existing reel batch EARLIER (R8). -/
def markEarlier (s : State) : State := s.setJc (s.jc.mapBatches Batch.toEarlier)

/-- The RP asks for the read of the header at the read address (R104). -/
def askHeader (s : State) : State :=
  (s.setRp { s.rp with step := .header }).askRead placeRp .header (wordAt s.rp.readAddr)

/-- The start of a play of reel `n` (R99). -/
def playStart (s : State) (n : Fin 4) : State :=
  ((((s.cancelStandby).setRp
      { s.rp with reel := some n, frame := 0, plays := 0, readAddr := (tget s.rp.directory n).start
                  unflipped := 0, finalFlipped := false }).markEarlier).setPlayer .loading).askHeader

/-- An ignored cue is recorded and has no other effect (R98, R100). -/
def ignoreCue (s : State) (src : CueSource) (n : Option (Fin 4)) : State :=
  s.setRp { s.rp with lastIgnored := some { source := src, reel := n } }

/-- A cue taken in IDLE: it starts the reel if its entry is enabled, and is ignored otherwise (R99, R100). -/
def cueInIdle (s : State) (src : CueSource) (n : Fin 4) : State :=
  if (tget s.rp.directory n).enabled then s.playStart n else s.ignoreCue src (some n)

/-- A cue kept pending is reported to the SPC (R101). -/
def keepCue (s : State) (n : Fin 4) : State :=
  (s.cancelStandby).setRp { s.rp with pendingCue := some n }

/-- A cue for reel `n` while the part is RUNNING (R99 to R101). -/
def takeCue (s : State) (src : CueSource) (n : Fin 4) : State :=
  if s.rp.state = .idle then s.cueInIdle src n
  else if (tget s.rp.directory n).enabled then s.keepCue n
  else s.ignoreCue src (some n)

/-- The pending cue is served as a cue taken in IDLE. A Release Engine that is IDLE takes a batch first, since held drawn
batches have become eligible at the change to IDLE (R111, R115; log entry 9). The record of a pending cue that turns out
disabled names a cue line (log entry 21). -/
def servePending (s : State) : State :=
  match s.rp.pendingCue with
  | none => s
  | some n => ((s.takeIfEligible).setRp { s.rp with pendingCue := none }).cueInIdle .cueLine n

/-- The RP enters IDLE: REEL_ENDED if the reel counts as ended (R111, R116), the SPC's check of a pending standby (R202), and
the pending cue. -/
def rpIdle (s : State) : State :=
  let s1 := s.setPlayer .idle
  let s2 := if s1.rp.endedDue then (s1.setRp { s1.rp with endedDue := false }).raise .reelEnded else s1
  s2.standbyCheck.servePending

/-! ### The drop of a drawn write and the recheck of waiting requests -/

/-- The JC and the PU let go of the drawn write. -/
def releaseDrawn (s : State) : State :=
  (s.setJc { s.jc with drawn := none, waiters := s.jc.waiters.filter (fun r => r != .aq) }).setPu
    { s.pu with heldDrawn := none }

/-- A drawn write whose request fails is dropped (R26). -/
def dropDrawn (s : State) (canvas : Addr) : State :=
  (((s.report .journalOverflow .drawnWrite canvas).count .overflow).releaseDrawn).headLeaves

/-- Whether a waiting entry request is granted by what is free now: the requests that have waited longest take the free
entries (R28; log entry 10). -/
def entryComing (s : State) (r : Requester) : Bool :=
  (s.jc.waiters.take s.jc.free).contains r

/-- A waiting drawn request that the grants leave waiting is put to the check of R25, whose answer is `ok`, and fails with it
(R28). -/
def recheckDrawn (s : State) (ok : Bool) : State :=
  match s.jc.drawn with
  | some w =>
    match w.wait with
    | .slot => if decide (s.jc.drawnCount < 6) || ok then s else s.dropDrawn w.canvas
    | .entry => if s.entryComing .aq || ok then s else s.dropDrawn w.canvas
    | .base => s
  | none => s

/-! ### Stop and abort -/

/-- At a stop or abort the RP and the JC withdraw what they have asked for the reel: the staged write, the waiting requests and
the held write (R18, R165), the memory read (R184), and a request the CT has not taken (log entry 19); what the CT has taken runs
on with its result discarded (R136, R138). -/
def withdrawReel (s : State) : State :=
  let s1 := (s.setJc { s.jc with reel := none, reelOpen := none
                                 waiters := s.jc.waiters.filter (fun r => r != .rp) }).setPu { s.pu with heldReel := none }
  let s2 := (s1.withdraw placeRp).discardInFlight Owner.isReelRead
  s2.setCt { s2.ct with offerRp := none
                        current := s2.ct.current.map (fun q =>
                          if q.kind = .reelUpdate then { q with discard := true } else q) }

/-- The JC discards reel batches and serves the requests that wait (R31, R28). -/
def discardReels (s : State) : State :=
  let s1 := s.setJc s.jc.discardReels
  s1.recheckDrawn s1.canFree

/-- At the RP's request the hold remaining becomes 0, and a reel batch taken and not yet flipped has its hold set to 1
(R43). -/
def clearHold (s : State) : State :=
  (s.setRe { s.re with hold := 0 }).setJc
    (s.jc.mapBatches (fun b => if b.awaitsFlip then { b with hold := 1 } else b))

/-- A delivered mark at this moment would flip a reel batch (R43, R44). -/
def reelFlipDue (s : State) : Bool :=
  s.re.state == .armed && s.re.hold == 0 && s.currentBatch.any (fun x => x.2.isReel)

/-- Where a stop cuts the reel off, if an abort can be the second of the two taken (R117; log entry 38): in LOADING with the
header read in flight, and in WAITING before a header address above the plain window, where a mark at the stop's moment would
flip a reel batch. -/
def stopCut (s : State) : Option Nat :=
  match s.rp.state with
  | .loading => if s.mp.headerFlying then some s.rp.readAddr else none
  | .waiting => if s.reelFlipDue && decide (0x7FFFFC < s.rp.readAddr) then some s.rp.readAddr else none
  | .stopping | .idle | .ending => none

/-- What a stop and an abort do alike (R113, R116). An abort keeps the pending cue and counts the reel as ended. -/
def stopReel (s : State) (aborted : Bool) : State :=
  let s1 := s.withdrawReel.discardReels.clearHold
  let s2 := s1.setRp { s1.rp with pendingCue := if aborted then s1.rp.pendingCue else none
                                  unflipped := 0, finalFlipped := false, header := none, step := .none
                                  endedDue := aborted }
  if s2.jc.reelInRelease then s2.setPlayer .stopping else s2.rpIdle

/-- A reel stop (R113); in IDLE it has no effect. The grant at the completion that brings it may choose the RP's request before
the stop withdraws it (R191; log entry 39). -/
def reelStop (s : State) : State :=
  if s.rp.state = .idle then s
  else ((s.setMp { s.mp with cut := s.stopCut }).grantFirst (fun p => p == placeRp)).stopReel false

/-- A reel abort at the header whose address is the read address (R116). -/
def reelAbort (s : State) : State :=
  ((s.report .reelAborted .reelUpdate (BitVec.ofNat 24 s.rp.readAddr)).setMp { s.mp with cut := none }).stopReel true

/-! ### Frames -/

/-- At the moment of an abort that begins no header read, a Release Engine that can take a batch may take it first: the seal of
the frame before and the abort share their moment (R36, R46, R117; a free value, log entry 43). -/
def takeFirst (s : State) : State :=
  if s.canTake then
    let s1 := s.setFreeCount (s.freeCount + 1)
    if Config.takeBeforeAbort s.freeCount then s1.takeBatch else s1
  else s

/-- The RP begins the next frame's header read if the unflipped count is 0 or 1, and enters WAITING if it is 2 (R104, R108); a
read address above 0x7FFFFC aborts the reel, before or after the RE takes a batch it can take (log entry 43). -/
def beginFrame (s : State) : State :=
  if s.rp.unflipped < 2 then
    let s1 := s.setPlayer .loading
    if s1.rp.readAddr ≤ 0x7FFFFC then s1.askHeader else s1.takeFirst.reelAbort
  else (s.setRp { s.rp with step := .none }).setPlayer .waiting

/-- An abort at the header at `a` taken after a stop at the same moment (R117): REEL_ABORTED is reported, and the reel counts as
ended, with REEL_ENDED at IDLE. -/
def lateAbort (s : State) (a : Nat) : State :=
  let s1 := s.report .reelAborted .reelUpdate (BitVec.ofNat 24 a)
  if s1.rp.state = .stopping then s1.setRp { s1.rp with endedDue := true } else s1.raise .reelEnded

/-- What would have aborted the reel is taken after a stop; whether the two are at the same moment is the free value of log
entry 38 (R117). -/
def meetStop (s : State) : State :=
  match s.mp.cut with
  | some a =>
    let s1 := s.setFreeCount (s.freeCount + 1)
    if Config.abortWithStop s.freeCount then s1.lateAbort a else s1
  | none => s

/-- The RP asks the JC to seal the OPEN reel batch, whatever its entry count (R21). -/
def sealReel (s : State) : State :=
  match s.jc.openReel with
  | some i => s.setJc (s.jc.sealBatch i id)
  | none => s

/-- The last play of a reel: loop count below 15 and play count equal to it (R108). -/
def lastPlay (s : State) (e : DirEntry) : Bool := decide (e.loops < 15) && s.rp.plays.toNat == e.loops

/-- After the seal the RP advances to the next frame, to the next play or to ENDING (R108). -/
def advance (s : State) : State :=
  match s.rp.reel, s.rp.header with
  | some n, some h =>
    let e := tget s.rp.directory n
    let s1 := s.setRp { s.rp with header := none, step := .none }
    if s.rp.frame + 1 < e.frames then
      (s1.setRp { s1.rp with frame := s.rp.frame + 1, readAddr := h.addr + 4 * (1 + 2 * h.count) }).beginFrame
    else if s.lastPlay e then s1.setPlayer .ending
    else ((s1.setRp { s1.rp with frame := 0, readAddr := e.start, plays := s.rp.plays + 1 }).markEarlier).beginFrame
  | _, _ => s

/-- The end of a frame's loading: the seal, then the advance (R108). Where the advance aborts the reel at once, the RE may take
the batch just sealed first (R36, R117; log entry 43). -/
def endFrame (s : State) : State := s.sealReel.advance

/-- The memory address of the canvas-address word of pair `i` of the frame in loading (R93). -/
def pairAddress (s : State) (i : Nat) : Nat :=
  match s.rp.header with
  | some h => h.addr + 4 + 8 * i
  | none => 0

/-- The number of update pairs of the frame in loading. -/
def pairCount (s : State) : Nat :=
  match s.rp.header with
  | some h => h.count
  | none => 0

/-- The RP asks for the canvas-address word of pair `i`, or for the seal after the last pair (R105, R108). -/
def loadPair (s : State) (i : Nat) : State :=
  if i < s.pairCount then
    (s.setRp { s.rp with step := .pairAddr i }).askRead placeRp .pairRead (wordAt (s.pairAddress i))
  else s.endFrame

/-- The present update has been placed or skipped, and the RP moves on (R105, R106). -/
def updateDone (s : State) : State :=
  match s.rp.step with
  | .update i => s.loadPair (i + 1)
  | _ => s

/-- The JC and the PU let go of the reel update. -/
def releaseReel (s : State) : State :=
  (s.setJc { s.jc with reel := none, waiters := s.jc.waiters.filter (fun r => r != .rp) }).setPu
    { s.pu with heldReel := none }

/-- The frame is truncated at the present update (R107). -/
def truncate (s : State) : State :=
  match s.rp.step with
  | .update i => (s.report .reelTruncated .reelUpdate (BitVec.ofNat 24 (s.pairAddress i))).endFrame
  | _ => s

/-- The entry request of a reel update fails (R27): one OVERFLOW count, and the frame is truncated. -/
def failReel (s : State) : State := ((s.count .overflow).releaseReel).truncate

/-- A waiting entry request of the RP that the grants leave waiting is put to the check of R25, whose answer is `ok` (R28). -/
def recheckReel (s : State) (ok : Bool) : State :=
  match s.jc.reel with
  | some w => if w.wait == .entry && !(s.entryComing .rp || ok) then s.failReel else s
  | none => s

/-! ### Notices of the Release Engine -/

/-- The flip notice in STOPPING changes nothing (R115), but at the moment of a stop that has cut the reel off before a header
address above the plain window, at which the notice would have aborted it (R117; log entry 38). -/
def stoppedNotice (s : State) : State :=
  match s.mp.cut with
  | some a => if 0x7FFFFC < a then s.meetStop else s
  | none => s

/-- The flip notice of a reel batch (R96, R109, R111). -/
def flipNotice (s : State) : State :=
  let n := s.rp.unflipped - 1
  match s.rp.state with
  | .idle => s
  | .stopping => s.stoppedNotice
  | .loading => s.setRp { s.rp with unflipped := n }
  | .waiting => (s.setRp { s.rp with unflipped := n }).beginFrame
  | .ending => s.setRp { s.rp with unflipped := n, finalFlipped := s.rp.finalFlipped || n == 0 }

/-- The hold-zero notice: in ENDING with final flipped at yes it is the natural end (R111; log entry 22). -/
def holdZeroNotice (s : State) : State :=
  if s.rp.state = .ending ∧ s.rp.finalFlipped = true then
    (s.setRp { s.rp with finalFlipped := false, endedDue := true }).rpIdle
  else s

end State

end Sys2Proof.Machine
end

