-- ==== Sys2Proof/Machine/Release.lean ====
section
/-!
DEFINITION. The Release Engine at a mark (R43 to R45), the flip (R47), the second pass and retirement (R49, R51, R30), and the
delivery of a mark to the Release Engine and the Report Unit (R83, R210).
-/
namespace Sys2Proof.Machine.State

/-- Retirement of the current batch (R30, R51): its entries return and its slot is FREE, the RE is IDLE, the requests that wait
are served (R28; of two that fail, the drawn write first: log entries 10 and 11), the SPC checks a pending standby (R202), and
the RP is told of a reel batch, at which it enters IDLE if the retirement found it in STOPPING (R115). -/
def retire (s : State) (i : Fin 8) (b : Batch) : State :=
  let s1 := (s.setJc (s.jc.put i none).refreshLow).setRe { s.re with state := .idle, current := none, position := 0 }
  let ok := s1.canFree
  let s2 := ((s1.recheckDrawn ok).recheckReel ok).standbyCheck
  if b.isReel && s.rp.state == .stopping then s2.rpIdle else s2

/-- The second pass goes on with the entry at the pass position, or the batch retires (R49, R51). -/
def secondPassNext (s : State) : State :=
  match s.currentBatch with
  | some (i, b) =>
    match b.entries[s.re.position]? with
    | some e => s.askSecondPass e
    | none => s.retire i b
  | none => s

/-- The completion of a second-pass write (R49). -/
def secondPassDone (s : State) : State :=
  (s.setRe { s.re with position := s.re.position + 1 }).secondPassNext

/-- What the flip of a batch records as last flipped (R47). -/
def flipRecord (b : Batch) : LastFlip :=
  { release := b.release.getD 0
    origin := match b.origin with
      | .drawn => .drawn (b.tag.getD 0) (b.takeover.getD false)
      | .reel n f _ => .reel n f }

/-- The RP is told that a reel batch has flipped, and then that the hold remaining is 0 (R47 step 6). -/
def tellFlip (s : State) (b : Batch) : State :=
  if b.isReel then
    if b.hold - 1 = 0 then s.flipNotice.holdZeroNotice else s.flipNotice
  else s

/-- The flip of the current batch (R47). -/
def flip (s : State) : State :=
  match s.currentBatch with
  | some (i, b) =>
    let s1 := ((s.setJc (s.jc.put i (some { b with phase := .secondPass }))).setLl (s.ll.applied b)).setRe
      { s.re with select := s.re.select.other, hold := b.hold - 1, lastFlipped := some (flipRecord b)
                  state := .secondPass, position := 0 }
    ((s1.snapshot).tellFlip b).secondPassNext
  | none => s

/-- Whether what flipped last is a reel batch. -/
def lastFlipIsReel (s : State) : Bool :=
  match s.re.lastFlipped with
  | some f =>
    match f.origin with
    | .reel _ _ => true
    | .drawn _ _ => false
  | none => false

/-- A delivered mark that does not flip takes a hold remaining above 0 down by 1; when that brings it to 0 after the flip of a
reel batch, the RE tells the RP (R43). -/
def holdDown (s : State) : State :=
  if s.re.hold = 0 then s
  else
    let s1 := s.setRe { s.re with hold := s.re.hold - 1 }
    if s.re.hold = 1 ∧ s.lastFlipIsReel = true then s1.holdZeroNotice else s1

/-- A mark that finds the engine unable to flip a ready batch (R45). -/
def isSlip (s : State) : Bool :=
  match s.re.state with
  | .measure | .firstPass => true
  | .idle | .secondPass => s.eligibleExists
  | .blanking | .armed => false

/-- A delivered mark at the Release Engine (R43 to R45); in STARTING it has no effect (R54, R83; log entry 28). -/
def reMark (s : State) : State :=
  if s.spc.part ≠ .running then s
  else if s.re.state = .armed ∧ s.re.hold = 0 then s.flip
  else if s.re.state = .blanking then s
  else (if s.isSlip then s.count .slip else s).holdDown

/-- A delivered mark at the Report Unit: with N at 1 to 255 it raises the mark count, and the mark that brings it to N asks for
an automatic transfer (R210). -/
def ruMark (s : State) : State :=
  if s.ru.interval = 0 then s
  else if s.ru.interval ≤ s.ru.markCount + 1 then
    s.setRu { s.ru with markCount := 0, dueCounters := some (s.ru.dueCounters.getD .automatic) }
  else s.setRu { s.ru with markCount := s.ru.markCount + 1 }

/-- A delivered mark reaches the Release Engine and the Report Unit (R83). -/
def deliverMark (s : State) : State := s.reMark.ruMark

end Sys2Proof.Machine.State
end

