-- ==== Sys2Proof/Machine/Profile.lean ====
section
/-!
DEFINITION. The transform of the Profile Unit: channel orders (R158), the gained value (R159), the three views (R160 to R162),
SUBSTITUTE and DARK mode (R163, R164, R219), and the read-back order (R166).
-/
namespace Sys2Proof.Machine

/-- Three colour channels in wiring order by a channel order (R158). Orders above 5 belong to VOID profiles only (R151), which
take part in no transform. -/
def inWiringOrder (order : BitVec 3) (r g b l : Byte) : Stored :=
  if order = 0 then { c1 := r, c2 := g, c3 := b, level := l }
  else if order = 1 then { c1 := r, c2 := b, c3 := g, level := l }
  else if order = 2 then { c1 := g, c2 := r, c3 := b, level := l }
  else if order = 3 then { c1 := g, c2 := b, c3 := r, level := l }
  else if order = 4 then { c1 := b, c2 := r, c3 := g, level := l }
  else { c1 := b, c2 := g, c3 := r, level := l }

/-- A stored value put back into red, green, blue, level order (R166). -/
def readBackPixel (order : BitVec 3) (v : Stored) : Pixel :=
  if order = 0 then { red := v.c1, green := v.c2, blue := v.c3, level := v.level }
  else if order = 1 then { red := v.c1, green := v.c3, blue := v.c2, level := v.level }
  else if order = 2 then { red := v.c2, green := v.c1, blue := v.c3, level := v.level }
  else if order = 3 then { red := v.c3, green := v.c1, blue := v.c2, level := v.level }
  else if order = 4 then { red := v.c2, green := v.c3, blue := v.c1, level := v.level }
  else { red := v.c3, green := v.c2, blue := v.c1, level := v.level }

/-- A channel under a gain: floor(v × gain / 255) (R159). -/
def gained (v gain : Byte) : Byte := BitVec.ofNat 8 (v.toNat * gain.toNat / 255)

/-- The lesser of two levels. -/
def lesser (x y : Byte) : Byte := if x.toNat ≤ y.toNat then x else y

/-- A channel sum saturated at 255 (R161). -/
def satAdd (x y : Byte) : Byte := BitVec.ofNat 8 (min 255 (x.toNat + y.toNat))

/-- The substitution modes; code 3 is read as DARK (R149, R218, R219). -/
inductive Mode where | none | substitute | dark
deriving DecidableEq, Repr

def Profile.modeOf (p : Profile) : Mode :=
  if p.mode = 0 then .none else if p.mode = 1 then .substitute else .dark

/-- The gained value of a written pixel value (R159). -/
def Profile.gainedValue (p : Profile) (x : Pixel) : Stored :=
  inWiringOrder p.order (gained x.red p.red) (gained x.green p.green) (gained x.blue p.blue) (lesser x.level p.cap)

/-- The substitute pixel as stored (R163). -/
def Profile.substitute (p : Profile) : Stored :=
  inWiringOrder p.order p.red p.green p.blue (lesser p.subLevel p.cap)

/-- The result of an add-view write (R161). -/
def Profile.added (p : Profile) (x : Pixel) (base : Stored) : Stored :=
  let g := p.gainedValue x
  { c1 := satAdd base.c1 g.c1, c2 := satAdd base.c2 g.c2, c3 := satAdd base.c3 g.c3
    level := lesser (satAdd base.level g.level) p.cap }

/-- The result of a level-view write (R162). -/
def Profile.levelled (p : Profile) (x : Pixel) (base : Stored) : Stored :=
  { base with level := lesser x.level p.cap }

/-- The stored value the PU forms at once, if it does: a replace-view write in NONE mode, and every write in SUBSTITUTE and
DARK mode (R165). -/
def Profile.finished (p : Profile) (view : View) (x : Pixel) : Option Stored :=
  match p.modeOf, view with
  | .substitute, _ => some p.substitute
  | .dark, _ => some Stored.zero
  | .none, .replace => some (p.gainedValue x)
  | .none, .level => none
  | .none, .add => none

/-- The stored value of a held write once its base value has come (R161, R162). The PU holds level-view and add-view writes
only (R165). -/
def HeldWrite.combined (h : HeldWrite) (base : Stored) : Stored :=
  match h.view with
  | .level => h.profile.levelled h.value base
  | .add => h.profile.added h.value base
  | .replace => h.profile.gainedValue h.value

end Sys2Proof.Machine
end

