-- ==== Sys2Proof/Machine/Journal.lean ====
section
/-!
DEFINITION. The Journal Controller: staging (R10 to R13), allocation (R24, R25, R29), placement (R14 to R17), canvas read-back
(R22, R23), and the seal word (R19, R20). Where the two requesters are served alike, one operation serves both.
-/
namespace Sys2Proof.Machine

/-- The OPEN batch a requester stages into (R11, R12). -/
def Jc.target (j : Jc) : Requester → Option (Fin 8)
  | .aq => j.openDrawn
  | .rp => j.openReel

/-- The staged write of a requester (R10). -/
def Jc.staged (j : Jc) : Requester → Option Staged
  | .aq => j.drawn
  | .rp => j.reel

def Jc.setStaged (j : Jc) (r : Requester) (w : Option Staged) : Jc :=
  match r with
  | .aq => { j with drawn := w }
  | .rp => { j with reel := w }

/-- The write the PU holds for a requester (R165). -/
def Pu.held (p : Pu) : Requester → Option HeldWrite
  | .aq => p.heldDrawn
  | .rp => p.heldReel

def Pu.setHeld (p : Pu) (r : Requester) (h : Option HeldWrite) : Pu :=
  match r with
  | .aq => { p with heldDrawn := h }
  | .rp => { p with heldReel := h }

/-- Steps 1 and 2 of the base value: R15 for a drawn write, R16 for a reel update. -/
def Jc.baseFor (j : Jc) (r : Requester) (f : Nat) : Option Stored :=
  match r with
  | .aq => j.drawnLookup f
  | .rp => j.reelLookup f

/-- The arbiter place in which the JC asks a requester's base read (R184). -/
def Requester.place : Requester → Place
  | .aq => placeAq
  | .rp => placeRp

/-- The owner of a requester's base read. -/
def Requester.baseOwner : Requester → Owner
  | .aq => .baseDrawn
  | .rp => .baseReel

/-- The fault origin of a requester's write (R208). -/
def Requester.origin : Requester → FaultOrigin
  | .aq => .drawnWrite
  | .rp => .reelUpdate

/-- A new batch of an OPEN slot (R4). -/
def Batch.fresh (o : Origin) (hold : Nat) : Batch :=
  { phase := .opened, origin := o, hold := hold, entries := [], sealOrder := none, tag := none, takeover := none
    release := none, derate := none, removed := none, added := none }

/-- A newly allocated entry (R13). -/
def Staged.newEntry (w : Staged) : Entry :=
  { frameSlot := w.frameSlot, rail := w.rail, value := none, shown := none, newLoad := none }

/-- The value of the entry for a frame slot is set (R14). -/
def Batch.setValue (b : Batch) (f : Nat) (v : Stored) : Batch :=
  { b with entries := b.entries.map (fun e => if e.frameSlot = f then { e with value := some v } else e) }

/-- Whether an OPEN batch holds an entry for a frame slot (R13). -/
def Jc.hasEntry (j : Jc) (i : Fin 8) (f : Nat) : Bool :=
  match j.at i with
  | some b => (b.entryFor f).isSome
  | none => false

/-- Whether a free entry is left beyond those that the waiting requests take (R24, R28; log entry 10). -/
def Jc.entryFree (j : Jc) : Bool := decide (j.waiters.length < j.free)

/-- Whether an allocation that leaves this journal raises JOURNAL_LOW: the free count is at or below a non-zero offset and the
low flag is clear (R29). -/
def Jc.fallsLow (j : Jc) : Bool :=
  j.almostFull != 0 && decide (j.free ≤ j.almostFull) && !j.lowFlag

namespace State

/-! ### Placement (R14 to R17) -/

/-- The write is placed: the JC and the PU let go of it, and the requester is answered (R10). -/
def placed (s : State) (r : Requester) : State :=
  match r with
  | .aq => s.releaseDrawn.headLeaves
  | .rp => s.releaseReel.updateDone

/-- The value is written into the entry of the target batch, which completes placement (R14). -/
def placeStored (s : State) (r : Requester) (w : Staged) (v : Stored) : State :=
  match s.jc.target r with
  | some i => (s.setJc (s.jc.modify i (fun b => b.setValue w.frameSlot v))).placed r
  | none => s

/-- The JC asks for the shown-buffer read of a base value, in the buffer the select line names now (R17). -/
def askBase (s : State) (r : Requester) (w : Staged) : State :=
  (s.setJc (s.jc.setStaged r (some { w with wait := .base }))).askRead r.place r.baseOwner
    (s.re.slotWord s.re.select w.frameSlot)

/-- The PU combines the held write with its base value, and the JC writes the result (R14, R161, R162). -/
def combineWith (s : State) (r : Requester) (w : Staged) (base : Stored) : State :=
  match s.pu.held r with
  | some h => s.placeStored r w (h.combined base)
  | none => s

/-- Placement of a write that has its entry (R14). -/
def place (s : State) (r : Requester) (w : Staged) : State :=
  match w.payload with
  | .finished v => s.placeStored r w v
  | .combine =>
    match s.jc.baseFor r w.frameSlot with
    | some base => s.combineWith r w base
    | none => s.askBase r w

/-! ### Allocation (R24, R25, R29) -/

/-- An entry is granted: it joins the target batch as its last entry (R13), and JOURNAL_LOW is raised at a crossing (R29). -/
def grantEntry (s : State) (i : Fin 8) (w : Staged) : State :=
  let j := s.jc.modify i (fun b => { b with entries := b.entries ++ [w.newEntry] })
  if j.fallsLow then (s.setJc { j with lowFlag := true }).raise .journalLow else s.setJc j

/-- A requester's write begins to wait for an entry (R25). -/
def waitEntry (s : State) (r : Requester) (w : Staged) : State :=
  s.setJc { s.jc.setStaged r (some { w with wait := .entry }) with waiters := s.jc.waiters ++ [r] }

/-- A requester's entry request fails (R26, R27). -/
def failEntry (s : State) (r : Requester) (w : Staged) : State :=
  match r with
  | .aq => s.dropDrawn w.canvas
  | .rp => s.failReel

/-- The write finds its entry in the target batch, or is granted one, or waits, or fails (R13, R24, R25). -/
def stageEntry (s : State) (r : Requester) (w : Staged) : State :=
  match s.jc.target r with
  | some i =>
    if s.jc.hasEntry i w.frameSlot then s.place r w
    else if s.jc.entryFree then (s.grantEntry i w).place r w
    else if s.canFree then s.waitEntry r w
    else s.failEntry r w
  | none => s

/-- The lowest-numbered FREE slot becomes an OPEN batch (R6). -/
def openBatch (s : State) (o : Origin) (hold : Nat) : State :=
  match s.jc.lowestFree with
  | some i => s.setJc (s.jc.put i (some (Batch.fresh o hold)))
  | none => s

/-- A drawn write reaches the JC: it is reported to the SPC (R10, R202), and staged into the OPEN drawn batch, for which a
drawn slot is asked first where none exists (R11). -/
def stageDrawn (s : State) (w : Staged) : State :=
  let s1 := s.cancelStandby
  if s1.jc.openDrawn.isSome then s1.stageEntry .aq w
  else if s1.jc.drawnCount < 6 then (s1.openBatch .drawn 1).stageEntry .aq w
  else if s1.canFree then s1.setJc { s1.jc with drawn := some { w with wait := .slot } }
  else s1.dropDrawn w.canvas

/-- A staged write reaches the JC (R10). -/
def stage (s : State) (r : Requester) (w : Staged) : State :=
  match r with
  | .aq => s.stageDrawn w
  | .rp => s.stageEntry .rp w

/-- The OPEN reel batch is created, the RP is told, and it passes the updates of the frame (R12, R104). -/
def openReelBatch (s : State) (o : ReelOpen) : State :=
  let s1 := (s.setJc { s.jc with reelOpen := none }).openBatch (.reel o.reel o.frame false) o.hold
  (s1.setRp { s1.rp with unflipped := s1.rp.unflipped + 1 }).loadPair 0

/-- The RP asks the JC to open a reel batch; a request that cannot be granted at once waits (R12, R24). -/
def askReelBatch (s : State) (o : ReelOpen) : State :=
  if s.jc.reelCount < 2 then s.openReelBatch o
  else s.setJc { s.jc with reelOpen := some o }

/-- The completion of a base read (R17): the data as read is the base; a parity error is reported. -/
def baseDone (s : State) (r : Requester) (d : Delivered) (word : WordAddr) : State :=
  match s.jc.staged r with
  | some w =>
    (if d.error then s.report .readParity r.origin (byteAddr word) else s).combineWith r w (Stored.ofWord d.data)
  | none => s

/-! ### Canvas read-back (R22, R23) -/

/-- The canvas read is answered from the journal, or asks for the shown-buffer read (R22, R23). -/
def readBackFor (s : State) (order : BitVec 3) (f : Nat) (canvas : Addr) : State :=
  match s.jc.drawnLookup f with
  | some v => (s.answerHost true (some (readBackPixel order v).toWord)).headLeaves
  | none =>
    (s.setJc { s.jc with readBack := some { order := order, canvas := canvas } }).askRead placeAq .canvasRead
      (s.re.slotWord s.re.select f)

/-- The completion of a canvas read's shown-buffer read (R23): its fault carries the canvas address of the read (log entry 37). -/
def readBackDone (s : State) (d : Delivered) : State :=
  match s.jc.readBack with
  | some q =>
    let s1 := s.setJc { s.jc with readBack := none }
    let s2 := if d.error then s1.report .readParity .canvasRead q.canvas else s1
    (s2.answerHost (!d.error) (some (readBackPixel q.order (Stored.ofWord d.data)).toWord)).headLeaves
  | none => s

/-! ### The seal word (R19, R20) -/

/-- The OPEN drawn batch, if it has an entry, is SEALED with the seal word's tag and takeover (R19); otherwise no batch is
sealed (R20). -/
def sealDrawn (s : State) (x : Word) : State :=
  match s.jc.openDrawn with
  | some i =>
    if s.jc.entryCount i = 0 then s
    else s.setJc (s.jc.sealBatch i (fun b => { b with tag := some (sealTag x), takeover := some (sealTakeover x) }))
  | none => s

/-- The seal word acted on: it is reported to the SPC (R10), the batch is sealed, and a set takeover flag asks the RP for a reel
stop (R19, R20). -/
def actSeal (s : State) (x : Word) : State :=
  let s1 := s.cancelStandby.sealDrawn x
  if sealTakeover x then s1.reelStop else s1

end State

end Sys2Proof.Machine
end

