-- ==== Sys2Proof/Machine/Canvas.lean ====
section
/-!
DEFINITION. The Canvas Translator: the six checks and the frame slot (R128, R129), profile questions (R130, R155), faults (R131),
walks (R132 to R135), the cache (R137 to R139), host writes against cache, walk and hit (R140 to R144), and translator arbitration
(R146).
-/
namespace Sys2Proof.Machine

/-! ### Checks 4 and 5 and the frame slot -/

/-- Check 4 of R128. -/
def SegFields.fits (f : SegFields) (slotCount : Nat) : Bool :=
  decide (1 ≤ f.length) && decide (f.length ≤ 64) && decide (f.slotBase + f.length ≤ slotCount)

/-- Check 5 of R128. -/
def SegFields.reaches (f : SegFields) (pixel : Nat) : Bool := decide (pixel < f.length) || f.ring

/-- The frame slot of a pixel that passes checks 4 and 5 (R129). -/
def SegFields.frameSlot (f : SegFields) (pixel : Nat) : Nat :=
  if f.reverse then f.slotBase + f.length - 1 - pixel % f.length else f.slotBase + pixel % f.length

/-- What checks 4 and 5 give: the frame slot, or the first fault. -/
inductive SegCheck where
  | slot (f : Nat)
  | bad (k : FaultKind)
deriving DecidableEq, Repr

def SegFields.check (f : SegFields) (slotCount pixel : Nat) : SegCheck :=
  if !f.fits slotCount then .bad .segmentBad
  else if !f.reaches pixel then .bad .pixelBeyond
  else .slot (f.frameSlot pixel)

/-- The PU's answer to a question for a profile (R155). -/
inductive ProfileAnswer where
  | held
  | void
  | valid (p : Profile)
deriving DecidableEq, Repr

def Pu.answer (u : Pu) (p : Fin 16) : ProfileAnswer :=
  if tget u.pending p then .held
  else if (tget u.store p).valid then .valid (tget u.store p).fields
  else .void

/-- Checks 4 to 6 of R128 over segment fields: the translation, the first fault, or a question that the PU holds (R130). -/
inductive SegResult where
  | held
  | done (r : TrResult)
deriving DecidableEq, Repr

def State.translate (s : State) (f : SegFields) (pixel : Nat) : SegResult :=
  match f.check s.ct.slotCount pixel with
  | .bad k => .done (.bad k)
  | .slot n =>
    match s.pu.answer f.profile with
    | .held => .held
    | .void => .done (.bad .profileVoid)
    | .valid p => .done (.ok { frameSlot := n, rail := s.ll.railGroup n, profile := p })

/-- A request whose translation sets changed: a drawn write or a reel update (R133). -/
def CtReq.isWrite (q : CtReq) : Bool :=
  match q.kind with
  | .drawnWrite | .reelUpdate => true
  | .canvasRead => false

/-- The fault origin of a request (R131). -/
def ReqKind.origin : ReqKind → FaultOrigin
  | .drawnWrite => .drawnWrite
  | .canvasRead => .canvasRead
  | .reelUpdate => .reelUpdate

/-! ### Protected words -/

/-- Whether a word lies in frame buffer A, frame buffer B or the status area (R168, R170). -/
def Up.protects (u : Up) (w : WordAddr) : Bool :=
  match u.bounds with
  | none => false
  | some b =>
    (bufSpan b.bufA b.slotCount).has (4 * w.toNat) || (bufSpan b.bufB b.slotCount).has (4 * w.toNat)
      || (statusSpan b.status).has (4 * w.toNat)

/-! ### The cache -/

/-- Whether a cache entry has the key (R137). -/
def CacheEntry.isFor (c : CacheEntry) (zone segment : Nat) : Bool := c.zone == zone && c.segment == segment

/-- The valid entry for a key (R137). -/
def Ct.lookup (c : Ct) (zone segment : Nat) : Option CacheEntry := c.cache.find? (fun e => e.isFor zone segment)

/-- The entry put at the front of the recency order, any entry of the same key leaving its place, and the least recent of more
than 16 forgotten (R137). -/
def Ct.putFront (c : Ct) (e : CacheEntry) : Ct :=
  { c with cache := (e :: c.cache.filter (fun x => !x.isFor e.zone e.segment)).take 16 }

/-- Every entry that has the word among its source words is made invalid (R140). -/
def Ct.invalidate (c : Ct) (w : WordAddr) : Ct :=
  { c with cache := c.cache.filter (fun e => !e.sources.contains w) }

/-- Changed known is set in the entry for a key (R138). -/
def Ct.setKnown (c : Ct) (zone segment : Nat) : Ct :=
  { c with cache := c.cache.map (fun e => if e.isFor zone segment then { e with known := true } else e) }

/-! ### Arbitration (R146) -/

/-- The waiting request of a requester. -/
def Ct.offer (c : Ct) : Requester → Option CtReq
  | .aq => c.offerAq
  | .rp => c.offerRp

/-- The requester whose request the CT takes: the only one, or of two the one not last served. -/
def Ct.choice (c : Ct) : Option Requester :=
  match c.offerAq, c.offerRp with
  | some _, some _ => some (match c.last with | .aq => .rp | .rp => .aq)
  | some _, none => some .aq
  | none, some _ => some .rp
  | none, none => none

/-- Last served is recorded where both requesters waited (R146; log entry 15). -/
def Ct.lastAfter (c : Ct) (r : Requester) : Requester :=
  if c.offerAq.isSome && c.offerRp.isSome then r else c.last

/-- The CT after taking a requester's request. -/
def Ct.take (c : Ct) (r : Requester) (q : CtReq) : Ct :=
  match r with
  | .aq => { c with current := some q, last := c.lastAfter r, offerAq := none }
  | .rp => { c with current := some q, last := c.lastAfter r, offerRp := none }

namespace State

/-! ### The end of a request (R123, R131, R165) -/

/-- The request ends at the CT, which is free again. -/
def ctFree (s : State) : State := s.setCt { s.ct with current := none, walk := none, hit := none }

/-- The requester that is told of a request's end without a translation: the AQ head advances, a canvas read being answered with
error and zero data (R123), and the RP moves on (R106). -/
def answerFault (s : State) (k : ReqKind) : State :=
  match k with
  | .drawnWrite => s.headLeaves
  | .canvasRead => (s.answerHost false (some 0)).headLeaves
  | .reelUpdate => s.updateDone

/-- An update with both words in hand is offered to the CT (R105). -/
def giveUpdate (s : State) (i : Nat) (a v : Word) : State :=
  (s.setRp { s.rp with step := .update i }).setCt
    { s.ct with offerRp := some { kind := .reelUpdate, canvas := a.setWidth 24, value := v, discard := false } }

/-- A request to be discarded ends: the CT tells the RP (R136), which now makes the request it has kept back (R123). -/
def ctEndDiscarded (s : State) : State :=
  match s.rp.step with
  | .held i a v => s.ctFree.giveUpdate i a v
  | .none | .header | .slot | .pairAddr _ | .pairValue _ _ _ | .update _ => s.ctFree

/-- A translation faults (R131): fault with the canvas address (R148; log entry 37), TRANSLATE count unless WALK_PARITY, answer. A
request to be discarded ends without any of them (R136). -/
def ctFault (s : State) (q : CtReq) (k : FaultKind) : State :=
  if q.discard then s.ctEndDiscarded
  else
    let s1 := s.ctFree.report k q.kind.origin q.canvas
    (if k = .walkParity then s1 else s1.count .translate).answerFault q.kind

/-- The staged write the PU hands the JC (R165). -/
def stagedFor (q : CtReq) (t : Translation) (p : Payload) : Staged :=
  { view := viewOf q.canvas, frameSlot := t.frameSlot, rail := t.rail, canvas := q.canvas, payload := p, wait := .entry }

/-- The PU forms the stored value at once, or holds the write for its base value (R165). -/
def transform (s : State) (r : Requester) (q : CtReq) (t : Translation) : State :=
  match t.profile.finished (viewOf q.canvas) (Pixel.ofWord q.value) with
  | some v => s.stage r (stagedFor q t (.finished v))
  | none =>
    (s.setPu (s.pu.setHeld r (some { view := viewOf q.canvas, value := Pixel.ofWord q.value, profile := t.profile }))).stage r
      (stagedFor q t .combine)

/-- A translation is handed on (R123); that of a request to be discarded is not (R136). -/
def ctHand (s : State) (q : CtReq) (t : Translation) : State :=
  if q.discard then s.ctEndDiscarded
  else
    match q.kind with
    | .drawnWrite => s.ctFree.transform .aq q t
    | .canvasRead => s.ctFree.readBackFor t.profile.order t.frameSlot q.canvas
    | .reelUpdate => s.ctFree.transform .rp q t

/-- The request is finished with the result of its translation. -/
def ctFinish (s : State) (q : CtReq) (r : TrResult) : State :=
  match r with
  | .ok t => s.ctHand q t
  | .bad k => s.ctFault q k

/-! ### Walks (R132 to R135) -/

/-- The host plain write in service at the AQ head covers the word (R142). -/
def writeInService (s : State) (w : WordAddr) : Bool :=
  s.aq.taken && match s.aq.queue.head? with
    | some t => isPlainWrite t && wordOfTransfer t == w
    | none => false

/-- The walk asks for a read: the word becomes a source word, and a host plain write of it that is taken and not yet in memory
makes the walk stale (R142). -/
def walkRead (s : State) (k : Walk) (step : WalkStep) (o : Owner) (w : WordAddr) : State :=
  (s.setCt { s.ct with walk := some { k with step := step, sources := k.sources ++ [w]
                                             stale := k.stale || s.writeInService w } }).askRead placeCt o w

/-- The byte address of the directory entry of a zone (R124). -/
def dirEntryAddr (s : State) (zone : Nat) : Nat := s.ct.dirBase + 8 * zone

/-- The byte address of a segment entry (R125). -/
def segEntryAddr (dir2 : Word) (segment : Nat) : Nat := segTableBase dir2 + 8 * segment

/-- An entry of two words lies within the plain window (R124, R125). -/
def entryInWindow (a : Nat) : Bool := decide (a + 7 ≤ 0x7FFFFF)

/-- A walk begins with the directory entry of the zone (R132). -/
def walkStart (s : State) (q : CtReq) : State :=
  let a := s.dirEntryAddr (zoneOf q.canvas)
  if entryInWindow a then
    s.walkRead { step := .dirFirst, dir1 := 0, dir2 := 0, seg1 := 0, seg2 := 0, bad := false, segWord := 0, sources := []
                 stale := false, wroteChanged := false, result := none } .dirFirst .dirRead (wordAt a)
  else s.ctFault q .zoneAbsent

/-- The walk goes on from the directory entry to the segment entry (R132, R133 step 1). -/
def walkSegment (s : State) (q : CtReq) (k : Walk) : State :=
  let a := segEntryAddr k.dir2 (segmentOf q.canvas)
  if dirCount k.dir1 ≤ segmentOf q.canvas then s.ctFault q .segmentBeyond
  else if entryInWindow a then s.walkRead { k with segWord := wordAt a } .segFirst .segRead (wordAt a)
  else s.ctFault q .segmentAbsent

/-- The walk fills a cache entry unless it is stale (R134, R137, R139). -/
def walkFill (s : State) (q : CtReq) (k : Walk) : State :=
  if k.stale then s
  else
    let f := SegFields.ofWords k.seg1 k.seg2
    s.setCt (s.ct.putFront { zone := zoneOf q.canvas, segment := segmentOf q.canvas, fields := f, sources := k.sources
                             known := f.changed || k.wroteChanged })

/-- The completion of a walk that reached step 2 of R133: the fill, then the end of the request (R134). -/
def walkComplete (s : State) (q : CtReq) (k : Walk) (r : TrResult) : State := (s.walkFill q k).ctFinish q r

/-- Whether the translation passed all six checks. -/
def passed : TrResult → Bool
  | .ok _ => true
  | .bad _ => false

/-- The flag word of the segment entry (R133 step 3): touched if it was clear, changed if it was clear and a write has been
translated. The write is dropped in a stale walk (R143) and withheld in a protected area (R126). -/
def walkDecide (s : State) (q : CtReq) (k : Walk) (r : TrResult) : State :=
  let f := SegFields.ofWords k.seg1 k.seg2
  let changes := !f.changed && q.isWrite && passed r
  let k1 := { k with wroteChanged := changes, result := some r }
  if !(!f.touched || changes) then s.walkComplete q k1 r
  else if k.stale || s.up.protects k.segWord then s.walkComplete q k1 r
  else
    (s.setCt { s.ct with walk := some { k1 with step := .segFlag } }).askWrite placeCt .walkFlag k.segWord
      (markWord k.seg1 changes)

/-- Checks 4 to 6 with both words of the segment entry in hand (R133 step 2). -/
def walkCheck (s : State) (q : CtReq) (k : Walk) : State :=
  match s.translate (SegFields.ofWords k.seg1 k.seg2) (pixelOf q.canvas) with
  | .held => s.setCt { s.ct with walk := some { k with step := .profile } }
  | .done r => s.walkDecide q k r

/-- Both words of the directory entry are in hand, read without error (R132). -/
def walkDirectory (s : State) (q : CtReq) (k : Walk) : State :=
  if !dirPresent k.dir1 then s.ctFault q .zoneAbsent
  else if dirTouched k.dir1 || k.stale || s.up.protects (wordAt (s.dirEntryAddr (zoneOf q.canvas))) then s.walkSegment q k
  else
    (s.setCt { s.ct with walk := some { k with step := .dirFlag } }).askWrite placeCt .walkFlag
      (wordAt (s.dirEntryAddr (zoneOf q.canvas))) (markWord k.dir1 false)

/-- Both words of the segment entry are in hand, read without error (R133 step 1). -/
def walkEntry (s : State) (q : CtReq) (k : Walk) : State :=
  if !(SegFields.ofWords k.seg1 k.seg2).present then s.ctFault q .segmentAbsent
  else s.walkCheck q k

/-- A walk read has completed with its word (R132, R133, R135): the other word of the entry is still read after an error. -/
def walkReadDone (s : State) (q : CtReq) (k : Walk) (d : Delivered) : State :=
  match k.step with
  | .dirFirst =>
    s.walkRead { k with dir1 := d.data, bad := d.error } .dirSecond .dirRead
      (wordAt (s.dirEntryAddr (zoneOf q.canvas) + 4))
  | .dirSecond =>
    if k.bad || d.error then s.ctFault q .walkParity
    else s.walkDirectory q { k with dir2 := d.data }
  | .segFirst =>
    s.walkRead { k with seg1 := d.data, bad := d.error } .segSecond .segRead
      (wordAt (segEntryAddr k.dir2 (segmentOf q.canvas) + 4))
  | .segSecond =>
    if k.bad || d.error then s.ctFault q .walkParity
    else s.walkEntry q { k with seg2 := d.data }
  | .dirFlag | .profile | .segFlag => s

/-- A walk's flag-word write has completed, or was dropped, and the walk goes on (R132, R133, R143). -/
def walkFlagDone (s : State) (q : CtReq) (k : Walk) : State :=
  match k.step, k.result with
  | .dirFlag, _ => s.walkSegment q k
  | .segFlag, some r => s.walkComplete q k r
  | _, _ => s

/-! ### Hits (R138) -/

/-- A hit whose checks have passed is handed on, after one hit write-back where a write finds changed known clear. A write-back
overtaken by a host write is not made (R144; log entry 20), nor one to a protected word (R126). -/
def hitPass (s : State) (q : CtReq) (h : Hit) (t : Translation) : State :=
  if !q.isWrite || h.known || h.overtaken then s.ctHand q t
  else
    let s1 := s.setCt (s.ct.setKnown (zoneOf q.canvas) (segmentOf q.canvas))
    if s.up.protects h.flagWord then s1.ctHand q t
    else
      (s1.setCt { s1.ct with hit := some { h with result := some t } }).askWrite placeCt .hitFlag h.flagWord
        h.fields.writeBackWord

/-- Checks 4 to 6 on the fields of a hit (R138). -/
def hitCheck (s : State) (q : CtReq) (h : Hit) : State :=
  match s.translate h.fields (pixelOf q.canvas) with
  | .held => s.setCt { s.ct with hit := some h }
  | .done (.bad k) => s.ctFault q k
  | .done (.ok t) => s.hitPass q h t

/-- A request hits: the entry becomes the most recent (R138). Its third source word is its flag word. -/
def hitStart (s : State) (q : CtReq) (e : CacheEntry) : State :=
  (s.setCt (s.ct.putFront e)).hitCheck q
    { fields := e.fields, flagWord := e.sources.getD 2 0, known := e.known, overtaken := false, result := none }

/-! ### Requests, profile answers and host writes -/

/-- The CT begins the translation of the request it has taken (R132, R138). -/
def ctBegin (s : State) (q : CtReq) : State :=
  match s.ct.lookup (zoneOf q.canvas) (segmentOf q.canvas) with
  | some e => s.hitStart q e
  | none => s.walkStart q

/-- The PU answers the question it holds, if the profile is no longer pending (R130, R155). -/
def answerQuestion (s : State) : State :=
  match s.ct.current, s.ct.walk, s.ct.hit with
  | some q, some k, _ => if k.step = .profile then s.walkCheck q k else s
  | some q, none, some h => if h.result.isNone then s.hitCheck q h else s
  | _, _, _ => s

/-- Whether the CT has a request asked of the MP and not yet granted. -/
def ctAsked (s : State) : Bool := s.mp.holds placeCt

/-- A host plain write is taken against the walk in flight: stale if it covers a source word, and a flag-word write not yet
granted is dropped (R142, R143). -/
def hostWriteWalk (s : State) (q : CtReq) (k : Walk) (w : WordAddr) : State :=
  if k.sources.contains w then
    let k1 := { k with stale := true }
    let s1 := s.setCt { s.ct with walk := some k1 }
    if s.ctAsked && (k.step == .dirFlag || k.step == .segFlag) then (s1.withdraw placeCt).walkFlagDone q k1 else s1
  else s

/-- A host plain write is taken against a hit: a write-back of that flag word not yet granted is dropped and the request handed
on (R144). -/
def hostWriteHit (s : State) (q : CtReq) (h : Hit) (w : WordAddr) : State :=
  if h.flagWord = w then
    match h.result with
    | some t => if s.ctAsked then (s.withdraw placeCt).ctHand q t else s
    | none => s.setCt { s.ct with hit := some { h with overtaken := true } }
  else s

/-- A host plain write of a word is taken at the AQ head (R140, R142, R144). -/
def ctHostWrite (s : State) (w : WordAddr) : State :=
  let s1 := s.setCt (s.ct.invalidate w)
  match s1.ct.current, s1.ct.walk, s1.ct.hit with
  | some q, some k, _ => s1.hostWriteWalk q k w
  | some q, none, some h => s1.hostWriteHit q h w
  | _, _, _ => s1

/-- The CT takes a waiting request (R146). -/
def ctTake (s : State) (r : Requester) (q : CtReq) : State := (s.setCt (s.ct.take r q)).ctBegin q

end State

end Sys2Proof.Machine
end

