-- ==== Sys2Proof/Machine/Start.lean ====
section
/-!
DEFINITION. Starts: profile loads (R151 to R154), blanking (R53), the root (R195 to R197), restart (R200, R201), and entry to RUNNING
and to PASSIVE (R197, R198, R102, R178).
-/
namespace Sys2Proof.Machine

/-! ### The profile store -/

/-- The record's second word lies within the plain window (R151). -/
def Pu.inWindow (u : Pu) (p : Fin 16) : Bool := decide (u.recordAddr p + 4 ≤ 0x7FFFFF)

/-- The due profile with the smallest number, when no load is in progress (R152). -/
def Pu.firstDue (u : Pu) : Option (Fin 16) := (List.finRange 16).find? (fun p => tget u.pending p)

/-- A profile that is VOID with all fields 0 (R151). -/
def ProfileSlot.void : ProfileSlot := { valid := false, fields := Profile.zero }

/-- Every due profile is completed without a read, its record lying above the plain window (R151). -/
def Pu.voidDue (u : Pu) : Pu :=
  { u with store := Vector.ofFn (fun p => if tget u.pending p then ProfileSlot.void else tget u.store p)
           pending := Vector.replicate 16 false }

/-- The completion of a load with both words read (R151): VALID if neither read was in error and the channel order is 0 to 5.
The pending flag clears unless the profile has become due again (R152, R154). -/
def Pu.decide (u : Pu) (l : Load) (first second : Word) (bad : Bool) : Pu :=
  let f := Profile.ofWords first second
  { u with store := tset u.store l.profile { valid := !bad && Nat.ble f.order.toNat 5, fields := f }
           pending := tset u.pending l.profile l.again
           load := none }

/-- A reload of one profile (R154): a profile in load is marked due again, any other becomes or stays due. -/
def Pu.reloadOne (u : Pu) (p : Fin 16) : Pu :=
  match u.load with
  | some l =>
    if l.profile = p then { u with load := some { l with again := true } }
    else { u with pending := tset u.pending p true }
  | none => { u with pending := tset u.pending p true }

/-- A reload of the profile that a value of 0 to 15 names, or of all 16 (R154). -/
def Pu.reload (u : Pu) (x : Word) : Pu :=
  if h : x.toNat < 16 then u.reloadOne ⟨x.toNat, h⟩
  else (List.finRange 16).foldl Pu.reloadOne u

/-- At an accepted restart a load in progress is abandoned and its profile VOID, and every pending flag is clear (R150). -/
def Pu.abandon (u : Pu) : Pu :=
  let store : Vector ProfileSlot 16 :=
    match u.load with
    | some l => tset u.store l.profile { tget u.store l.profile with valid := false }
    | none => u.store
  { u with store := store, pending := Vector.replicate 16 false, load := none }

/-- The JC at the acceptance of a restart: an empty OPEN drawn batch is freed, seal counter 0, low flag clear (R7, R9, R29). -/
def Jc.restarted (j : Jc) : Jc :=
  let k := match j.openDrawn with
    | some i => j.put i none
    | none => j
  { k with sealCounter := 0, lowFlag := false }

/-- At an accepted restart the cache is emptied, and a request withdrawn by a reel stop that still runs on at the CT is abandoned
with its walk or hit (R127, R141; log entry 36). -/
def Ct.restarted (c : Ct) : Ct := { c with cache := [], current := none, walk := none, hit := none }

/-- The read of a profile record word (R184). -/
def Owner.isProfileRead (o : Owner) : Bool := o == .profileRead

/-- The transfers of the work that an accepted restart abandons (R150, R183, R184; log entry 36). -/
def Owner.isAbandoned (o : Owner) : Bool :=
  o == .profileRead || o == .dirRead || o == .segRead || o == .walkFlag || o == .hitFlag

namespace State

/-- The PU asks for the read of a word of the record in load (R152), and the load keeps the word as memory stands (R156; log entry
35). -/
def askRecord (s : State) (l : Load) (a : Nat) : State :=
  (s.setPu { s.pu with load := some { l with asked := s.memory.readWord (wordAt a) } }).askRead placeSpc .profileRead (wordAt a)

/-- When no load is in progress and a profile is due, the PU begins the load of the due profile with the smallest number (R152).
Records lie in ascending order, so when that one lies above the plain window every due one does, and all complete at once
(R151). -/
def puRun (s : State) : State :=
  match s.pu.load, s.pu.firstDue with
  | none, some p =>
    if s.pu.inWindow p then
      s.askRecord { profile := p, first := none, bad := false, again := false, asked := 0 } (s.pu.recordAddr p)
    else s.setPu s.pu.voidDue
  | _, _ => s

/-- The start of blanking (R53, R73): select line to A, hold remaining 0, the account zero, and the first zero-pixel write. -/
def startBlanking (s : State) : State :=
  (((s.setSpc { s.spc with part := .starting .blanking }).setRe
      { s.re with state := .blanking, select := .a, hold := 0, blankPos := 0 }).setLl s.ll.zeroed).askBlanking

/-- In LOAD_PROFILES, when every load is done, the PU reports it and the SPC enters BLANKING (R153, R198). -/
def afterLoads (s : State) : State :=
  if s.spc.part = .starting .loadProfiles ∧ s.pu.load.isNone = true ∧ s.pu.firstDue.isNone = true then s.startBlanking
  else s

/-- The word that a profile read gives the load: as delivered (R152), or without the host writes that have landed since the read was
asked (R156). Where the two differ the free value of log entry 35 chooses. -/
def profileWord (s : State) (l : Load) (x : Word) : Word :=
  if x ≠ l.asked ∧ Config.profileReadKeeps s.freeCount = true then l.asked else x

/-- The number of the next free value after a profile read (log entry 35). -/
def profileCount (s : State) (l : Load) (x : Word) : Nat := if x = l.asked then s.freeCount else s.freeCount + 1

/-- The completion of a profile read (R152). -/
def profileReadDone (s : State) (d : Delivered) : State :=
  match s.pu.load with
  | some l =>
    let s1 := s.setFreeCount (s.profileCount l d.data)
    let w := s.profileWord l d.data
    match l.first with
    | none => s1.askRecord { l with first := some w, bad := d.error } (s.pu.recordAddr l.profile + 4)
    | some x => ((s1.setPu (s.pu.decide l x w (l.bad || d.error))).answerQuestion).puRun.answerQuestion.afterLoads
  | none => s

/-- The profile reload word acted on (R154). -/
def actReload (s : State) (x : Word) : State := (s.setPu (s.pu.reload x)).puRun.answerQuestion

/-! ### Blanking -/

/-- The completion of a blanking write (R53, R198): the next one, or the end of blanking and the write of start result 0. -/
def blankingDone (s : State) : State :=
  let s1 := s.setRe { s.re with blankPos := s.re.blankPos + 1 }
  if s1.re.blankPos < 2 * s1.re.slotCount then s1.askBlanking
  else (s1.setRe { s1.re with state := .idle }).askWrite placeSpc (.startResult 0) startResultWord 0

/-! ### The root -/

/-- The protected bounds a root gives (R168). -/
def boundsOf (r : Root) : Bounds := { bufA := r.bufA, bufB := r.bufB, slotCount := r.slotCount, status := r.status }

/-- The root is found valid: every block takes the fields it uses (R196). -/
def takeRoot (s : State) (r : Root) : State :=
  { s with
    up := { s.up with holdLimit := r.holdLimit, bounds := some (boundsOf r) }
    mp := { s.mp with sense := if r.even then .even else .odd, check := r.check }
    ct := { s.ct with dirBase := r.dirBase, slotCount := r.slotCount }
    pu := { s.pu with base := r.profileBase }
    ll := { s.ll with bounds := r.bounds, limits := r.limits }
    mm := { s.mm with lossWindow := r.lossWindow, pacing := r.pacing }
    rp := { s.rp with directory := r.reels }
    jc := { s.jc with almostFull := r.almostFull }
    re := { s.re with bufA := r.bufA, bufB := r.bufB, slotCount := r.slotCount }
    ru := { s.ru with base := some r.status, mask := r.mask, interval := r.interval, markCount := 0, dueFault := true } }

/-- LOAD_PROFILES: all 16 profiles become due and are loaded in order (R153). -/
def loadProfiles (s : State) : State :=
  ((s.setSpc { s.spc with part := .starting .loadProfiles }).setPu { s.pu with pending := Vector.replicate 16 true }).puRun
    |>.afterLoads

/-- The root fails: START_FAILED, and the write of the code into the start result word is asked (R197). -/
def rootFail (s : State) (code : Nat) (a : Addr) : State :=
  (s.report .startFailed .start a).askWrite placeSpc (.startResult code) startResultWord (BitVec.ofNat 32 code)

/-- The checks of R196 on the thirty words. Where the root is found valid, the grant at that completion may come first (R191;
log entry 39). -/
def rootCheck (s : State) : State :=
  let r := Root.ofWords s.spc.rootWords
  match r.failure with
  | some code => s.rootFail code 0x00009C
  | none => ((s.grantFirst (fun _ => true)).takeRoot r).loadProfiles

/-- The SPC asks for the next root read (R195). -/
def askRoot (s : State) : State := s.askRead placeSpc .rootRead (wordAt (4 * s.spc.rootWords.length))

/-- The completion of a root read (R195, R196). -/
def rootReadDone (s : State) (d : Delivered) (word : WordAddr) : State :=
  let s1 := s.setSpc { s.spc with rootWords := s.spc.rootWords ++ [d.data] }
  if d.error then s1.rootFail 5 (byteAddr word)
  else if s1.spc.rootWords.length < 30 then s1.askRoot
  else s1.rootCheck

/-! ### Entry to RUNNING and to PASSIVE -/

/-- Entry to RUNNING (R198): pacing starts if the mark state is MARKS_LOST (R86), and the RP serves a pending cue (R102). -/
def enterRunning (s : State) : State :=
  let s1 := (s.setSpc { s.spc with part := .running }).snapshot
  let s2 := if s1.mm.state = .lost then s1.setMm { s1.mm with paceTimer := some s1.mm.pacing } else s1
  s2.servePending

/-- Entry to PASSIVE (R197): the MM stops watching (R88), the RP drops its pending cue (R102), odd sense is in force unchecked
(R188), and a held read's hold timer is stopped (R178). The grant at that completion may come first (R191; log entry 39). -/
def enterPassive (s : State) : State :=
  let s0 := s.grantFirst (fun _ => true)
  let s1 := ((s0.setSpc { s0.spc with part := .passive }).snapshot).loseMarks false none
  ((s1.setRp { s1.rp with pendingCue := none, watching := false }).setMp { s1.mp with sense := .odd, check := false }).stopHold

/-! ### Restart -/

/-- A plain transfer that has arrived in PASSIVE and waits behind held transfers is kept at an accepted restart (R168) and
handed to the MP then, since STARTING holds from the next arrival (R179; log entry 17). -/
def handWaiting (s : State) : State :=
  match s.up.waiting with
  | some ⟨t, .forPort⟩ =>
    (s.setUp { s.up with waiting := some ⟨t, .atPort⟩ }).ask placeAq
      { owner := .passive, op := opOf t, word := wordOfTransfer t }
  | _ => s

/-- The acceptance of a restart (R201), with the model's choices on what is still at the CT (log entry 36) and on a transfer that
waits behind held ones (log entry 17). The grant at that completion may come first (R191; log entry 39). -/
def acceptRestart (s : State) : State :=
  let s0 := s.grantFirst (fun _ => true)
  let s1 := ((s0.setSpc { part := .starting .readRoot, rootWords := [], standbyPending := false }).snapshot).loseMarks true none
  let s2 := (s1.setJc s1.jc.restarted).setRp { s1.rp with
    header := none, unflipped := 0, finalFlipped := false, watching := true }
  let s3 := ((s2.setCt s2.ct.restarted).setPu s2.pu.abandon).discardInFlight Owner.isAbandoned
  let s4 := (s3.withdraw placeSpc).withdraw placeCt
  (s4.setMp { s4.mp with sense := .odd, check := true }).handWaiting.askRoot

/-- The restart word acted on (R200). -/
def actRestart (s : State) : State :=
  if s.spc.part = .passive ∨ s.quiet = true then s.acceptRestart else s.raise .restartRefused

end State

end Sys2Proof.Machine
end

