-- ==== Sys2Proof/Machine/CmdStart.lean ====
section
/-!
DEFINITION. The commands of reset and start: RESET_ASSERTED, RESET_RELEASED (R194), ROOT_READ_COMPLETION (R195),
START_RESULT_WRITE_COMPLETION (R197, R198), PROFILE_READ_COMPLETION (R152) and BLANKING_WRITE_COMPLETION (R53).
-/
namespace Sys2Proof.Machine

/-- What a command answers: every command of the part has a next state. -/
abbrev Result := Host.Outcome State Fault Refusal

/-- Whether a transfer is a partial write (R182). -/
def MemOp.isPartial : MemOp → Bool
  | .read => false
  | .write be _ => be != fullWord

/-- The half of a transfer is in question: a partial write of the arbitrated path whose write has not been found on the bus
before. -/
def InFlight.asksHalf (f : InFlight) : Bool :=
  f.req.owner != .direct && f.req.op.isPartial && f.half == .read

/-- The transfer in flight when reset is asserted goes on at the memory with its result discarded and unchecked; a partial write
whose read is on the bus makes no write (R190). A direct transfer is still answered (R190). `writing` says whether a partial
write's write is found on the bus, which it then stays (log entry 6). -/
def InFlight.atReset (f : InFlight) (writing : Bool) : InFlight :=
  if f.req.owner = .direct then f
  else if f.asksHalf then
    if writing then { f with check := false, discard := true, half := .write }
    else { f with req := { f.req with op := .read }, check := false, discard := true }
  else { f with check := false, discard := true }

/-- Whether the assertion of reset asks the free value of log entry 6. -/
def State.asksFreeValue (s : State) : Bool :=
  match s.mp.inFlight with
  | some f => f.asksHalf
  | none => false

/-- The UP when reset is asserted: the queue and the hold timer are gone, and a strobe the host still holds is taken as a BYPASS
transfer once the memory is free (R180; log entry 7; `State.startDirect`). -/
def State.upAtReset (s : State) : Up :=
  match s.up.waiting with
  | none => { Up.reset with answer := s.up.answer }
  | some w => { Up.reset with waiting := some { xfer := w.xfer, place := .direct } }

/-- The part with reset asserted (R194): every block at its reset values, but for the transfer in flight, the strobe the host
holds, the lighting memory, the commands that wait and the count of free values. -/
def State.assertReset (s : State) : State :=
  { State.reset with
    pending := s.pending
    memory := s.memory
    freeCount := if s.asksFreeValue then s.freeCount + 1 else s.freeCount
    up := s.upAtReset
    mp := { Mp.reset with inFlight := s.mp.inFlight.map (fun f => f.atReset (Config.partialWriteOnBus s.freeCount)) } }

/-- RESET_ASSERTED (R194). A further assertion while reset is asserted has no effect (R190). -/
def execResetAsserted (s : State) : Result :=
  if s.spc.part = .bypass then .next s else .next s.assertReset.settle

/-- The release of reset (R194): STARTING in READ_ROOT, the arbitrated path, the MM and the RP watching, the first root read
asked; the change of part state asks for a snapshot (R206; log entry 13). -/
def State.releaseReset (s : State) : State :=
  let s1 := (s.setSpc { part := .starting .readRoot, rootWords := [], standbyPending := false }).snapshot
  let s2 := (s1.setMm { s1.mm with watching := true }).setRp { s1.rp with watching := true }
  (s2.setMp { s2.mp with path := .arbitrated }).askRoot

/-- RESET_RELEASED (R194). -/
def execResetReleased (s : State) : Result :=
  if s.spc.part = .bypass then .next s.releaseReset.settle else .next s

/-- ROOT_READ_COMPLETION (R195, R196). -/
def execRootReadCompletion (s : State) : Result :=
  .next (s.onCompletion (fun o => o == .rootRead) (fun d f t => t.rootReadDone d f.req.word))

/-- A start result write. -/
def Owner.isStartResult : Owner → Bool
  | .startResult _ => true
  | .rootRead | .profileRead | .blankingWrite | .firstPassWrite | .secondPassWrite | .dirRead | .segRead
  | .walkFlag | .hitFlag | .plainWrite | .plainRead | .baseDrawn | .canvasRead | .passive | .header | .pairRead | .baseReel
  | .status | .direct => false

/-- The start result write has completed: RUNNING after blanking, PASSIVE after a failed root (R197, R198). -/
def State.startResultDone (s : State) (o : Owner) : State :=
  if o = .startResult 0 then s.enterRunning else s.enterPassive

/-- START_RESULT_WRITE_COMPLETION (R197, R198). -/
def execStartResultWriteCompletion (s : State) : Result :=
  .next (s.onCompletion Owner.isStartResult (fun _ f t => t.startResultDone f.req.owner))

/-- PROFILE_READ_COMPLETION (R152). -/
def execProfileReadCompletion (s : State) : Result :=
  .next (s.onCompletion Owner.isProfileRead (fun d _ t => t.profileReadDone d))

/-- BLANKING_WRITE_COMPLETION (R53). -/
def execBlankingWriteCompletion (s : State) : Result :=
  .next (s.onCompletion (fun o => o == .blankingWrite) (fun _ _ t => t.blankingDone))

end Sys2Proof.Machine
end

