-- ==== Sys2Proof/Machine/CmdBus.lean ====
section
/-!
DEFINITION. The commands of the lighting bus, the arrival queue and the memory port: arrival (R169 to R173, R178 to R181), the hold
timer (R172, R173), transfers in PASSIVE and on the direct path (R179, R190), the grant (R185), and the service of the head (R175,
R177).
-/
namespace Sys2Proof.Machine
namespace State

/-! ### Arrival -/

/-- The arrival checks of R169, in order: the fault of the first that fails. -/
def arrivalFault (s : State) (t : HostTransfer) : Option FaultKind :=
  if region t = .unassigned then some .addressRefused
  else if region t = .canvas ∧ isFull t = false then some .partialCanvas
  else if isPlainWrite t && s.up.protects (wordOfTransfer t) then some .protectedWrite
  else none

/-- A refused arrival: error, the fault with origin BUS_TRANSFER, and one REFUSE count (R169). -/
def refuseArrival (s : State) (t : HostTransfer) (k : FaultKind) : State :=
  ((s.refuseHost t).report k .busTransfer t.addr).count .refuse

/-- The hold timer is started with the hold limit (R172, R173). -/
def startHold (s : State) : State := s.setUp { s.up with holdTimer := some s.up.holdLimit }

/-- The transfer is unanswered and stands at a place. -/
def waitAt (s : State) (t : HostTransfer) (p : WaitPlace) : State :=
  s.setUp { s.up with waiting := some { xfer := t, place := p } }

/-- The transfer takes the last place of the queue. -/
def enqueue (s : State) (t : HostTransfer) : State := s.setAq { s.aq with queue := s.aq.queue ++ [t] }

/-- An accepted transfer goes to the AQ: a write is answered on entry (R172), a read waits for its performance with the hold
timer running (R173); with 16 transfers queued either waits for a place. -/
def accept (s : State) (t : HostTransfer) : State :=
  if s.aq.queue.length < 16 then
    if t.write then (s.enqueue t).answerHost true none else ((s.enqueue t).waitAt t .queued).startHold
  else (s.waitAt t .forPlace).startHold

/-- An arrival while the part is RUNNING (R169). -/
def arrive (s : State) (t : HostTransfer) : State :=
  match s.arrivalFault t with
  | some k => s.refuseArrival t k
  | none => s.accept t

/-- An arrival according to the part state (R169, R178 to R181). -/
def arriveIn (s : State) (t : HostTransfer) : State :=
  match s.spc.part with
  | .bypass => if region t = .plain then s.waitAt t .direct else s.refuseHost t
  | .starting _ => s.refuseHost t
  | .running => s.arrive t
  | .passive => if region t = .plain then s.waitAt t .forPort else s.refuseHost t
  | .standby => s.wake.arrive t

/-- The answer lines are free for the transfer that arrives (R167; log entry 24). -/
def clearAnswer (s : State) : State := s.setUp { s.up with answer := none }

end State

/-- TRANSFER_ARRIVAL (R167, R169). The bus carries one transfer at a time: none arrives while one is unanswered. -/
def execTransferArrival (t : HostTransfer) (s : State) : Result :=
  if s.up.waiting.isSome then .next s else .next (s.clearAnswer.arriveIn t).settle

/-! ### The hold timer -/

namespace State

/-- The waiting transfer loses its place: a queued read leaves the queue from the tail (R173). -/
def dropWaiting (s : State) (w : Waiting) : State :=
  if w.place = .queued then s.setAq { s.aq with queue := s.aq.queue.dropLast } else s

/-- The hold limit expires on the waiting transfer (R172, R173). -/
def expireHold (s : State) (w : Waiting) : State :=
  ((((s.dropWaiting w).refuseHost w.xfer).stopHold).report .holdExpired .busTransfer w.xfer.addr).count .hold

end State

/-- HOLD_TIMER_EXPIRY (R172, R173). -/
def execHoldTimerExpiry (s : State) : Result :=
  match s.up.holdTimer, s.up.waiting with
  | some _, some w => .next (s.expireHold w).settle
  | _, _ => .next s

/-! ### Transfers outside the queue -/

namespace State

/-- The answer of a transfer carried in PASSIVE or on the direct path: ready, with the data of a read (R179, R180). -/
def answerCarried (s : State) (f : InFlight) (d : Delivered) : State :=
  s.answerHost true (if f.req.op.isRead then some d.data else none)

/-- Whether a transfer is a full-word write of the restart word (R179). -/
def isRestartWrite (t : HostTransfer) : Bool := controlOf t == some .restart

/-- The completion of a transfer handed to the MP in PASSIVE (R179): the answer, and then the restart word acted on. DESIGN CHOICE,
unsafe (log entry 44): a read that a restart has overtaken, granted with checking on and found in error (R187, R188), is counted as
PARITY by the MP (`State.complete`), answered with ready and its data, and sends no READ_PARITY. -/
def passiveDone (s : State) (f : InFlight) (d : Delivered) : State :=
  match s.up.waiting with
  | some w =>
    let s1 := s.answerCarried f d
    if isRestartWrite w.xfer && s.spc.part == .passive then s1.acceptRestart else s1
  | none => s

end State

/-- PASSIVE_TRANSFER_COMPLETION (R179). -/
def execPassiveTransferCompletion (s : State) : Result :=
  .next (s.onCompletion (fun o => o == .passive) (fun d f t => t.passiveDone f d))

/-- The transfers that end as direct ones: those of the direct path, and, while reset is asserted, the transfer that was in flight
at the assertion, whose result is discarded (R190; log entry 25). -/
def State.endsDirect (s : State) (o : Owner) : Bool := o == .direct || s.spc.part == .bypass

/-- DIRECT_TRANSFER_COMPLETION (R190). -/
def execDirectTransferCompletion (s : State) : Result :=
  .next (s.onCompletion s.endsDirect (fun d f t => t.answerCarried f d))

/-! ### The grant -/

/-- MEMORY_GRANT (R185): with the port free on the arbitrated path and a request waiting. Which of two
requests made at the same moment to a free port is taken first is a free value (log entry 40). -/
def execMemoryGrant (s : State) : Result :=
  match s.grantDue s.mp.held with
  | some _ => .next s.grant.settle
  | none => .next s

/-! ### The head of the queue -/

namespace State

/-- A plain write is taken at the head (R175): the CT takes it against its cache, its walk and its hit, and the AQ asks the MP for
the write. One queued over an accepted restart is served under the new root (R178), with no second check of R169, so it may land
in a frame buffer that has moved, against R52 (log entry 42). -/
def takePlainWrite (s : State) (t : HostTransfer) : State :=
  (s.takeHead.ctHostWrite (wordOfTransfer t)).ask placeAq
    { owner := .plainWrite, op := opOf t, word := wordOfTransfer t }

/-- A plain read is taken at the head (R173, R177). -/
def takePlainRead (s : State) (t : HostTransfer) : State :=
  (s.takeHead.stopHold).askRead placeAq .plainRead (wordOfTransfer t)

/-- A canvas transfer is taken at the head and offered to the CT (R177). -/
def offerCanvas (s : State) (k : ReqKind) (t : HostTransfer) : State :=
  s.setCt { s.ct with offerAq := some { kind := k, canvas := t.addr, value := t.data, discard := false } }

def takeCanvasWrite (s : State) (t : HostTransfer) : State := s.takeHead.offerCanvas .drawnWrite t

def takeCanvasRead (s : State) (t : HostTransfer) : State := (s.takeHead.stopHold).offerCanvas .canvasRead t

/-- The head is taken, if the AQ may take it and it is of the kind named. -/
def takeIf (s : State) (kind : HostTransfer → Bool) (k : HostTransfer → State → State) : State :=
  match s.headToTake with
  | some t => if kind t then (k t s).settle else s
  | none => s

end State

/-- PLAIN_WRITE_TAKEN (R140, R175). -/
def execPlainWriteTaken (s : State) : Result := .next (s.takeIf isPlainWrite (fun t u => u.takePlainWrite t))

/-- PLAIN_READ_TAKEN (R177). -/
def execPlainReadTaken (s : State) : Result := .next (s.takeIf isPlainRead (fun t u => u.takePlainRead t))

/-- CANVAS_WRITE_TAKEN (R177). -/
def execCanvasWriteTaken (s : State) : Result := .next (s.takeIf isCanvasWrite (fun t u => u.takeCanvasWrite t))

/-- CANVAS_READ_TAKEN (R22, R177). -/
def execCanvasReadTaken (s : State) : Result := .next (s.takeIf isCanvasRead (fun t u => u.takeCanvasRead t))

namespace State

/-- The action that the head in service calls for at the completion of its memory write: a full-word control word in RUNNING
(R176), and in PASSIVE the restart word alone (R179). -/
def headAction (s : State) : Option (ControlWord × Word) :=
  match s.aq.queue with
  | t :: _ =>
    match controlOf t with
    | some c =>
      if s.aq.taken && (s.spc.part == .running || (s.spc.part == .passive && c == .restart)) then some (c, t.data) else none
    | none => none
  | [] => none

/-- The completion of a host plain read (R177); its fault carries the host byte address of the word (R182, R189; log
entry 37). -/
def plainReadDone (s : State) (d : Delivered) : State :=
  match s.aq.queue with
  | t :: _ =>
    let s1 := if d.error then s.report .readParity .busTransfer (byteAddr (wordOfTransfer t)) else s
    (s1.answerHost (!d.error) (some d.data)).headLeaves
  | [] => s

end State

/-- PLAIN_WRITE_COMPLETION (R175): the write of a word with no action of its own. -/
def execPlainWriteCompletion (s : State) : Result :=
  if s.headAction.isSome then .next s
  else .next (s.onCompletion (fun o => o == .plainWrite) (fun _ _ t => t.headLeaves))

/-- PLAIN_READ_COMPLETION (R177). -/
def execPlainReadCompletion (s : State) : Result :=
  .next (s.onCompletion (fun o => o == .plainRead) (fun d _ t => t.plainReadDone d))

end Sys2Proof.Machine
end

