-- ==== Sys2Proof/Machine/CmdControl.lean ====
section
/-!
DEFINITION. The control words (R176) and the cue lines (R97). A control word is acted on at the completion of its memory write, at
which the head leaves the queue (R175).
-/
namespace Sys2Proof.Machine
namespace State

/-- The completion of the memory write of a control word that answers to `want`, and the action on its value. Where the head in
service is no such word the command has nothing to complete (log entry 1). -/
def controlDone (s : State) (want : ControlWord → Word → Bool) (act : State → Word → State) : State :=
  match s.headAction with
  | some (c, x) =>
    if want c x then s.onCompletion (fun o => o == .plainWrite) (fun _ _ t => act t.headLeaves x) else s
  | none => s

/-- The report word acted on (R210). -/
def actReport (s : State) : State := (s.setRu { s.ru with dueCounters := some .manual }).snapshot

/-- The acknowledge word acted on (R212). -/
def actAcknowledge (s : State) (x : Word) : State :=
  (s.setRu { s.ru with causes := s.ru.causes &&& ~~~(x.setWidth 7), fault := none, dueFault := true }).snapshot

/-- The standby word acted on (R202). -/
def actStandby (s : State) : State :=
  if s.quiet then s.enterStandby else s.setSpc { s.spc with standbyPending := true }

/-- The play word acted on (R98). -/
def actPlay (s : State) (x : Word) : State :=
  if h : x.toNat < 4 then s.takeCue .playWord ⟨x.toNat, h⟩ else s.ignoreCue .playWord none

/-- A cue on a line, taken while the RP watches (R97, R102). -/
def cueOnLine (s : State) (n : Fin 4) : State :=
  match s.spc.part with
  | .bypass | .passive => s
  | .starting _ => s.setRp { s.rp with pendingCue := some n }
  | .running => s.takeCue .cueLine n
  | .standby => if (tget s.rp.directory n).enabled then s.wake.takeCue .cueLine n else s.ignoreCue .cueLine (some n)

end State

/-- SEAL_WORD (R19, R20). -/
def execSealWord (s : State) : Result :=
  .next (s.controlDone (fun c _ => c == .seal) (fun t x => t.actSeal x))

/-- TAKEOVER (R57): the seal word with the takeover flag set (log entry 16). -/
def execTakeover (s : State) : Result :=
  .next (s.controlDone (fun c x => c == .seal && sealTakeover x) (fun t x => ((t.cancelStandby).sealDrawn x).reelStop))

/-- REPORT_WORD (R210). -/
def execReportWord (s : State) : Result :=
  .next (s.controlDone (fun c _ => c == .report) (fun t _ => t.actReport))

/-- ACKNOWLEDGE_WORD (R212). -/
def execAcknowledgeWord (s : State) : Result :=
  .next (s.controlDone (fun c _ => c == .acknowledge) (fun t x => t.actAcknowledge x))

/-- STANDBY_WORD (R202). -/
def execStandbyWord (s : State) : Result :=
  .next (s.controlDone (fun c _ => c == .standby) (fun t _ => t.actStandby))

/-- PROFILE_RELOAD_WORD (R154). -/
def execProfileReloadWord (s : State) : Result :=
  .next (s.controlDone (fun c _ => c == .profileReload) (fun t x => t.actReload x))

/-- REEL_STOP_WORD (R113). -/
def execReelStopWord (s : State) : Result :=
  .next (s.controlDone (fun c _ => c == .reelStop) (fun t _ => t.reelStop))

/-- RESTART_WORD (R200). -/
def execRestartWord (s : State) : Result :=
  .next (s.controlDone (fun c _ => c == .restart) (fun t _ => t.actRestart))

/-- PLAY_WORD (R98). -/
def execPlayWord (s : State) : Result :=
  .next (s.controlDone (fun c _ => c == .play) (fun t x => t.actPlay x))

/-- CUE_LINE_EDGE (R97). -/
def execCueLineEdge (line : Fin 4) (s : State) : Result :=
  if s.rp.watching then .next (s.cueOnLine line).settle else .next s

end Sys2Proof.Machine
end

