-- ==== Sys2Proof/Machine/CmdCanvas.lean ====
section
/-!
DEFINITION. The commands of the Canvas Translator and of the Journal Controller: the taking of a request (R146), walk reads and
flag-word writes (R132, R133), the hit write-back (R138), grants (R28), and the JC's shown-buffer reads (R17, R23).
-/
namespace Sys2Proof.Machine

namespace State

/-- The CT, if free, takes a waiting request (R146). -/
def takeRequest (s : State) : State :=
  match s.ct.current, s.ct.choice with
  | none, some r =>
    match s.ct.offer r with
    | some q => (s.ctTake r q).settle
    | none => s
  | _, _ => s

/-- A walk's transfer has completed: the walk goes on. -/
def walkOn (s : State) (k : State → CtReq → Walk → State) : State :=
  match s.ct.current, s.ct.walk with
  | some q, some w => k s q w
  | _, _ => s

/-- The hit write-back has completed: the request that hit is handed on (R138). -/
def hitDone (s : State) : State :=
  match s.ct.current, s.ct.hit with
  | some q, some h =>
    match h.result with
    | some t => s.ctHand q t
    | none => s
  | _, _ => s

/-- The waiting entry request that has waited longest is granted an entry, and its write is placed (R28, R13). -/
def grantWaiting (s : State) : State :=
  match s.jc.waiters with
  | r :: rest =>
    match s.jc.staged r, s.jc.target r with
    | some w, some i =>
      if 0 < s.jc.free then
        (((s.setJc { s.jc with waiters := rest }).grantEntry i w).place r w).settle
      else s
    | _, _ => s
  | [] => s

/-- Whether a drawn write waits for a drawn slot (R11). -/
def drawnSlotWaits (s : State) : Bool :=
  match s.jc.drawn with
  | some w => w.wait == .slot
  | none => false

/-- A waiting drawn slot request is granted, and the write is staged into the new batch (R28, R11). -/
def grantDrawnSlot (s : State) : State :=
  match s.jc.drawn with
  | some w => ((s.setJc { s.jc with drawn := none }).openBatch .drawn 1).stageEntry .aq w
  | none => s

/-- A waiting slot request is granted: a drawn one if fewer than 6 drawn batches exist, otherwise a reel one if fewer than 2 reel
batches exist (R28; log entry 33). -/
def grantSlot (s : State) : State :=
  if s.drawnSlotWaits && decide (s.jc.drawnCount < 6) then s.grantDrawnSlot.settle
  else
    match s.jc.reelOpen with
    | some o => if s.jc.reelCount < 2 then (s.openReelBatch o).settle else s
    | none => s

/-- The requester that a base read serves. -/
def baseRequester (o : Owner) : Requester := if o = .baseDrawn then .aq else .rp

end State

/-- CT_REQUEST_TAKEN (R146). -/
def execCtRequestTaken (s : State) : Result := .next s.takeRequest

/-- DIRECTORY_READ_COMPLETION (R132). -/
def execDirectoryReadCompletion (s : State) : Result :=
  .next (s.onCompletion (fun o => o == .dirRead) (fun d _ t => t.walkOn (fun u q k => u.walkReadDone q k d)))

/-- SEGMENT_READ_COMPLETION (R133). -/
def execSegmentReadCompletion (s : State) : Result :=
  .next (s.onCompletion (fun o => o == .segRead) (fun d _ t => t.walkOn (fun u q k => u.walkReadDone q k d)))

/-- FLAG_WORD_WRITE_COMPLETION (R133). -/
def execFlagWordWriteCompletion (s : State) : Result :=
  .next (s.onCompletion (fun o => o == .walkFlag) (fun _ _ t => t.walkOn (fun u q k => u.walkFlagDone q k)))

/-- HIT_WRITE_BACK_COMPLETION (R138). -/
def execHitWriteBackCompletion (s : State) : Result :=
  .next (s.onCompletion (fun o => o == .hitFlag) (fun _ _ t => t.hitDone))

/-- ENTRY_GRANT (R28). -/
def execEntryGrant (s : State) : Result := .next s.grantWaiting

/-- SLOT_GRANT (R28). -/
def execSlotGrant (s : State) : Result := .next s.grantSlot

/-- BASE_READ_COMPLETION (R17). -/
def execBaseReadCompletion (s : State) : Result :=
  .next (s.onCompletion (fun o => o == .baseDrawn || o == .baseReel)
    (fun d f t => t.baseDone (State.baseRequester f.req.owner) d f.req.word))

/-- CANVAS_READ_MEMORY_COMPLETION (R23). -/
def execCanvasReadMemoryCompletion (s : State) : Result :=
  .next (s.onCompletion (fun o => o == .canvasRead) (fun d _ t => t.readBackDone d))

end Sys2Proof.Machine
end

