-- ==== Sys2Proof/Machine/CmdRelease.lean ====
section
/-!
DEFINITION. The commands of the Release Engine (R36, R38, R40, R49), the Mark Monitor (R77 to R81), the Reel Player's reads (R104,
R105) and the Report Unit's writes (R207).
-/
namespace Sys2Proof.Machine

/-- BATCH_TAKEN (R36, R37). -/
def execBatchTaken (s : State) : Result :=
  if s.canTake then .next s.takeBatch.settle else .next s

/-- MEASURE_END (R38). -/
def execMeasureEnd (s : State) : Result :=
  if s.re.state = .measure then .next s.endMeasure.settle else .next s

/-- FIRST_PASS_WRITE_COMPLETION (R40). -/
def execFirstPassWriteCompletion (s : State) : Result :=
  .next (s.onCompletion (fun o => o == .firstPassWrite) (fun _ _ t => t.firstPassDone))

/-- SECOND_PASS_WRITE_COMPLETION (R49). -/
def execSecondPassWriteCompletion (s : State) : Result :=
  .next (s.onCompletion (fun o => o == .secondPassWrite) (fun _ _ t => t.secondPassDone))

namespace State

/-! ### Marks -/

/-- The good count after a frame mark in MARKS_LOST: one more if the loss-window timer is running, otherwise 1 (R78). -/
def goodAfter (s : State) : Nat := if s.mm.lossTimer.isSome then s.mm.good + 1 else 1

/-- The third good frame mark clears the loss and is itself delivered (R78, R91). -/
def clearLoss (s : State) : State :=
  ((s.setMm { s.mm with state := .ok, good := 0, paceTimer := none, lossTimer := some s.mm.lossWindow }).snapshot).deliverMark

/-- A frame mark in MARKS_LOST (R78). -/
def lostFrameMark (s : State) : State :=
  if s.goodAfter = 3 then s.clearLoss
  else s.setMm { s.mm with good := s.goodAfter, lossTimer := some s.mm.lossWindow }

/-- A frame mark taken (R77, R78). -/
def frameMark (s : State) : State :=
  match s.mm.state with
  | .ok => (s.setMm { s.mm with lossTimer := some s.mm.lossWindow }).deliverMark
  | .lost => s.lostFrameMark

/-- The loss declared (R79): MARKS_LOST, LOSS, MARK_LOST, and the pace timer if the part is RUNNING. -/
def declareLoss (s : State) : State :=
  let pace := if s.spc.part = .running then some s.mm.pacing else none
  (((s.setMm { s.mm with state := .lost, good := 0, lossTimer := none, paceTimer := pace }).count .loss).raise
    .markLost).snapshot

/-- The loss-window timer expires (R79, R80). -/
def lossExpiry (s : State) : State :=
  match s.mm.state with
  | .ok => s.declareLoss
  | .lost => s.setMm { s.mm with good := 0, lossTimer := none }

/-- The pace timer expires (R81): it is restarted, and a pace mark is delivered. -/
def paceExpiry (s : State) : State := (s.setMm { s.mm with paceTimer := some s.mm.pacing }).deliverMark

/-! ### Reel reads -/

/-- What a header read at `a` delivers aborts the reel (R104, R116): a parity error, or a record that runs above the plain
window. -/
def headerFails (d : Delivered) (a : Nat) : Bool :=
  d.error || decide (0x7FFFFF < a + 8 * (Header.ofWord d.data a).count)

/-- The completion of a header read (R104). -/
def headerDone (s : State) (d : Delivered) : State :=
  let h := Header.ofWord d.data s.rp.readAddr
  if headerFails d s.rp.readAddr then s.reelAbort
  else
    (s.setRp { s.rp with header := some h, step := .slot }).askReelBatch
      { reel := s.rp.reel.getD 0, frame := s.rp.frame, hold := h.hold }

/-- A header read that a stop has cut off, and that would have aborted the reel, completes: its result is discarded (R113), and
the abort may be the second of the two taken (R117; log entry 38). -/
def meetHeader (s : State) : State :=
  match s.mp.inFlight, s.mp.cut with
  | some f, some a => if f.req.owner = .header ∧ f.discard = true ∧ headerFails (s.delivered f) a = true then s.meetStop else s
  | _, _ => s

/-- A parity error on a pair word sends READ_PARITY with the word's memory address (R106). -/
def reportPair (s : State) (d : Delivered) (a : Nat) : State :=
  if d.error then s.report .readParity .reelUpdate (BitVec.ofNat 24 a) else s

/-- The canvas address of an update is in the canvas window and word-aligned (R105, R221). -/
def updateAddressGood (x : Word) : Bool :=
  decide (0x800000 ≤ x.toNat) && decide (x.toNat ≤ 0xAFFFFF) && decide (x.toNat % 4 = 0)

/-- An update with a canvas address of no use is skipped (R106). -/
def badUpdate (s : State) (i : Nat) : State :=
  ((s.report .reelUpdateBad .reelUpdate (BitVec.ofNat 24 (s.pairAddress i))).count .translate).loadPair (i + 1)

/-- The update is handed to the CT (R105). While a discarded update of a stopped reel is still the CT's request (R136), the RP
keeps the new one back, since its first request has not been answered (R123; log entry 41). -/
def offerUpdate (s : State) (i : Nat) (a v : Word) : State :=
  if s.ct.current.any (fun q => q.kind == .reelUpdate) then s.setRp { s.rp with step := .held i a v } else s.giveUpdate i a v

/-- Both words of pair `i` are in hand (R105, R106). -/
def pairDone (s : State) (i : Nat) (a v : Word) (bad : Bool) : State :=
  if bad then s.loadPair (i + 1)
  else if updateAddressGood a then s.offerUpdate i a v
  else s.badUpdate i

/-- The completion of a read of an update-pair word (R105, R106): after the canvas-address word the value word is read, in error
or not. -/
def pairReadDone (s : State) (d : Delivered) : State :=
  match s.rp.step with
  | .pairAddr i =>
    ((s.reportPair d (s.pairAddress i)).setRp { s.rp with step := .pairValue i d.data d.error }).askRead placeRp .pairRead
      (wordAt (s.pairAddress i + 4))
  | .pairValue i a bad => (s.reportPair d (s.pairAddress i + 4)).pairDone i a d.data (bad || d.error)
  | .none | .header | .slot | .held _ _ _ | .update _ => s

/-! ### Record writes -/

/-- The completion of a record word (R207): the next word is asked, or the record is whole. -/
def statusDone (s : State) : State :=
  match s.ru.writing with
  | some w =>
    let w1 := { w with written := w.written + 1 }
    if w1.written < w1.words.length then (s.setRu { s.ru with writing := some w1 }).askRecordWord w1
    else s.setRu { s.ru with writing := none }
  | none => s

end State

/-- FRAME_MARK (R77, R78). -/
def execFrameMark (s : State) : Result :=
  if s.mm.watching then .next s.frameMark.settle else .next s

/-- LOSS_WINDOW_EXPIRY (R79, R80). -/
def execLossWindowExpiry (s : State) : Result :=
  if s.mm.lossTimer.isSome then .next s.lossExpiry.settle else .next s

/-- PACE_TIMER_EXPIRY (R81). -/
def execPaceTimerExpiry (s : State) : Result :=
  if s.mm.paceTimer.isSome then .next s.paceExpiry.settle else .next s

/-- HEADER_READ_COMPLETION (R104). -/
def execHeaderReadCompletion (s : State) : Result :=
  .next (s.meetHeader.onCompletion (fun o => o == .header) (fun d _ t => t.headerDone d))

/-- UPDATE_PAIR_READ_COMPLETION (R105). -/
def execUpdatePairReadCompletion (s : State) : Result :=
  .next (s.onCompletion (fun o => o == .pairRead) (fun d _ t => t.pairReadDone d))

/-- STATUS_WRITE_COMPLETION (R207). -/
def execStatusWriteCompletion (s : State) : Result :=
  .next (s.onCompletion (fun o => o == .status) (fun _ _ t => t.statusDone))

end Sys2Proof.Machine
end

