-- ==== Sys2Proof/Machine/Dispatch.lean ====
section
/-!
DEFINITION. The dispatcher: one arm per command, each one direct call of its meaning.
-/
namespace Sys2Proof.Machine

def exec (i : Instr) (s : State) : Host.Outcome State Fault Refusal :=
  match i with
  | .resetAsserted => Sys2Proof.Machine.execResetAsserted s
  | .resetReleased => Sys2Proof.Machine.execResetReleased s
  | .rootReadCompletion => Sys2Proof.Machine.execRootReadCompletion s
  | .startResultWriteCompletion => Sys2Proof.Machine.execStartResultWriteCompletion s
  | .profileReadCompletion => Sys2Proof.Machine.execProfileReadCompletion s
  | .blankingWriteCompletion => Sys2Proof.Machine.execBlankingWriteCompletion s
  | .transferArrival t => Sys2Proof.Machine.execTransferArrival t s
  | .holdTimerExpiry => Sys2Proof.Machine.execHoldTimerExpiry s
  | .passiveTransferCompletion => Sys2Proof.Machine.execPassiveTransferCompletion s
  | .directTransferCompletion => Sys2Proof.Machine.execDirectTransferCompletion s
  | .memoryGrant => Sys2Proof.Machine.execMemoryGrant s
  | .plainWriteTaken => Sys2Proof.Machine.execPlainWriteTaken s
  | .plainWriteCompletion => Sys2Proof.Machine.execPlainWriteCompletion s
  | .sealWord => Sys2Proof.Machine.execSealWord s
  | .takeover => Sys2Proof.Machine.execTakeover s
  | .reportWord => Sys2Proof.Machine.execReportWord s
  | .acknowledgeWord => Sys2Proof.Machine.execAcknowledgeWord s
  | .standbyWord => Sys2Proof.Machine.execStandbyWord s
  | .profileReloadWord => Sys2Proof.Machine.execProfileReloadWord s
  | .reelStopWord => Sys2Proof.Machine.execReelStopWord s
  | .restartWord => Sys2Proof.Machine.execRestartWord s
  | .playWord => Sys2Proof.Machine.execPlayWord s
  | .cueLineEdge line => Sys2Proof.Machine.execCueLineEdge line s
  | .canvasWriteTaken => Sys2Proof.Machine.execCanvasWriteTaken s
  | .canvasReadTaken => Sys2Proof.Machine.execCanvasReadTaken s
  | .plainReadTaken => Sys2Proof.Machine.execPlainReadTaken s
  | .plainReadCompletion => Sys2Proof.Machine.execPlainReadCompletion s
  | .ctRequestTaken => Sys2Proof.Machine.execCtRequestTaken s
  | .directoryReadCompletion => Sys2Proof.Machine.execDirectoryReadCompletion s
  | .segmentReadCompletion => Sys2Proof.Machine.execSegmentReadCompletion s
  | .flagWordWriteCompletion => Sys2Proof.Machine.execFlagWordWriteCompletion s
  | .hitWriteBackCompletion => Sys2Proof.Machine.execHitWriteBackCompletion s
  | .entryGrant => Sys2Proof.Machine.execEntryGrant s
  | .slotGrant => Sys2Proof.Machine.execSlotGrant s
  | .baseReadCompletion => Sys2Proof.Machine.execBaseReadCompletion s
  | .canvasReadMemoryCompletion => Sys2Proof.Machine.execCanvasReadMemoryCompletion s
  | .batchTaken => Sys2Proof.Machine.execBatchTaken s
  | .measureEnd => Sys2Proof.Machine.execMeasureEnd s
  | .firstPassWriteCompletion => Sys2Proof.Machine.execFirstPassWriteCompletion s
  | .secondPassWriteCompletion => Sys2Proof.Machine.execSecondPassWriteCompletion s
  | .frameMark => Sys2Proof.Machine.execFrameMark s
  | .lossWindowExpiry => Sys2Proof.Machine.execLossWindowExpiry s
  | .paceTimerExpiry => Sys2Proof.Machine.execPaceTimerExpiry s
  | .headerReadCompletion => Sys2Proof.Machine.execHeaderReadCompletion s
  | .updatePairReadCompletion => Sys2Proof.Machine.execUpdatePairReadCompletion s
  | .statusWriteCompletion => Sys2Proof.Machine.execStatusWriteCompletion s

end Sys2Proof.Machine
end

