-- ==== Sys2Proof/Safety.lean ====
section
/-!
DEFINITION. The terms in which claims about the part are stated: what a command leaves unchanged, the invariants of its state, and the
conditions under which a completion command finds its transfer.
-/
namespace Sys2Proof.Machine

/-- The parts of State, block by block. -/
inductive Block where
  | pending | spc | up | aq | jc | re | ll | mm | rp | ct | pu | mp | ru | memory | freeCount
deriving DecidableEq, Repr

/-- Some batch can still free something (R25): it is SEALED and eligible, or in the Release Engine. -/
abbrev Jc.mayFree (j : Jc) (p : Player) : Prop :=
  ∃ i, ∃ b ∈ j.at i, b.inRelease = true ∨ (b.phase = .sealed ∧ (b.isReel = true ∨ p = .idle))

/-- The bits `hi` to `lo` of a word as a number (R213). -/
def field (x : Word) (hi lo : Nat) : Nat := (x.extractLsb' lo (hi - lo + 1)).toNat

/-- The first byte of an area that a root gives: frame buffer A, frame buffer B, the status area (R196). -/
def Root.areaFirst (r : Root) : Fin 3 → Nat
  | 0 => r.bufA
  | 1 => r.bufB
  | 2 => r.status

/-- The last byte of the area (R196). -/
def Root.areaLast (r : Root) : Fin 3 → Nat
  | 0 => r.bufA + 4 * r.slotCount - 1
  | 1 => r.bufB + 4 * r.slotCount - 1
  | 2 => r.status + 127

/-- The area lies within 0x000100 to 0x7FFFFF (R196). -/
abbrev Root.area (r : Root) (k : Fin 3) : Prop := 0x100 ≤ r.areaFirst k ∧ r.areaLast k ≤ 0x7FFFFF

/-- Two areas share no byte (R196). -/
abbrev Root.apart (r : Root) (i k : Fin 3) : Prop := r.areaLast i < r.areaFirst k ∨ r.areaLast k < r.areaFirst i

/-- A batch has one entry for a frame slot, which answers a lookup with its shown value if present, and with its value otherwise
(R3, R15). -/
abbrev Batch.answers (b : Batch) (f : Nat) (v : Stored) : Prop :=
  ∃ e ∈ b.entries, e.frameSlot = f ∧ (∀ x ∈ b.entries, x.frameSlot = f → x = e)
    ∧ (e.shown = some v ∨ (e.shown = none ∧ e.value = some v))

/-- A batch holds no value for a frame slot. -/
abbrev Batch.silent (b : Batch) (f : Nat) : Prop :=
  ∀ e ∈ b.entries, e.frameSlot = f → e.shown = none ∧ e.value = none

/-! ### The port, as a claim writes it -/

/-- The port when its transfer has completed: the grant that follows it is due (R185; log entry 40). -/
def Mp.freed (m : Mp) : Mp := { m with inFlight := none, cut := none, completing := true }

/-- The port with a request asked in a place; a new request has been passed over by no grant (R184, R185). -/
def Mp.asking (m : Mp) (p : Place) (r : Request) : Mp :=
  { m with requests := tset m.requests p (some r), passed := tset m.passed p 0 }

/-- The port with the request of a place withdrawn (R184). -/
def Mp.withdrawn (m : Mp) (p : Place) : Mp :=
  { m with requests := tset m.requests p none, passed := tset m.passed p 0 }

/-- The places that take part in the grant due, and the count of free values after it (R185; log entry 40): all that hold a
request, where the grant follows a completion or one request alone waits; and of requests made at the same moment to a free
port, the one taken first. -/
abbrev Mp.takesPart (m : Mp) (count : Nat) (takes : Place → Prop) (n : Nat) : Prop :=
  (n = count ∧ (∀ q, takes q ↔ tget m.requests q ≠ none)
      ∧ (m.completing = true ∨ ∃ p, ∀ q, q ≠ p → tget m.requests q = none))
    ∨ (n = count + 1 ∧ m.completing = false ∧ (∃ p q, p ≠ q ∧ tget m.requests p ≠ none ∧ tget m.requests q ≠ none)
      ∧ tget m.requests (Config.takenFirst count) ≠ none ∧ ∀ q, takes q ↔ q = Config.takenFirst count)

/-- The place that is granted among those that take part (R185). -/
abbrev Mp.isFirst (m : Mp) (takes : Place → Prop) (p : Place) : Prop :=
  takes p ∧ ((tget m.passed p = 8 ∧ ∀ q, q < p → takes q → tget m.passed q ≠ 8)
    ∨ ((∀ q, takes q → tget m.passed q ≠ 8) ∧ ∀ q, q < p → ¬takes q))

/-- The port `t` after the grant of the request `r` in place `p` among those that take part (R182, R185, R186, R188). -/
abbrev Mp.grants (m : Mp) (takes : Place → Prop) (p : Place) (r : Request) (t : Mp) : Prop :=
  t.requests = tset m.requests p none
    ∧ t.inFlight = some { req := r, sense := if 4 * r.word.toNat < 0x100 then .odd else m.sense
                          check := m.check, discard := false
                          half := match r.op with
                            | .read => .read
                            | .write be _ => if be = fullWord then .write else .read }
    ∧ tget t.passed p = 0
    ∧ (∀ q, q ≠ p → takes q → tget t.passed q = min 8 (tget m.passed q + 1))
    ∧ (∀ q, q ≠ p → ¬takes q → tget m.requests q ≠ none → tget t.passed q = tget m.passed q)
    ∧ (∀ q, q ≠ p → tget m.requests q = none → tget t.passed q = 0)
    ∧ t.completing = false ∧ t.sense = m.sense ∧ t.check = m.check ∧ t.path = m.path ∧ t.cut = m.cut

def readOf (o : Owner) (w : WordAddr) : Request := { owner := o, op := .read, word := w }
def writeOf (o : Owner) (w : WordAddr) (x : Word) : Request := { owner := o, op := .write fullWord x, word := w }

/-- Every due profile VOID with all fields 0, and none pending (R151). -/
def Pu.allVoid (u : Pu) : Pu :=
  { u with
    store := Vector.ofFn (fun p => if tget u.pending p then { valid := false, fields := Profile.zero } else tget u.store p)
    pending := Vector.replicate 16 false }

/-- With no load in progress, `v` is what is left of `u` when no further load begins (R151, R152): `u` itself if no profile is
due, and all due profiles VOID if the record of the due profile with the smallest number lies above the plain window. -/
abbrev Pu.restDone (u v : Pu) : Prop :=
  ((∀ p, tget u.pending p = false) ∧ v = u)
  ∨ ((∃ p, tget u.pending p = true ∧ (∀ q, q < p → tget u.pending q = false) ∧ 0x7FFFFF < u.base + 8 * p.val + 4)
      ∧ v = u.allVoid)

namespace State

/-- Two states agree on a block. -/
def agree (b : Block) (s t : State) : Prop :=
  match b with
  | .pending => t.pending = s.pending
  | .spc => t.spc = s.spc
  | .up => t.up = s.up
  | .aq => t.aq = s.aq
  | .jc => t.jc = s.jc
  | .re => t.re = s.re
  | .ll => t.ll = s.ll
  | .mm => t.mm = s.mm
  | .rp => t.rp = s.rp
  | .ct => t.ct = s.ct
  | .pu => t.pu = s.pu
  | .mp => t.mp = s.mp
  | .ru => t.ru = s.ru
  | .memory => t.memory = s.memory
  | .freeCount => t.freeCount = s.freeCount

/-- From `s` to `t` nothing changes outside the blocks listed. -/
def changesOnly (s t : State) (bs : List Block) : Prop :=
  ∀ b, b ∉ bs → agree b s t

/-- The transfer in flight is `f`, of this owner, and what it delivers is not to be discarded. -/
abbrev inFlightFor (s : State) (f : InFlight) (o : Owner) : Prop :=
  s.mp.inFlight = some f ∧ f.req.owner = o ∧ f.discard = false

/-- The head of the queue is `t`, in service, and the memory write it has asked is in flight (R175). -/
abbrev headWriting (s : State) (f : InFlight) (t : HostTransfer) : Prop :=
  s.mp.inFlight = some f ∧ f.req = { owner := .plainWrite, op := .write t.be t.data, word := wordOfTransfer t }
    ∧ f.discard = false ∧ s.aq.queue.head? = some t ∧ s.aq.taken = true

/-- The head of the queue is `t`, and the AQ may take it, its place in the arbiter serving no transfer handed over in PASSIVE
(R171, R178, R184). -/
abbrev headReady (s : State) (t : HostTransfer) : Prop :=
  s.aq.queue.head? = some t ∧ s.aq.taken = false ∧ (∀ w ∈ s.up.waiting, w.place ≠ .atPort)
    ∧ (s.spc.part = .running ∨ s.spc.part = .passive)

/-- The read in flight fails its check (R187). -/
def readError (s : State) (f : InFlight) : Bool := f.check && s.memory.badWord f.sense f.req.word

/-- The data a read in flight delivers (R182). -/
def dataOf (s : State) (f : InFlight) : Word := s.memory.readWord f.req.word

/-- The Report Unit after the completion of a read: one PARITY count for an error (R187). -/
def ruAfterRead (s : State) (f : InFlight) : Ru := if s.readError f then s.ru.count .parity else s.ru

/-- The queue when its head has left: the next transfers, and behind them one that waited for a place (R171, R172, R173). -/
def nextQueue (s : State) : Aq :=
  match s.up.waiting with
  | some ⟨u, .forPlace⟩ => { queue := s.aq.queue.tail ++ [u], taken := false }
  | _ => { queue := s.aq.queue.tail, taken := false }

/-- The UP when the head has left: a write that waited for a place is answered with ready and its hold timer stopped; a read that
waited is queued, its timer running on (R172, R173). -/
def nextUp (s : State) : Up :=
  match s.up.waiting with
  | some ⟨u, .forPlace⟩ =>
    if u.write then { s.up with waiting := none, answer := some { ready := true, data := none }, holdTimer := none }
    else { s.up with waiting := some ⟨u, .queued⟩ }
  | _ => s.up

/-- The answer of a refused transfer: error, with zero data for a read (R167). -/
def errorAnswer (t : HostTransfer) : Answer := { ready := false, data := if t.write then none else some 0 }

/-- The SPC when a seal word, a drawn write or a cue has cancelled a pending standby (R202). -/
def spcCancelled (s : State) : Spc := { s.spc with standbyPending := false }

/-- The Report Unit after that: STANDBY_CANCELLED raised if a standby was pending (R202). -/
def ruCancelled (s : State) : Ru := if s.spc.standbyPending then s.ru.raise .standbyCancelled else s.ru

/-- The MM forced to MARKS_LOST, both timers stopped or the pace timer given (R87 to R90). -/
def marksForced (s : State) (watching : Bool) (pace : Option Nat) : Mm :=
  { s.mm with state := .lost, good := 0, lossTimer := none, paceTimer := pace, watching := watching }

/-- The RP at the start of a play of reel `n` (R99), its header read asked. -/
def rpStarted (s : State) (n : Fin 4) : Rp :=
  { s.rp with reel := some n, frame := 0, plays := 0, readAddr := (tget s.rp.directory n).start, unflipped := 0,
              finalFlipped := false, state := .loading, step := .header }

/-- The slot of a reel batch at a reel stop: OPEN and SEALED ones are discarded (R31), and one taken and not yet flipped has its
hold set to 1 (R43). -/
def stoppedSlot : Option Batch → Option Batch
  | none => none
  | some b =>
    if b.isDrawn then some b
    else if b.phase = .opened ∨ b.phase = .sealed then none
    else if b.phase = .secondPass then some b
    else some { b with hold := 1 }

/-- The header address that a reel stop keeps for its moment, where an abort there can be the second of the two taken (R117; log
entry 38): in WAITING before an address above the plain window, if a mark would flip a reel batch now (R43, R44), and in LOADING
with the header read in flight. -/
def cutAtStop (s : State) : Option Nat :=
  if (s.rp.state = .waiting ∧ 0x7FFFFC < s.rp.readAddr ∧ s.re.state = .armed ∧ s.re.hold = 0
        ∧ ∃ i ∈ s.re.current, ∃ b ∈ s.jc.at i, b.isReel = true)
      ∨ (s.rp.state = .loading ∧ s.mp.headerFlying = true)
    then some s.rp.readAddr
  else none

/-- The RP after a reel stop (R113). -/
def rpStopped (s : State) : Rp :=
  { s.rp with state := if s.jc.reelInRelease then .stopping else .idle
              pendingCue := none, unflipped := 0, finalFlipped := false, header := none, step := .none, endedDue := false }

/-- The state in which the reel stop is taken: the header address kept for its moment (log entry 38), and the grant at the
completion that brings it made before it or not, where it would choose the RP's request (R191; log entry 39). -/
def atStop (s : State) : State :=
  State.grantFirst { s with mp := { s.mp with cut := s.cutAtStop } } (fun p => p == placeRp)

/-- From `s` to `t` a reel stop is taken and nothing else (R113): the RP is stopped, the hold remaining is 0 (R43), the OPEN and
SEALED reel batches are gone (R31), and what the RP and the JC asked for the reel is withdrawn (R18, R136, R165, R184), an
update that the CT has not taken included (log entry 19); a read in flight for it is to be discarded. A change of player state
asks for a snapshot (R95). -/
def stoppedFrom (s t : State) : Prop :=
  t.rp = s.rpStopped ∧ t.re = { s.re with hold := 0 }
    ∧ (∀ i, t.jc.at i = stoppedSlot (s.jc.at i))
    ∧ t.jc = { s.jc with slots := t.jc.slots, lowFlag := s.jc.lowFlag && decide (t.jc.free ≤ s.jc.almostFull), reel := none
                         reelOpen := none, waiters := s.jc.waiters.filter (fun r => r != .rp) }
    ∧ t.mp = { s.mp.withdrawn placeRp with
        inFlight := s.mp.inFlight.map (fun f =>
          if f.req.owner ∈ [Owner.header, .pairRead, .baseReel] then { f with discard := true } else f) }
    ∧ t.ct = { s.ct with offerRp := none, current := t.ct.current }
    ∧ (∀ q, s.ct.current = some q →
        t.ct.current = some (if q.kind = .reelUpdate then { q with discard := true } else q))
    ∧ (s.ct.current = none → t.ct.current = none)
    ∧ t.pu = { s.pu with heldReel := none }
    ∧ t.ru = (if s.rp.state = s.rpStopped.state then s.ru else { s.ru with dueStatus := true })
    ∧ t.pending = s.pending ∧ t.spc = s.spc ∧ t.up = s.up ∧ t.aq = s.aq ∧ t.ll = s.ll ∧ t.mm = s.mm
    ∧ t.memory = s.memory ∧ t.freeCount = s.freeCount

/-- The part is quiet (R193). -/
abbrev partQuiet (s : State) : Prop :=
  s.re.state = .idle ∧ s.rp.state = .idle ∧ s.rp.pendingCue = none ∧ s.jc.inUse = 0

/-- Entry to STANDBY (R203, R89); a transfer still queued ends it at once (R181, R204, R90). -/
def standbyEntered (s : State) : State :=
  { s with
    spc := { s.spc with part := if s.aq.queue = [] then .standby else .running, standbyPending := false }
    mm := if s.aq.queue = [] then s.marksForced false none else s.marksForced true (some s.mm.pacing)
    ru := { s.ru with dueStatus := true } }

/-- A waiting drawn write goes on waiting, or is granted, when the table is `j` (R25, R28); `ws` are the entry requests that
wait. -/
abbrev drawnStays (s : State) (ws : List Requester) (j : Jc) : Prop :=
  ∀ w ∈ s.jc.drawn, w.wait = .base ∨ (w.wait = .slot ∧ j.drawnCount < 6) ∨ (w.wait = .entry ∧ .aq ∈ ws.take j.free)
    ∨ j.mayFree s.rp.state

/-- A waiting reel update goes on waiting, or is granted, when the table is `j` (R25, R28). -/
abbrev reelStays (s : State) (ws : List Requester) (j : Jc) : Prop :=
  ∀ w ∈ s.jc.reel, w.wait ≠ .entry ∨ .rp ∈ ws.take j.free ∨ j.mayFree s.rp.state

/-- A drawn write is dropped (R26): JOURNAL_OVERFLOW with its canvas address, one OVERFLOW count, and the head leaves. -/
def drawnDropped (s : State) (a : Addr) : State :=
  { s with
    jc := { s.jc with drawn := none, waiters := s.jc.waiters.filter (fun r => r != .aq) }
    pu := { s.pu with heldDrawn := none }
    ru := (s.ru.report .journalOverflow .drawnWrite a).count .overflow
    aq := s.nextQueue, up := s.nextUp }

/-- The entry request of reel update `n` of the frame in loading fails (R27, R107): one OVERFLOW count, and REEL_TRUNCATED with
the memory address of the update's pair. -/
def reelFailed (s : State) (h : Header) (n : Nat) : State :=
  { s with
    jc := { s.jc with reel := none, waiters := s.jc.waiters.filter (fun r => r != .rp) }
    pu := { s.pu with heldReel := none }
    ru := (s.ru.count .overflow).report .reelTruncated .reelUpdate (BitVec.ofNat 24 (h.addr + 4 + 8 * n)) }

/-- The JC at the acceptance of a restart (R201). -/
def jcRestarted (s : State) : Jc :=
  { s.jc with
    slots := match s.jc.openDrawn with
      | some i => tset s.jc.slots i none
      | none => s.jc.slots
    sealCounter := 0, lowFlag := false }

/-- The PU at the acceptance of a restart (R150, R201). -/
def puRestarted (s : State) : Pu :=
  { s.pu with
    store := match s.pu.load with
      | some l => tset s.pu.store l.profile { tget s.pu.store l.profile with valid := false }
      | none => s.pu.store
    pending := Vector.replicate 16 false, load := none }

/-- The acceptance of a restart (R201): every block takes what the table gives it, the requests of the PU and of the CT are
withdrawn (R183, R184; that a request at the CT is abandoned is log entry 36), and the first root read is asked. -/
def restarted (s : State) : State :=
  { s with
    spc := { part := .starting .readRoot, rootWords := [], standbyPending := false }
    ru := { s.ru with dueStatus := true }, mm := s.marksForced true none, jc := s.jcRestarted, pu := s.puRestarted
    ct := { s.ct with cache := [], current := none, walk := none, hit := none }
    rp := { s.rp with header := none, unflipped := 0, finalFlipped := false, watching := true }
    mp := { (s.mp.withdrawn placeCt).asking placeSpc (readOf .rootRead (wordAt 0)) with
      sense := .odd, check := true
      inFlight := s.mp.inFlight.map (fun f =>
        if f.req.owner ∈ [Owner.profileRead, .dirRead, .segRead, .walkFlag, .hitFlag] then { f with discard := true } else f) } }

/-- Checks 4 to 6 of R128 pass for a pixel of a segment, and give this translation (R129, R130): frame slot, rail group and the
fields of the segment's profile. -/
abbrev translates (s : State) (f : SegFields) (pixel : Nat) (t : Translation) : Prop :=
  1 ≤ f.length ∧ f.length ≤ 64 ∧ f.slotBase + f.length ≤ s.ct.slotCount ∧ (pixel < f.length ∨ f.ring = true)
    ∧ t.frameSlot = (if f.reverse then f.slotBase + f.length - 1 - pixel % f.length else f.slotBase + pixel % f.length)
    ∧ t.rail = s.ll.railGroup t.frameSlot
    ∧ tget s.pu.pending f.profile = false ∧ (tget s.pu.store f.profile).valid = true
    ∧ t.profile = (tget s.pu.store f.profile).fields

/-- The first of checks 4 to 6 of R128 that fails for a pixel of a segment gives this fault. -/
abbrev translationFails (s : State) (f : SegFields) (pixel : Nat) (k : FaultKind) : Prop :=
  if ¬(1 ≤ f.length ∧ f.length ≤ 64 ∧ f.slotBase + f.length ≤ s.ct.slotCount) then k = .segmentBad
  else if ¬(pixel < f.length ∨ f.ring = true) then k = .pixelBeyond
  else tget s.pu.pending f.profile = false ∧ (tget s.pu.store f.profile).valid = false ∧ k = .profileVoid

/-- Checks 4 and 5 of R128 pass for a pixel of a segment, and the question for its profile is held: the profile is pending (R130,
R155). -/
abbrev asksProfile (s : State) (f : SegFields) (pixel : Nat) : Prop :=
  1 ≤ f.length ∧ f.length ≤ 64 ∧ f.slotBase + f.length ≤ s.ct.slotCount ∧ (pixel < f.length ∨ f.ring = true)
    ∧ tget s.pu.pending f.profile = true

/-- The CT when its request has ended (R123). -/
def ctIdle (s : State) : Ct := { s.ct with current := none, walk := none, hit := none }

/-- The state when the CT's request has ended whose result is discarded (R136): an update that the RP has kept back meanwhile is
now its request (R123). -/
def discardEnded (s : State) : State :=
  match s.rp.step with
  | .held n a v => { s with
      rp := { s.rp with step := .update n }
      ct := { s.ctIdle with
        offerRp := some { kind := .reelUpdate, canvas := a.setWidth 24, value := v, discard := false } } }
  | .none | .header | .slot | .pairAddr _ | .pairValue _ _ _ | .update _ => { s with ct := s.ctIdle }

/-- A step of the part's own can still follow in the same moment: the AQ takes its head (R175, R178), the CT a waiting request
(R146), or the JC grants a waiting entry or slot request (R28). -/
abbrev canFollow (s : State) : Prop :=
  (∃ t ∈ s.aq.queue.head?, s.headReady t)
    ∨ (s.ct.current = none ∧ (s.ct.offerAq ≠ none ∨ s.ct.offerRp ≠ none))
    ∨ (s.jc.waiters ≠ [] ∧ 0 < s.jc.free)
    ∨ ((∃ w ∈ s.jc.drawn, w.wait = .slot) ∧ s.jc.drawnCount < 6)
    ∨ (s.jc.reelOpen ≠ none ∧ s.jc.reelCount < 2)

/-- The cache with an entry made the most recent (R137): an entry of its key leaves its place, and of more than 16 the least
recent is forgotten. -/
def cacheWith (c : List CacheEntry) (e : CacheEntry) : List CacheEntry :=
  (e :: c.filter (fun x => !(x.zone == e.zone && x.segment == e.segment))).take 16

/-- The cache after a walk that reached step 2 of R133: filled, unless the walk is stale (R134, R137, R139, R143). -/
def cacheFilled (s : State) (q : CtReq) (k : Walk) : List CacheEntry :=
  if k.stale then s.ct.cache
  else cacheWith s.ct.cache
    { zone := zoneOf q.canvas, segment := segmentOf q.canvas, fields := SegFields.ofWords k.seg1 k.seg2, sources := k.sources
      known := (SegFields.ofWords k.seg1 k.seg2).changed || k.wroteChanged }

/-- The walk when it asks for the read of a word: the word is a source word, and a plain write of it taken and not yet in memory
makes the walk stale (R142). -/
def walkAsking (s : State) (k : Walk) (step : WalkStep) (w : WordAddr) : Walk :=
  { k with step := step, sources := k.sources ++ [w], stale := k.stale || s.writeInService w }

/-- The JC when a drawn write has been placed in the entry it has in the OPEN drawn batch (R14). -/
def jcPlaced (s : State) (i : Fin 8) (b : Batch) (f : Nat) (v : Stored) : Jc :=
  { s.jc with
    slots := tset s.jc.slots i
      (some { b with entries := b.entries.map (fun e => if e.frameSlot = f then { e with value := some v } else e) })
    drawn := none, waiters := s.jc.waiters.filter (fun r => r != .aq) }

/-- A new entry with its value (R13, R14). -/
def entryOf (w : Staged) (v : Stored) : Entry :=
  { frameSlot := w.frameSlot, rail := w.rail, value := some v, shown := none, newLoad := none }

/-- The allocation of one more entry raises JOURNAL_LOW (R29). -/
def lowNow (s : State) : Bool :=
  s.jc.almostFull != 0 && decide (512 - (s.jc.inUse + 1) ≤ s.jc.almostFull) && !s.jc.lowFlag

/-- The JC and the RU when one more entry has been granted, the last of the batch of slot `i` (R13, R29). -/
def granted (s : State) (i : Fin 8) (b : Batch) (e : Entry) : State :=
  { s with
    jc := { s.jc with
      slots := tset s.jc.slots i (some { b with entries := b.entries ++ [e] }), lowFlag := s.jc.lowFlag || s.lowNow }
    ru := if s.lowNow then s.ru.raise .journalLow else s.ru }

/-- A requester stages into the batch `b` of slot `i` (R11, R12). -/
abbrev stagesInto (s : State) (r : Requester) (i : Fin 8) (b : Batch) : Prop :=
  (match r with | .aq => s.jc.openDrawn | .rp => s.jc.openReel) = some i ∧ s.jc.at i = some b

/-- The value written into the entry of an OPEN batch, which completes placement (R14); the AQ's head leaves. -/
def drawnPlaced (s : State) (i : Fin 8) (b : Batch) (f : Nat) (v : Stored) : State :=
  { s with
    jc := s.jcPlaced i b f v, pu := { s.pu with heldDrawn := none }, aq := s.nextQueue, up := s.nextUp }

/-- The same for a reel update, before the RP goes on (R14). -/
def reelPlaced (s : State) (i : Fin 8) (b : Batch) (f : Nat) (v : Stored) : State :=
  { s with
    jc := { s.jc with
      slots := (s.jcPlaced i b f v).slots, reel := none, waiters := s.jc.waiters.filter (fun r => r != .rp) }
    pu := { s.pu with heldReel := none } }

/-- The staged write that a translated write becomes (R10, R165). -/
def stagedOf (q : CtReq) (t : Translation) : Staged :=
  { view := viewOf q.canvas, frameSlot := t.frameSlot, rail := t.rail, canvas := q.canvas
    payload := match t.profile.finished (viewOf q.canvas) (Pixel.ofWord q.value) with
      | some v => .finished v
      | none => .combine
    wait := .entry }

/-- The write that the PU holds until its base value comes, where it forms no finished value (R165). -/
def heldFor (q : CtReq) (t : Translation) (old : Option HeldWrite) : Option HeldWrite :=
  if (t.profile.finished (viewOf q.canvas) (Pixel.ofWord q.value)).isSome then old
  else some { view := viewOf q.canvas, value := Pixel.ofWord q.value, profile := t.profile }

/-- A translated drawn write has reached the JC: the CT is free, the PU holds the write if it needs a base value, and a pending
standby is cancelled (R10, R123, R165, R202). -/
def drawnHanded (s : State) (q : CtReq) (t : Translation) : State :=
  { s with
    ct := s.ctIdle, pu := { s.pu with heldDrawn := heldFor q t s.pu.heldDrawn }
    spc := s.spcCancelled, ru := s.ruCancelled }

/-- A translated reel update has reached the JC (R123, R165). -/
def reelHanded (s : State) (q : CtReq) (t : Translation) : State :=
  { s with ct := s.ctIdle, pu := { s.pu with heldReel := heldFor q t s.pu.heldReel } }

/-- The OPEN reel batch of slot `i` sealed, whatever its entry count, and the frame's loading over (R7, R21, R108). -/
def frameSealed (s : State) (i : Fin 8) (b : Batch) : State :=
  { s with
    jc := { s.jc with
      slots := tset s.jc.slots i (some { b with phase := .sealed, sealOrder := some s.jc.sealCounter })
      sealCounter := s.jc.sealCounter + 1 }
    rp := { s.rp with header := none, step := .none } }

/-- The command `c` delivers a mark (R83), at which the MM leaves `u`: a frame mark in MARKS_OK (R77), the third good frame mark
of a run, which clears the loss (R78), or a pace mark (R81). -/
abbrev delivers (s : State) (c : Instr) (u : State) : Prop :=
  (c = .frameMark ∧ s.mm.watching = true ∧ s.mm.state = .ok ∧ u = { s with mm := { s.mm with lossTimer := some s.mm.lossWindow } })
  ∨ (c = .frameMark ∧ s.mm.watching = true ∧ s.mm.state = .lost ∧ s.mm.lossTimer ≠ none ∧ s.mm.good = 2
      ∧ u = { s with
          mm := { s.mm with state := .ok, good := 0, paceTimer := none, lossTimer := some s.mm.lossWindow }
          ru := { s.ru with dueStatus := true } })
  ∨ (c = .paceTimerExpiry ∧ s.mm.paceTimer ≠ none ∧ u = { s with mm := { s.mm with paceTimer := some s.mm.pacing } })

/-- A delivered mark counts a slip (R45). -/
abbrev slips (s : State) : Prop :=
  s.re.state = .measure ∨ s.re.state = .firstPass ∨ ((s.re.state = .idle ∨ s.re.state = .secondPass) ∧ s.eligibleExists = true)

/-- The Report Unit after a delivered mark (R210): with N at 0 as it was; below N the mark count rises; at N it returns to 0 and
an automatic transfer is asked for, which a manual one already due takes in. -/
def ruMarked (n : Nat) (u : Ru) : Ru :=
  if n = 0 then u
  else if u.markCount + 1 < n then { u with markCount := u.markCount + 1 }
  else { u with markCount := 0, dueCounters := if u.dueCounters = some .manual then some .manual else some .automatic }

/-- The Report Unit after a delivered mark that flips nothing, at a Release Engine that takes marks (R45, R210). -/
def ruDelivered (s : State) : Ru :=
  ruMarked s.ru.interval (if s.slips then s.ru.count .slip else s.ru)

/-- A word of a frame buffer (R40, R49). -/
def bufferWord (s : State) (x : Buf) (f : Nat) : WordAddr :=
  wordAt ((match x with | .a => s.re.bufA | .b => s.re.bufB) + 4 * f)

/-- The other buffer. -/
def otherBuf (x : Buf) : Buf := match x with | .a => .b | .b => .a

/-- The slot `i` holds an eligible batch whose seal order is smaller than that of every other eligible one (R35, R36). -/
abbrev takesNext (s : State) (i : Fin 8) (b : Batch) : Prop :=
  s.jc.at i = some b ∧ b.phase = .sealed ∧ (b.isReel = true ∨ s.rp.state = .idle)
    ∧ ∀ k, k ≠ i → ∀ c ∈ s.jc.at k, c.phase = .sealed → (c.isReel = true ∨ s.rp.state = .idle) →
        b.sealOrder.getD 0 < c.sealOrder.getD 0

/-- The derate levels of a batch (R69): for each group with an entry the smallest of 0 to 8 at which its total less the removed
sum plus the added sum is at most its limit (the removed sum stands on the other side), and 0 for a group without one. -/
abbrev levelsFit (s : State) (b : Batch) (d : Vector Nat 8) : Prop :=
  ∀ g : Fin 8,
    if ∃ e ∈ b.entries, e.rail = g then
      tget d g ≤ 8 ∧ tget s.ll.totals g + b.addedSum g (tget d g) ≤ tget s.ll.limits g + s.ll.removedSum b g
        ∧ ∀ c, c < tget d g → ¬(tget s.ll.totals g + b.addedSum g c ≤ tget s.ll.limits g + s.ll.removedSum b g)
    else tget d g = 0

/-- The JC with one slot's batch replaced. -/
def jcWith (s : State) (i : Fin 8) (b : Option Batch) : Jc := { s.jc with slots := tset s.jc.slots i b }

/-- The JC when the batch of slot `i` has retired (R29, R30): its slot is FREE, and the low flag clears with the free count
above the offset. -/
def jcRetired (s : State) (i : Fin 8) : Jc :=
  { s.jcWith i none with lowFlag := s.jc.lowFlag && decide ((s.jcWith i none).free ≤ s.jc.almostFull) }

/-- The RE has taken the batch `b` of slot `i`, with the next release number (R36, R37); a batch of 0 entries is measured at
once (R38, R41). -/
def taken (s : State) (i : Fin 8) (b : Batch) : State :=
  if b.entries = [] then
    { s with
      jc := s.jcWith i (some { b with
        phase := .armed, release := some (s.re.lastRelease + 1), derate := some (Vector.replicate 8 0)
        removed := some (Vector.replicate 8 0), added := some (Vector.replicate 8 0) })
      re := { s.re with state := .armed, current := some i, lastRelease := s.re.lastRelease + 1, position := 0 } }
  else
    { s with
      jc := s.jcWith i (some { b with phase := .measure, release := some (s.re.lastRelease + 1) })
      re := { s.re with state := .measure, current := some i, lastRelease := s.re.lastRelease + 1 } }

/-- A play of reel `n` starts in IDLE (R99), the cue being reported to the SPC (R202). -/
def playStarted (s : State) (n : Fin 4) : State :=
  { s with
    spc := s.spcCancelled, ru := { s.ruCancelled with dueStatus := true }, rp := s.rpStarted n
    jc := s.jc.mapBatches Batch.toEarlier
    mp := s.mp.asking placeRp (readOf .header (wordAt (tget s.rp.directory n).start)) }

/-- The RP has entered IDLE at the end of a reel that counts as ended (R111, R116). -/
def reelEnded (s : State) : State :=
  { s with
    rp := { s.rp with state := .idle, endedDue := false }
    ru := Ru.raise { s.ru with dueStatus := true } .reelEnded }

/-- What the RP does once it has entered IDLE: a pending standby that finds the part quiet is entered (R202), and otherwise a
pending cue is served (R111, R115). -/
def atIdle (s : State) : State :=
  if s.spc.standbyPending = true ∧ s.partQuiet then s.standbyEntered else s.servePending

/-- From `s` to `t` a reel stop is taken, and a waiting drawn write that can no longer be granted anything is dropped at the
discard (R26, R28, R31). -/
def reelStopped (s t : State) : Prop :=
  ∃ u, s.stoppedFrom u
    ∧ (s.drawnStays (s.jc.waiters.filter (fun r => r != .rp)) u.jc → t = u)
    ∧ (∀ w, s.jc.drawn = some w → ¬s.drawnStays (s.jc.waiters.filter (fun r => r != .rp)) u.jc → t = u.drawnDropped w.canvas)

/-- From `s` to `t` a reel is aborted at the header at its read address (R116): REEL_ABORTED, and then as at a reel stop, but
that the pending cue is kept and the reel counts as ended, with REEL_ENDED at IDLE. -/
def abortedFrom (s t : State) : Prop :=
  ∃ u, State.reelStopped { s with
      mp := { s.mp with cut := none }, ru := s.ru.report .reelAborted .reelUpdate (BitVec.ofNat 24 s.rp.readAddr) } u
    ∧ t = { u with
        rp := { u.rp with pendingCue := s.rp.pendingCue, endedDue := s.jc.reelInRelease }
        ru := if s.jc.reelInRelease then u.ru else u.ru.raise .reelEnded }

/-- The state at the flip of the current batch (R47), before the RP takes its notices and the second pass its first entry: the
select line toggles, the LL applies the batch, the hold remaining is the batch's hold less 1, and the batch is recorded as last
flipped. -/
def flipped (s : State) (i : Fin 8) (b : Batch) : State :=
  { s with
    jc := s.jcWith i (some { b with phase := .secondPass }), ll := s.ll.applied b
    re := { s.re with
      select := otherBuf s.re.select, hold := b.hold - 1, state := .secondPass, position := 0
      lastFlipped := some
        { release := b.release.getD 0
          origin := match b.origin with
            | .drawn => .drawn (b.tag.getD 0) (b.takeover.getD false)
            | .reel n k _ => .reel n k } } }

/-- From `s` to `t` what would have aborted the reel at the header at `a` is met after a stop (R117). Whether the two were at
the same moment is the free value of log entry 38: then REEL_ABORTED is reported and the reel counts as ended, and otherwise
nothing happens. -/
abbrev meetsStop (s : State) (a : Nat) (t : State) : Prop :=
  t = (if Config.abortWithStop s.freeCount then
        if s.rp.state = .stopping then
          { s with
            freeCount := s.freeCount + 1, rp := { s.rp with endedDue := true }
            ru := s.ru.report .reelAborted .reelUpdate (BitVec.ofNat 24 a) }
        else
          { s with
            freeCount := s.freeCount + 1
            ru := (s.ru.report .reelAborted .reelUpdate (BitVec.ofNat 24 a)).raise .reelEnded }
      else { s with freeCount := s.freeCount + 1 })

/-- From `s` to `t` the RP takes the notices of the flip of batch `b` (R96, R109, R111, R115): none for a drawn batch; a flip
notice for a reel batch, taken by the player state, and after it, for a batch of hold 1, the hold-zero notice. -/
abbrev noticed (s : State) (b : Batch) (t : State) : Prop :=
  (b.isDrawn = true ∧ t = s)
  ∨ (b.isReel = true ∧ s.rp.state = .idle ∧ t = s)
  ∨ (b.isReel = true ∧ s.rp.state = .stopping ∧ (∀ a ∈ s.mp.cut, a ≤ 0x7FFFFC) ∧ t = s)
  ∨ (b.isReel = true ∧ s.rp.state = .stopping ∧ ∃ a, s.mp.cut = some a ∧ 0x7FFFFC < a ∧ s.meetsStop a t)
  ∨ (b.isReel = true ∧ s.rp.state = .loading ∧ t = { s with rp := { s.rp with unflipped := s.rp.unflipped - 1 } })
  ∨ (b.isReel = true ∧ s.rp.state = .waiting
      ∧ t = State.beginFrame { s with rp := { s.rp with unflipped := s.rp.unflipped - 1 } })
  ∨ (b.isReel = true ∧ s.rp.state = .ending ∧ ∃ last : Bool,
      last = (s.rp.finalFlipped || decide (s.rp.unflipped - 1 = 0))
      ∧ (((last = false ∨ 1 < b.hold)
            ∧ t = { s with rp := { s.rp with unflipped := s.rp.unflipped - 1, finalFlipped := last } })
        ∨ (last = true ∧ b.hold ≤ 1
            ∧ t = State.atIdle (State.reelEnded { s with
                rp := { s.rp with unflipped := s.rp.unflipped - 1, finalFlipped := false } }))))

/-- From `s` to `t` the walk goes on from the directory entry to the segment entry (R125, R128, R132, R133): a segment beyond
the count, or an entry above the plain window, ends it with its fault, and otherwise the entry's first word is asked. -/
abbrev segmentSought (s : State) (q : CtReq) (k : Walk) (t : State) : Prop :=
  (dirCount k.dir1 ≤ segmentOf q.canvas ∧ t = s.ctFault q .segmentBeyond)
  ∨ (segmentOf q.canvas < dirCount k.dir1 ∧ ∃ (a : Nat) (w : WordAddr),
      a = segTableBase k.dir2 + 8 * segmentOf q.canvas ∧ w = wordAt a
      ∧ ((0x7FFFFF < a + 7 ∧ t = s.ctFault q .segmentAbsent)
        ∨ (a + 7 ≤ 0x7FFFFF
          ∧ t = { s with
              ct := { s.ct with walk := some (s.walkAsking { k with segWord := w } .segFirst w) }
              mp := s.mp.asking placeCt (readOf .segRead w) })))

/-- Both words of the segment entry are in hand and the profile is not pending: from `s` to `t` checks 4 to 6 are made on its
fields `f`, and step 3 of R133 follows. The flags to set are touched, and changed for a write that passes; their write is asked,
unless it is dropped in a stale walk (R143) or withheld in a protected area (R126). Without one the cache is filled (R134), and
the request is handed on or its fault is raised. -/
abbrev segmentDecided (s : State) (q : CtReq) (k : Walk) (f : SegFields) (t : State) : Prop :=
  f = SegFields.ofWords k.seg1 k.seg2 ∧ ∃ r : TrResult,
    ((∃ x, s.translates f (pixelOf q.canvas) x ∧ r = .ok x) ∨ (∃ x, s.translationFails f (pixelOf q.canvas) x ∧ r = .bad x))
    ∧ ∃ changes : Bool, (changes = true ↔ f.changed = false ∧ q.kind ≠ .canvasRead ∧ ∃ x, r = .ok x)
    ∧ (((f.touched = false ∨ changes = true) ∧ k.stale = false ∧ s.up.protects k.segWord = false
          ∧ t = { s with
              ct := { s.ct with walk := some { k with step := .segFlag, wroteChanged := changes, result := some r } }
              mp := s.mp.asking placeCt
                (writeOf .walkFlag k.segWord (if changes then k.seg1 ||| 6 else k.seg1 ||| 2)) })
      ∨ (((f.touched = true ∧ changes = false) ∨ k.stale = true ∨ s.up.protects k.segWord = true)
          ∧ t = State.ctFinish { s with
              ct := { s.ct with cache := s.cacheFilled q { k with wroteChanged := changes } } } q r))

/-- A hit whose profile is not pending: from `s` to `t` checks 4 to 6 are made on the cached fields (R130, R138). A write that
finds changed known clear sets it and asks the hit write-back, unless that lies in a protected area (R126); one overtaken by a
host write makes none (R144; log entry 20). Otherwise the request is handed on, or its fault is raised. -/
abbrev hitDecided (s : State) (q : CtReq) (h : Hit) (t : State) : Prop :=
  (∃ x, s.translationFails h.fields (pixelOf q.canvas) x ∧ t = s.ctFault q x)
  ∨ ∃ x, s.translates h.fields (pixelOf q.canvas) x
    ∧ (((q.kind = .canvasRead ∨ h.known = true ∨ h.overtaken = true) ∧ t = s.ctHand q x)
      ∨ (q.kind ≠ .canvasRead ∧ h.known = false ∧ h.overtaken = false ∧ ∃ c : Ct,
          c = { s.ct with cache := s.ct.cache.map (fun e =>
            if e.zone = zoneOf q.canvas ∧ e.segment = segmentOf q.canvas then { e with known := true } else e) }
          ∧ ((s.up.protects h.flagWord = true ∧ t = State.ctHand { s with ct := c } q x)
            ∨ (s.up.protects h.flagWord = false
              ∧ t = { s with
                  ct := { c with hit := some { h with result := some x } }
                  mp := s.mp.asking placeCt (writeOf .hitFlag h.flagWord h.fields.writeBackWord) }))))

/-- The question that the PU holds for a walk or a hit is answered: from `s` to `t` the translation goes on (R130, R155). -/
abbrev profileAnswered (s t : State) : Prop :=
  ∃ q, s.ct.current = some q
    ∧ ((∃ k, s.ct.walk = some k ∧ k.step = .profile ∧ s.segmentDecided q k (SegFields.ofWords k.seg1 k.seg2) t)
      ∨ (s.ct.walk = none ∧ ∃ h, s.ct.hit = some h ∧ h.result = none ∧ s.hitDecided q h t))

/-- No question that the PU holds for the CT is answered when the profiles stand as in `u`: none is held, or its profile is
pending there (R130, R155). -/
abbrev questionHeld (s : State) (u : Pu) : Prop :=
  ∀ q ∈ s.ct.current,
    (∀ k ∈ s.ct.walk, k.step = .profile →
      { s with pu := u }.asksProfile (SegFields.ofWords k.seg1 k.seg2) (pixelOf q.canvas))
    ∧ (s.ct.walk = none → ∀ h ∈ s.ct.hit, h.result = none → { s with pu := u }.asksProfile h.fields (pixelOf q.canvas))

/-- The UP's answer to a canvas read from a stored value (R22, R166). -/
def readAnswer (s : State) (order : BitVec 3) (v : Stored) (ready : Bool) : Up :=
  { s.up with waiting := none, answer := some { ready := ready, data := some (readBackPixel order v).toWord } }

end State

/-- The request that the CT takes and the requester it is from (R146): the only one waiting, or of two the one whose requester was
not last served, which is then the one last served. -/
def Ct.picked (c : Ct) : Option (CtReq × Ct) :=
  match c.offerAq, c.offerRp with
  | none, none => none
  | some q, none => some (q, { c with offerAq := none })
  | none, some q => some (q, { c with offerRp := none })
  | some qa, some qr =>
    match c.last with
    | .rp => some (qa, { c with offerAq := none, last := .aq })
    | .aq => some (qr, { c with offerRp := none, last := .rp })

namespace State

/-! ### Invariants -/

/-- The lighting memory has its canonical form (log entry 4). -/
abbrev memoryCanonical (s : State) : Prop := s.memory.wf = true

/-- The arrival queue holds at most 16 transfers (R171). -/
abbrev queueBounded (s : State) : Prop := s.aq.queue.length ≤ 16

/-- Every passed-over count is at most 8 (R183, R185). -/
abbrev countsBounded (s : State) : Prop := ∀ p : Place, tget s.mp.passed p ≤ 8

/-- The translation cache holds at most 16 entries, no two of one key (R137). -/
abbrev cacheBounded (s : State) : Prop :=
  s.ct.cache.length ≤ 16 ∧ s.ct.cache.Pairwise (fun a b => ¬(a.zone = b.zone ∧ a.segment = b.segment))

/-- A walk is in flight only for a current request (R127). -/
abbrev walkServes (s : State) : Prop := s.ct.walk.isSome = true → s.ct.current.isSome = true

/-- At most 512 entries are in use (R2), at most 6 slots hold drawn batches and at most 2 hold reel batches (R6). -/
abbrev journalBounded (s : State) : Prop :=
  s.jc.inUse ≤ 512 ∧ s.jc.drawnCount ≤ 6 ∧ s.jc.reelCount ≤ 2

/-- What every step leaves of the direct path (R180, R190): while reset is asserted the path is direct and the transfer in
flight is a direct one or one to be discarded, and a transfer that waits for the direct path waits for such a transfer to end,
in BYPASS or early in the start that follows. -/
abbrev directServed (s : State) : Prop :=
  (s.spc.part = .bypass → s.mp.path = .direct ∧ ∀ f ∈ s.mp.inFlight, f.discard = true ∨ f.req.owner = .direct)
    ∧ (∀ w ∈ s.up.waiting, w.place = .direct →
        (s.spc.part = .bypass ∨ s.spc.part = .starting .readRoot)
          ∧ ∃ f ∈ s.mp.inFlight, f.discard = true ∨ f.req.owner = .direct)

/-- What every step leaves of the queue in PASSIVE (R178, R179): between services no canvas transfer stands at the head, and a
plain transfer waits for the port only behind held transfers. -/
abbrev passiveServed (s : State) : Prop :=
  s.spc.part = .passive → s.aq.taken = false →
    (∀ t ∈ s.aq.queue.head?, region t = .plain) ∧ (s.aq.queue = [] → ∀ w ∈ s.up.waiting, w.place ≠ .forPort)

/-- What every step leaves of the Report Unit (R207): without a write in progress, no record is due that it could begin. -/
abbrev recordsBegun (s : State) : Prop :=
  s.ru.writing = none →
    s.ru.base = none ∨ (s.ru.dueFault = false ∧ s.ru.dueStatus = false ∧ s.ru.dueCounters = none)

/-- Nothing of the direct path or of PASSIVE is left to be done. -/
abbrev settled (s : State) : Prop := s.directServed ∧ s.passiveServed

end State

end Sys2Proof.Machine
end

