-- ==== Sys2Proof/Certificates/Slice0/Obligations.lean ====
section
/-!
DEFINITION. The statements for the provers. A result statement gives the next state whole: the state before with the fields that
change written out, as the last operation of a step, `State.endStep` (R207), then finds it (what it is: RecordsAreWrittenWordByWord); what the statement does not name is
unchanged.
-/

section
open Sys2Proof Sys2Proof.Machine

/-! ### Steps, and what every step keeps -/

/-- A step takes the command at the front of the queue and runs it on the state with the queue's rest. -/
def Obligations.StepRunsFrontCommand : Prop :=
  ∀ (c : Instr) (rest : List Instr) (s : State),
    step (s.setPending (c :: rest)) = exec c (s.setPending rest)

/-- Every command has a next state, and leaves the commands that wait; on an empty queue the part idles (model's choice, log entry
2). -/
def Obligations.EveryCommandHasNextState : Prop :=
  (∀ (c : Instr) (s : State), ∃ t, exec c s = .next t ∧ t.pending = s.pending)
  ∧ (∀ s : State, s.pending = [] → step s = .next s)

/-- R182, R186: the canonical form of the lighting memory is kept by every step (model's own form, log entry 4). -/
def Obligations.MemoryStaysCanonical : Prop :=
  ∀ s t : State, s.memoryCanonical → step s = .next t → t.memoryCanonical

/-- R171: the arrival queue never holds more than 16 transfers. -/
def Obligations.QueueHoldsAtMostSixteen : Prop :=
  ∀ s t : State, s.queueBounded → step s = .next t → t.queueBounded

/-- R183, R185: no passed-over count rises above 8. -/
def Obligations.PassedOverCountsStayWithinEight : Prop :=
  ∀ s t : State, s.countsBounded → step s = .next t → t.countsBounded

/-- R127, R137: the translation cache holds at most 16 entries, no two for one zone and segment, and a walk is in flight only
for a current request. -/
def Obligations.CacheStaysBoundedAndKeyed : Prop :=
  (∀ s t : State, s.cacheBounded → step s = .next t → t.cacheBounded)
  ∧ (∀ s t : State, s.walkServes → step s = .next t → t.walkServes)

/-- R2, R6: at most 512 entries are in use, at most 6 drawn and at most 2 reel batches exist. -/
def Obligations.JournalStaysWithinItsPool : Prop :=
  ∀ s t : State, s.journalBounded → step s = .next t → t.journalBounded

/-- R207: after every step the RU writes a record or has none due that it could begin. That a record due while the RU is free is
captured at the end of the step is the model's choice (log entry 12). -/
def Obligations.DueRecordsAreBegunByEveryStep : Prop :=
  ∀ s t : State, s.recordsBegun → step s = .next t → t.recordsBegun

/-- After every step the direct path and PASSIVE have nothing left to do but their transfers. The invariant is the model's: in
PASSIVE by log entry 17 (an arrival waits behind held transfers) and log entry 18 (held canvas transfers leave within the step),
on the direct path by log entry 8 (a waiting transfer begins when the one in flight ends). The rules behind it are R178 to R180
and R190. -/
def Obligations.SettlingLeavesNothingWaiting : Prop :=
  ∀ s t : State, s.settled → step s = .next t → t.settled

/-- The invariants hold while reset is asserted. -/
def Obligations.InvariantsHoldAtReset : Prop :=
  State.reset.memoryCanonical ∧ State.reset.queueBounded ∧ State.reset.countsBounded ∧ State.reset.cacheBounded ∧ State.reset.walkServes
    ∧ State.reset.journalBounded ∧ State.reset.recordsBegun ∧ State.reset.settled

/-! ### Reset and start -/

/-- R180, R190, R194: the assertion of reset gives every block its reset values, lets the transfer in flight go on discarded and
unchecked, takes a strobe still held as a BYPASS transfer once the memory is free, a plain one carried and any other answered
with error, and keeps the lighting memory. The model's choices are four: an assertion in BYPASS leaves the state (log entry 1),
every unanswered strobe counts as still held (log entry 7), the last answer is kept (log entry 24), and which half of a partial
write is on the bus is a free value, drawn once for a transfer (log entry 6). -/
def Obligations.ResetAssertedClearsThePart : Prop :=
  (∀ s : State, s.spc.part = .bypass → exec .resetAsserted s = .next s)
  ∧ ∀ s : State, s.spc.part ≠ .bypass → ∃ t, exec .resetAsserted s = .next t
      ∧ t = { State.reset with
                pending := s.pending, memory := s.memory, freeCount := t.freeCount, up := t.up
                mp := { Mp.reset with inFlight := t.mp.inFlight } }
      ∧ (s.mp.inFlight = none → t.freeCount = s.freeCount
          ∧ ((∀ w ∈ s.up.waiting, region w.xfer ≠ .plain) → t.mp.inFlight = none))
      ∧ (∀ f, s.mp.inFlight = some f → f.req.owner = .direct → t.mp.inFlight = some f ∧ t.freeCount = s.freeCount)
      ∧ (∀ f, s.mp.inFlight = some f → f.req.owner ≠ .direct →
          (f.req.op = .read ∨ (∃ x, f.req.op = .write fullWord x) ∨ f.half = .write) →
          t.mp.inFlight = some { f with check := false, discard := true } ∧ t.freeCount = s.freeCount)
      ∧ (∀ f be x, s.mp.inFlight = some f → f.req.owner ≠ .direct → f.req.op = .write be x → be ≠ fullWord →
          f.half = .read →
          t.freeCount = s.freeCount + 1
            ∧ t.mp.inFlight = some
                (if Config.partialWriteOnBus s.freeCount then { f with check := false, discard := true, half := .write }
                 else { f with req := { f.req with op := .read }, check := false, discard := true }))
      ∧ (s.up.waiting = none → t.up = { Up.reset with answer := s.up.answer })
      ∧ (∀ w, s.up.waiting = some w → region w.xfer = .plain →
          t.up = { Up.reset with waiting := some { xfer := w.xfer, place := .direct } }
            ∧ (s.mp.inFlight = none →
                t.mp.inFlight = some
                  (Request.onBus { owner := .direct, op := opOf w.xfer, word := wordOfTransfer w.xfer } .odd false)))
      ∧ (∀ w, s.up.waiting = some w → region w.xfer ≠ .plain →
          (s.mp.inFlight = none → t.up = { Up.reset with answer := some (State.errorAnswer w.xfer) })
          ∧ (s.mp.inFlight ≠ none → t.up = { Up.reset with waiting := some { xfer := w.xfer, place := .direct } }))

/-- R194: the release of reset starts the part in READ_ROOT with the first root read asked, on the arbitrated path, the MM and
the RP watching. Two things are the model's: a release outside BYPASS leaves the state (log entry 1), and the change of part
state makes a snapshot due (log entry 13). -/
def Obligations.ResetReleasedStartsReadRoot : Prop :=
  (∀ s : State, s.spc.part ≠ .bypass → exec .resetReleased s = .next s)
  ∧ ∀ s : State, s.spc.part = .bypass → s.settled →
      exec .resetReleased s = .next (State.endStep { s with
        spc := { part := .starting .readRoot, rootWords := [], standbyPending := false }
        mm := { s.mm with watching := true }
        rp := { s.rp with watching := true }
        mp := { s.mp.asking placeSpc (readOf .rootRead (wordAt 0)) with path := .arbitrated }
        ru := { s.ru with dueStatus := true } })

/-- R195 to R197: a root read raises the count of words read and asks for the next; a parity error fails the root with code 5
and the word's address, and a failed check with its code and the address of the start result word. The four checks and their
codes are as the last clause gives them, the first that fails deciding. -/
def Obligations.RootReadGoesOnOrFails : Prop :=
  (∀ (s : State) (f : InFlight), s.settled → s.inFlightFor f .rootRead → f.req.op = .read → s.readError f = false →
      s.spc.rootWords.length + 1 < 30 →
      exec .rootReadCompletion s = .next (State.endStep { s with
        spc := { s.spc with rootWords := s.spc.rootWords ++ [s.dataOf f] }
        mp := s.mp.freed.asking placeSpc (readOf .rootRead (wordAt (4 * (s.spc.rootWords.length + 1)))) }))
  ∧ (∀ (s : State) (f : InFlight), s.settled → s.inFlightFor f .rootRead → f.req.op = .read → s.readError f = true →
      exec .rootReadCompletion s = .next (State.endStep { s with
        spc := { s.spc with rootWords := s.spc.rootWords ++ [s.dataOf f] }
        mp := s.mp.freed.asking placeSpc (writeOf (.startResult 5) (wordAt 0x9C) 5)
        ru := (s.ru.count .parity).report .startFailed .start (byteAddr f.req.word) }))
  ∧ (∀ (s : State) (f : InFlight) (code : Nat), s.settled → s.inFlightFor f .rootRead → f.req.op = .read →
      s.readError f = false → s.spc.rootWords.length = 29 →
      (Root.ofWords (s.spc.rootWords ++ [s.dataOf f])).failure = some code →
      exec .rootReadCompletion s = .next (State.endStep { s with
        spc := { s.spc with rootWords := s.spc.rootWords ++ [s.dataOf f] }
        mp := s.mp.freed.asking placeSpc (writeOf (.startResult code) (wordAt 0x9C) (BitVec.ofNat 32 code))
        ru := s.ru.report .startFailed .start 0x00009C }))
  ∧ (∀ r : Root, r.failure =
      if r.marker ≠ 0x1C5A then some 1
      else if ¬(64 ≤ r.slotCount ∧ r.slotCount ≤ 4096 ∧ r.slotCount % 64 = 0) then some 2
      else if ¬(r.area 0 ∧ r.area 1 ∧ r.area 2 ∧ r.apart 0 1 ∧ r.apart 0 2 ∧ r.apart 1 2) then some 3
      else if ¬((∀ i : Fin 7, ∀ k : Fin 7, k.val = i.val + 1 → tget r.bounds i ≤ tget r.bounds k)
          ∧ tget r.bounds 6 ≤ r.slotCount) then some 4
      else none)

/-- R153, R196, R188: a root found valid gives every block its fields, and the 16 profiles become due; profile 0 is read first.
Where the profile table lies above the plain window every profile is VOID at once and blanking begins (R53, R73, R151). The
grant at that completion may come before the root's fields are taken (R191); whether it does is the free value of log entry 39.
The second part says which bits of the words read each field is (R92, R214, R215): the two lowest bits of a base disregarded, a
loss window, pacing interval or hold limit of 0 taken as 1, the hold limit in units of 10 µs, and a reel's frame count read as
at most 1,024 before its enablement is decided. The load keeps the word that is asked
as memory stands, in the model's own field (log entry 35). -/
def Obligations.RootFoundValidFillsTheBlocks : Prop :=
  (∀ (s s0 : State) (f : InFlight) (r : Root) (t : State), s.settled → s.inFlightFor f .rootRead → f.req.op = .read →
    s.readError f = false → s.spc.rootWords.length = 29 → r = Root.ofWords (s.spc.rootWords ++ [s.dataOf f]) →
    r.failure = none → s.pu.load = none →
    s0 = State.grantFirst { s with
      spc := { s.spc with rootWords := s.spc.rootWords ++ [s.dataOf f] }, mp := s.mp.freed } (fun _ => true) →
    t = { s0 with
      up := { s.up with
        holdLimit := r.holdLimit
        bounds := some { bufA := r.bufA, bufB := r.bufB, slotCount := r.slotCount, status := r.status } }
      mp := { s0.mp with sense := if r.even then .even else .odd, check := r.check }
      ct := { s.ct with dirBase := r.dirBase, slotCount := r.slotCount }
      pu := { s.pu with base := r.profileBase }
      ll := { s.ll with bounds := r.bounds, limits := r.limits }
      mm := { s.mm with lossWindow := r.lossWindow, pacing := r.pacing }
      rp := { s.rp with directory := r.reels }
      jc := { s.jc with almostFull := r.almostFull }
      re := { s.re with bufA := r.bufA, bufB := r.bufB, slotCount := r.slotCount }
      ru := { s.ru with base := some r.status, mask := r.mask, interval := r.interval, markCount := 0, dueFault := true } } →
    (r.profileBase + 4 ≤ 0x7FFFFF →
      exec .rootReadCompletion s = .next (State.endStep { t with
        spc := { t.spc with part := .starting .loadProfiles }
        pu := { t.pu with
          pending := Vector.replicate 16 true
          load := some { profile := 0, first := none, bad := false, again := false, asked := s.memory.readWord (wordAt r.profileBase) } }
        mp := t.mp.asking placeSpc (readOf .profileRead (wordAt r.profileBase)) }))
    ∧ (0x7FFFFF < r.profileBase + 4 →
      exec .rootReadCompletion s = .next (State.endStep { t with
        spc := { t.spc with part := .starting .blanking }
        pu := { t.pu with
          pending := Vector.replicate 16 false
          store := Vector.ofFn (fun _ => { valid := false, fields := Profile.zero }) }
        re := { t.re with state := .blanking, select := .a, hold := 0, blankPos := 0 }
        ll := { t.ll with loads := [], totals := Vector.replicate 8 0 }
        mp := t.mp.asking placeRe (writeOf .blankingWrite (wordAt r.bufA) 0) })))
  ∧ ∀ (ws : List Word) (w : Nat → Word) (r : Root), (∀ a, w a = ws.getD (a / 4) 0) → r = Root.ofWords ws →
      r.marker = field (w 0x00) 15 0 ∧ r.even = (w 0x00).getLsbD 16 ∧ r.check = (w 0x00).getLsbD 17
      ∧ r.slotCount = field (w 0x04) 12 0
      ∧ r.bufA = 4 * field (w 0x08) 23 2 ∧ r.bufB = 4 * field (w 0x0C) 23 2 ∧ r.status = 4 * field (w 0x10) 23 2
      ∧ r.dirBase = 4 * field (w 0x14) 23 2 ∧ r.profileBase = 4 * field (w 0x18) 23 2
      ∧ (∀ i : Fin 7, tget r.bounds i =
          if i.val % 2 = 0 then field (w (0x1C + 4 * (i.val / 2))) 12 0 else field (w (0x1C + 4 * (i.val / 2))) 28 16)
      ∧ (∀ g : Fin 8, tget r.limits g = field (w (0x2C + 4 * g.val)) 23 0)
      ∧ r.lossWindow = max 1 (field (w 0x4C) 7 0) ∧ r.pacing = max 1 (field (w 0x4C) 15 8)
      ∧ r.holdLimit = 10 * max 1 (field (w 0x4C) 23 16) ∧ r.almostFull = field (w 0x4C) 31 24
      ∧ r.interval = field (w 0x50) 7 0 ∧ r.mask.toNat = field (w 0x50) 14 8
      ∧ (∀ (n : Fin 4) (e : DirEntry) (x y : Word), e = tget r.reels n → x = w (0x54 + 8 * n.val) → y = w (0x58 + 8 * n.val) →
          e.start = field x 23 0 ∧ e.frames = min 1024 (field y 10 0) ∧ e.loops = field y 19 16
          ∧ (e.enabled = true ↔
              y.getLsbD 31 = true ∧ 1 ≤ e.frames ∧ e.start % 4 = 0 ∧ e.start ≤ 0x7FFFFC))

/-- R197, R198, R86, R102: the start result write ends the start: RUNNING after blanking, with pacing in MARKS_LOST and the
pending cue served, or PASSIVE after a failed root, with odd sense unchecked and no cue pending. The source recorded for a
pending cue that turns out disabled is the model's choice (log entry 21), and so is that held canvas transfers leave the queue
within the step that enters PASSIVE (log entry 18). The pending cue is served as one taken in IDLE: a Release Engine that is
IDLE takes an eligible batch first (log entry 9). The grant at the completion that enters PASSIVE may come before the entry
(R191); whether it does is the free value of log entry 39. -/
def Obligations.StartResultEntersRunningOrPassive : Prop :=
  (∀ (s : State) (f : InFlight), s.settled → s.inFlightFor f (.startResult 0) → f.req.op ≠ .read →
      s.rp.pendingCue = none →
      exec .startResultWriteCompletion s = .next (State.endStep { s with
        memory := s.memory.after f, pu := s.pu.after f, mp := s.mp.freed, spc := { s.spc with part := .running }
        mm := if s.mm.state = .lost then { s.mm with paceTimer := some s.mm.pacing } else s.mm
        ru := { s.ru with dueStatus := true } }))
  ∧ (∀ (s : State) (f : InFlight) (n : Fin 4), s.settled → s.inFlightFor f (.startResult 0) → f.req.op ≠ .read →
      s.rp.pendingCue = some n → s.rp.state = .idle → s.eligibleExists = false → (tget s.rp.directory n).enabled = true →
      s.spc.standbyPending = false →
      exec .startResultWriteCompletion s = .next (State.endStep { s with
        memory := s.memory.after f, pu := s.pu.after f, spc := { s.spc with part := .running }
        mp := s.mp.freed.asking placeRp (readOf .header (wordAt (tget s.rp.directory n).start))
        mm := if s.mm.state = .lost then { s.mm with paceTimer := some s.mm.pacing } else s.mm
        rp := { s.rpStarted n with pendingCue := none }
        jc := s.jc.mapBatches Batch.toEarlier
        ru := { s.ru with dueStatus := true } }))
  ∧ (∀ (s : State) (f : InFlight) (n : Fin 4), s.settled → s.inFlightFor f (.startResult 0) → f.req.op ≠ .read →
      s.rp.pendingCue = some n → s.eligibleExists = false → (tget s.rp.directory n).enabled = false →
      exec .startResultWriteCompletion s = .next (State.endStep { s with
        memory := s.memory.after f, pu := s.pu.after f, mp := s.mp.freed, spc := { s.spc with part := .running }
        mm := if s.mm.state = .lost then { s.mm with paceTimer := some s.mm.pacing } else s.mm
        rp := { s.rp with pendingCue := none, lastIgnored := some { source := .cueLine, reel := some n } }
        ru := { s.ru with dueStatus := true } }))
  ∧ (∀ (s s0 : State) (f : InFlight) (code : Nat), s.settled → s.inFlightFor f (.startResult code) → code ≠ 0 →
      f.req.op ≠ .read → (∀ t ∈ s.aq.queue.head?, region t = .plain) → (∀ w ∈ s.up.waiting, w.place ≠ .forPort) →
      s0 = State.grantFirst { s with memory := s.memory.after f, pu := s.pu.after f, mp := s.mp.freed } (fun _ => true) →
      exec .startResultWriteCompletion s = .next (State.endStep { s0 with
        spc := { s.spc with part := .passive }
        mp := { s0.mp with sense := .odd, check := false }
        mm := s.marksForced false none
        rp := { s.rp with pendingCue := none, watching := false }
        up := { s.up with holdTimer := none }
        ru := { s.ru with dueStatus := true } }))
  ∧ (∀ (s s0 : State) (f : InFlight) (code : Nat) (held rest : List HostTransfer), s.settled →
      s.inFlightFor f (.startResult code) → code ≠ 0 → f.req.op ≠ .read → s.aq.queue = held ++ rest → s.aq.taken = false →
      (∀ t ∈ held, region t ≠ .plain) → (∀ t ∈ rest.head?, region t = .plain) → (∀ w ∈ s.up.waiting, w.place ≠ .forPort) →
      s0 = State.grantFirst { s with memory := s.memory.after f, pu := s.pu.after f, mp := s.mp.freed } (fun _ => true) →
      exec .startResultWriteCompletion s = .next (State.endStep { s0 with
        spc := { s.spc with part := .passive }
        mp := { s0.mp with sense := .odd, check := false }
        mm := s.marksForced false none
        rp := { s.rp with pendingCue := none, watching := false }
        aq := { s.aq with queue := rest }
        up := if held.all (fun t => t.write) then { s.up with holdTimer := none }
              else { s.up with holdTimer := none, waiting := none, answer := some { ready := false, data := some 0 } }
        ru := { s.ru with dueStatus := true } }))
  ∧ (∀ (s : State) (f : InFlight), s.settled → s.inFlightFor f (.startResult 0) → f.req.op ≠ .read →
      exec .startResultWriteCompletion s = .next (State.endStep (State.servePending { s with
        memory := s.memory.after f, pu := s.pu.after f, mp := s.mp.freed, spc := { s.spc with part := .running }
        mm := if s.mm.state = .lost then { s.mm with paceTimer := some s.mm.pacing } else s.mm
        ru := { s.ru with dueStatus := true } })))
  ∧ (∀ s : State, s.rp.pendingCue = none → s.servePending = s)
  ∧ (∀ (s u : State) (n : Fin 4), s.rp.pendingCue = some n → s.rp.state = .idle →
      ((¬(s.re.state = .idle ∧ s.spc.part = .running ∧ s.eligibleExists = true) ∧ u = s)
        ∨ (s.re.state = .idle ∧ s.spc.part = .running ∧ ∃ i b, s.takesNext i b ∧ u = s.taken i b)) →
      ((tget s.rp.directory n).enabled = true →
        s.servePending = State.playStarted { u with rp := { s.rp with pendingCue := none } } n)
      ∧ ((tget s.rp.directory n).enabled = false →
        s.servePending =
          { u with rp := { s.rp with pendingCue := none, lastIgnored := some { source := .cueLine, reel := some n } } }))

/-- R151, R152, R153: a profile read asks for the record's second word, or decides the profile, begins the next due one, or ends
LOAD_PROFILES with the start of blanking (R53, R73). A question for the profile that the PU holds for a walk or a hit is
answered then (R130, R155), before the next load begins: the walk goes on to its flag word or its end, the hit to its write-back
or its end, or the translation faults with PROFILE_VOID; that a hit which a host write has overtaken makes no write-back is the
model's reading (log entry 20). Due profiles whose records lie above the plain window complete at once as VOID
(`Pu.allVoid`), and a question for one of them is answered then. A word that a host write has changed since its read was asked
is seen as it stands (R152) or as it would stand without that write (R156): the free value of log entry 35 says which. A write
of the part's own that lands on the word meanwhile is seen (R152; `Pu.after`). The fields of a profile are the bits of its
record that the last clause gives (R218). -/
def Obligations.ProfileReadDecidesTheProfile : Prop :=
  (∀ (s : State) (f : InFlight) (l : Load), s.settled → s.inFlightFor f .profileRead → f.req.op = .read →
      s.pu.load = some l → l.first = none →
      exec .profileReadCompletion s = .next (State.endStep { s with
        freeCount := s.profileCount l (s.dataOf f)
        pu := { s.pu with load := some { l with
          first := some (s.profileWord l (s.dataOf f)), bad := s.readError f
          asked := s.memory.readWord (wordAt (s.pu.base + 8 * l.profile.val + 4)) } }
        mp := s.mp.freed.asking placeSpc (readOf .profileRead (wordAt (s.pu.base + 8 * l.profile.val + 4)))
        ru := s.ruAfterRead f }))
  ∧ (∀ (s s1 : State) (f : InFlight) (l : Load) (x y : Word) (u : Pu), s.settled → s.inFlightFor f .profileRead →
      f.req.op = .read → s.pu.load = some l → l.first = some x → y = s.profileWord l (s.dataOf f) →
      u = { s.pu with
              store := tset s.pu.store l.profile
                { valid := !(l.bad || s.readError f) && decide ((Profile.ofWords x y).order.toNat ≤ 5)
                  fields := Profile.ofWords x y }
              pending := tset s.pu.pending l.profile l.again
              load := none } →
      s1 = { s with
        pu := u, mp := s.mp.freed, ru := s.ruAfterRead f, freeCount := s.profileCount l (s.dataOf f) } →
      (∀ p, s.questionHeld u → tget u.pending p = true → (∀ q, q < p → tget u.pending q = false) →
        u.base + 8 * p.val + 4 ≤ 0x7FFFFF →
        exec .profileReadCompletion s = .next (State.endStep { s1 with
          pu := { u with load := some { profile := p, first := none, bad := false, again := false,
                                        asked := s.memory.readWord (wordAt (u.base + 8 * p.val)) } }
          mp := s1.mp.asking placeSpc (readOf .profileRead (wordAt (u.base + 8 * p.val))) }))
      ∧ (∀ v, s.questionHeld u → u.restDone v → s.questionHeld v → s.spc.part ≠ .starting .loadProfiles →
        exec .profileReadCompletion s = .next (State.endStep { s1 with pu := v }))
      ∧ (∀ v, s.questionHeld u → u.restDone v → s.questionHeld v → s.spc.part = .starting .loadProfiles → 0 < s.re.slotCount →
        exec .profileReadCompletion s = .next (State.endStep { s1 with
          pu := v
          spc := { s.spc with part := .starting .blanking }
          re := { s.re with state := .blanking, select := .a, hold := 0, blankPos := 0 }
          ll := { s.ll with loads := [], totals := Vector.replicate 8 0 }
          mp := s1.mp.asking placeRe (writeOf .blankingWrite (wordAt s.re.bufA) 0) }))
      ∧ (∀ t : State, (s.spc.part = .running ∨ s.spc.part = .standby) → s1.profileAnswered t →
        exec .profileReadCompletion s = .next (State.endStep t.puRun))
      ∧ (∀ (v : Pu) (t : State), (s.spc.part = .running ∨ s.spc.part = .standby) → s.questionHeld u → u.restDone v →
        State.profileAnswered { s1 with pu := v } t →
        exec .profileReadCompletion s = .next (State.endStep t)))
  ∧ (∀ s : State, s.pu.load = none →
      ((∀ p, tget s.pu.pending p = false) → s.puRun = s)
      ∧ ∀ p, tget s.pu.pending p = true → (∀ q, q < p → tget s.pu.pending q = false) →
        (s.pu.base + 8 * p.val + 4 ≤ 0x7FFFFF →
          s.puRun = { s with
            pu := { s.pu with load := some { profile := p, first := none, bad := false, again := false,
                                             asked := s.memory.readWord (wordAt (s.pu.base + 8 * p.val)) } }
            mp := s.mp.asking placeSpc (readOf .profileRead (wordAt (s.pu.base + 8 * p.val))) })
        ∧ (0x7FFFFF < s.pu.base + 8 * p.val + 4 →
          s.puRun = { s with pu := s.pu.allVoid }))
  ∧ (∀ (s : State) (l : Load) (x : Word),
      (x = l.asked → s.profileWord l x = x ∧ s.profileCount l x = s.freeCount)
      ∧ (x ≠ l.asked → s.profileCount l x = s.freeCount + 1
        ∧ s.profileWord l x = if Config.profileReadKeeps s.freeCount then l.asked else x))
  ∧ (∀ (u : Pu) (f : InFlight) (l : Load) (be : BitVec 4) (x : Word) (w : WordAddr), u.load = some l →
      f.req.op = .write be x → w = wordAt (u.base + 8 * l.profile.val + if l.first = none then 0 else 4) →
      (f.req.owner ∉ [Owner.plainWrite, .plainRead, .passive, .direct] → f.req.word = w →
        u.after f = { u with load := some { l with asked := x } })
      ∧ ((f.req.owner ∈ [Owner.plainWrite, .plainRead, .passive, .direct] ∨ f.req.word ≠ w) → u.after f = u))
  ∧ (∀ (u : Pu) (f : InFlight), (u.load = none ∨ f.req.op = .read) → u.after f = u)
  ∧ ∀ (x y : Word) (p : Profile), p = Profile.ofWords x y →
      p.order.toNat = field x 2 0 ∧ p.mode.toNat = field x 5 4 ∧ p.cap.toNat = field x 15 8 ∧ p.subLevel.toNat = field x 23 16
      ∧ p.red.toNat = field y 7 0 ∧ p.green.toNat = field y 15 8 ∧ p.blue.toNat = field y 23 16

/-- R53, R198: a blanking write asks for the next, through the slots of buffer A and then those of buffer B; the last one leaves
the RE IDLE and asks for the write of start result 0. -/
def Obligations.BlankingGoesThroughBothBuffers : Prop :=
  ∀ (s : State) (f : InFlight), s.settled → s.inFlightFor f .blankingWrite → f.req.op ≠ .read →
    (s.re.blankPos + 1 < s.re.slotCount →
      exec .blankingWriteCompletion s = .next (State.endStep { s with
        memory := s.memory.after f, pu := s.pu.after f
        re := { s.re with blankPos := s.re.blankPos + 1 }
        mp := s.mp.freed.asking placeRe (writeOf .blankingWrite (wordAt (s.re.bufA + 4 * (s.re.blankPos + 1))) 0) }))
    ∧ (s.re.slotCount ≤ s.re.blankPos + 1 → s.re.blankPos + 1 < 2 * s.re.slotCount →
      exec .blankingWriteCompletion s = .next (State.endStep { s with
        memory := s.memory.after f, pu := s.pu.after f
        re := { s.re with blankPos := s.re.blankPos + 1 }
        mp := s.mp.freed.asking placeRe
          (writeOf .blankingWrite (wordAt (s.re.bufB + 4 * (s.re.blankPos + 1 - s.re.slotCount))) 0) }))
    ∧ (2 * s.re.slotCount ≤ s.re.blankPos + 1 →
      exec .blankingWriteCompletion s = .next (State.endStep { s with
        memory := s.memory.after f, pu := s.pu.after f
        re := { s.re with blankPos := s.re.blankPos + 1, state := .idle }
        mp := s.mp.freed.asking placeSpc (writeOf (.startResult 0) (wordAt 0x9C) 0) }))

/-! ### The lighting bus and the arrival queue -/

/-- R169, R170: in RUNNING the three arrival checks, in their order, refuse a transfer with error, its fault and one REFUSE
count; it takes no place in the queue. A word is protected when it lies in frame buffer A, frame buffer B or the status area. -/
def Obligations.ArrivalChecksRefuse : Prop :=
  (∀ (s : State) (t : HostTransfer) (k : FaultKind), s.spc.part = .running → s.up.waiting = none →
      ((0xB00000 ≤ t.addr.toNat ∧ k = .addressRefused)
        ∨ (0x800000 ≤ t.addr.toNat ∧ t.addr.toNat < 0xB00000 ∧ t.be ≠ fullWord ∧ k = .partialCanvas)
        ∨ (t.addr.toNat < 0x800000 ∧ t.write = true ∧ s.up.protects (wordOfTransfer t) = true ∧ k = .protectedWrite)) →
      exec (.transferArrival t) s = .next (State.endStep { s with
        up := { s.up with answer := some (State.errorAnswer t) }
        ru := (s.ru.report k .busTransfer t.addr).count .refuse }))
  ∧ (∀ (u : Up) (b : Bounds) (w : WordAddr), u.bounds = some b →
      (u.protects w = true ↔
        (b.bufA ≤ 4 * w.toNat ∧ 4 * w.toNat ≤ b.bufA + 4 * b.slotCount - 1)
          ∨ (b.bufB ≤ 4 * w.toNat ∧ 4 * w.toNat ≤ b.bufB + 4 * b.slotCount - 1)
          ∨ (b.status ≤ 4 * w.toNat ∧ 4 * w.toNat ≤ b.status + 127)))

/-- R172, R173: a transfer that passes the checks takes the last place of the queue, a write answered with ready on entry and a
read unanswered with the hold timer running; with 16 transfers queued either waits for a place with the hold timer running. -/
def Obligations.AcceptedTransferIsQueued : Prop :=
  ∀ (s : State) (t : HostTransfer), s.spc.part = .running → s.up.waiting = none → t.addr.toNat < 0xB00000 →
    (0x800000 ≤ t.addr.toNat → t.be = fullWord) →
    (t.addr.toNat < 0x800000 → t.write = true → s.up.protects (wordOfTransfer t) = false) →
    (s.aq.queue.length < 16 → t.write = true →
      exec (.transferArrival t) s = .next (State.endStep { s with
        up := { s.up with answer := some { ready := true, data := none } }
        aq := { s.aq with queue := s.aq.queue ++ [t] } }))
    ∧ (s.aq.queue.length < 16 → t.write = false →
      exec (.transferArrival t) s = .next (State.endStep { s with
        up := { s.up with waiting := some ⟨t, .queued⟩, holdTimer := some s.up.holdLimit, answer := none }
        aq := { s.aq with queue := s.aq.queue ++ [t] } }))
    ∧ (16 ≤ s.aq.queue.length →
      exec (.transferArrival t) s = .next (State.endStep { s with
        up := { s.up with waiting := some ⟨t, .forPlace⟩, holdTimer := some s.up.holdLimit, answer := none } }))

/-- R178 to R181: outside RUNNING an arriving transfer is refused without fault or count in STARTING, and in BYPASS and PASSIVE
unless it is plain; a plain one is put on the direct path in BYPASS and handed to the MP in PASSIVE; in STANDBY it wakes the
part (R90, R204) and is then taken as in RUNNING. Two clauses are the model's: an arrival while a transfer is unanswered, which
R167 rules out, leaves the state (log entry 1), and a plain one in PASSIVE waits while held transfers remain (log entry 17). -/
def Obligations.ArrivalOutsideRunning : Prop :=
  (∀ (s : State) (t : HostTransfer), s.up.waiting.isSome = true → exec (.transferArrival t) s = .next s)
  ∧ (∀ (s : State) (t : HostTransfer), s.settled → s.up.waiting = none →
      ((∃ sub, s.spc.part = .starting sub) ∨ (s.spc.part = .bypass ∧ 0x800000 ≤ t.addr.toNat)
        ∨ (s.spc.part = .passive ∧ 0x800000 ≤ t.addr.toNat)) →
      exec (.transferArrival t) s = .next (State.endStep { s with
        up := { s.up with answer := some (State.errorAnswer t) } }))
  ∧ (∀ (s : State) (t : HostTransfer), s.up.waiting = none → s.spc.part = .bypass → t.addr.toNat < 0x800000 →
      exec (.transferArrival t) s = .next (State.endStep { s with
        up := { s.up with waiting := some ⟨t, .direct⟩, answer := none }
        mp := if s.mp.inFlight = none then
                { s.mp with
                  inFlight := some (Request.onBus { owner := .direct, op := opOf t, word := wordOfTransfer t } .odd false) }
              else s.mp }))
  ∧ (∀ (s : State) (t : HostTransfer), s.up.waiting = none → s.spc.part = .passive → t.addr.toNat < 0x800000 →
      s.aq.queue = [] → s.aq.taken = false →
      exec (.transferArrival t) s = .next (State.endStep { s with
        up := { s.up with waiting := some ⟨t, .atPort⟩, answer := none }
        mp := s.mp.asking placeAq { owner := .passive, op := opOf t, word := wordOfTransfer t } }))
  ∧ (∀ (s : State) (t : HostTransfer), s.settled → s.up.waiting = none → s.spc.part = .passive → t.addr.toNat < 0x800000 →
      (s.aq.queue ≠ [] ∨ s.aq.taken = true) →
      exec (.transferArrival t) s = .next (State.endStep { s with
        up := { s.up with waiting := some ⟨t, .forPort⟩, answer := none } }))
  ∧ (∀ (s : State) (t : HostTransfer), s.up.waiting = none → s.spc.part = .standby →
      exec (.transferArrival t) s = exec (.transferArrival t) { s with
        spc := { s.spc with part := .running }
        mm := s.marksForced true (some s.mm.pacing)
        ru := { s.ru with dueStatus := true } })

/-- R172, R173: at the expiry of the hold timer the waiting transfer is answered with error and not performed; a queued read
leaves the queue from the tail; HOLD_EXPIRED is sent with the host address, and HOLD counted once. That the expiry of a stopped
timer, or with no transfer waiting, leaves the state is the model's (log entry 1). -/
def Obligations.HoldExpiryDropsTheWaitingTransfer : Prop :=
  (∀ s : State, s.up.holdTimer = none ∨ s.up.waiting = none → exec .holdTimerExpiry s = .next s)
  ∧ ∀ (s : State) (d : Nat) (w : Waiting), s.up.holdTimer = some d → s.up.waiting = some w → s.spc.part ≠ .passive →
      exec .holdTimerExpiry s = .next (State.endStep { s with
        up := { s.up with waiting := none, holdTimer := none, answer := some (State.errorAnswer w.xfer) }
        aq := if w.place = .queued then { s.aq with queue := s.aq.queue.dropLast } else s.aq
        ru := (s.ru.report .holdExpired .busTransfer w.xfer.addr).count .hold })

/-- R179, R180, R190: a transfer carried in PASSIVE or on the direct path is answered with ready at its completion, with the
data of a read; one carried in PASSIVE also when a restart has been accepted meanwhile (R168; log entry 17), and whatever held
transfers the queue has after a start that failed; that a read so overtaken and found in error is counted as PARITY and
answered with ready, with no READ_PARITY, is the model's choice (log entry 44). While reset is asserted, the end of the transfer
in flight at the assertion frees the memory, and the transfer that waits is taken: a plain one begins, any other is answered with
error (R180; the row is the model's choice, log entry 25). -/
def Obligations.CarriedTransfersAreAnswered : Prop :=
  (∀ (s : State) (f : InFlight) (w : Waiting), s.settled → s.inFlightFor f .passive → s.up.waiting = some w →
      ((s.spc.part = .passive ∧ controlOf w.xfer ≠ some .restart) ∨ ∃ sub, s.spc.part = .starting sub) →
      exec .passiveTransferCompletion s = .next (State.endStep { s with
        memory := s.memory.after f, mp := s.mp.freed
        up := { s.up with
          waiting := none
          answer := some { ready := true, data := if f.req.op = .read then some (s.dataOf f) else none } }
        ru := if f.req.op = .read then s.ruAfterRead f else s.ru }))
  ∧ (∀ (s : State) (f : InFlight), s.spc.part ≠ .passive → s.inFlightFor f .direct → f.check = false →
      exec .directTransferCompletion s = .next (State.endStep { s with
        memory := s.memory.after f, mp := s.mp.freed
        up := { s.up with
          waiting := none
          answer := some { ready := true, data := if f.req.op = .read then some (s.dataOf f) else none } } }))
  ∧ (∀ (s : State) (f : InFlight) (t : HostTransfer), s.spc.part = .bypass → s.mp.inFlight = some f → f.discard = true →
      f.check = false → s.up.waiting = some ⟨t, .direct⟩ →
      (region t = .plain →
        exec .directTransferCompletion s = .next (State.endStep { s with
          memory := s.memory.after f, pu := s.pu.after f
          mp := { s.mp.freed with
            inFlight := some (Request.onBus { owner := .direct, op := opOf t, word := wordOfTransfer t } .odd false) } }))
      ∧ (region t ≠ .plain →
        exec .directTransferCompletion s = .next (State.endStep { s with
          memory := s.memory.after f, pu := s.pu.after f, mp := s.mp.freed
          up := { s.up with waiting := none, answer := some (State.errorAnswer t) } })))

/-! ### The memory port -/

/-- R185, R186, R188, R191: with the port free on the arbitrated path, of the places that take part (`takes`) the first with a
passed-over count of 8 is granted, and otherwise the first; its count becomes 0 and that of each other place that takes part
rises by one, up to 8; the transfer takes the sense in force, or odd for a word of the control page, and the check enable in
force, and begins with its read unless it is a full-word write (R182). At the grant that follows a completion every place that
holds a request takes part, and so does a request that waits alone; of requests made at the same moment to a free port the one
taken first is granted and the others wait, their counts not raised (R185): a free value of log entry 40. That a grant with the
port busy, on the direct path or with no request leaves the state is the model's (log entry 1). Where an event of a completion
meets the grant at it, the free value of log entry 39 says whether it is made first (R191; `State.grantFirst`). -/
def Obligations.GrantFollowsOrderAndAge : Prop :=
  (∀ s : State, s.mp.inFlight.isSome = true ∨ s.mp.path = .direct ∨ (∀ p, tget s.mp.requests p = none) →
      exec .memoryGrant s = .next s ∧ ∀ mine : Place → Bool, s.grantFirst mine = s)
  ∧ (∀ (s : State) (p : Place) (r : Request) (n : Nat) (takes : Place → Prop), s.settled → s.mp.path = .arbitrated →
      s.mp.inFlight = none → tget s.mp.requests p = some r → s.mp.takesPart s.freeCount takes n → s.mp.isFirst takes p →
      ∃ m : Mp, exec .memoryGrant s = .next (State.endStep { s with mp := m, freeCount := n })
        ∧ s.mp.grants takes p r m)
  ∧ (∀ (s : State) (p : Place) (r : Request), s.mp.path = .arbitrated → s.mp.inFlight = none →
      tget s.mp.requests p = some r → s.mp.isFirst (fun q => tget s.mp.requests q ≠ none) p →
      ∃ m : Mp, s.mp.grants (fun q => tget s.mp.requests q ≠ none) p r m
        ∧ (∀ mine : Place → Bool, mine p = false → s.grantFirst mine = s)
        ∧ ∀ mine : Place → Bool, mine p = true → s.grantFirst mine = { s with
            freeCount := s.freeCount + 1, mp := if Config.grantBeforeEvent s.freeCount then m else s.mp })
  ∧ ∀ (s : State) (p : Place) (r : Request),
      s.ask p r = { s with mp := s.mp.asking p r } ∧ s.withdraw p = { s with mp := s.mp.withdrawn p }

/-- R182, R186: a write changes the enabled bytes of its word alone, each byte with parity generated under the transfer's sense,
and leaves every other byte of memory, parity bit included, as it was; a read leaves memory as it was. Under odd sense a byte
and its parity bit hold an odd number of ones, under even sense an even number. -/
def Obligations.WriteChangesEnabledBytesOnly : Prop :=
  (∀ (m : Memory) (f : InFlight), f.req.op = .read → m.after f = m)
  ∧ (∀ (m : Memory) (f : InFlight) (be : BitVec 4) (x : Word) (a : Nat), f.req.op = .write be x →
      (∀ k, k < 4 → a = 4 * f.req.word.toNat + k → be.getLsbD k = true →
        (m.after f).byte a = byteOf x k ∧ (m.after f).bit a = parityBit f.sense (byteOf x k))
      ∧ ((∀ k, k < 4 → a = 4 * f.req.word.toNat + k → be.getLsbD k = false) →
        (m.after f).byte a = m.byte a ∧ (m.after f).bit a = m.bit a))
  ∧ (∀ b : Byte, (((List.range 8).filter (fun k => b.getLsbD k)).length + (parityBit .odd b).toNat) % 2 = 1
      ∧ (((List.range 8).filter (fun k => b.getLsbD k)).length + (parityBit .even b).toNat) % 2 = 0)

/-! ### The head of the queue -/

/-- R140, R175: a plain write taken at the head invalidates the cache entries of its word and asks the MP for its write. -/
def Obligations.PlainWriteTakenAsksItsWrite : Prop :=
  ∀ (s : State) (t : HostTransfer), s.settled → s.headReady t → t.write = true → t.addr.toNat < 0x800000 →
    s.ct.walk = none → s.ct.hit = none →
    exec .plainWriteTaken s = .next (State.endStep { s with
      aq := { s.aq with taken := true }
      ct := { s.ct with cache := s.ct.cache.filter (fun e => !e.sources.contains (wordOfTransfer t)) }
      mp := s.mp.asking placeAq { owner := .plainWrite, op := .write t.be t.data, word := wordOfTransfer t } })

/-- R140, R142 to R144: whatever walk or hit the CT has in flight, no cache entry keeps the word of a plain write that has been
taken among its source words, and a walk of which the word is a source word, still in flight afterwards, is stale. Such a walk
loses a flag-word write that is asked and not yet granted, and goes on; so does a hit its write-back of that word, its request
being handed on. That a hit whose checks are still held makes no write-back afterwards is the model's reading (log entry 20).
Then the AQ asks its write. -/
def Obligations.PlainWriteTakenLeavesNoStaleTranslation : Prop :=
  ∀ (s s1 : State) (t : HostTransfer) (r : Request) (cache : List CacheEntry), s.settled → s.headReady t →
    s.spc.part = .running → t.write = true → t.addr.toNat < 0x800000 →
    r = { owner := .plainWrite, op := .write t.be t.data, word := wordOfTransfer t } →
    cache = s.ct.cache.filter (fun e => !e.sources.contains (wordOfTransfer t)) →
    s1 = { s with aq := { s.aq with taken := true }, ct := { s.ct with cache := cache } } →
    (s.walkServes → ∃ u, exec .plainWriteTaken s = .next u
      ∧ (∀ e ∈ u.ct.cache, wordOfTransfer t ∉ e.sources)
      ∧ (∀ e ∈ s.ct.cache, wordOfTransfer t ∉ e.sources → e ∈ u.ct.cache)
      ∧ (∀ k, u.ct.walk = some k → wordOfTransfer t ∈ k.sources → k.stale = true)
      ∧ tget u.mp.requests placeAq = some r)
    ∧ (∀ (q : CtReq) (k k2 : Walk), s.ct.current = some q → s.ct.walk = some k → k2 = { k with stale := true } →
      (wordOfTransfer t ∉ k.sources →
        exec .plainWriteTaken s = .next (State.endStep { s1 with mp := s.mp.asking placeAq r }))
      ∧ (wordOfTransfer t ∈ k.sources →
        ((k.step ≠ .dirFlag ∧ k.step ≠ .segFlag) ∨ tget s.mp.requests placeCt = none) →
        exec .plainWriteTaken s = .next (State.endStep { s1 with
          ct := { s1.ct with walk := some k2 }, mp := s.mp.asking placeAq r }))
      ∧ (∀ s2 u : State, wordOfTransfer t ∈ k.sources → tget s.mp.requests placeCt ≠ none →
        s2 = { s1 with ct := { s1.ct with walk := some k2 }, mp := s.mp.withdrawn placeCt } →
        ((k.step = .dirFlag ∧ s2.segmentSought q k2 u)
          ∨ (k.step = .segFlag ∧ ∃ x, k.result = some x ∧ u = s2.ctFinish q x)) →
        exec .plainWriteTaken s = .next (State.endStep { u with mp := u.mp.asking placeAq r })))
    ∧ ∀ (q : CtReq) (h : Hit), s.ct.current = some q → s.ct.walk = none → s.ct.hit = some h →
      ((h.flagWord ≠ wordOfTransfer t ∨ (h.result ≠ none ∧ tget s.mp.requests placeCt = none)) →
        exec .plainWriteTaken s = .next (State.endStep { s1 with mp := s.mp.asking placeAq r }))
      ∧ (h.flagWord = wordOfTransfer t → h.result = none →
        exec .plainWriteTaken s = .next (State.endStep { s1 with
          ct := { s1.ct with hit := some { h with overtaken := true } }, mp := s.mp.asking placeAq r }))
      ∧ (∀ (x : Translation) (u : State), h.flagWord = wordOfTransfer t → h.result = some x →
        tget s.mp.requests placeCt ≠ none → u = State.ctHand { s1 with mp := s.mp.withdrawn placeCt } q x →
        exec .plainWriteTaken s = .next (State.endStep { u with mp := u.mp.asking placeAq r }))

/-- R173, R177: a plain read taken at the head stops its hold timer and asks its memory read; a canvas write or a canvas read is
offered to the CT, a read's hold timer stopped. No head is taken while a transfer handed over in PASSIVE has the AQ head's place
in the arbiter (R179, R184): the model's choice, log entries 1 and 17. -/
def Obligations.ReadsAndCanvasTransfersTaken : Prop :=
  (∀ (s : State) (t : HostTransfer), s.settled → s.headReady t → t.write = false → t.addr.toNat < 0x800000 →
      exec .plainReadTaken s = .next (State.endStep { s with
        aq := { s.aq with taken := true }, up := { s.up with holdTimer := none }
        mp := s.mp.asking placeAq (readOf .plainRead (wordOfTransfer t)) }))
  ∧ (∀ (s : State) (t : HostTransfer), s.settled → s.headReady t → t.write = true → 0x800000 ≤ t.addr.toNat →
      t.addr.toNat < 0xB00000 →
      exec .canvasWriteTaken s = .next (State.endStep { s with
        aq := { s.aq with taken := true }
        ct := { s.ct with
          offerAq := some { kind := .drawnWrite, canvas := t.addr, value := t.data, discard := false } } }))
  ∧ (∀ (s : State) (t : HostTransfer), s.settled → s.headReady t → t.write = false → 0x800000 ≤ t.addr.toNat →
      t.addr.toNat < 0xB00000 →
      exec .canvasReadTaken s = .next (State.endStep { s with
        aq := { s.aq with taken := true }, up := { s.up with holdTimer := none }
        ct := { s.ct with
          offerAq := some { kind := .canvasRead, canvas := t.addr, value := t.data, discard := false } } }))
  ∧ (∀ (s : State) (c : Instr), c ∈ [Instr.plainWriteTaken, .plainReadTaken, .canvasWriteTaken, .canvasReadTaken] →
      (∃ w ∈ s.up.waiting, w.place = .atPort) → exec c s = .next s)

/-- R171 to R173, R175, R177: at the completion of a plain write with no action of its own, and of a plain read, the head leaves
the queue and a transfer that waited takes the freed place; a read is answered with its data, and with error and READ_PARITY if
its check failed (with the host byte address of the word: R182, R189; log entry 37). In PASSIVE the held canvas transfers that
then come to the head are discarded, a read among them answered with error and zero data (R178; within the step, log entry 18),
and after the last held one a plain transfer that waits is handed to the MP (R179; log entry 17). The writes with an action are
the full-word plain writes of the eight control words, at the addresses of the last clause (R176). -/
def Obligations.PlainTransfersComplete : Prop :=
  (∀ (s : State) (f : InFlight) (t : HostTransfer), s.settled → s.spc.part ≠ .passive → s.headWriting f t →
      (controlOf t = none ∨ s.spc.part ≠ .running) →
      exec .plainWriteCompletion s = .next (State.endStep { s with
        memory := s.memory.after f, mp := s.mp.freed, aq := s.nextQueue, up := s.nextUp }))
  ∧ (∀ (s v : State) (f : InFlight) (t : HostTransfer) (held rest : List HostTransfer), s.settled → s.spc.part = .passive →
      s.headWriting f t → controlOf t ≠ some .restart → s.nextQueue.queue = held ++ rest →
      (∀ x ∈ held, region x ≠ .plain) → (∀ x ∈ rest.head?, region x = .plain) →
      v = { s with
        memory := s.memory.after f, mp := s.mp.freed, aq := { queue := rest, taken := false }
        up := if held.all (fun x => x.write) then s.nextUp
              else { s.nextUp with waiting := none, answer := some { ready := false, data := some 0 } } } →
      ((rest ≠ [] ∨ ∀ w ∈ v.up.waiting, w.place ≠ .forPort) → exec .plainWriteCompletion s = .next v.endStep)
      ∧ (∀ x, rest = [] → v.up.waiting = some ⟨x, .forPort⟩ →
        exec .plainWriteCompletion s = .next (State.endStep { v with
          up := { v.up with waiting := some ⟨x, .atPort⟩ }
          mp := v.mp.asking placeAq { owner := .passive, op := opOf x, word := wordOfTransfer x } })))
  ∧ (∀ (s : State) (f : InFlight) (t : HostTransfer) (rest : List HostTransfer), s.settled → s.inFlightFor f .plainRead →
      f.req.op = .read → s.aq.queue = t :: rest → (s.spc.part = .passive → ∀ u ∈ rest.head?, region u = .plain) →
      exec .plainReadCompletion s = .next (State.endStep { s with
        mp := s.mp.freed, aq := { queue := rest, taken := false }
        up := { s.up with waiting := none, answer := some { ready := !s.readError f, data := some (s.dataOf f) } }
        ru := if s.readError f then (s.ru.count .parity).report .readParity .busTransfer
                (BitVec.ofNat 24 (4 * (wordOfTransfer t).toNat)) else s.ru }))
  ∧ (∀ (s : State) (f : InFlight) (t : HostTransfer) (held rest : List HostTransfer), s.settled → s.spc.part = .passive →
      s.inFlightFor f .plainRead → f.req.op = .read → s.aq.queue = t :: (held ++ rest) →
      (∀ x ∈ held, region x ≠ .plain) → (∀ x ∈ rest.head?, region x = .plain) →
      exec .plainReadCompletion s = .next (State.endStep { s with
        mp := s.mp.freed, aq := { queue := rest, taken := false }
        up := { s.up with
          waiting := none
          answer := if held.all (fun x => x.write) then some { ready := !s.readError f, data := some (s.dataOf f) }
                    else some { ready := false, data := some 0 } }
        ru := if s.readError f then (s.ru.count .parity).report .readParity .busTransfer
                (BitVec.ofNat 24 (4 * (wordOfTransfer t).toNat)) else s.ru }))
  ∧ (∀ (t : HostTransfer) (c : ControlWord), controlOf t = some c ↔
      (t.write = true ∧ t.be = fullWord ∧ t.addr.toNat < 0x800000
        ∧ (t.addr.toNat / 4 * 4, c) ∈ [(0x80, ControlWord.seal), (0x84, .report), (0x88, .acknowledge), (0x8C, .standby),
            (0x90, .profileReload), (0x94, .reelStop), (0x98, .restart), (0xA0, .play)]))

/-! ### Control words -/

/-- R19, R20, R202: a seal word seals the OPEN drawn batch with its tag, its takeover flag and the next seal order, or, without
a batch that has an entry, seals nothing; a pending standby is cancelled. Without the takeover flag, or with the RP IDLE,
nothing is stopped. -/
def Obligations.SealWordSealsOrSealsNothing : Prop :=
  (∀ (s : State) (f : InFlight) (t : HostTransfer) (i : Fin 8) (b : Batch), s.settled → s.spc.part = .running →
      s.headWriting f t → controlOf t = some .seal → (t.data.getLsbD 31 = false ∨ s.rp.state = .idle) →
      s.jc.openDrawn = some i → s.jc.at i = some b → b.entries ≠ [] →
      exec .sealWord s = .next (State.endStep { s with
        memory := s.memory.after f, mp := s.mp.freed, aq := s.nextQueue, up := s.nextUp
        spc := s.spcCancelled, ru := s.ruCancelled
        jc := { s.jc with
          slots := tset s.jc.slots i (some { b with
            phase := .sealed, sealOrder := some s.jc.sealCounter
            tag := some (t.data.setWidth 16), takeover := some (t.data.getLsbD 31) })
          sealCounter := s.jc.sealCounter + 1 } }))
  ∧ (∀ (s : State) (f : InFlight) (t : HostTransfer), s.settled → s.spc.part = .running → s.headWriting f t →
      controlOf t = some .seal → (t.data.getLsbD 31 = false ∨ s.rp.state = .idle) →
      (s.jc.openDrawn = none ∨ ∃ i b, s.jc.openDrawn = some i ∧ s.jc.at i = some b ∧ b.entries = []) →
      exec .sealWord s = .next (State.endStep { s with
        memory := s.memory.after f, mp := s.mp.freed, aq := s.nextQueue, up := s.nextUp
        spc := s.spcCancelled, ru := s.ruCancelled }))

/-- R19, R57, R113: a seal word with the takeover flag set seals the OPEN drawn batch that has an entry, and stops the reel that
plays; the row is the model's reading of the seal word (log entry 16), and so are that the stop withdraws an update which the CT
has not taken (log entry 19) and that the drawn write which waits is checked before the RP leaves its state (log entry 11). What
the stop keeps of a header address is the model's too (log entry 38). Whether the grant at that completion takes the RP's request
before the stop withdraws it is a free value (R191; log entry 39). -/
def Obligations.TakeoverSealsAndStopsTheReel : Prop :=
  ∀ (s s1 : State) (f : InFlight) (t : HostTransfer) (j : Jc), s.settled → s.spc.part = .running →
    s.headWriting f t → controlOf t = some .seal → t.data.getLsbD 31 = true →
    ((∃ i b, s.jc.openDrawn = some i ∧ s.jc.at i = some b ∧ b.entries ≠ [] ∧
        j = { s.jc with
          slots := tset s.jc.slots i (some { b with
            phase := .sealed, sealOrder := some s.jc.sealCounter
            tag := some (t.data.setWidth 16), takeover := some true })
          sealCounter := s.jc.sealCounter + 1 })
      ∨ ((s.jc.openDrawn = none ∨ ∃ i b, s.jc.openDrawn = some i ∧ s.jc.at i = some b ∧ b.entries = []) ∧ j = s.jc)) →
    s1 = { s with
      memory := s.memory.after f, mp := s.mp.freed, aq := s.nextQueue, up := s.nextUp
      spc := s.spcCancelled, ru := s.ruCancelled, jc := j } →
    (s.rp.state = .idle → exec .takeover s = .next s1.endStep)
    ∧ (s.rp.state ≠ .idle → ∃ u, exec .takeover s = .next u.endStep ∧ s1.atStop.reelStopped u)
    ∧ exec .sealWord s = exec .takeover s

/-- R210, R212: the report word makes a manual counter transfer and a snapshot due; the acknowledge word clears the causes its
mask names, empties the fault record copy, and makes the fault record and a snapshot due. -/
def Obligations.ReportAndAcknowledgeWords : Prop :=
  (∀ (s : State) (f : InFlight) (t : HostTransfer), s.settled → s.spc.part = .running → s.headWriting f t →
      controlOf t = some .report →
      exec .reportWord s = .next (State.endStep { s with
        memory := s.memory.after f, mp := s.mp.freed, aq := s.nextQueue, up := s.nextUp
        ru := { s.ru with dueCounters := some .manual, dueStatus := true } }))
  ∧ (∀ (s : State) (f : InFlight) (t : HostTransfer), s.settled → s.spc.part = .running → s.headWriting f t →
      controlOf t = some .acknowledge →
      exec .acknowledgeWord s = .next (State.endStep { s with
        memory := s.memory.after f, mp := s.mp.freed, aq := s.nextQueue, up := s.nextUp
        ru := { s.ru with
          causes := s.ru.causes &&& ~~~(t.data.setWidth 7), fault := none, dueFault := true, dueStatus := true } }))

/-- R202, R203, R89, R181: the standby word puts a quiet part in STANDBY, which a transfer still queued ends at once (R204,
R90); while the part is not quiet it sets standby pending. -/
def Obligations.StandbyWordEntersOrPends : Prop :=
  ∀ (s : State) (f : InFlight) (t : HostTransfer), s.settled → s.spc.part = .running → s.headWriting f t →
    controlOf t = some .standby →
    (s.partQuiet → s.nextQueue.queue = [] →
      exec .standbyWord s = .next (State.endStep { s with
        memory := s.memory.after f, mp := s.mp.freed, aq := s.nextQueue, up := s.nextUp
        spc := { s.spc with part := .standby, standbyPending := false }
        mm := s.marksForced false none, ru := { s.ru with dueStatus := true } }))
    ∧ (s.partQuiet → s.nextQueue.queue ≠ [] →
      exec .standbyWord s = .next (State.endStep { s with
        memory := s.memory.after f, mp := s.mp.freed, aq := s.nextQueue, up := s.nextUp
        spc := { s.spc with standbyPending := false }
        mm := s.marksForced true (some s.mm.pacing), ru := { s.ru with dueStatus := true } }))
    ∧ (¬ s.partQuiet →
      exec .standbyWord s = .next (State.endStep { s with
        memory := s.memory.after f, mp := s.mp.freed, aq := s.nextQueue, up := s.nextUp
        spc := { s.spc with standbyPending := true } }))

/-- R151, R152, R154: the profile reload word makes the profile it names due, or all 16; with no load in progress the first due
one is read at once; a profile in load is marked due again, and another one waits for it. A question that the PU holds stays
held. Due profiles whose records lie above the plain window complete at once as VOID (`Pu.allVoid`), and a question for one of
them is answered then (R130, R155). The load keeps the word that is asked
as memory stands, in the model's own field (log entry 35). -/
def Obligations.ReloadWordMakesProfilesDue : Prop :=
  ∀ (s : State) (f : InFlight) (t : HostTransfer), s.settled → s.spc.part = .running → s.headWriting f t →
    controlOf t = some .profileReload → s.questionHeld s.pu →
    (∀ p : Fin 16, t.data.toNat = p.val → s.pu.load = none → (∀ q, tget s.pu.pending q = false) →
      s.pu.base + 8 * p.val + 4 ≤ 0x7FFFFF →
      exec .profileReloadWord s = .next (State.endStep { s with
        memory := s.memory.after f, aq := s.nextQueue, up := s.nextUp
        mp := s.mp.freed.asking placeSpc (readOf .profileRead (wordAt (s.pu.base + 8 * p.val)))
        pu := { s.pu with
          pending := tset s.pu.pending p true
          load := some { profile := p, first := none, bad := false, again := false,
                         asked := (s.memory.after f).readWord (wordAt (s.pu.base + 8 * p.val)) } } }))
    ∧ (16 ≤ t.data.toNat → s.pu.load = none → s.pu.base + 4 ≤ 0x7FFFFF →
      exec .profileReloadWord s = .next (State.endStep { s with
        memory := s.memory.after f, aq := s.nextQueue, up := s.nextUp
        mp := s.mp.freed.asking placeSpc (readOf .profileRead (wordAt s.pu.base))
        pu := { s.pu with
          pending := Vector.replicate 16 true
          load := some { profile := 0, first := none, bad := false, again := false,
                         asked := (s.memory.after f).readWord (wordAt s.pu.base) } } }))
    ∧ (∀ (p : Fin 16) (l : Load), t.data.toNat = p.val → s.pu.load = some l → l.profile = p →
      exec .profileReloadWord s = .next (State.endStep { s with
        memory := s.memory.after f, mp := s.mp.freed, aq := s.nextQueue, up := s.nextUp
        pu := { s.pu with load := some { l with again := true } } }))
    ∧ (∀ (p : Fin 16) (l : Load), t.data.toNat = p.val → s.pu.load = some l → l.profile ≠ p →
      exec .profileReloadWord s = .next (State.endStep { s with
        memory := s.memory.after f, mp := s.mp.freed, aq := s.nextQueue, up := s.nextUp
        pu := { s.pu with pending := tset s.pu.pending p true } }))
    ∧ (∀ l : Load, 16 ≤ t.data.toNat → s.pu.load = some l →
      exec .profileReloadWord s = .next (State.endStep { s with
        memory := s.memory.after f, mp := s.mp.freed, aq := s.nextQueue, up := s.nextUp
        pu := { s.pu with
          pending := tset (Vector.replicate 16 true) l.profile (tget s.pu.pending l.profile)
          load := some { l with again := true } } }))
    ∧ (∀ (s1 : State) (u v : Pu), s.pu.load = none →
      ((∃ p : Fin 16, t.data.toNat = p.val ∧ u = { s.pu with pending := tset s.pu.pending p true })
        ∨ (16 ≤ t.data.toNat ∧ u = { s.pu with pending := Vector.replicate 16 true })) →
      u.restDone v →
      s1 = { s with memory := s.memory.after f, mp := s.mp.freed, aq := s.nextQueue, up := s.nextUp, pu := v } →
      (s.questionHeld v → exec .profileReloadWord s = .next s1.endStep)
      ∧ (∀ w : State, s1.profileAnswered w → exec .profileReloadWord s = .next w.endStep))

/-- R113, R114: the reel stop word stops the reel that plays, whatever its value; in IDLE it has no effect. At the discard a
waiting drawn write that can no longer be granted anything is dropped (R28), and a pending standby that finds the part quiet
afterwards is entered (R202). That the stop withdraws an update which the CT has not taken is the model's reading (log entry
19), and so is that the drawn write is checked before the RP leaves its state (log entry 11); what the stop keeps of a header
address is the model's too (log entry 38). Whether the grant at that completion takes the RP's request before the stop withdraws
it is a free value (R191; log entry 39). -/
def Obligations.ReelStopWordStopsTheReel : Prop :=
  ∀ (s s1 : State) (f : InFlight) (t : HostTransfer), s.settled → s.spc.part = .running → s.headWriting f t →
    controlOf t = some .reelStop →
    s1 = { s with memory := s.memory.after f, mp := s.mp.freed, aq := s.nextQueue, up := s.nextUp } →
    (s.rp.state = .idle → exec .reelStopWord s = .next s1.endStep)
    ∧ (s.rp.state ≠ .idle → ∃ u, s1.atStop.reelStopped u
        ∧ (s.spc.standbyPending = true → u.partQuiet → exec .reelStopWord s = .next u.standbyEntered.endStep)
        ∧ (s.spc.standbyPending = false ∨ ¬u.partQuiet → exec .reelStopWord s = .next u.endStep))

/-- R200, R201: the restart word is accepted when the part is quiet, and in PASSIVE whatever its value, from the queue or as it
arrives, and every block takes what R201 gives it; while the part is RUNNING and not quiet it is refused with RESTART_REFUSED.
Two things are the model's: a request of a stopped reel still at the CT is abandoned (log entry 36), and a transfer that waits
behind held ones is handed to the MP (log entry 17). The grant at the completion that brings the acceptance may come before it
(R191); whether it does is the free value of log entry 39. -/
def Obligations.RestartWordIsAcceptedOrRefused : Prop :=
  (∀ (s : State) (f : InFlight) (t : HostTransfer), s.settled → s.spc.part = .running → s.headWriting f t →
      controlOf t = some .restart → s.partQuiet → (∀ w ∈ s.up.waiting, w.place ≠ .forPort) →
      exec .restartWord s = .next (State.endStep (State.restarted (State.grantFirst { s with
        memory := s.memory.after f, mp := s.mp.freed, aq := s.nextQueue, up := s.nextUp } (fun _ => true)))))
  ∧ (∀ (s : State) (f : InFlight) (t : HostTransfer), s.settled → s.spc.part = .running → s.headWriting f t →
      controlOf t = some .restart → ¬ s.partQuiet →
      exec .restartWord s = .next (State.endStep { s with
        memory := s.memory.after f, mp := s.mp.freed, aq := s.nextQueue, up := s.nextUp
        ru := s.ru.raise .restartRefused }))
  ∧ (∀ (s : State) (f : InFlight) (w : Waiting), s.settled → s.spc.part = .passive → s.inFlightFor f .passive →
      f.req.op ≠ .read → s.up.waiting = some w → controlOf w.xfer = some .restart →
      exec .passiveTransferCompletion s = .next (State.endStep (State.restarted (State.grantFirst { s with
        memory := s.memory.after f, mp := s.mp.freed
        up := { s.up with waiting := none, answer := some { ready := true, data := none } } } (fun _ => true)))))
  ∧ (∀ (s : State) (f : InFlight) (t : HostTransfer), s.settled → s.spc.part = .passive → s.headWriting f t →
      controlOf t = some .restart → (∀ w ∈ s.up.waiting, w.place ≠ .forPort) →
      exec .restartWord s = .next (State.endStep (State.restarted (State.grantFirst { s with
        memory := s.memory.after f, mp := s.mp.freed, aq := s.nextQueue, up := s.nextUp } (fun _ => true)))))
  ∧ (∀ (s s1 : State) (f : InFlight) (t x : HostTransfer), s.settled → s.spc.part = .passive → s.headWriting f t →
      controlOf t = some .restart → s.up.waiting = some ⟨x, .forPort⟩ →
      s1 = State.restarted (State.grantFirst { s with
        memory := s.memory.after f, mp := s.mp.freed, aq := s.nextQueue
        up := { s.up with waiting := some ⟨x, .atPort⟩ } } (fun _ => true)) →
      exec .restartWord s = .next (State.endStep { s1 with
        mp := s1.mp.asking placeAq { owner := .passive, op := opOf x, word := wordOfTransfer x } }))

/-- R98 to R101: the play word is a cue for reel 0 to 3, which starts the reel if the RP is IDLE and its entry enabled, pends
while the RP is busy, and is ignored and recorded for a disabled reel; a value of 4 or more is recorded as OUT_OF_RANGE. -/
def Obligations.PlayWordIsACue : Prop :=
  ∀ (s : State) (f : InFlight) (t : HostTransfer), s.settled → s.spc.part = .running → s.headWriting f t →
    controlOf t = some .play →
    (∀ n : Fin 4, t.data.toNat = n.val → (tget s.rp.directory n).enabled = true → s.rp.state = .idle →
      exec .playWord s = .next (State.endStep { s with
        memory := s.memory.after f, aq := s.nextQueue, up := s.nextUp
        mp := s.mp.freed.asking placeRp (readOf .header (wordAt (tget s.rp.directory n).start))
        spc := s.spcCancelled, ru := { s.ruCancelled with dueStatus := true }
        rp := s.rpStarted n, jc := s.jc.mapBatches Batch.toEarlier }))
    ∧ (∀ n : Fin 4, t.data.toNat = n.val → (tget s.rp.directory n).enabled = true → s.rp.state ≠ .idle →
      exec .playWord s = .next (State.endStep { s with
        memory := s.memory.after f, mp := s.mp.freed, aq := s.nextQueue, up := s.nextUp
        spc := s.spcCancelled, ru := s.ruCancelled, rp := { s.rp with pendingCue := some n } }))
    ∧ (∀ n : Fin 4, t.data.toNat = n.val → (tget s.rp.directory n).enabled = false →
      exec .playWord s = .next (State.endStep { s with
        memory := s.memory.after f, mp := s.mp.freed, aq := s.nextQueue, up := s.nextUp
        rp := { s.rp with lastIgnored := some { source := .playWord, reel := some n } } }))
    ∧ (4 ≤ t.data.toNat →
      exec .playWord s = .next (State.endStep { s with
        memory := s.memory.after f, mp := s.mp.freed, aq := s.nextQueue, up := s.nextUp
        rp := { s.rp with lastIgnored := some { source := .playWord, reel := none } } }))

/-- R97, R99 to R102: an edge on a cue line is not taken while the RP does not watch; it starts an enabled reel in RUNNING with
the RP IDLE, pends while the RP is busy and in STARTING, wakes the part in STANDBY, and is ignored and recorded for a disabled
reel. -/
def Obligations.CueLineEdgeByPartState : Prop :=
  ∀ (s : State) (n : Fin 4), s.settled →
    (s.rp.watching = false → exec (.cueLineEdge n) s = .next s)
    ∧ (s.rp.watching = true → s.spc.part = .running → (tget s.rp.directory n).enabled = true → s.rp.state = .idle →
      exec (.cueLineEdge n) s = .next (State.endStep { s with
        mp := s.mp.asking placeRp (readOf .header (wordAt (tget s.rp.directory n).start))
        spc := s.spcCancelled, ru := { s.ruCancelled with dueStatus := true }
        rp := s.rpStarted n, jc := s.jc.mapBatches Batch.toEarlier }))
    ∧ (s.rp.watching = true → s.spc.part = .running → (tget s.rp.directory n).enabled = true → s.rp.state ≠ .idle →
      exec (.cueLineEdge n) s = .next (State.endStep { s with
        spc := s.spcCancelled, ru := s.ruCancelled, rp := { s.rp with pendingCue := some n } }))
    ∧ (s.rp.watching = true → (s.spc.part = .running ∨ s.spc.part = .standby) → (tget s.rp.directory n).enabled = false →
      exec (.cueLineEdge n) s = .next (State.endStep { s with
        rp := { s.rp with lastIgnored := some { source := .cueLine, reel := some n } } }))
    ∧ (∀ sub, s.rp.watching = true → s.spc.part = .starting sub →
      exec (.cueLineEdge n) s = .next (State.endStep { s with rp := { s.rp with pendingCue := some n } }))
    ∧ (s.rp.watching = true → s.spc.part = .standby → (tget s.rp.directory n).enabled = true → s.rp.state = .idle →
      s.spc.standbyPending = false →
      exec (.cueLineEdge n) s = .next (State.endStep { s with
        spc := { s.spc with part := .running }, mm := s.marksForced true (some s.mm.pacing)
        mp := s.mp.asking placeRp (readOf .header (wordAt (tget s.rp.directory n).start))
        ru := { s.ru with dueStatus := true }, rp := s.rpStarted n, jc := s.jc.mapBatches Batch.toEarlier }))

/-! ### The Canvas Translator -/

/-- R124, R132, R146: the CT, if free, takes a waiting request, of two the one of the requester not last served (that last
served is recorded where both wait is the model's reading, log entry 15; that the command leaves the state where the CT is busy
or has no request is its choice, log entry 1); a miss begins a walk with the read of the zone's directory entry, or faults with
ZONE_ABSENT where the entry lies above the plain window, whatever its kind (the fault of each kind: `State.ctFault`, in
DirectoryReadGoesOnOrFaults). View, zone, segment and pixel are taken from the canvas address as the
last clause says (R122). -/
def Obligations.CtMissBeginsAWalk : Prop :=
  (∀ s : State, (s.ct.current.isSome = true ∨ (s.ct.offerAq = none ∧ s.ct.offerRp = none)) →
      exec .ctRequestTaken s = .next s)
  ∧ (∀ (s : State) (q : CtReq) (c : Ct), s.settled → s.ct.current = none → s.ct.picked = some (q, c) →
      s.ct.lookup (zoneOf q.canvas) (segmentOf q.canvas) = none →
      (∀ w, w = wordAt (s.ct.dirBase + 8 * zoneOf q.canvas) → s.ct.dirBase + 8 * zoneOf q.canvas + 7 ≤ 0x7FFFFF →
        exec .ctRequestTaken s = .next (State.endStep { s with
          ct := { c with
            current := some q
            walk := some { step := .dirFirst, dir1 := 0, dir2 := 0, seg1 := 0, seg2 := 0, bad := false, segWord := 0
                           sources := [w], stale := s.writeInService w, wroteChanged := false, result := none } }
          mp := s.mp.asking placeCt (readOf .dirRead w) }))
      ∧ (0x7FFFFF < s.ct.dirBase + 8 * zoneOf q.canvas + 7 → q.kind = .drawnWrite → q.discard = false →
        s.spc.part = .running →
        exec .ctRequestTaken s = .next (State.endStep { s with
          ct := { c with current := none, walk := none, hit := none }
          ru := (s.ru.report .zoneAbsent .drawnWrite q.canvas).count .translate
          aq := s.nextQueue, up := s.nextUp }))
      ∧ (0x7FFFFF < s.ct.dirBase + 8 * zoneOf q.canvas + 7 → s.spc.part = .running →
        exec .ctRequestTaken s = .next (State.endStep
          (State.ctFault { s with ct := { c with current := some q } } q .zoneAbsent))))
  ∧ ∀ (a : Addr) (first offset : Nat) (v : View),
      (first, v) ∈ [(0x800000, View.replace), (0x900000, .level), (0xA00000, .add)] → offset < 0x100000 →
      a.toNat = first + offset →
      viewOf a = v ∧ zoneOf a = offset / 16384 ∧ segmentOf a = offset / 256 % 64 ∧ pixelOf a = offset / 4 % 64

/-- R129, R130, R138, R22, R23, R131: a request whose zone and segment are cached makes its entry the most recent. A write that
passes asks for one hit write-back while changed known is clear, setting it; a canvas read that passes is answered from the
journal or asks for the shown buffer; a failed check is a fault of the request; a pending profile holds it. What is not held is
decided at once, by the same checks for every kind of request (`State.hitDecided`, where the hit overtaken by a host write is
log entry 20), and the request handed on where no write-back is asked. A hit write-back writes the bits that belong to no field
as 0 (R219). -/
def Obligations.CtHitUsesTheCachedEntry : Prop :=
  (∀ (s : State) (q : CtReq) (c : Ct) (e : CacheEntry) (t : Translation), s.settled → s.ct.current = none →
      s.ct.picked = some (q, c) → s.ct.lookup (zoneOf q.canvas) (segmentOf q.canvas) = some e →
      s.translates e.fields (pixelOf q.canvas) t → (q.kind = .drawnWrite ∨ q.kind = .reelUpdate) → e.known = false →
      s.up.protects (e.sources.getD 2 0) = false →
      exec .ctRequestTaken s = .next (State.endStep { s with
        ct := { c with
          cache := (State.cacheWith s.ct.cache e).map (fun x =>
            if x.zone == zoneOf q.canvas && x.segment == segmentOf q.canvas then { x with known := true } else x)
          current := some q
          hit := some { fields := e.fields, flagWord := e.sources.getD 2 0, known := false, overtaken := false
                        result := some t } }
        mp := s.mp.asking placeCt (writeOf .hitFlag (e.sources.getD 2 0) e.fields.writeBackWord) }))
  ∧ (∀ (s : State) (q : CtReq) (c : Ct) (e : CacheEntry) (t : Translation) (v : Stored), s.settled → s.ct.current = none →
      s.ct.picked = some (q, c) → s.ct.lookup (zoneOf q.canvas) (segmentOf q.canvas) = some e →
      s.translates e.fields (pixelOf q.canvas) t → q.kind = .canvasRead → q.discard = false → s.spc.part = .running →
      s.jc.drawnLookup t.frameSlot = some v →
      exec .ctRequestTaken s = .next (State.endStep { s with
        ct := { c with cache := State.cacheWith s.ct.cache e, current := none, walk := none, hit := none }
        up := s.readAnswer t.profile.order v true, aq := { queue := s.aq.queue.tail, taken := false } }))
  ∧ (∀ (s : State) (q : CtReq) (c : Ct) (e : CacheEntry) (t : Translation), s.settled → s.ct.current = none →
      s.ct.picked = some (q, c) → s.ct.lookup (zoneOf q.canvas) (segmentOf q.canvas) = some e →
      s.translates e.fields (pixelOf q.canvas) t → q.kind = .canvasRead → q.discard = false →
      s.jc.drawnLookup t.frameSlot = none →
      exec .ctRequestTaken s = .next (State.endStep { s with
        ct := { c with cache := State.cacheWith s.ct.cache e, current := none, walk := none, hit := none }
        jc := { s.jc with readBack := some { order := t.profile.order, canvas := q.canvas } }
        mp := s.mp.asking placeAq (readOf .canvasRead (s.re.slotWord s.re.select t.frameSlot)) }))
  ∧ (∀ (s : State) (q : CtReq) (c : Ct) (e : CacheEntry) (k : FaultKind), s.settled → s.ct.current = none →
      s.ct.picked = some (q, c) → s.ct.lookup (zoneOf q.canvas) (segmentOf q.canvas) = some e →
      s.translationFails e.fields (pixelOf q.canvas) k → q.kind = .drawnWrite → q.discard = false → s.spc.part = .running →
      exec .ctRequestTaken s = .next (State.endStep { s with
        ct := { c with cache := State.cacheWith s.ct.cache e, current := none, walk := none, hit := none }
        ru := (s.ru.report k .drawnWrite q.canvas).count .translate
        aq := s.nextQueue, up := s.nextUp }))
  ∧ (∀ (s : State) (q : CtReq) (c : Ct) (e : CacheEntry), s.settled → s.ct.current = none → s.ct.picked = some (q, c) →
      s.ct.lookup (zoneOf q.canvas) (segmentOf q.canvas) = some e → s.asksProfile e.fields (pixelOf q.canvas) →
      exec .ctRequestTaken s = .next (State.endStep { s with
        ct := { c with
          cache := State.cacheWith s.ct.cache e, current := some q
          hit := some { fields := e.fields, flagWord := e.sources.getD 2 0, known := e.known, overtaken := false
                        result := none } } }))
  ∧ (∀ (s t : State) (q : CtReq) (c : Ct) (e : CacheEntry), s.settled → s.spc.part = .running → s.ct.current = none →
      s.ct.picked = some (q, c) → s.ct.lookup (zoneOf q.canvas) (segmentOf q.canvas) = some e →
      State.hitDecided { s with ct := { c with cache := State.cacheWith s.ct.cache e, current := some q } } q
        { fields := e.fields, flagWord := e.sources.getD 2 0, known := e.known, overtaken := false, result := none } t →
      exec .ctRequestTaken s = .next t.endStep)
  ∧ (∀ (f : SegFields) (x : Word),
      SegFields.ofWords f.writeBackWord x
          = { f with touched := true, changed := true, slotBase := field x 11 0, length := field x 22 16 }
        ∧ ∀ n, n ∈ [5, 6, 7] ∨ 12 ≤ n → f.writeBackWord.getLsbD n = false)

/-- R124, R125, R126, R128, R132, R135, R142: the reads of a directory entry. After its first word the second is read, in error
or not; then a parity error, a clear present flag or a segment beyond the count end the walk with their fault, an untouched
entry is written with touched set, and a touched one (or one whose write is dropped or withheld) leads to the segment entry, or
to SEGMENT_BEYOND or SEGMENT_ABSENT (`State.segmentSought`). A fault ends the request by its kind (R131): the head of the queue
leaves, a canvas read answered with error and zero data, a reel update gives way to the next pair (R106), and a request to be
discarded ends without effect but that the RP now makes the request it has kept back (R123, R136; `State.discardEnded`), which
is the model's inference (log entry 41). WALK_PARITY carries the canvas address (R106, R131, R148, R208); that R189's address of
the word does not hold of it is the model's reading (log entry 37). The count and the table base are the bits the last clause
gives (R217, R219). -/
def Obligations.DirectoryReadGoesOnOrFaults : Prop :=
  (∀ (s : State) (f : InFlight) (q : CtReq) (k : Walk) (w : WordAddr), s.settled → s.inFlightFor f .dirRead →
      f.req.op = .read → s.ct.current = some q → s.ct.walk = some k → k.step = .dirFirst →
      w = wordAt (s.ct.dirBase + 8 * zoneOf q.canvas + 4) →
      exec .directoryReadCompletion s = .next (State.endStep { s with
        ct := { s.ct with
          walk := some (s.walkAsking { k with dir1 := s.dataOf f, bad := s.readError f } .dirSecond w) }
        mp := s.mp.freed.asking placeCt (readOf .dirRead w), ru := s.ruAfterRead f }))
  ∧ (∀ (s : State) (f : InFlight) (q : CtReq) (k : Walk) (x : FaultKind), s.settled → s.spc.part = .running →
      s.inFlightFor f .dirRead → f.req.op = .read → s.ct.current = some q → s.ct.walk = some k → k.step = .dirSecond →
      q.kind = .drawnWrite → q.discard = false → k.bad = false → s.readError f = false →
      ((k.dir1.getLsbD 0 = false ∧ x = .zoneAbsent)
        ∨ (k.dir1.getLsbD 0 = true ∧ k.dir1.getLsbD 1 = true ∧ dirCount k.dir1 ≤ segmentOf q.canvas ∧ x = .segmentBeyond)) →
      exec .directoryReadCompletion s = .next (State.endStep { s with
        ct := s.ctIdle, mp := s.mp.freed, aq := s.nextQueue, up := s.nextUp
        ru := (s.ru.report x .drawnWrite q.canvas).count .translate }))
  ∧ (∀ (s : State) (f : InFlight) (q : CtReq) (k : Walk), s.settled → s.spc.part = .running →
      s.inFlightFor f .dirRead → f.req.op = .read → s.ct.current = some q → s.ct.walk = some k → k.step = .dirSecond →
      q.kind = .drawnWrite → q.discard = false → (k.bad = true ∨ s.readError f = true) →
      exec .directoryReadCompletion s = .next (State.endStep { s with
        ct := s.ctIdle, mp := s.mp.freed, aq := s.nextQueue, up := s.nextUp
        ru := (s.ruAfterRead f).report .walkParity .drawnWrite q.canvas }))
  ∧ (∀ (s : State) (f : InFlight) (q : CtReq) (k : Walk) (w : WordAddr), s.settled → s.inFlightFor f .dirRead →
      f.req.op = .read → s.ct.current = some q → s.ct.walk = some k → k.step = .dirSecond → k.bad = false →
      s.readError f = false → k.dir1.getLsbD 0 = true → k.dir1.getLsbD 1 = false → k.stale = false →
      w = wordAt (s.ct.dirBase + 8 * zoneOf q.canvas) → s.up.protects w = false →
      exec .directoryReadCompletion s = .next (State.endStep { s with
        ct := { s.ct with walk := some { k with step := .dirFlag, dir2 := s.dataOf f } }
        mp := s.mp.freed.asking placeCt (writeOf .walkFlag w (k.dir1 ||| 2)) }))
  ∧ (∀ (s : State) (f : InFlight) (q : CtReq) (k : Walk) (w : WordAddr), s.settled → s.inFlightFor f .dirRead →
      f.req.op = .read → s.ct.current = some q → s.ct.walk = some k → k.step = .dirSecond → k.bad = false →
      s.readError f = false → k.dir1.getLsbD 0 = true →
      (k.dir1.getLsbD 1 = true ∨ k.stale = true
        ∨ s.up.protects (wordAt (s.ct.dirBase + 8 * zoneOf q.canvas)) = true) →
      segmentOf q.canvas < dirCount k.dir1 → segTableBase (s.dataOf f) + 8 * segmentOf q.canvas + 7 ≤ 0x7FFFFF →
      w = wordAt (segTableBase (s.dataOf f) + 8 * segmentOf q.canvas) →
      exec .directoryReadCompletion s = .next (State.endStep { s with
        ct := { s.ct with
          walk := some (s.walkAsking { k with dir2 := s.dataOf f, segWord := w } .segFirst w) }
        mp := s.mp.freed.asking placeCt (readOf .segRead w) }))
  ∧ (∀ (s s1 : State) (f : InFlight) (q : CtReq) (k : Walk), s.settled → s.spc.part = .running →
      s.inFlightFor f .dirRead → f.req.op = .read → s.ct.current = some q → s.ct.walk = some k → k.step = .dirSecond →
      s1 = { s with mp := s.mp.freed, ru := s.ruAfterRead f } →
      (k.bad = false → s.readError f = false → k.dir1.getLsbD 0 = false →
        exec .directoryReadCompletion s = .next (State.endStep (s1.ctFault q .zoneAbsent)))
      ∧ ((k.bad = true ∨ s.readError f = true) → q.discard = true →
        exec .directoryReadCompletion s = .next s1.discardEnded.endStep)
      ∧ ((k.bad = true ∨ s.readError f = true) → q.discard = false →
        exec .directoryReadCompletion s = .next (State.endStep (s1.ctFault q .walkParity))))
  ∧ (∀ (s t : State) (f : InFlight) (q : CtReq) (k k2 : Walk), s.settled → s.spc.part = .running →
      s.inFlightFor f .dirRead → f.req.op = .read → s.ct.current = some q → s.ct.walk = some k → k.step = .dirSecond →
      k.bad = false → s.readError f = false → k.dir1.getLsbD 0 = true →
      (k.dir1.getLsbD 1 = true ∨ k.stale = true
        ∨ s.up.protects (wordAt (s.ct.dirBase + 8 * zoneOf q.canvas)) = true) →
      k2 = { k with dir2 := s.dataOf f } → State.segmentSought { s with mp := s.mp.freed } q k2 t →
      exec .directoryReadCompletion s = .next t.endStep)
  ∧ (∀ (s : State) (q : CtReq) (x : FaultKind),
      (q.discard = true → s.ctFault q x = s.discardEnded)
      ∧ ∀ (o : FaultOrigin) (u : Ru), q.discard = false →
        (q.kind, o) ∈ [(ReqKind.drawnWrite, FaultOrigin.drawnWrite), (.canvasRead, .canvasRead), (.reelUpdate, .reelUpdate)] →
        u = (if x = .walkParity then s.ru.report x o q.canvas else (s.ru.report x o q.canvas).count .translate) →
        (q.kind = .drawnWrite →
          s.ctFault q x = { s with ct := s.ctIdle, ru := u, aq := s.nextQueue, up := s.nextUp })
        ∧ (q.kind = .canvasRead →
          s.ctFault q x = { s with
            ct := s.ctIdle, ru := u, aq := { queue := s.aq.queue.tail, taken := false }
            up := { s.up with waiting := none, answer := some { ready := false, data := some 0 } } })
        ∧ (∀ n, q.kind = .reelUpdate → s.rp.step = .update n →
          s.ctFault q x = State.loadPair { s with ct := s.ctIdle, ru := u } (n + 1)))
  ∧ (∀ x : Word, dirCount x = field x 14 8 ∧ segTableBase x = 4 * field x 23 2)


/-- R126, R128 to R130, R133 to R135, R137, R139: the reads of a segment entry. After its first word the second is read; then a
parity error or a clear present flag end the walk with their fault; a translation that passes asks for the write of the flag
word with the flags it sets, or, with no flag to set, fills the cache and hands the request on; a failed check sets touched if
it is clear, fills the cache and faults; a pending profile holds the walk. What is not held is decided by the same checks for
every kind of request (`State.segmentDecided`), and each kind has its own end with a fault (`State.ctFault`, in
DirectoryReadGoesOnOrFaults). WALK_PARITY carries the canvas address (R106, R131, R148, R208); that R189's address of the word
does not hold of it is the model's reading (log entry 37). The fields of the entry are the bits the last clause gives (R217). -/
def Obligations.SegmentReadDecidesTheTranslation : Prop :=
  (∀ (s : State) (f : InFlight) (q : CtReq) (k : Walk) (w : WordAddr), s.settled → s.inFlightFor f .segRead →
      f.req.op = .read → s.ct.current = some q → s.ct.walk = some k → k.step = .segFirst →
      w = wordAt (segTableBase k.dir2 + 8 * segmentOf q.canvas + 4) →
      exec .segmentReadCompletion s = .next (State.endStep { s with
        ct := { s.ct with
          walk := some (s.walkAsking { k with seg1 := s.dataOf f, bad := s.readError f } .segSecond w) }
        mp := s.mp.freed.asking placeCt (readOf .segRead w), ru := s.ruAfterRead f }))
  ∧ (∀ (s : State) (f : InFlight) (q : CtReq) (k : Walk), s.settled → s.spc.part = .running →
      s.inFlightFor f .segRead → f.req.op = .read → s.ct.current = some q → s.ct.walk = some k → k.step = .segSecond →
      q.kind = .drawnWrite → q.discard = false → k.bad = false → s.readError f = false → k.seg1.getLsbD 0 = false →
      exec .segmentReadCompletion s = .next (State.endStep { s with
        ct := s.ctIdle, mp := s.mp.freed, aq := s.nextQueue, up := s.nextUp
        ru := (s.ru.report .segmentAbsent .drawnWrite q.canvas).count .translate }))
  ∧ (∀ (s : State) (f : InFlight) (q : CtReq) (k : Walk), s.settled → s.spc.part = .running →
      s.inFlightFor f .segRead → f.req.op = .read → s.ct.current = some q → s.ct.walk = some k → k.step = .segSecond →
      q.kind = .drawnWrite → q.discard = false → (k.bad = true ∨ s.readError f = true) →
      exec .segmentReadCompletion s = .next (State.endStep { s with
        ct := s.ctIdle, mp := s.mp.freed, aq := s.nextQueue, up := s.nextUp
        ru := (s.ruAfterRead f).report .walkParity .drawnWrite q.canvas }))
  ∧ (∀ (s s1 : State) (f : InFlight) (q : CtReq) (k : Walk), s.settled → s.spc.part = .running →
      s.inFlightFor f .segRead → f.req.op = .read → s.ct.current = some q → s.ct.walk = some k → k.step = .segSecond →
      s1 = { s with mp := s.mp.freed, ru := s.ruAfterRead f } →
      (k.bad = false → s.readError f = false → k.seg1.getLsbD 0 = false →
        exec .segmentReadCompletion s = .next (State.endStep (s1.ctFault q .segmentAbsent)))
      ∧ ((k.bad = true ∨ s.readError f = true) → q.discard = true →
        exec .segmentReadCompletion s = .next s1.discardEnded.endStep)
      ∧ ((k.bad = true ∨ s.readError f = true) → q.discard = false →
        exec .segmentReadCompletion s = .next (State.endStep (s1.ctFault q .walkParity))))
  ∧ (∀ (s : State) (f : InFlight) (q : CtReq) (k : Walk) (g : SegFields) (t : Translation) (changes : Bool), s.settled →
      s.inFlightFor f .segRead → f.req.op = .read → s.ct.current = some q → s.ct.walk = some k → k.step = .segSecond →
      k.bad = false → s.readError f = false → g = SegFields.ofWords k.seg1 (s.dataOf f) → g.present = true →
      s.translates g (pixelOf q.canvas) t → changes = (!g.changed && decide (q.kind ≠ .canvasRead)) →
      (g.touched = false ∨ changes = true) → k.stale = false → s.up.protects k.segWord = false →
      exec .segmentReadCompletion s = .next (State.endStep { s with
        ct := { s.ct with
          walk := some { k with
            step := .segFlag, seg2 := s.dataOf f, wroteChanged := changes, result := some (.ok t) } }
        mp := s.mp.freed.asking placeCt
          (writeOf .walkFlag k.segWord (if changes then k.seg1 ||| 6 else k.seg1 ||| 2)) }))
  ∧ (∀ (s : State) (f : InFlight) (q : CtReq) (k k2 : Walk) (t : Translation) (v : Stored), s.settled →
      s.spc.part = .running → s.inFlightFor f .segRead → f.req.op = .read → s.ct.current = some q → s.ct.walk = some k →
      k.step = .segSecond → k.bad = false → s.readError f = false → k2 = { k with seg2 := s.dataOf f, wroteChanged := false } →
      k.seg1.getLsbD 0 = true → k.seg1.getLsbD 1 = true →
      s.translates (SegFields.ofWords k.seg1 (s.dataOf f)) (pixelOf q.canvas) t → q.kind = .canvasRead → q.discard = false →
      s.jc.drawnLookup t.frameSlot = some v →
      exec .segmentReadCompletion s = .next (State.endStep { s with
        ct := { s.ctIdle with cache := s.cacheFilled q k2 }, mp := s.mp.freed
        up := s.readAnswer t.profile.order v true, aq := { queue := s.aq.queue.tail, taken := false } }))
  ∧ (∀ (s : State) (f : InFlight) (q : CtReq) (k k2 : Walk) (x : FaultKind), s.settled → s.spc.part = .running →
      s.inFlightFor f .segRead → f.req.op = .read → s.ct.current = some q → s.ct.walk = some k → k.step = .segSecond →
      k.bad = false → s.readError f = false → k2 = { k with seg2 := s.dataOf f, wroteChanged := false } →
      k.seg1.getLsbD 0 = true → k.seg1.getLsbD 1 = true →
      s.translationFails (SegFields.ofWords k.seg1 (s.dataOf f)) (pixelOf q.canvas) x → q.kind = .drawnWrite →
      q.discard = false →
      exec .segmentReadCompletion s = .next (State.endStep { s with
        ct := { s.ctIdle with cache := s.cacheFilled q k2 }, mp := s.mp.freed, aq := s.nextQueue, up := s.nextUp
        ru := (s.ru.report x .drawnWrite q.canvas).count .translate }))
  ∧ (∀ (s : State) (f : InFlight) (q : CtReq) (k : Walk), s.settled → s.inFlightFor f .segRead → f.req.op = .read →
      s.ct.current = some q → s.ct.walk = some k → k.step = .segSecond → k.bad = false → s.readError f = false →
      k.seg1.getLsbD 0 = true → s.asksProfile (SegFields.ofWords k.seg1 (s.dataOf f)) (pixelOf q.canvas) →
      exec .segmentReadCompletion s = .next (State.endStep { s with
        ct := { s.ct with walk := some { k with step := .profile, seg2 := s.dataOf f } }, mp := s.mp.freed }))
  ∧ (∀ (s t : State) (f : InFlight) (q : CtReq) (k k2 : Walk) (g : SegFields), s.settled → s.spc.part = .running →
      s.inFlightFor f .segRead → f.req.op = .read → s.ct.current = some q → s.ct.walk = some k → k.step = .segSecond →
      k.bad = false → s.readError f = false → k.seg1.getLsbD 0 = true →
      k2 = { k with seg2 := s.dataOf f } → State.segmentDecided { s with mp := s.mp.freed } q k2 g t →
      exec .segmentReadCompletion s = .next t.endStep)
  ∧ (∀ (x y : Word) (g : SegFields), g = SegFields.ofWords x y →
      g.present = x.getLsbD 0 ∧ g.touched = x.getLsbD 1 ∧ g.changed = x.getLsbD 2 ∧ g.reverse = x.getLsbD 3
      ∧ g.ring = x.getLsbD 4 ∧ g.profile.val = field x 11 8 ∧ g.slotBase = field y 11 0 ∧ g.length = field y 22 16)

/-- R132 to R134, R137, R139, R14, R165: the completion of a walk's flag-word write leads from the directory entry to the
segment entry, or to SEGMENT_BEYOND or SEGMENT_ABSENT (`State.segmentSought`), or completes the walk: the cache is filled unless
the walk is stale, and the request, of whichever kind, handed on or its fault raised; a drawn write with a finished value and an
entry for its frame slot in the OPEN drawn batch is placed there, and the head leaves. -/
def Obligations.FlagWordWriteContinuesTheWalk : Prop :=
  (∀ (s : State) (f : InFlight) (q : CtReq) (k : Walk) (w : WordAddr), s.settled → s.inFlightFor f .walkFlag →
      f.req.op ≠ .read → s.ct.current = some q → s.ct.walk = some k → k.step = .dirFlag →
      segmentOf q.canvas < dirCount k.dir1 → segTableBase k.dir2 + 8 * segmentOf q.canvas + 7 ≤ 0x7FFFFF →
      w = wordAt (segTableBase k.dir2 + 8 * segmentOf q.canvas) →
      exec .flagWordWriteCompletion s = .next (State.endStep { s with
        memory := s.memory.after f, pu := s.pu.after f
        ct := { s.ct with walk := some (s.walkAsking { k with segWord := w } .segFirst w) }
        mp := s.mp.freed.asking placeCt (readOf .segRead w) }))
  ∧ (∀ (s t : State) (f : InFlight) (q : CtReq) (k : Walk), s.settled → s.spc.part = .running → s.inFlightFor f .walkFlag →
      f.req.op ≠ .read → s.ct.current = some q → s.ct.walk = some k → k.step = .dirFlag →
      State.segmentSought { s with memory := s.memory.after f, pu := s.pu.after f, mp := s.mp.freed } q k t →
      exec .flagWordWriteCompletion s = .next t.endStep)
  ∧ (∀ (s : State) (f : InFlight) (q : CtReq) (k : Walk) (t : Translation) (i : Fin 8) (b : Batch) (v : Stored),
      s.settled → s.spc.part = .running → s.inFlightFor f .walkFlag → f.req.op ≠ .read → s.ct.current = some q →
      s.ct.walk = some k → k.step = .segFlag → k.result = some (.ok t) → q.kind = .drawnWrite → q.discard = false →
      t.profile.finished (viewOf q.canvas) (Pixel.ofWord q.value) = some v → s.jc.openDrawn = some i →
      s.jc.at i = some b → (∃ e ∈ b.entries, e.frameSlot = t.frameSlot) →
      exec .flagWordWriteCompletion s = .next (State.endStep { s with
        memory := s.memory.after f, mp := s.mp.freed, ct := { s.ctIdle with cache := s.cacheFilled q k }
        spc := s.spcCancelled, ru := s.ruCancelled
        jc := s.jcPlaced i b t.frameSlot v, pu := { s.pu.after f with heldDrawn := none }
        aq := s.nextQueue, up := s.nextUp }))
  ∧ (∀ (s : State) (f : InFlight) (q : CtReq) (k : Walk) (x : FaultKind),
      s.settled → s.spc.part = .running → s.inFlightFor f .walkFlag → f.req.op ≠ .read → s.ct.current = some q →
      s.ct.walk = some k → k.step = .segFlag → k.result = some (.bad x) → x ≠ .walkParity → q.kind = .drawnWrite →
      q.discard = false →
      exec .flagWordWriteCompletion s = .next (State.endStep { s with
        memory := s.memory.after f, pu := s.pu.after f, mp := s.mp.freed
        ct := { s.ctIdle with cache := s.cacheFilled q k }
        ru := (s.ru.report x .drawnWrite q.canvas).count .translate
        aq := s.nextQueue, up := s.nextUp }))
  ∧ (∀ (s : State) (f : InFlight) (q : CtReq) (k : Walk) (r : TrResult), s.settled → s.spc.part = .running →
      s.inFlightFor f .walkFlag → f.req.op ≠ .read → s.ct.current = some q → s.ct.walk = some k → k.step = .segFlag →
      k.result = some r →
      exec .flagWordWriteCompletion s = .next (State.endStep (State.ctFinish { s with
        memory := s.memory.after f, pu := s.pu.after f, mp := s.mp.freed
        ct := { s.ct with cache := s.cacheFilled q k } } q r)))
  ∧ (∀ (s : State) (q : CtReq) (x : Translation) (k : FaultKind),
      s.ctFinish q (.ok x) = s.ctHand q x ∧ s.ctFinish q (.bad k) = s.ctFault q k)

/-- R138, R14, R136, R165: at the completion of the hit write-back the request is handed on; a drawn write with a finished value
and an entry for its frame slot in the OPEN drawn batch is placed there, and the head leaves. The request of a reel that has
stopped ends without effect but that the RP now makes the one it has kept back (R123; `State.discardEnded`; the model's
inference, log entry 41). The last part says what handing on is for each kind (R10 to R12, R22 to R26, R123): a drawn write is
staged into the OPEN drawn batch, or into a fresh one in the lowest-numbered FREE slot; with six drawn batches it waits for a
slot while some batch can free one, and is dropped with JOURNAL_OVERFLOW otherwise. A reel update is staged into the OPEN reel
batch. A canvas read is answered from the journal or asks for the shown buffer. -/
def Obligations.HitWriteBackHandsTheRequestOn : Prop :=
  (∀ (s : State) (f : InFlight) (q : CtReq) (h : Hit) (t : Translation) (i : Fin 8) (b : Batch) (v : Stored),
      s.settled → s.spc.part = .running → s.inFlightFor f .hitFlag → f.req.op ≠ .read → s.ct.current = some q →
      s.ct.hit = some h → h.result = some t → q.kind = .drawnWrite → q.discard = false →
      t.profile.finished (viewOf q.canvas) (Pixel.ofWord q.value) = some v → s.jc.openDrawn = some i →
      s.jc.at i = some b → (∃ e ∈ b.entries, e.frameSlot = t.frameSlot) →
      exec .hitWriteBackCompletion s = .next (State.endStep { s with
        memory := s.memory.after f, mp := s.mp.freed, ct := s.ctIdle, spc := s.spcCancelled, ru := s.ruCancelled
        jc := s.jcPlaced i b t.frameSlot v, pu := { s.pu.after f with heldDrawn := none }
        aq := s.nextQueue, up := s.nextUp }))
  ∧ (∀ (s : State) (f : InFlight) (q : CtReq) (h : Hit) (t : Translation), s.settled → s.inFlightFor f .hitFlag →
      f.req.op ≠ .read → s.ct.current = some q → s.ct.hit = some h → h.result = some t → q.discard = true →
      exec .hitWriteBackCompletion s = .next (State.endStep (State.discardEnded { s with
        memory := s.memory.after f, pu := s.pu.after f, mp := s.mp.freed })))
  ∧ (∀ (s : State) (f : InFlight) (q : CtReq) (h : Hit) (t : Translation), s.settled → s.spc.part = .running →
      s.inFlightFor f .hitFlag → f.req.op ≠ .read → s.ct.current = some q → s.ct.hit = some h → h.result = some t →
      exec .hitWriteBackCompletion s = .next (State.endStep (State.ctHand { s with
        memory := s.memory.after f, pu := s.pu.after f, mp := s.mp.freed } q t)))
  ∧ ∀ (s : State) (q : CtReq) (t : Translation),
      (q.discard = true → s.ctHand q t = s.discardEnded)
      ∧ (∀ i, q.discard = false → q.kind = .drawnWrite → s.jc.openDrawn = some i →
        s.ctHand q t = State.stageEntry (s.drawnHanded q t) .aq (State.stagedOf q t))
      ∧ (∀ i, q.discard = false → q.kind = .drawnWrite → s.jc.openDrawn = none → s.jc.drawnCount < 6 → s.jc.at i = none →
        (∀ k, k < i → (s.jc.at k).isSome = true) →
        s.ctHand q t = State.stageEntry { s.drawnHanded q t with
          jc := s.jcWith i (some
            { phase := .opened, origin := .drawn, hold := 1, entries := [], sealOrder := none, tag := none, takeover := none
              release := none, derate := none, removed := none, added := none }) } .aq (State.stagedOf q t))
      ∧ (q.discard = false → q.kind = .drawnWrite → s.jc.openDrawn = none → 6 ≤ s.jc.drawnCount → s.jc.mayFree s.rp.state →
        s.ctHand q t = { s.drawnHanded q t with jc := { s.jc with drawn := some { State.stagedOf q t with wait := .slot } } })
      ∧ (q.discard = false → q.kind = .drawnWrite → s.jc.openDrawn = none → 6 ≤ s.jc.drawnCount →
        ¬s.jc.mayFree s.rp.state → s.ctHand q t = State.drawnDropped (s.drawnHanded q t) q.canvas)
      ∧ (q.discard = false → q.kind = .reelUpdate →
        s.ctHand q t = State.stageEntry (s.reelHanded q t) .rp (State.stagedOf q t))
      ∧ (∀ v, q.discard = false → q.kind = .canvasRead → s.jc.drawnLookup t.frameSlot = some v →
        s.ctHand q t = { s with
          ct := s.ctIdle, up := s.readAnswer t.profile.order v true, aq := { queue := s.aq.queue.tail, taken := false } })
      ∧ (q.discard = false → q.kind = .canvasRead → s.jc.drawnLookup t.frameSlot = none →
        s.ctHand q t = { s with
          ct := s.ctIdle, jc := { s.jc with readBack := some { order := t.profile.order, canvas := q.canvas } }
          mp := s.mp.asking placeAq (readOf .canvasRead (s.bufferWord s.re.select t.frameSlot)) })

/-! ### The Journal Controller -/

/-- R13, R14, R24, R28, R29: the entry request that has waited longest is granted an entry, the last of its batch, with the
finished value; JOURNAL_LOW is raised at a crossing; the AQ's head leaves, or the RP goes on to its next pair (R105). A write
that reaches the JC finds its entry in the OPEN batch, or is granted one at once while one is free beyond those that the waiting
requests take (log entry 10), or waits while some batch can free one, or fails (R13, R24, R25): a drawn write is dropped (R26),
and a reel update truncates its frame (R27, R107). The requesters' OPEN batches are those of the last clauses (R11, R12). -/
def Obligations.EntryGrantServesTheLongestWaiting : Prop :=
  (∀ (s : State) (w : Staged) (rest : List Requester) (i : Fin 8) (b : Batch) (v : Stored), s.settled →
      s.spc.part = .running → s.jc.waiters = .aq :: rest → s.jc.drawn = some w → w.payload = .finished v →
      s.jc.openDrawn = some i → s.jc.at i = some b → (∀ e ∈ b.entries, e.frameSlot ≠ w.frameSlot) → s.jc.inUse < 512 →
      exec .entryGrant s = .next (State.endStep { s with
        jc := { s.jc with
          slots := tset s.jc.slots i (some { b with entries := b.entries ++ [State.entryOf w v] })
          drawn := none, waiters := rest.filter (fun r => r != .aq), lowFlag := s.jc.lowFlag || s.lowNow }
        ru := if s.lowNow then s.ru.raise .journalLow else s.ru
        pu := { s.pu with heldDrawn := none }, aq := s.nextQueue, up := s.nextUp }))
  ∧ (∀ (s : State) (w : Staged) (rest : List Requester) (i : Fin 8) (b : Batch) (v : Stored) (h : Header) (n : Nat),
      s.settled → s.jc.waiters = .rp :: rest → s.jc.reel = some w → w.payload = .finished v → s.jc.openReel = some i →
      s.jc.at i = some b → (∀ e ∈ b.entries, e.frameSlot ≠ w.frameSlot) → s.jc.inUse < 512 → s.rp.header = some h →
      s.rp.step = .update n → n + 1 < h.count →
      exec .entryGrant s = .next (State.endStep { s with
        jc := { s.jc with
          slots := tset s.jc.slots i (some { b with entries := b.entries ++ [State.entryOf w v] })
          reel := none, waiters := rest.filter (fun r => r != .rp), lowFlag := s.jc.lowFlag || s.lowNow }
        ru := if s.lowNow then s.ru.raise .journalLow else s.ru
        pu := { s.pu with heldReel := none }, rp := { s.rp with step := .pairAddr (n + 1) }
        mp := s.mp.asking placeRp (readOf .pairRead (wordAt (h.addr + 4 + 8 * (n + 1)))) }))
  ∧ (∀ (s : State) (r : Requester) (w : Staged) (rest : List Requester) (i : Fin 8) (b : Batch), s.settled →
      s.spc.part = .running → s.jc.waiters = r :: rest → (match r with | .aq => s.jc.drawn | .rp => s.jc.reel) = some w →
      s.stagesInto r i b → s.jc.inUse < 512 →
      exec .entryGrant s = .next (State.endStep (State.place
        (State.granted { s with jc := { s.jc with waiters := rest } } i b
          { frameSlot := w.frameSlot, rail := w.rail, value := none, shown := none, newLoad := none }) r w)))
  ∧ (∀ (s : State) (r : Requester) (w : Staged) (i : Fin 8) (b : Batch), s.stagesInto r i b →
      ((∃ e ∈ b.entries, e.frameSlot = w.frameSlot) → s.stageEntry r w = s.place r w)
      ∧ ((∀ e ∈ b.entries, e.frameSlot ≠ w.frameSlot) → s.jc.waiters.length + s.jc.inUse < 512 →
        s.stageEntry r w = State.place
          (s.granted i b { frameSlot := w.frameSlot, rail := w.rail, value := none, shown := none, newLoad := none }) r w)
      ∧ ((∀ e ∈ b.entries, e.frameSlot ≠ w.frameSlot) → 512 ≤ s.jc.waiters.length + s.jc.inUse → s.jc.mayFree s.rp.state →
        s.stageEntry r w = { s with
          jc := { s.jc with
            drawn := if r = .aq then some { w with wait := .entry } else s.jc.drawn
            reel := if r = .rp then some { w with wait := .entry } else s.jc.reel
            waiters := s.jc.waiters ++ [r] } })
      ∧ ((∀ e ∈ b.entries, e.frameSlot ≠ w.frameSlot) → 512 ≤ s.jc.waiters.length + s.jc.inUse → ¬s.jc.mayFree s.rp.state →
        (r = .aq → s.stageEntry r w = s.drawnDropped w.canvas)
        ∧ (∀ h n, r = .rp → s.rp.header = some h → s.rp.step = .update n →
          s.stageEntry r w = State.endFrame (s.reelFailed h n))))
  ∧ (∀ (j : Jc) (i : Fin 8),
      (j.openDrawn = some i → ∃ b, j.at i = some b ∧ b.phase = .opened ∧ b.isDrawn = true)
      ∧ (j.openReel = some i → ∃ b, j.at i = some b ∧ b.phase = .opened ∧ b.isReel = true)
      ∧ (j.openDrawn = none → ∀ b ∈ j.at i, ¬(b.phase = .opened ∧ b.isDrawn = true))
      ∧ (j.openReel = none → ∀ b ∈ j.at i, ¬(b.phase = .opened ∧ b.isReel = true)))

/-- R6, R11 to R13, R28, R104: a waiting slot request is granted the lowest-numbered FREE slot: an OPEN drawn batch with hold 1
that takes the waiting write's entry, or an OPEN reel batch, of which the RP is told, and the first pair is read, or, in a frame
of 0 updates, the batch sealed (R108). That a drawn request is granted first is the model's choice (log entry 33). -/
def Obligations.SlotGrantOpensABatch : Prop :=
  (∀ (s : State) (w : Staged) (i : Fin 8) (v : Stored), s.settled → s.spc.part = .running → s.jc.drawn = some w →
      w.wait = .slot → w.payload = .finished v → s.jc.drawnCount < 6 → s.jc.openDrawn = none → s.jc.at i = none →
      (∀ k, k < i → (s.jc.at k).isSome = true) → s.jc.waiters.length + s.jc.inUse < 512 →
      exec .slotGrant s = .next (State.endStep { s with
        jc := { s.jc with
          slots := tset s.jc.slots i (some
            { phase := .opened, origin := .drawn, hold := 1, entries := [State.entryOf w v], sealOrder := none, tag := none
              takeover := none, release := none, derate := none, removed := none, added := none })
          drawn := none, waiters := s.jc.waiters.filter (fun r => r != .aq), lowFlag := s.jc.lowFlag || s.lowNow }
        ru := if s.lowNow then s.ru.raise .journalLow else s.ru
        pu := { s.pu with heldDrawn := none }, aq := s.nextQueue, up := s.nextUp }))
  ∧ (∀ (s : State) (o : ReelOpen) (i : Fin 8) (h : Header), s.settled →
      (∀ w ∈ s.jc.drawn, w.wait ≠ .slot ∨ 6 ≤ s.jc.drawnCount) → s.jc.reelOpen = some o →
      s.jc.reelCount < 2 → s.jc.at i = none → (∀ k, k < i → (s.jc.at k).isSome = true) → s.rp.header = some h →
      0 < h.count →
      exec .slotGrant s = .next (State.endStep { s with
        jc := { s.jc with
          slots := tset s.jc.slots i (some
            { phase := .opened, origin := .reel o.reel o.frame false, hold := o.hold, entries := [], sealOrder := none
              tag := none, takeover := none, release := none, derate := none, removed := none, added := none })
          reelOpen := none }
        rp := { s.rp with unflipped := s.rp.unflipped + 1, step := .pairAddr 0 }
        mp := s.mp.asking placeRp (readOf .pairRead (wordAt (h.addr + 4))) }))
  ∧ (∀ (s : State) (w : Staged) (i : Fin 8), s.settled → s.spc.part = .running → s.jc.drawn = some w → w.wait = .slot →
      s.jc.drawnCount < 6 → s.jc.at i = none → (∀ k, k < i → (s.jc.at k).isSome = true) →
      exec .slotGrant s = .next (State.endStep (State.stageEntry { s with
        jc := { s.jcWith i (some
          { phase := .opened, origin := .drawn, hold := 1, entries := [], sealOrder := none, tag := none, takeover := none
            release := none, derate := none, removed := none, added := none })
          with drawn := none } } .aq w)))
  ∧ (∀ (s : State) (o : ReelOpen) (i : Fin 8) (h : Header), s.settled → s.spc.part = .running →
      (∀ w ∈ s.jc.drawn, w.wait ≠ .slot ∨ 6 ≤ s.jc.drawnCount) → s.jc.reelOpen = some o → s.jc.reelCount < 2 → s.jc.at i = none → (∀ k, k < i → (s.jc.at k).isSome = true) →
      s.rp.header = some h → h.count = 0 →
      exec .slotGrant s = .next (State.endStep (State.endFrame { s with
        jc := { s.jcWith i (some
          { phase := .opened, origin := .reel o.reel o.frame false, hold := o.hold, entries := [], sealOrder := none
            tag := none, takeover := none, release := none, derate := none, removed := none, added := none })
          with reelOpen := none }
        rp := { s.rp with unflipped := s.rp.unflipped + 1 } })))

/-- R14 to R17, R161, R162, R165, R189: at the completion of a base read the held write is combined with the data as read and
placed in its entry, an error being reported; the AQ's head leaves, or the RP goes on to its next pair (R105) or to the end of
its frame. The other part says what placement does with an entry: a finished value is written, a held write is combined with the
value that the journal holds for the frame slot, and without one the base read is asked, in the buffer the select line names.
The journal answers from the OPEN batch, then from the youngest past OPEN (R15, R16), a reel update from batches of the current
play only; that an entry which has no value yet is passed over is the model's reading (log entry 27). -/
def Obligations.BaseReadPlacesTheHeldWrite : Prop :=
  (∀ (s : State) (f : InFlight) (w : Staged) (h : HeldWrite) (i : Fin 8) (b : Batch), s.settled → s.spc.part = .running →
      s.inFlightFor f .baseDrawn → f.req.op = .read → s.jc.drawn = some w → s.pu.heldDrawn = some h →
      s.jc.openDrawn = some i → s.jc.at i = some b →
      exec .baseReadCompletion s = .next (State.endStep { s with
        jc := s.jcPlaced i b w.frameSlot (h.combined (Stored.ofWord (s.dataOf f)))
        ru := if s.readError f then (s.ru.count .parity).report .readParity .drawnWrite (byteAddr f.req.word) else s.ru
        pu := { s.pu with heldDrawn := none }, mp := s.mp.freed, aq := s.nextQueue, up := s.nextUp }))
  ∧ (∀ (s : State) (f : InFlight) (w : Staged) (h : HeldWrite) (i : Fin 8) (b : Batch) (hd : Header) (n : Nat), s.settled →
      s.inFlightFor f .baseReel → f.req.op = .read → s.jc.reel = some w → s.pu.heldReel = some h →
      s.jc.openReel = some i → s.jc.at i = some b → s.rp.header = some hd → s.rp.step = .update n → n + 1 < hd.count →
      exec .baseReadCompletion s = .next (State.endStep { s with
        jc := { s.jc with
          slots := (s.jcPlaced i b w.frameSlot (h.combined (Stored.ofWord (s.dataOf f)))).slots
          reel := none, waiters := s.jc.waiters.filter (fun r => r != .rp) }
        ru := if s.readError f then (s.ru.count .parity).report .readParity .reelUpdate (byteAddr f.req.word) else s.ru
        pu := { s.pu with heldReel := none }, rp := { s.rp with step := .pairAddr (n + 1) }
        mp := s.mp.freed.asking placeRp (readOf .pairRead (wordAt (hd.addr + 4 + 8 * (n + 1)))) }))
  ∧ (∀ (s : State) (f : InFlight) (w : Staged) (h : HeldWrite) (i : Fin 8) (b : Batch) (n : Nat), s.settled →
      s.spc.part = .running → s.inFlightFor f .baseReel → f.req.op = .read → s.jc.reel = some w → s.pu.heldReel = some h →
      s.stagesInto .rp i b → s.rp.step = .update n →
      exec .baseReadCompletion s = .next (State.endStep (State.loadPair (State.reelPlaced { s with
        mp := s.mp.freed
        ru := if s.readError f then (s.ru.count .parity).report .readParity .reelUpdate (byteAddr f.req.word) else s.ru }
        i b w.frameSlot (h.combined (Stored.ofWord (s.dataOf f)))) (n + 1))))
  ∧ (∀ (s : State) (w : Staged) (i : Fin 8) (b : Batch), s.stagesInto .aq i b →
      (∀ v, w.payload = .finished v → s.place .aq w = s.drawnPlaced i b w.frameSlot v)
      ∧ (∀ v h, w.payload = .combine → s.jc.drawnLookup w.frameSlot = some v → s.pu.heldDrawn = some h →
        s.place .aq w = s.drawnPlaced i b w.frameSlot (h.combined v))
      ∧ (w.payload = .combine → s.jc.drawnLookup w.frameSlot = none →
        s.place .aq w = { s with
          jc := { s.jc with drawn := some { w with wait := .base } }
          mp := s.mp.asking placeAq (readOf .baseDrawn (s.bufferWord s.re.select w.frameSlot)) }))
  ∧ (∀ (s : State) (w : Staged) (i : Fin 8) (b : Batch) (n : Nat), s.stagesInto .rp i b → s.rp.step = .update n →
      (∀ v, w.payload = .finished v → s.place .rp w = State.loadPair (s.reelPlaced i b w.frameSlot v) (n + 1))
      ∧ (∀ v h, w.payload = .combine → s.jc.reelLookup w.frameSlot = some v → s.pu.heldReel = some h →
        s.place .rp w = State.loadPair (s.reelPlaced i b w.frameSlot (h.combined v)) (n + 1))
      ∧ (w.payload = .combine → s.jc.reelLookup w.frameSlot = none →
        s.place .rp w = { s with
          jc := { s.jc with reel := some { w with wait := .base } }
          mp := s.mp.asking placeRp (readOf .baseReel (s.bufferWord s.re.select w.frameSlot)) }))
  ∧ (∀ (j : Jc) (n : Nat) (mine : Batch → Bool) (l : Option (Fin 8)) (x : Option Stored),
      ((mine = Batch.isDrawn ∧ l = j.openDrawn ∧ x = j.drawnLookup n)
        ∨ (mine = Batch.isCurrentPlay ∧ l = j.openReel ∧ x = j.reelLookup n)) →
      (∀ i b v, l = some i → j.at i = some b → b.answers n v → x = some v)
      ∧ (∀ i b v, (∀ k ∈ l, ∀ c ∈ j.at k, c.silent n) → j.at i = some b → mine b = true → b.phase ≠ .opened → b.answers n v →
        (∀ k c, k ≠ i → j.at k = some c → mine c = true → c.phase ≠ .opened →
          c.silent n ∨ c.sealOrder.getD 0 < b.sealOrder.getD 0) → x = some v)
      ∧ ((∀ k ∈ l, ∀ c ∈ j.at k, c.silent n) → (∀ k c, j.at k = some c → mine c = true → c.phase ≠ .opened → c.silent n) →
        x = none))

/-- R22, R23, R166, R189: at the completion of a canvas read's shown-buffer read the host is answered with the data as read, put
back into red, green, blue, level order: ready, or error with READ_PARITY and the canvas address of the read; the head leaves.
That R189's address of the word does not hold of this fault is the model's reading (log entry 37). -/
def Obligations.CanvasReadAnsweredFromTheShownBuffer : Prop :=
  ∀ (s : State) (f : InFlight) (q : ReadBack), s.settled → s.spc.part = .running → s.inFlightFor f .canvasRead →
    f.req.op = .read → s.jc.readBack = some q →
    (s.readError f = false →
      exec .canvasReadMemoryCompletion s = .next (State.endStep { s with
        jc := { s.jc with readBack := none }, mp := s.mp.freed
        up := s.readAnswer q.order (Stored.ofWord (s.dataOf f)) true
        aq := { queue := s.aq.queue.tail, taken := false } }))
    ∧ (s.readError f = true →
      exec .canvasReadMemoryCompletion s = .next (State.endStep { s with
        jc := { s.jc with readBack := none }, mp := s.mp.freed
        up := s.readAnswer q.order (Stored.ofWord (s.dataOf f)) false
        aq := { queue := s.aq.queue.tail, taken := false }
        ru := (s.ru.count .parity).report .readParity .canvasRead q.canvas }))

/-! ### The Release Engine and the Load Limiter -/

/-- R36 to R38: unless the engine is IDLE, the part RUNNING and a batch eligible, no batch is taken and the command leaves the
state (the model's choice, log entry 1; the step of its own is log entry 9); otherwise the eligible one with the smallest seal
order enters MEASURE with the next release number. A batch of 0 entries is measured at once, with all levels and sums 0, and
goes on to ARMED (R41). -/
def Obligations.BatchTakenBySealOrder : Prop :=
  (∀ s : State, (s.re.state ≠ .idle ∨ s.spc.part ≠ .running ∨ s.eligibleExists = false) → exec .batchTaken s = .next s)
  ∧ (∀ (s : State) (i : Fin 8) (b : Batch), s.settled → s.re.state = .idle → s.spc.part = .running → s.takesNext i b →
      b.entries ≠ [] →
      exec .batchTaken s = .next (State.endStep { s with
        jc := s.jcWith i (some { b with phase := .measure, release := some (s.re.lastRelease + 1) })
        re := { s.re with state := .measure, current := some i, lastRelease := s.re.lastRelease + 1 } }))
  ∧ (∀ (s : State) (i : Fin 8) (b : Batch), s.settled → s.re.state = .idle → s.spc.part = .running → s.takesNext i b →
      b.entries = [] →
      exec .batchTaken s = .next (State.endStep { s with
        jc := s.jcWith i (some { b with
          phase := .armed, release := some (s.re.lastRelease + 1), derate := some (Vector.replicate 8 0)
          removed := some (Vector.replicate 8 0), added := some (Vector.replicate 8 0) })
        re := { s.re with state := .armed, current := some i, lastRelease := s.re.lastRelease + 1, position := 0 } }))

/-- R38, R40, R63, R64, R67 to R70: the end of the measure stores the derate levels, the new loads and the sums, sends one
DERATE count for each group derated, and asks for the first write of the first pass: the first entry's derated value, into the
hidden buffer. Load, derated value and the sums are as the last clauses give them. That MEASURE_END outside MEASURE leaves the
state is the model's (log entry 1). -/
def Obligations.MeasureEndStoresItsResults : Prop :=
  (∀ s : State, s.re.state ≠ .measure → exec .measureEnd s = .next s)
  ∧ (∀ (s : State) (i : Fin 8) (b : Batch) (e : Entry) (rest : List Entry) (v : Stored) (d : Vector Nat 8), s.settled →
      s.re.state = .measure → s.re.current = some i → s.jc.at i = some b → b.entries = e :: rest → e.value = some v →
      s.levelsFit b d →
      exec .measureEnd s = .next (State.endStep { s with
        jc := s.jcWith i (some { b with
          phase := .firstPass
          entries := b.entries.map (fun x => { x with newLoad := some (x.loadAt (tget d x.rail)) })
          derate := some d
          removed := some (Vector.ofFn (fun g => s.ll.removedSum b g))
          added := some (Vector.ofFn (fun g => b.addedSum g (tget d g))) })
        re := { s.re with state := .firstPass, position := 0 }
        ru := (fun u : Ru => u.count .derate)^[((List.finRange 8).filter (fun g => decide (0 < tget d g))).length] s.ru
        mp := s.mp.asking placeRe (writeOf .firstPassWrite (s.bufferWord (State.otherBuf s.re.select) e.frameSlot)
          (v.derated (tget d e.rail)).toWord) }))
  ∧ (∀ v : Stored, v.load = (v.c1.toNat + v.c2.toNat + v.c3.toNat) * v.level.toNat / 255 ∧ v.load ≤ 765)
  ∧ (∀ (v : Stored) (d : Nat), (v.derated d).c1 = v.c1 ∧ (v.derated d).c2 = v.c2 ∧ (v.derated d).c3 = v.c3
      ∧ (v.derated d).level.toNat = v.level.toNat * (8 - d) / 8)
  ∧ (∀ (e : Entry) (v : Stored) (d : Nat), e.value = some v → e.loadAt d = (v.derated d).load)
  ∧ (∀ (b : Batch) (g : Fin 8) (d : Nat),
      b.addedSum g d = ((b.entries.filter (fun e => decide (e.rail = g))).map (fun e => e.loadAt d)).sum)
  ∧ (∀ (l : Ll) (b : Batch) (g : Fin 8),
      l.removedSum b g
        = ((b.entries.filter (fun e => decide (e.rail = g))).map (fun e => Sparse.get 0 l.loads e.frameSlot)).sum)

/-- R40, R41: the completion of a first-pass write records the entry's derated value as its shown value and raises the pass
position; the next entry's write is asked, or, after the last, slot and engine are ARMED. -/
def Obligations.FirstPassRecordsShownValues : Prop :=
  ∀ (s : State) (f : InFlight) (i : Fin 8) (b b2 : Batch) (e : Entry) (v : Stored) (d : Vector Nat 8), s.settled →
    s.inFlightFor f .firstPassWrite → f.req.op ≠ .read → s.re.current = some i → s.jc.at i = some b →
    b.entries[s.re.position]? = some e → e.value = some v → b.derate = some d →
    b2 = { b with entries := b.entries.set s.re.position { e with shown := some (v.derated (tget d e.rail)) } } →
    (∀ (x : Entry) (w : Stored), b.entries[s.re.position + 1]? = some x → x.value = some w →
      exec .firstPassWriteCompletion s = .next (State.endStep { s with
        memory := s.memory.after f, pu := s.pu.after f, jc := s.jcWith i (some b2)
        re := { s.re with position := s.re.position + 1 }
        mp := s.mp.freed.asking placeRe (writeOf .firstPassWrite
          (s.bufferWord (State.otherBuf s.re.select) x.frameSlot) (w.derated (tget d x.rail)).toWord) }))
    ∧ (b.entries.length = s.re.position + 1 →
      exec .firstPassWriteCompletion s = .next (State.endStep { s with
        memory := s.memory.after f, pu := s.pu.after f, mp := s.mp.freed
        jc := s.jcWith i (some { b2 with phase := .armed })
        re := { s.re with state := .armed, position := s.re.position + 1 } }))

/-- R49, R51, R30, R115: the completion of a second-pass write asks for the next entry's recorded shown value, into the buffer
hidden since the flip; after the last the batch retires, its slot FREE and the RE IDLE. The requests that wait are then checked
again (R25, R28): a drawn write that nothing can serve is dropped, and a reel update's frame truncated. A pending standby that
finds the part quiet is entered (R202). In STOPPING the RP enters IDLE at the retirement of a reel batch, raising REEL_ENDED
where an abort ended the reel (R116), and a pending standby is entered or a pending cue served. Three points are the model's:
that the requests that have waited longest count as granted, and that of two which fail the drawn write fails first (log entry
10), and that the requests are checked before the RP is told of the retirement and leaves its state (log entry 11). -/
def Obligations.SecondPassRetiresTheBatch : Prop :=
  (∀ (s : State) (f : InFlight) (i : Fin 8) (b : Batch), s.settled → s.spc.part = .running →
    s.inFlightFor f .secondPassWrite → f.req.op ≠ .read → s.re.current = some i → s.jc.at i = some b →
    (∀ (x : Entry) (w : Stored), b.entries[s.re.position + 1]? = some x → x.shown = some w →
      exec .secondPassWriteCompletion s = .next (State.endStep { s with
        memory := s.memory.after f, pu := s.pu.after f, re := { s.re with position := s.re.position + 1 }
        mp := s.mp.freed.asking placeRe (writeOf .secondPassWrite
          (s.bufferWord (State.otherBuf s.re.select) x.frameSlot) w.toWord) }))
    ∧ (b.entries.length = s.re.position + 1 →
      exec .secondPassWriteCompletion s = .next (State.endStep (State.retire { s with
        memory := s.memory.after f, pu := s.pu.after f, mp := s.mp.freed
        re := { s.re with position := s.re.position + 1 } } i b))))
  ∧ ∀ (s s1 s2 : State) (i : Fin 8) (b : Batch), s.spc.part = .running →
    s1 = { s with jc := s.jcRetired i, re := { s.re with state := .idle, current := none, position := 0 } } →
    ((s1.drawnStays s1.jc.waiters s1.jc ∧ s2 = s1)
      ∨ ∃ w, s.jc.drawn = some w ∧ ¬s1.drawnStays s1.jc.waiters s1.jc ∧ s2 = s1.drawnDropped w.canvas) →
    (s2.reelStays s2.jc.waiters s2.jc → (b.isDrawn = true ∨ s.rp.state ≠ .stopping) →
      (s.spc.standbyPending = true → s2.partQuiet → s.retire i b = s2.standbyEntered)
      ∧ (s.spc.standbyPending = false ∨ ¬s2.partQuiet → s.retire i b = s2))
    ∧ (s2.reelStays s2.jc.waiters s2.jc → b.isReel = true → s.rp.state = .stopping →
      (s.rp.endedDue = true → s.retire i b = s2.reelEnded.atIdle)
      ∧ (s.rp.endedDue = false → s.retire i b = State.atIdle { s2 with
          rp := { s.rp with state := .idle }, ru := { s2.ru with dueStatus := true } }))
    ∧ (∀ h n t, ¬s2.reelStays s2.jc.waiters s2.jc → s.rp.header = some h → s.rp.step = .update n →
      t = State.endFrame (s2.reelFailed h n) → (b.isDrawn = true ∨ s.rp.state ≠ .stopping) →
      (t.spc.standbyPending = true → t.spc.part = .running → t.partQuiet → s.retire i b = t.standbyEntered)
      ∧ ((t.spc.standbyPending = false ∨ t.spc.part ≠ .running ∨ ¬t.partQuiet) → s.retire i b = t))

/-! ### Marks and flips -/

/-- R43 to R45, R77, R78, R81, R83, R210: an edge on the frame-mark line is not taken while the MM does not watch. In MARKS_LOST
the first two frame marks of a run are counted and not delivered, and the third clears the loss and is delivered. A delivered
mark that flips nothing restarts its timer, counts a slip where R45 says so, takes the hold remaining down, and is counted by
the Report Unit. Where it takes the hold of the final reel batch down to 0 the reel ends (R111), with a pending standby entered
or a pending cue served; that final flipped is then no is the model's choice (log entry 22). A mark delivered in STARTING has no
effect at the Release Engine (R54; log entry 28). A pace-timer expiry is such a mark, and leaves the state where the timer is
stopped (log entry 1). -/
def Obligations.MarksAreCountedOrDelivered : Prop :=
  (∀ s : State, s.mm.watching = false → exec .frameMark s = .next s)
  ∧ (∀ s : State, s.mm.paceTimer = none → exec .paceTimerExpiry s = .next s)
  ∧ (∀ s : State, s.settled → s.mm.watching = true → s.mm.state = .lost → (s.mm.lossTimer = none ∨ s.mm.good ≠ 2) →
      exec .frameMark s = .next (State.endStep { s with
        mm := { s.mm with good := if s.mm.lossTimer = none then 1 else s.mm.good + 1, lossTimer := some s.mm.lossWindow } }))
  ∧ (∀ (s u : State) (c : Instr), s.settled → s.spc.part = .running → s.re.state ≠ .blanking →
      ¬(s.re.state = .armed ∧ s.re.hold = 0) → s.delivers c u →
      (¬(s.re.hold = 1 ∧ s.lastFlipIsReel = true ∧ s.rp.state = .ending ∧ s.rp.finalFlipped = true) →
        exec c s = .next (State.endStep { u with re := { s.re with hold := s.re.hold - 1 }, ru := u.ruDelivered }))
      ∧ (∀ r : State, s.re.hold = 1 → s.lastFlipIsReel = true → s.rp.state = .ending → s.rp.finalFlipped = true →
        r = State.atIdle (State.reelEnded { u with
          re := { s.re with hold := 0 }, rp := { s.rp with finalFlipped := false }
          ru := if s.slips then u.ru.count .slip else u.ru }) →
        exec c s = .next (State.endStep { r with ru := State.ruMarked r.ru.interval r.ru })))
  ∧ (∀ s : State, s.lastFlipIsReel = true ↔ ∃ x n k, s.re.lastFlipped = some { release := x, origin := .reel n k })
  ∧ (∀ (s u : State) (c : Instr) (sub : SubState), s.settled → s.spc.part = .starting sub → s.delivers c u →
      exec c s = .next (State.endStep { u with ru := State.ruMarked u.ru.interval u.ru }))

/-- R47, R71, R96, R109, R111: a delivered mark, of whichever kind (R77, R78, R81), that finds the RE ARMED with the hold
remaining at 0 flips the current batch: the select line toggles, the LL applies the batch, the hold remaining is the batch's
hold less 1, the batch is recorded as last flipped, a snapshot is asked for, and the second pass begins with the first entry's
recorded shown value, into the buffer now hidden. The RP takes the flip notice of a reel batch by its state, and after that of
the final batch, with hold 1, the hold-zero notice, which ends the reel; that final flipped is then no is the model's choice
(log entry 22). In STOPPING the notice changes nothing, but that an abort which it would have been taken for may be the second
of a stop and an abort at the same moment (R117; the free value of log entry 38). A batch of 0 entries retires at its flip (R49,
R51), the requests that wait being checked as log entries 10 and 11 say. -/
def Obligations.FlipAtAMark : Prop :=
  (∀ (s u t v : State) (c : Instr) (i : Fin 8) (b : Batch), s.settled → s.spc.part = .running → s.delivers c u →
      s.re.state = .armed → s.re.hold = 0 → s.re.current = some i → s.jc.at i = some b →
      t = { u.flipped i b with ru := { u.ru with dueStatus := true } } → t.noticed b v →
      (∀ e rest x, b.entries = e :: rest → e.shown = some x →
        exec c s = .next (State.endStep { v with
          mp := v.mp.asking placeRe (writeOf .secondPassWrite (s.bufferWord s.re.select e.frameSlot) x.toWord)
          ru := State.ruMarked v.ru.interval v.ru }))
      ∧ (∀ r, b.entries = [] → r = v.retire i { b with phase := .secondPass } →
        exec c s = .next (State.endStep { r with ru := State.ruMarked r.ru.interval r.ru })))
  ∧ (∀ (l : Ll) (b : Batch) (x y : Vector Nat 8), b.entries.Pairwise (fun e g => e.frameSlot ≠ g.frameSlot) →
      b.removed = some x → b.added = some y →
      (∀ e n, e ∈ b.entries → e.newLoad = some n → Sparse.get 0 (l.applied b).loads e.frameSlot = n)
      ∧ (∀ f, (∀ e ∈ b.entries, e.frameSlot ≠ f) → Sparse.get 0 (l.applied b).loads f = Sparse.get 0 l.loads f)
      ∧ (∀ g, tget (l.applied b).totals g = tget l.totals g + tget y g - tget x g)
      ∧ (l.applied b).bounds = l.bounds ∧ (l.applied b).limits = l.limits)

/-- R79, R80: a loss-window expiry in MARKS_OK declares the marks lost, with good count 0, the timer stopped, one LOSS count,
the cause MARK_LOST and a snapshot, and starts the pace timer if the part is RUNNING; no mark is delivered. In MARKS_LOST it
breaks the run: good count 0 and the timer stopped, and nothing else; the next frame mark begins a new run at good count 1. That
the expiry of a stopped timer leaves the state is the model's (log entry 1). -/
def Obligations.LossWindowExpiryDeclaresTheLoss : Prop :=
  (∀ s : State, s.mm.lossTimer = none → exec .lossWindowExpiry s = .next s)
  ∧ (∀ s : State, s.settled → s.mm.lossTimer ≠ none → s.mm.state = .ok →
      exec .lossWindowExpiry s = .next (State.endStep { s with
        mm := { s.mm with
          state := .lost, good := 0, lossTimer := none
          paceTimer := if s.spc.part = .running then some s.mm.pacing else none }
        ru := { (s.ru.count .loss).raise .markLost with dueStatus := true } }))
  ∧ (∀ s : State, s.settled → s.mm.lossTimer ≠ none → s.mm.state = .lost →
      exec .lossWindowExpiry s = .next (State.endStep { s with
        mm := { s.mm with good := 0, lossTimer := none } }))
  ∧ (∀ s : State, s.settled → s.mm.watching = true → s.mm.lossTimer = none → s.mm.state = .lost →
      exec .frameMark s = .next (State.endStep { s with
        mm := { s.mm with good := 1, lossTimer := some s.mm.lossWindow } }))

/-! ### The Reel Player's reads -/

/-- R12, R21, R24, R93, R104, R108, R116: a header read without error opens a reel batch in the lowest-numbered FREE slot and
reads the first pair; where two reel batches exist the slot request waits; a frame without updates is sealed at once and the
next frame's header read. A parity error, or a record whose last word would lie above the plain window, aborts the reel: the
last clauses give the abort whole, and the one before them its outcome with no reel batch and no cue kept, the RP in IDLE with
REEL_ENDED. The header read that a stop has cut off is discarded (R113), but that an abort at it may be the second of a stop and
an abort at the same moment (R117; the free value of log entry 38). That an abort checks the drawn write that waits before the
RP leaves its state is the model's reading (log entry 11). -/
def Obligations.HeaderReadOpensABatchOrAborts : Prop :=
  (∀ (s : State) (f : InFlight) (x : Word) (h : Header), s.settled → s.inFlightFor f .header → f.req.op = .read →
    x = s.dataOf f →
    h = { count := bits x 7 0, hold := if bits x 15 8 = 0 then 1 else bits x 15 8, addr := s.rp.readAddr } →
    (∀ (n : Fin 4) (i : Fin 8), s.readError f = false → s.rp.readAddr + 8 * h.count ≤ 0x7FFFFF → s.rp.reel = some n →
      s.jc.reelCount < 2 → s.jc.at i = none → (∀ k, k < i → (s.jc.at k).isSome = true) → 0 < h.count →
      exec .headerReadCompletion s = .next (State.endStep { s with
        jc := { s.jcWith i (some
          { phase := .opened, origin := .reel n s.rp.frame false, hold := h.hold, entries := [], sealOrder := none
            tag := none, takeover := none, release := none, derate := none, removed := none, added := none })
          with reelOpen := none }
        rp := { s.rp with header := some h, unflipped := s.rp.unflipped + 1, step := .pairAddr 0 }
        mp := s.mp.freed.asking placeRp (readOf .pairRead (wordAt (s.rp.readAddr + 4))) }))
    ∧ (∀ n : Fin 4, s.readError f = false → s.rp.readAddr + 8 * h.count ≤ 0x7FFFFF → s.rp.reel = some n →
      2 ≤ s.jc.reelCount →
      exec .headerReadCompletion s = .next (State.endStep { s with
        mp := s.mp.freed, rp := { s.rp with header := some h, step := .slot }
        jc := { s.jc with reelOpen := some { reel := n, frame := s.rp.frame, hold := h.hold } } }))
    ∧ (∀ (n : Fin 4) (i : Fin 8), s.readError f = false → h.count = 0 → s.rp.readAddr + 4 ≤ 0x7FFFFC →
      s.rp.reel = some n → s.jc.reelCount < 2 → s.jc.openReel = none → s.jc.at i = none →
      (∀ k, k < i → (s.jc.at k).isSome = true) → s.rp.state = .loading →
      s.rp.frame + 1 < (tget s.rp.directory n).frames → s.rp.unflipped = 0 →
      exec .headerReadCompletion s = .next (State.endStep { s with
        jc := { s.jcWith i (some
          { phase := .sealed, origin := .reel n s.rp.frame false, hold := h.hold, entries := []
            sealOrder := some s.jc.sealCounter, tag := none, takeover := none, release := none, derate := none
            removed := none, added := none })
          with reelOpen := none, sealCounter := s.jc.sealCounter + 1 }
        rp := { s.rp with
          header := none, unflipped := 1, frame := s.rp.frame + 1, readAddr := s.rp.readAddr + 4, step := .header }
        mp := s.mp.freed.asking placeRp (readOf .header (wordAt (s.rp.readAddr + 4))) }))
    ∧ ((s.readError f = true ∨ 0x7FFFFF < s.rp.readAddr + 8 * h.count) → s.rp.state = .loading → s.jc.reelCount = 0 →
      s.jc.drawn = none → s.jc.reel = none → s.jc.reelOpen = none → s.jc.waiters = [] → s.ct.offerRp = none →
      (∀ q ∈ s.ct.current, q.kind ≠ .reelUpdate) → s.pu.heldReel = none → s.rp.pendingCue = none →
      s.spc.standbyPending = false →
      exec .headerReadCompletion s = .next (State.endStep { s with
        jc := { s.jc with lowFlag := s.jc.lowFlag && decide (s.jc.free ≤ s.jc.almostFull) }
        re := { s.re with hold := 0 }
        rp := { s.rp with
          state := .idle, unflipped := 0, finalFlipped := false, header := none, step := .none, endedDue := false }
        mp := s.mp.freed.withdrawn placeRp
        ru := Ru.raise
          { (s.ruAfterRead f).report .reelAborted .reelUpdate (BitVec.ofNat 24 s.rp.readAddr) with dueStatus := true }
          .reelEnded }))
    ∧ ((s.readError f = true ∨ 0x7FFFFF < s.rp.readAddr + 8 * h.count) → s.spc.part = .running →
      exec .headerReadCompletion s = .next (State.endStep (State.reelAbort { s with
        mp := s.mp.freed, ru := s.ruAfterRead f })))
    ∧ (∀ (n : Fin 4) (i : Fin 8), s.readError f = false → h.count = 0 → s.rp.readAddr ≤ 0x7FFFFF → s.spc.part = .running →
      s.rp.reel = some n → s.jc.reelCount < 2 → s.jc.at i = none → (∀ k, k < i → (s.jc.at k).isSome = true) →
      exec .headerReadCompletion s = .next (State.endStep (State.endFrame { s with
        mp := s.mp.freed
        jc := { s.jcWith i (some
          { phase := .opened, origin := .reel n s.rp.frame false, hold := h.hold, entries := [], sealOrder := none
            tag := none, takeover := none, release := none, derate := none, removed := none, added := none })
          with reelOpen := none }
        rp := { s.rp with header := some h, unflipped := s.rp.unflipped + 1, step := .slot } }))))
  ∧ (∀ s : State, s.spc.part = .running → s.rp.state ≠ .idle → ∃ u, s.abortedFrom u
      ∧ (u.rp.state = .stopping → s.reelAbort = u) ∧ (u.rp.state ≠ .stopping → s.reelAbort = u.atIdle))
  ∧ (∀ (s u : State) (f : InFlight) (a count : Nat), s.settled → s.spc.part = .running → s.mp.inFlight = some f →
      f.req.owner = .header → f.req.op = .read → f.discard = true → s.mp.cut = some a → count = field (s.dataOf f) 7 0 →
      u = { s with mp := s.mp.freed, ru := s.ruAfterRead f } →
      (s.readError f = false → a + 8 * count ≤ 0x7FFFFF → exec .headerReadCompletion s = .next u.endStep)
      ∧ ((s.readError f = true ∨ 0x7FFFFF < a + 8 * count) → ∃ v, s.meetsStop a v
        ∧ exec .headerReadCompletion s = .next (State.endStep { v with
            mp := s.mp.freed, ru := if s.readError f then v.ru.count .parity else v.ru })))

/-- R105, R106, R123, R136, R221: after a pair's canvas-address word its value word is read, in error or not, an error being
reported with the word's address. With both words in hand the update is handed to the CT, or kept back while the CT still holds
an update of the RP (R123, R136; the model's inference, log entry 41); one with an error, or with a canvas address of no use, is
skipped, and the next pair read. The last pair leads to the end of the frame (R21, R108): the OPEN reel batch is sealed,
whatever its entry count, and the RP goes on to the next frame, to the next play, of which the first makes every reel batch one
of an earlier play (R8), or to ENDING. The next frame begins with its header read, waits while two batches are unflipped, or
aborts the reel above the plain window (checking the drawn write that waits before the RP leaves its state, log entry 11). Where
that abort finds a Release Engine that can take a batch, by the seal of the same moment among others, the engine may take it
first, or the abort may discard it first (R36, R117): the free value of log entry 43 says which. -/
def Obligations.PairReadsGoToTheTranslator : Prop :=
  (∀ (s : State) (f : InFlight) (h : Header) (i : Nat) (u : Ru), s.settled → s.spc.part = .running → s.inFlightFor f .pairRead →
    f.req.op = .read → s.rp.header = some h →
    (s.rp.step = .pairAddr i →
      u = (if s.readError f then
             (s.ru.count .parity).report .readParity .reelUpdate (BitVec.ofNat 24 (h.addr + 4 + 8 * i)) else s.ru) →
      exec .updatePairReadCompletion s = .next (State.endStep { s with
        rp := { s.rp with step := .pairValue i (s.dataOf f) (s.readError f) }, ru := u
        mp := s.mp.freed.asking placeRp (readOf .pairRead (wordAt (h.addr + 4 + 8 * i + 4))) }))
    ∧ (∀ a : Word, s.rp.step = .pairValue i a false → s.readError f = false → 0x800000 ≤ a.toNat → a.toNat ≤ 0xAFFFFF →
      a.toNat % 4 = 0 → (∃ q ∈ s.ct.current, q.kind = .reelUpdate) →
      exec .updatePairReadCompletion s = .next (State.endStep { s with
        rp := { s.rp with step := .held i a (s.dataOf f) }, mp := s.mp.freed }))
    ∧ (∀ a : Word, s.rp.step = .pairValue i a false → s.readError f = false → 0x800000 ≤ a.toNat → a.toNat ≤ 0xAFFFFF →
      a.toNat % 4 = 0 → (∀ q ∈ s.ct.current, q.kind ≠ .reelUpdate) →
      exec .updatePairReadCompletion s = .next (State.endStep { s with
        rp := { s.rp with step := .update i }, mp := s.mp.freed
        ct := { s.ct with
          offerRp := some { kind := .reelUpdate, canvas := a.setWidth 24, value := s.dataOf f, discard := false } } }))
    ∧ (∀ a : Word, s.rp.step = .pairValue i a false → s.readError f = false →
      ¬(0x800000 ≤ a.toNat ∧ a.toNat ≤ 0xAFFFFF ∧ a.toNat % 4 = 0) →
      exec .updatePairReadCompletion s = .next (State.endStep (State.loadPair { s with
        mp := s.mp.freed
        ru := (s.ru.report .reelUpdateBad .reelUpdate (BitVec.ofNat 24 (h.addr + 4 + 8 * i))).count .translate } (i + 1))))
    ∧ (∀ (a : Word) (bad : Bool), s.rp.step = .pairValue i a bad → (bad = true ∨ s.readError f = true) →
      u = (if s.readError f then
             (s.ru.count .parity).report .readParity .reelUpdate (BitVec.ofNat 24 (h.addr + 4 + 8 * i + 4)) else s.ru) →
      exec .updatePairReadCompletion s = .next (State.endStep (State.loadPair { s with mp := s.mp.freed, ru := u } (i + 1)))))
  ∧ (∀ (s : State) (h : Header) (n : Nat), s.rp.header = some h →
      (n < h.count → s.loadPair n = { s with
        rp := { s.rp with step := .pairAddr n }
        mp := s.mp.asking placeRp (readOf .pairRead (wordAt (h.addr + 4 + 8 * n))) })
      ∧ (h.count ≤ n → s.loadPair n = s.endFrame))
  ∧ (∀ (s t : State) (n : Fin 4) (h : Header) (i : Fin 8) (b : Batch) (e : DirEntry), s.rp.reel = some n →
      s.rp.header = some h → s.jc.openReel = some i → s.jc.at i = some b → e = tget s.rp.directory n →
      t = s.frameSealed i b →
      (s.rp.frame + 1 < e.frames →
        s.endFrame = State.beginFrame { t with
          rp := { t.rp with frame := s.rp.frame + 1, readAddr := h.addr + 4 * (1 + 2 * h.count) } })
      ∧ (e.frames ≤ s.rp.frame + 1 → e.loops < 15 → s.rp.plays.toNat = e.loops → s.rp.state ≠ .ending →
        s.endFrame = { t with rp := { t.rp with state := .ending }, ru := { s.ru with dueStatus := true } })
      ∧ (e.frames ≤ s.rp.frame + 1 → (15 ≤ e.loops ∨ s.rp.plays.toNat ≠ e.loops) →
        s.endFrame = State.beginFrame { t with
          jc := t.jc.mapBatches Batch.toEarlier
          rp := { t.rp with frame := 0, readAddr := e.start, plays := s.rp.plays + 1 } }))
  ∧ (∀ s : State, s.rp.state = .loading ∨ s.rp.state = .waiting →
      (s.rp.unflipped < 2 → s.rp.readAddr ≤ 0x7FFFFC →
        s.beginFrame = { s with
          rp := { s.rp with state := .loading, step := .header }
          mp := s.mp.asking placeRp (readOf .header (wordAt s.rp.readAddr))
          ru := if s.rp.state = .waiting then { s.ru with dueStatus := true } else s.ru })
      ∧ (s.rp.unflipped < 2 → 0x7FFFFC < s.rp.readAddr →
        ∀ t : State, t = { s with
          rp := { s.rp with state := .loading }
          ru := if s.rp.state = .waiting then { s.ru with dueStatus := true } else s.ru } →
        ((s.re.state ≠ .idle ∨ s.spc.part ≠ .running ∨ s.eligibleExists = false) → s.beginFrame = t.reelAbort)
        ∧ (∀ (i : Fin 8) (b : Batch), s.re.state = .idle → s.spc.part = .running → s.takesNext i b →
          s.beginFrame = State.reelAbort { (if Config.takeBeforeAbort s.freeCount then t.taken i b else t) with
            freeCount := s.freeCount + 1 }))
      ∧ (2 ≤ s.rp.unflipped →
        s.beginFrame = { s with
          rp := { s.rp with state := .waiting, step := .none }
          ru := if s.rp.state = .loading then { s.ru with dueStatus := true } else s.ru }))
  ∧ (∀ (j : Jc) (i : Fin 8), (j.mapBatches Batch.toEarlier).at i = (j.at i).map Batch.toEarlier
      ∧ j.mapBatches Batch.toEarlier = { j with slots := (j.mapBatches Batch.toEarlier).slots })
  ∧ ∀ b : Batch, (b.origin = .drawn → b.toEarlier = b)
      ∧ ∀ n k x, b.origin = .reel n k x → b.toEarlier = { b with origin := .reel n k true }

/-! ### The Report Unit -/

/-- R206, R207, R210: the words of a record are written one at a time in ascending order, the next asked at the completion of
the one before, and after the last the next due record is begun. A record is begun when none is being written, in the order
fault record, status record, counter block: its content is captured, its due mark cleared and its first word asked at its place
in the status area; with that a step ends, and with it the moment of a completion, where no request waits and no step of the
part's own can still ask one (R185; log entry 40); a capture raises its number by one, and that of the counters clears them,
their flags and the mark count. The last clauses lay out the words of the three records, each the sum of its fields at their
lowest bits, with the codes of the names (R222, R223). -/
def Obligations.RecordsAreWrittenWordByWord : Prop :=
  (∀ (s : State) (f : InFlight) (w : RuWrite), s.settled → s.inFlightFor f .status → f.req.op ≠ .read →
      s.ru.writing = some w →
      (w.written + 1 < w.words.length →
        exec .statusWriteCompletion s = .next (State.endStep { s with
          memory := s.memory.after f, pu := s.pu.after f
          ru := { s.ru with writing := some { w with written := w.written + 1 } }
          mp := s.mp.freed.asking placeRu (writeOf .status
            (wordAt (w.base + w.record.offset + 4 * (w.written + 1))) (w.words.getD (w.written + 1) 0)) }))
      ∧ (w.words.length ≤ w.written + 1 →
        exec .statusWriteCompletion s = .next (State.endStep { s with
          memory := s.memory.after f, pu := s.pu.after f, mp := s.mp.freed, ru := { s.ru with writing := none } })))
  ∧ (∀ s : State, (s.ru.writing ≠ none ∨ s.ru.base = none
        ∨ (s.ru.dueFault = false ∧ s.ru.dueStatus = false ∧ s.ru.dueCounters = none)) → s.beginDueRecord = s)
  ∧ (∀ (s : State) (base : Nat), s.ru.writing = none → s.ru.base = some base →
      (s.ru.dueFault = true →
        s.beginDueRecord = { s with
          ru := { s.ru with
            dueFault := false, writing := some { record := .fault, words := s.ru.faultWords, base := base, written := 0 } }
          mp := s.mp.asking placeRu (writeOf .status (wordAt (base + 0x30)) (s.ru.faultWords.getD 0 0)) })
      ∧ (s.ru.dueFault = false → s.ru.dueStatus = true →
        s.beginDueRecord = { s with
          ru := { s.ru with
            dueStatus := false, snapshotNo := s.ru.snapshotNo + 1
            writing := some
              { record := .status, words := s.statusWords (s.ru.snapshotNo + 1), base := base, written := 0 } }
          mp := s.mp.asking placeRu (writeOf .status (wordAt base) ((s.ru.snapshotNo + 1).setWidth 32)) })
      ∧ (∀ kind, s.ru.dueFault = false → s.ru.dueStatus = false → s.ru.dueCounters = some kind →
        s.beginDueRecord = { s with
          ru := { s.ru with
            dueCounters := none, captureNo := s.ru.captureNo + 1, markCount := 0
            counters := Vector.replicate 8 { count := 0, flag := false }
            writing := some
              { record := .counters, words := s.ru.counterWords (s.ru.captureNo + 1) kind, base := base, written := 0 } }
          mp := s.mp.asking placeRu (writeOf .status (wordAt (base + 0x40)) ((s.ru.captureNo + 1).setWidth 32)) }))
  ∧ (∀ (s : State) (n : BitVec 16) (w : Nat → Word), (∀ a, w a = (s.statusWords n).getD (a / 4) 0) →
      (s.statusWords n).length = 12 ∧ w 0x00 = n.setWidth 32 ∧ w 0x2C = n.setWidth 32
      ∧ w 0x04 = BitVec.ofNat 32 (s.spc.part.code + 2 ^ 4 * s.re.state.code + (if s.re.select = .b then 2 ^ 8 else 0)
          + (if s.mm.state = .lost then 2 ^ 9 else 0) + 2 ^ 12 * s.rp.state.code)
      ∧ (s.re.lastFlipped = none → w 0x08 = 0 ∧ w 0x0C = 0)
      ∧ (∀ r tag o, s.re.lastFlipped = some { release := r, origin := .drawn tag o } →
          w 0x08 = BitVec.ofNat 32 (r.toNat + 2 ^ 8 + (if o then 2 ^ 12 else 0)) ∧ w 0x0C = tag.setWidth 32)
      ∧ (∀ r k i, s.re.lastFlipped = some { release := r, origin := .reel k i } →
          w 0x08 = BitVec.ofNat 32 (r.toNat + 2 * 2 ^ 8) ∧ w 0x0C = BitVec.ofNat 32 (i + 2 ^ 16 * k.val))
      ∧ w 0x10 = BitVec.ofNat 32 (s.jc.inUse + 2 ^ 16 * (match s.jc.openDrawn with | some i => s.jc.entryCount i | none => 0)
          + 2 ^ 28 * ((List.finRange 8).filter (fun i => (s.jc.at i).isSome)).length)
      ∧ w 0x14 = BitVec.ofNat 32 ((match s.rp.reel with | some k => k.val + 2 ^ 2 | none => 0) + 2 ^ 8 * s.rp.plays.toNat
          + 2 ^ 16 * s.rp.frame)
      ∧ w 0x18 = BitVec.ofNat 32 ((match s.rp.pendingCue with | some k => k.val + 2 ^ 2 | none => 0)
          + match s.rp.lastIgnored with
            | none => 0
            | some g => 2 ^ 8 + (if g.source = .playWord then 2 ^ 9 else 0)
                + match g.reel with | some k => 2 ^ 12 * k.val | none => 2 ^ 10)
      ∧ w 0x1C = s.ru.causes.setWidth 32 ∧ w 0x20 = 0 ∧ w 0x24 = 0 ∧ w 0x28 = 0)
  ∧ (∀ u : Ru, (u.fault = none → u.faultWords = [0, 0, 0, 0])
      ∧ ∀ f, u.fault = some f → u.faultWords
          = [BitVec.ofNat 32 (f.kind.code + 2 ^ 8 * f.origin.code), f.addr.setWidth 32, f.more.setWidth 32, 0])
  ∧ (∀ (u : Ru) (n : BitVec 16) (kind : CaptureKind) (w : Nat → Word), (∀ a, w a = (u.counterWords n kind).getD (a / 4) 0) →
      (u.counterWords n kind).length = 16 ∧ w 0x00 = n.setWidth 32 ∧ w 0x3C = n.setWidth 32
      ∧ ((w 0x04).getLsbD 0 = true ↔ kind = .automatic)
      ∧ (∀ i : Fin 8, (w 0x04).getLsbD (8 + i.val) = (tget u.counters i).flag
          ∧ w (0x08 + 4 * i.val) = (tget u.counters i).count.setWidth 32)
      ∧ (∀ k, (1 ≤ k ∧ k < 8) ∨ 16 ≤ k → (w 0x04).getLsbD k = false)
      ∧ w 0x28 = 0 ∧ w 0x2C = 0 ∧ w 0x30 = 0 ∧ w 0x34 = 0 ∧ w 0x38 = 0)
  ∧ ([Record.status, .fault, .counters].map Record.offset = [0x00, 0x30, 0x40]
      ∧ (∀ sub, (Part.starting sub).code = 1) ∧ [Part.running, .passive, .standby].map Part.code = [2, 3, 4]
      ∧ [Engine.idle, .blanking, .measure, .firstPass, .armed, .secondPass].map Engine.code = [0, 1, 2, 3, 4, 5]
      ∧ [Player.idle, .loading, .waiting, .ending, .stopping].map Player.code = [0, 1, 2, 3, 4]
      ∧ [Cause.fault, .journalLow, .reelEnded, .markLost, .counterOverflow, .standbyCancelled, .restartRefused].map Cause.bit
          = [0, 1, 2, 3, 4, 5, 6]
      ∧ [CounterKind.translate, .refuse, .hold, .overflow, .slip, .derate, .parity, .loss].map (fun k => k.index.val)
          = [0, 1, 2, 3, 4, 5, 6, 7]
      ∧ [FaultOrigin.drawnWrite, .canvasRead, .reelUpdate, .busTransfer, .start].map FaultOrigin.code = [0, 1, 2, 3, 5]
      ∧ [FaultKind.addressRefused, .protectedWrite, .partialCanvas, .holdExpired, .zoneAbsent, .segmentBeyond, .segmentAbsent,
            .segmentBad, .pixelBeyond, .profileVoid, .walkParity, .readParity, .journalOverflow, .reelTruncated, .reelAborted,
            .reelUpdateBad, .startFailed].map FaultKind.code
          = [1, 2, 3, 4, 5, 6, 7, 8, 9, 10, 11, 12, 13, 14, 15, 16, 17])
  ∧ (∀ s t : State, t = s.beginDueRecord →
      ((t.mp.completing = false ∨ (∃ p, tget t.mp.requests p ≠ none) ∨ t.canFollow) → s.endStep = t)
      ∧ ((∀ p, tget t.mp.requests p = none) → ¬t.canFollow → s.endStep = { t with mp := { t.mp with completing := false } }))

/-- R208, R209, R211: a fault fills an empty copy, or raises the more-count up to 255 and is not kept; it raises FAULT and makes
the fault record due. A count event raises its counter below 65,535; there it leaves it and sets its flag, raising
COUNTER_OVERFLOW where the flag was clear. A cause raised is set, and asks for a snapshot only where it was clear (R206). The
attention line is asserted in PASSIVE, released in BYPASS, and otherwise asserted while a cause is set whose enable is set. -/
def Obligations.ReportsCountersAndCauses : Prop :=
  (∀ (u : Ru) (k : FaultKind) (o : FaultOrigin) (a : Addr), u.fault = none →
      u.report k o a = Ru.raise { u with fault := some { kind := k, origin := o, addr := a, more := 0 }, dueFault := true } .fault)
  ∧ (∀ (u : Ru) (k : FaultKind) (o : FaultOrigin) (a : Addr) (c : FaultCopy), u.fault = some c →
      ∃ m : BitVec 8, m.toNat = min 255 (c.more.toNat + 1)
        ∧ u.report k o a = Ru.raise { u with fault := some { c with more := m }, dueFault := true } .fault)
  ∧ (∀ (u : Ru) (k : CounterKind) (c : Counter), tget u.counters k.index = c →
      (c.count.toNat < 65535 → ∃ n : BitVec 16, n.toNat = c.count.toNat + 1
        ∧ u.count k = { u with counters := tset u.counters k.index { c with count := n } })
      ∧ (c.count.toNat = 65535 → c.flag = true → u.count k = u)
      ∧ (c.count.toNat = 65535 → c.flag = false →
        u.count k = Ru.raise { u with counters := tset u.counters k.index { c with flag := true } } .counterOverflow))
  ∧ (∀ (u : Ru) (c : Cause), (u.causes.getLsbD c.bit = true → u.raise c = u)
      ∧ (u.causes.getLsbD c.bit = false → ∃ x : BitVec 7, u.raise c = { u with causes := x, dueStatus := true }
        ∧ ∀ d : Cause, x.getLsbD d.bit = (u.causes.getLsbD d.bit || decide (d = c))))
  ∧ (∀ s : State, (s.spc.part = .bypass → s.attention = false) ∧ (s.spc.part = .passive → s.attention = true)
      ∧ (s.spc.part ≠ .bypass → s.spc.part ≠ .passive →
        (s.attention = true ↔ ∃ c : Cause, s.ru.causes.getLsbD c.bit = true ∧ s.ru.mask.getLsbD c.bit = true)))

/-! ### Values -/

/-- R158 to R164, R166: the channel orders; the gained value of a written pixel, with its gains and its level cap; the finished
value of a replace-view write in NONE mode, of SUBSTITUTE and of DARK mode; add and level view over their base value; and the
read-back order, the inverse of the channel order. The last clause gives the bits of a canvas pixel word and of a frame slot
word (R220). -/
def Obligations.TransformAndChannelOrder : Prop :=
  (∀ r g b l : Byte,
      inWiringOrder 0 r g b l = { c1 := r, c2 := g, c3 := b, level := l }
      ∧ inWiringOrder 1 r g b l = { c1 := r, c2 := b, c3 := g, level := l }
      ∧ inWiringOrder 2 r g b l = { c1 := g, c2 := r, c3 := b, level := l }
      ∧ inWiringOrder 3 r g b l = { c1 := g, c2 := b, c3 := r, level := l }
      ∧ inWiringOrder 4 r g b l = { c1 := b, c2 := r, c3 := g, level := l }
      ∧ inWiringOrder 5 r g b l = { c1 := b, c2 := g, c3 := r, level := l })
  ∧ (∀ (order : BitVec 3) (r g b l : Byte), order.toNat ≤ 5 →
      readBackPixel order (inWiringOrder order r g b l) = { red := r, green := g, blue := b, level := l })
  ∧ (∀ (p : Profile) (x : Pixel), ∃ r g b l : Byte, p.gainedValue x = inWiringOrder p.order r g b l
      ∧ r.toNat = x.red.toNat * p.red.toNat / 255 ∧ g.toNat = x.green.toNat * p.green.toNat / 255
      ∧ b.toNat = x.blue.toNat * p.blue.toNat / 255 ∧ l.toNat = min x.level.toNat p.cap.toNat
      ∧ (p.red = 255 → r = x.red) ∧ (p.green = 255 → g = x.green) ∧ (p.blue = 255 → b = x.blue)
      ∧ (p.red = 0 → r = 0) ∧ (p.green = 0 → g = 0) ∧ (p.blue = 0 → b = 0)
      ∧ r.toNat ≤ p.red.toNat ∧ g.toNat ≤ p.green.toNat ∧ b.toNat ≤ p.blue.toNat)
  ∧ (∀ (p : Profile) (x : Pixel), p.mode = 0 →
      p.finished .replace x = some (p.gainedValue x) ∧ p.finished .add x = none ∧ p.finished .level x = none)
  ∧ (∀ (p : Profile) (w : View) (x : Pixel), p.mode = 1 → ∃ l : Byte, l.toNat = min p.subLevel.toNat p.cap.toNat
      ∧ p.finished w x = some (inWiringOrder p.order p.red p.green p.blue l))
  ∧ (∀ (p : Profile) (w : View) (x : Pixel), 2 ≤ p.mode.toNat →
      p.finished w x = some { c1 := 0, c2 := 0, c3 := 0, level := 0 })
  ∧ (∀ (h : HeldWrite) (base : Stored), h.view = .add → ∃ v : Stored, h.combined base = v
      ∧ v.c1.toNat = min 255 (base.c1.toNat + (h.profile.gainedValue h.value).c1.toNat)
      ∧ v.c2.toNat = min 255 (base.c2.toNat + (h.profile.gainedValue h.value).c2.toNat)
      ∧ v.c3.toNat = min 255 (base.c3.toNat + (h.profile.gainedValue h.value).c3.toNat)
      ∧ v.level.toNat
          = min (min 255 (base.level.toNat + (h.profile.gainedValue h.value).level.toNat)) h.profile.cap.toNat)
  ∧ (∀ (h : HeldWrite) (base : Stored), h.view = .level → ∃ l : Byte,
      l.toNat = min h.value.level.toNat h.profile.cap.toNat ∧ h.combined base = { base with level := l }
      ∧ l = (h.profile.gainedValue h.value).level)
  ∧ (∀ x : Word, (Pixel.ofWord x).red.toNat = field x 7 0 ∧ (Pixel.ofWord x).green.toNat = field x 15 8
      ∧ (Pixel.ofWord x).blue.toNat = field x 23 16 ∧ (Pixel.ofWord x).level.toNat = field x 31 24
      ∧ (Stored.ofWord x).c1.toNat = field x 7 0 ∧ (Stored.ofWord x).c2.toNat = field x 15 8
      ∧ (Stored.ofWord x).c3.toNat = field x 23 16 ∧ (Stored.ofWord x).level.toNat = field x 31 24
      ∧ (Pixel.ofWord x).toWord = x ∧ (Stored.ofWord x).toWord = x)
  ∧ (∀ (p : Pixel) (v : Stored), Pixel.ofWord p.toWord = p ∧ Stored.ofWord v.toWord = v)

/-- R129, R58, R62: when checks 4 and 5 pass and the profile is valid, the frame slot is slot base plus pixel, a pixel at or
above the length of a ring segment taken modulo the length, or with reverse set slot base plus length less 1 less that; it lies
within the segment and below the slot count, and its rail group is the number of boundaries at or below it. -/
def Obligations.FrameSlotOfAPixel : Prop :=
  ∀ (s : State) (f : SegFields) (p n : Nat), 1 ≤ f.length → f.length ≤ 64 → f.slotBase + f.length ≤ s.ct.slotCount →
    (p < f.length ∨ f.ring = true) → tget s.pu.pending f.profile = false → (tget s.pu.store f.profile).valid = true →
    n = (if p < f.length then p else p % f.length) →
    ∃ t : Translation, s.translate f p = .done (.ok t)
      ∧ (f.reverse = false → t.frameSlot = f.slotBase + n)
      ∧ (f.reverse = true → t.frameSlot + n + 1 = f.slotBase + f.length)
      ∧ f.slotBase ≤ t.frameSlot ∧ t.frameSlot < f.slotBase + f.length ∧ t.frameSlot < s.ct.slotCount
      ∧ t.rail.val = ((List.finRange 7).filter (fun i => decide (tget s.ll.bounds i ≤ t.frameSlot))).length
      ∧ t.profile = (tget s.pu.store f.profile).fields


end
end

