-- ==== Sys2Proof/Laws/State.lean ====
section
/-!
SUPPORT. One lemma for each field of State under each of its updates, so that no proof unfolds a record update.
-/
namespace Sys2Proof.Machine.State

section setPending
variable (s : State) (x : List Instr)
@[simp] theorem setPending_pending : (s.setPending x).pending = x := rfl
@[simp] theorem setPending_spc : (s.setPending x).spc = s.spc := rfl
@[simp] theorem setPending_up : (s.setPending x).up = s.up := rfl
@[simp] theorem setPending_aq : (s.setPending x).aq = s.aq := rfl
@[simp] theorem setPending_jc : (s.setPending x).jc = s.jc := rfl
@[simp] theorem setPending_re : (s.setPending x).re = s.re := rfl
@[simp] theorem setPending_ll : (s.setPending x).ll = s.ll := rfl
@[simp] theorem setPending_mm : (s.setPending x).mm = s.mm := rfl
@[simp] theorem setPending_rp : (s.setPending x).rp = s.rp := rfl
@[simp] theorem setPending_ct : (s.setPending x).ct = s.ct := rfl
@[simp] theorem setPending_pu : (s.setPending x).pu = s.pu := rfl
@[simp] theorem setPending_mp : (s.setPending x).mp = s.mp := rfl
@[simp] theorem setPending_ru : (s.setPending x).ru = s.ru := rfl
@[simp] theorem setPending_memory : (s.setPending x).memory = s.memory := rfl
@[simp] theorem setPending_freeCount : (s.setPending x).freeCount = s.freeCount := rfl
end setPending

section setSpc
variable (s : State) (x : Spc)
@[simp] theorem setSpc_pending : (s.setSpc x).pending = s.pending := rfl
@[simp] theorem setSpc_spc : (s.setSpc x).spc = x := rfl
@[simp] theorem setSpc_up : (s.setSpc x).up = s.up := rfl
@[simp] theorem setSpc_aq : (s.setSpc x).aq = s.aq := rfl
@[simp] theorem setSpc_jc : (s.setSpc x).jc = s.jc := rfl
@[simp] theorem setSpc_re : (s.setSpc x).re = s.re := rfl
@[simp] theorem setSpc_ll : (s.setSpc x).ll = s.ll := rfl
@[simp] theorem setSpc_mm : (s.setSpc x).mm = s.mm := rfl
@[simp] theorem setSpc_rp : (s.setSpc x).rp = s.rp := rfl
@[simp] theorem setSpc_ct : (s.setSpc x).ct = s.ct := rfl
@[simp] theorem setSpc_pu : (s.setSpc x).pu = s.pu := rfl
@[simp] theorem setSpc_mp : (s.setSpc x).mp = s.mp := rfl
@[simp] theorem setSpc_ru : (s.setSpc x).ru = s.ru := rfl
@[simp] theorem setSpc_memory : (s.setSpc x).memory = s.memory := rfl
@[simp] theorem setSpc_freeCount : (s.setSpc x).freeCount = s.freeCount := rfl
end setSpc

section setUp
variable (s : State) (x : Up)
@[simp] theorem setUp_pending : (s.setUp x).pending = s.pending := rfl
@[simp] theorem setUp_spc : (s.setUp x).spc = s.spc := rfl
@[simp] theorem setUp_up : (s.setUp x).up = x := rfl
@[simp] theorem setUp_aq : (s.setUp x).aq = s.aq := rfl
@[simp] theorem setUp_jc : (s.setUp x).jc = s.jc := rfl
@[simp] theorem setUp_re : (s.setUp x).re = s.re := rfl
@[simp] theorem setUp_ll : (s.setUp x).ll = s.ll := rfl
@[simp] theorem setUp_mm : (s.setUp x).mm = s.mm := rfl
@[simp] theorem setUp_rp : (s.setUp x).rp = s.rp := rfl
@[simp] theorem setUp_ct : (s.setUp x).ct = s.ct := rfl
@[simp] theorem setUp_pu : (s.setUp x).pu = s.pu := rfl
@[simp] theorem setUp_mp : (s.setUp x).mp = s.mp := rfl
@[simp] theorem setUp_ru : (s.setUp x).ru = s.ru := rfl
@[simp] theorem setUp_memory : (s.setUp x).memory = s.memory := rfl
@[simp] theorem setUp_freeCount : (s.setUp x).freeCount = s.freeCount := rfl
end setUp

section setAq
variable (s : State) (x : Aq)
@[simp] theorem setAq_pending : (s.setAq x).pending = s.pending := rfl
@[simp] theorem setAq_spc : (s.setAq x).spc = s.spc := rfl
@[simp] theorem setAq_up : (s.setAq x).up = s.up := rfl
@[simp] theorem setAq_aq : (s.setAq x).aq = x := rfl
@[simp] theorem setAq_jc : (s.setAq x).jc = s.jc := rfl
@[simp] theorem setAq_re : (s.setAq x).re = s.re := rfl
@[simp] theorem setAq_ll : (s.setAq x).ll = s.ll := rfl
@[simp] theorem setAq_mm : (s.setAq x).mm = s.mm := rfl
@[simp] theorem setAq_rp : (s.setAq x).rp = s.rp := rfl
@[simp] theorem setAq_ct : (s.setAq x).ct = s.ct := rfl
@[simp] theorem setAq_pu : (s.setAq x).pu = s.pu := rfl
@[simp] theorem setAq_mp : (s.setAq x).mp = s.mp := rfl
@[simp] theorem setAq_ru : (s.setAq x).ru = s.ru := rfl
@[simp] theorem setAq_memory : (s.setAq x).memory = s.memory := rfl
@[simp] theorem setAq_freeCount : (s.setAq x).freeCount = s.freeCount := rfl
end setAq

section setJc
variable (s : State) (x : Jc)
@[simp] theorem setJc_pending : (s.setJc x).pending = s.pending := rfl
@[simp] theorem setJc_spc : (s.setJc x).spc = s.spc := rfl
@[simp] theorem setJc_up : (s.setJc x).up = s.up := rfl
@[simp] theorem setJc_aq : (s.setJc x).aq = s.aq := rfl
@[simp] theorem setJc_jc : (s.setJc x).jc = x := rfl
@[simp] theorem setJc_re : (s.setJc x).re = s.re := rfl
@[simp] theorem setJc_ll : (s.setJc x).ll = s.ll := rfl
@[simp] theorem setJc_mm : (s.setJc x).mm = s.mm := rfl
@[simp] theorem setJc_rp : (s.setJc x).rp = s.rp := rfl
@[simp] theorem setJc_ct : (s.setJc x).ct = s.ct := rfl
@[simp] theorem setJc_pu : (s.setJc x).pu = s.pu := rfl
@[simp] theorem setJc_mp : (s.setJc x).mp = s.mp := rfl
@[simp] theorem setJc_ru : (s.setJc x).ru = s.ru := rfl
@[simp] theorem setJc_memory : (s.setJc x).memory = s.memory := rfl
@[simp] theorem setJc_freeCount : (s.setJc x).freeCount = s.freeCount := rfl
end setJc

section setRe
variable (s : State) (x : Re)
@[simp] theorem setRe_pending : (s.setRe x).pending = s.pending := rfl
@[simp] theorem setRe_spc : (s.setRe x).spc = s.spc := rfl
@[simp] theorem setRe_up : (s.setRe x).up = s.up := rfl
@[simp] theorem setRe_aq : (s.setRe x).aq = s.aq := rfl
@[simp] theorem setRe_jc : (s.setRe x).jc = s.jc := rfl
@[simp] theorem setRe_re : (s.setRe x).re = x := rfl
@[simp] theorem setRe_ll : (s.setRe x).ll = s.ll := rfl
@[simp] theorem setRe_mm : (s.setRe x).mm = s.mm := rfl
@[simp] theorem setRe_rp : (s.setRe x).rp = s.rp := rfl
@[simp] theorem setRe_ct : (s.setRe x).ct = s.ct := rfl
@[simp] theorem setRe_pu : (s.setRe x).pu = s.pu := rfl
@[simp] theorem setRe_mp : (s.setRe x).mp = s.mp := rfl
@[simp] theorem setRe_ru : (s.setRe x).ru = s.ru := rfl
@[simp] theorem setRe_memory : (s.setRe x).memory = s.memory := rfl
@[simp] theorem setRe_freeCount : (s.setRe x).freeCount = s.freeCount := rfl
end setRe

section setLl
variable (s : State) (x : Ll)
@[simp] theorem setLl_pending : (s.setLl x).pending = s.pending := rfl
@[simp] theorem setLl_spc : (s.setLl x).spc = s.spc := rfl
@[simp] theorem setLl_up : (s.setLl x).up = s.up := rfl
@[simp] theorem setLl_aq : (s.setLl x).aq = s.aq := rfl
@[simp] theorem setLl_jc : (s.setLl x).jc = s.jc := rfl
@[simp] theorem setLl_re : (s.setLl x).re = s.re := rfl
@[simp] theorem setLl_ll : (s.setLl x).ll = x := rfl
@[simp] theorem setLl_mm : (s.setLl x).mm = s.mm := rfl
@[simp] theorem setLl_rp : (s.setLl x).rp = s.rp := rfl
@[simp] theorem setLl_ct : (s.setLl x).ct = s.ct := rfl
@[simp] theorem setLl_pu : (s.setLl x).pu = s.pu := rfl
@[simp] theorem setLl_mp : (s.setLl x).mp = s.mp := rfl
@[simp] theorem setLl_ru : (s.setLl x).ru = s.ru := rfl
@[simp] theorem setLl_memory : (s.setLl x).memory = s.memory := rfl
@[simp] theorem setLl_freeCount : (s.setLl x).freeCount = s.freeCount := rfl
end setLl

section setMm
variable (s : State) (x : Mm)
@[simp] theorem setMm_pending : (s.setMm x).pending = s.pending := rfl
@[simp] theorem setMm_spc : (s.setMm x).spc = s.spc := rfl
@[simp] theorem setMm_up : (s.setMm x).up = s.up := rfl
@[simp] theorem setMm_aq : (s.setMm x).aq = s.aq := rfl
@[simp] theorem setMm_jc : (s.setMm x).jc = s.jc := rfl
@[simp] theorem setMm_re : (s.setMm x).re = s.re := rfl
@[simp] theorem setMm_ll : (s.setMm x).ll = s.ll := rfl
@[simp] theorem setMm_mm : (s.setMm x).mm = x := rfl
@[simp] theorem setMm_rp : (s.setMm x).rp = s.rp := rfl
@[simp] theorem setMm_ct : (s.setMm x).ct = s.ct := rfl
@[simp] theorem setMm_pu : (s.setMm x).pu = s.pu := rfl
@[simp] theorem setMm_mp : (s.setMm x).mp = s.mp := rfl
@[simp] theorem setMm_ru : (s.setMm x).ru = s.ru := rfl
@[simp] theorem setMm_memory : (s.setMm x).memory = s.memory := rfl
@[simp] theorem setMm_freeCount : (s.setMm x).freeCount = s.freeCount := rfl
end setMm

section setRp
variable (s : State) (x : Rp)
@[simp] theorem setRp_pending : (s.setRp x).pending = s.pending := rfl
@[simp] theorem setRp_spc : (s.setRp x).spc = s.spc := rfl
@[simp] theorem setRp_up : (s.setRp x).up = s.up := rfl
@[simp] theorem setRp_aq : (s.setRp x).aq = s.aq := rfl
@[simp] theorem setRp_jc : (s.setRp x).jc = s.jc := rfl
@[simp] theorem setRp_re : (s.setRp x).re = s.re := rfl
@[simp] theorem setRp_ll : (s.setRp x).ll = s.ll := rfl
@[simp] theorem setRp_mm : (s.setRp x).mm = s.mm := rfl
@[simp] theorem setRp_rp : (s.setRp x).rp = x := rfl
@[simp] theorem setRp_ct : (s.setRp x).ct = s.ct := rfl
@[simp] theorem setRp_pu : (s.setRp x).pu = s.pu := rfl
@[simp] theorem setRp_mp : (s.setRp x).mp = s.mp := rfl
@[simp] theorem setRp_ru : (s.setRp x).ru = s.ru := rfl
@[simp] theorem setRp_memory : (s.setRp x).memory = s.memory := rfl
@[simp] theorem setRp_freeCount : (s.setRp x).freeCount = s.freeCount := rfl
end setRp

section setCt
variable (s : State) (x : Ct)
@[simp] theorem setCt_pending : (s.setCt x).pending = s.pending := rfl
@[simp] theorem setCt_spc : (s.setCt x).spc = s.spc := rfl
@[simp] theorem setCt_up : (s.setCt x).up = s.up := rfl
@[simp] theorem setCt_aq : (s.setCt x).aq = s.aq := rfl
@[simp] theorem setCt_jc : (s.setCt x).jc = s.jc := rfl
@[simp] theorem setCt_re : (s.setCt x).re = s.re := rfl
@[simp] theorem setCt_ll : (s.setCt x).ll = s.ll := rfl
@[simp] theorem setCt_mm : (s.setCt x).mm = s.mm := rfl
@[simp] theorem setCt_rp : (s.setCt x).rp = s.rp := rfl
@[simp] theorem setCt_ct : (s.setCt x).ct = x := rfl
@[simp] theorem setCt_pu : (s.setCt x).pu = s.pu := rfl
@[simp] theorem setCt_mp : (s.setCt x).mp = s.mp := rfl
@[simp] theorem setCt_ru : (s.setCt x).ru = s.ru := rfl
@[simp] theorem setCt_memory : (s.setCt x).memory = s.memory := rfl
@[simp] theorem setCt_freeCount : (s.setCt x).freeCount = s.freeCount := rfl
end setCt

section setPu
variable (s : State) (x : Pu)
@[simp] theorem setPu_pending : (s.setPu x).pending = s.pending := rfl
@[simp] theorem setPu_spc : (s.setPu x).spc = s.spc := rfl
@[simp] theorem setPu_up : (s.setPu x).up = s.up := rfl
@[simp] theorem setPu_aq : (s.setPu x).aq = s.aq := rfl
@[simp] theorem setPu_jc : (s.setPu x).jc = s.jc := rfl
@[simp] theorem setPu_re : (s.setPu x).re = s.re := rfl
@[simp] theorem setPu_ll : (s.setPu x).ll = s.ll := rfl
@[simp] theorem setPu_mm : (s.setPu x).mm = s.mm := rfl
@[simp] theorem setPu_rp : (s.setPu x).rp = s.rp := rfl
@[simp] theorem setPu_ct : (s.setPu x).ct = s.ct := rfl
@[simp] theorem setPu_pu : (s.setPu x).pu = x := rfl
@[simp] theorem setPu_mp : (s.setPu x).mp = s.mp := rfl
@[simp] theorem setPu_ru : (s.setPu x).ru = s.ru := rfl
@[simp] theorem setPu_memory : (s.setPu x).memory = s.memory := rfl
@[simp] theorem setPu_freeCount : (s.setPu x).freeCount = s.freeCount := rfl
end setPu

section setMp
variable (s : State) (x : Mp)
@[simp] theorem setMp_pending : (s.setMp x).pending = s.pending := rfl
@[simp] theorem setMp_spc : (s.setMp x).spc = s.spc := rfl
@[simp] theorem setMp_up : (s.setMp x).up = s.up := rfl
@[simp] theorem setMp_aq : (s.setMp x).aq = s.aq := rfl
@[simp] theorem setMp_jc : (s.setMp x).jc = s.jc := rfl
@[simp] theorem setMp_re : (s.setMp x).re = s.re := rfl
@[simp] theorem setMp_ll : (s.setMp x).ll = s.ll := rfl
@[simp] theorem setMp_mm : (s.setMp x).mm = s.mm := rfl
@[simp] theorem setMp_rp : (s.setMp x).rp = s.rp := rfl
@[simp] theorem setMp_ct : (s.setMp x).ct = s.ct := rfl
@[simp] theorem setMp_pu : (s.setMp x).pu = s.pu := rfl
@[simp] theorem setMp_mp : (s.setMp x).mp = x := rfl
@[simp] theorem setMp_ru : (s.setMp x).ru = s.ru := rfl
@[simp] theorem setMp_memory : (s.setMp x).memory = s.memory := rfl
@[simp] theorem setMp_freeCount : (s.setMp x).freeCount = s.freeCount := rfl
end setMp

section setRu
variable (s : State) (x : Ru)
@[simp] theorem setRu_pending : (s.setRu x).pending = s.pending := rfl
@[simp] theorem setRu_spc : (s.setRu x).spc = s.spc := rfl
@[simp] theorem setRu_up : (s.setRu x).up = s.up := rfl
@[simp] theorem setRu_aq : (s.setRu x).aq = s.aq := rfl
@[simp] theorem setRu_jc : (s.setRu x).jc = s.jc := rfl
@[simp] theorem setRu_re : (s.setRu x).re = s.re := rfl
@[simp] theorem setRu_ll : (s.setRu x).ll = s.ll := rfl
@[simp] theorem setRu_mm : (s.setRu x).mm = s.mm := rfl
@[simp] theorem setRu_rp : (s.setRu x).rp = s.rp := rfl
@[simp] theorem setRu_ct : (s.setRu x).ct = s.ct := rfl
@[simp] theorem setRu_pu : (s.setRu x).pu = s.pu := rfl
@[simp] theorem setRu_mp : (s.setRu x).mp = s.mp := rfl
@[simp] theorem setRu_ru : (s.setRu x).ru = x := rfl
@[simp] theorem setRu_memory : (s.setRu x).memory = s.memory := rfl
@[simp] theorem setRu_freeCount : (s.setRu x).freeCount = s.freeCount := rfl
end setRu

section setMemory
variable (s : State) (x : Memory)
@[simp] theorem setMemory_pending : (s.setMemory x).pending = s.pending := rfl
@[simp] theorem setMemory_spc : (s.setMemory x).spc = s.spc := rfl
@[simp] theorem setMemory_up : (s.setMemory x).up = s.up := rfl
@[simp] theorem setMemory_aq : (s.setMemory x).aq = s.aq := rfl
@[simp] theorem setMemory_jc : (s.setMemory x).jc = s.jc := rfl
@[simp] theorem setMemory_re : (s.setMemory x).re = s.re := rfl
@[simp] theorem setMemory_ll : (s.setMemory x).ll = s.ll := rfl
@[simp] theorem setMemory_mm : (s.setMemory x).mm = s.mm := rfl
@[simp] theorem setMemory_rp : (s.setMemory x).rp = s.rp := rfl
@[simp] theorem setMemory_ct : (s.setMemory x).ct = s.ct := rfl
@[simp] theorem setMemory_pu : (s.setMemory x).pu = s.pu := rfl
@[simp] theorem setMemory_mp : (s.setMemory x).mp = s.mp := rfl
@[simp] theorem setMemory_ru : (s.setMemory x).ru = s.ru := rfl
@[simp] theorem setMemory_memory : (s.setMemory x).memory = x := rfl
@[simp] theorem setMemory_freeCount : (s.setMemory x).freeCount = s.freeCount := rfl
end setMemory

section setFreeCount
variable (s : State) (x : Nat)
@[simp] theorem setFreeCount_pending : (s.setFreeCount x).pending = s.pending := rfl
@[simp] theorem setFreeCount_spc : (s.setFreeCount x).spc = s.spc := rfl
@[simp] theorem setFreeCount_up : (s.setFreeCount x).up = s.up := rfl
@[simp] theorem setFreeCount_aq : (s.setFreeCount x).aq = s.aq := rfl
@[simp] theorem setFreeCount_jc : (s.setFreeCount x).jc = s.jc := rfl
@[simp] theorem setFreeCount_re : (s.setFreeCount x).re = s.re := rfl
@[simp] theorem setFreeCount_ll : (s.setFreeCount x).ll = s.ll := rfl
@[simp] theorem setFreeCount_mm : (s.setFreeCount x).mm = s.mm := rfl
@[simp] theorem setFreeCount_rp : (s.setFreeCount x).rp = s.rp := rfl
@[simp] theorem setFreeCount_ct : (s.setFreeCount x).ct = s.ct := rfl
@[simp] theorem setFreeCount_pu : (s.setFreeCount x).pu = s.pu := rfl
@[simp] theorem setFreeCount_mp : (s.setFreeCount x).mp = s.mp := rfl
@[simp] theorem setFreeCount_ru : (s.setFreeCount x).ru = s.ru := rfl
@[simp] theorem setFreeCount_memory : (s.setFreeCount x).memory = s.memory := rfl
@[simp] theorem setFreeCount_freeCount : (s.setFreeCount x).freeCount = x := rfl
end setFreeCount

end Sys2Proof.Machine.State
end

