-- ==== Sys2Proof/Laws/FrameBase.lean ====
section
/-!
SUPPORT. What each operation leaves unchanged, one lemma for each: the memory port, the Report Unit, answers, the queue and power control.
-/
namespace Sys2Proof.Machine.State

@[simp] theorem discardInFlight_frame (s : State) (mine : Owner → Bool) :
    (s.discardInFlight mine).pending = s.pending ∧ (s.discardInFlight mine).spc = s.spc ∧
    (s.discardInFlight mine).up = s.up ∧ (s.discardInFlight mine).aq = s.aq ∧ (s.discardInFlight mine).jc = s.jc ∧
    (s.discardInFlight mine).re = s.re ∧ (s.discardInFlight mine).ll = s.ll ∧ (s.discardInFlight mine).mm = s.mm ∧
    (s.discardInFlight mine).rp = s.rp ∧ (s.discardInFlight mine).ct = s.ct ∧ (s.discardInFlight mine).pu = s.pu ∧
    (s.discardInFlight mine).ru = s.ru ∧ (s.discardInFlight mine).memory = s.memory ∧
    (s.discardInFlight mine).freeCount = s.freeCount := by
  unfold discardInFlight
  (repeat' split) <;> simp

@[simp] theorem ask_frame (s : State) (p : Place) (r : Request) :
    (s.ask p r).pending = s.pending ∧ (s.ask p r).spc = s.spc ∧ (s.ask p r).up = s.up ∧ (s.ask p r).aq = s.aq ∧
    (s.ask p r).jc = s.jc ∧ (s.ask p r).re = s.re ∧ (s.ask p r).ll = s.ll ∧ (s.ask p r).mm = s.mm ∧
    (s.ask p r).rp = s.rp ∧ (s.ask p r).ct = s.ct ∧ (s.ask p r).pu = s.pu ∧ (s.ask p r).ru = s.ru ∧
    (s.ask p r).memory = s.memory ∧ (s.ask p r).freeCount = s.freeCount := by
  simp [ask]

@[simp] theorem withdraw_frame (s : State) (p : Place) :
    (s.withdraw p).pending = s.pending ∧ (s.withdraw p).spc = s.spc ∧ (s.withdraw p).up = s.up ∧
    (s.withdraw p).aq = s.aq ∧ (s.withdraw p).jc = s.jc ∧ (s.withdraw p).re = s.re ∧ (s.withdraw p).ll = s.ll ∧
    (s.withdraw p).mm = s.mm ∧ (s.withdraw p).rp = s.rp ∧ (s.withdraw p).ct = s.ct ∧ (s.withdraw p).pu = s.pu ∧
    (s.withdraw p).ru = s.ru ∧ (s.withdraw p).memory = s.memory ∧ (s.withdraw p).freeCount = s.freeCount := by
  simp [withdraw]

@[simp] theorem askRead_frame (s : State) (p : Place) (o : Owner) (w : WordAddr) :
    (s.askRead p o w).pending = s.pending ∧ (s.askRead p o w).spc = s.spc ∧ (s.askRead p o w).up = s.up ∧
    (s.askRead p o w).aq = s.aq ∧ (s.askRead p o w).jc = s.jc ∧ (s.askRead p o w).re = s.re ∧
    (s.askRead p o w).ll = s.ll ∧ (s.askRead p o w).mm = s.mm ∧ (s.askRead p o w).rp = s.rp ∧
    (s.askRead p o w).ct = s.ct ∧ (s.askRead p o w).pu = s.pu ∧ (s.askRead p o w).ru = s.ru ∧
    (s.askRead p o w).memory = s.memory ∧ (s.askRead p o w).freeCount = s.freeCount := by
  simp [askRead]

@[simp] theorem askWrite_frame (s : State) (p : Place) (o : Owner) (w : WordAddr) (x : Word) :
    (s.askWrite p o w x).pending = s.pending ∧ (s.askWrite p o w x).spc = s.spc ∧ (s.askWrite p o w x).up = s.up ∧
    (s.askWrite p o w x).aq = s.aq ∧ (s.askWrite p o w x).jc = s.jc ∧ (s.askWrite p o w x).re = s.re ∧
    (s.askWrite p o w x).ll = s.ll ∧ (s.askWrite p o w x).mm = s.mm ∧ (s.askWrite p o w x).rp = s.rp ∧
    (s.askWrite p o w x).ct = s.ct ∧ (s.askWrite p o w x).pu = s.pu ∧ (s.askWrite p o w x).ru = s.ru ∧
    (s.askWrite p o w x).memory = s.memory ∧ (s.askWrite p o w x).freeCount = s.freeCount := by
  simp [askWrite]

@[simp] theorem raise_frame (s : State) (c : Cause) :
    (s.raise c).pending = s.pending ∧ (s.raise c).spc = s.spc ∧ (s.raise c).up = s.up ∧ (s.raise c).aq = s.aq ∧
    (s.raise c).jc = s.jc ∧ (s.raise c).re = s.re ∧ (s.raise c).ll = s.ll ∧ (s.raise c).mm = s.mm ∧
    (s.raise c).rp = s.rp ∧ (s.raise c).ct = s.ct ∧ (s.raise c).pu = s.pu ∧ (s.raise c).mp = s.mp ∧
    (s.raise c).memory = s.memory ∧ (s.raise c).freeCount = s.freeCount := by
  simp [raise]

@[simp] theorem count_frame (s : State) (k : CounterKind) :
    (s.count k).pending = s.pending ∧ (s.count k).spc = s.spc ∧ (s.count k).up = s.up ∧ (s.count k).aq = s.aq ∧
    (s.count k).jc = s.jc ∧ (s.count k).re = s.re ∧ (s.count k).ll = s.ll ∧ (s.count k).mm = s.mm ∧
    (s.count k).rp = s.rp ∧ (s.count k).ct = s.ct ∧ (s.count k).pu = s.pu ∧ (s.count k).mp = s.mp ∧
    (s.count k).memory = s.memory ∧ (s.count k).freeCount = s.freeCount := by
  simp [count]

@[simp] theorem report_frame (s : State) (k : FaultKind) (o : FaultOrigin) (a : Addr) :
    (s.report k o a).pending = s.pending ∧ (s.report k o a).spc = s.spc ∧ (s.report k o a).up = s.up ∧
    (s.report k o a).aq = s.aq ∧ (s.report k o a).jc = s.jc ∧ (s.report k o a).re = s.re ∧
    (s.report k o a).ll = s.ll ∧ (s.report k o a).mm = s.mm ∧ (s.report k o a).rp = s.rp ∧
    (s.report k o a).ct = s.ct ∧ (s.report k o a).pu = s.pu ∧ (s.report k o a).mp = s.mp ∧
    (s.report k o a).memory = s.memory ∧ (s.report k o a).freeCount = s.freeCount := by
  simp [report]

@[simp] theorem snapshot_frame (s : State) :
    s.snapshot.pending = s.pending ∧ s.snapshot.spc = s.spc ∧ s.snapshot.up = s.up ∧ s.snapshot.aq = s.aq ∧
    s.snapshot.jc = s.jc ∧ s.snapshot.re = s.re ∧ s.snapshot.ll = s.ll ∧ s.snapshot.mm = s.mm ∧ s.snapshot.rp = s.rp ∧
    s.snapshot.ct = s.ct ∧ s.snapshot.pu = s.pu ∧ s.snapshot.mp = s.mp ∧ s.snapshot.memory = s.memory ∧
    s.snapshot.freeCount = s.freeCount := by
  simp [snapshot]

@[simp] theorem askRecordWord_frame (s : State) (w : RuWrite) :
    (s.askRecordWord w).pending = s.pending ∧ (s.askRecordWord w).spc = s.spc ∧ (s.askRecordWord w).up = s.up ∧
    (s.askRecordWord w).aq = s.aq ∧ (s.askRecordWord w).jc = s.jc ∧ (s.askRecordWord w).re = s.re ∧
    (s.askRecordWord w).ll = s.ll ∧ (s.askRecordWord w).mm = s.mm ∧ (s.askRecordWord w).rp = s.rp ∧
    (s.askRecordWord w).ct = s.ct ∧ (s.askRecordWord w).pu = s.pu ∧ (s.askRecordWord w).ru = s.ru ∧
    (s.askRecordWord w).memory = s.memory ∧ (s.askRecordWord w).freeCount = s.freeCount := by
  simp [askRecordWord]

@[simp] theorem beginRecord_frame (s : State) (r : Record) (words : List Word) (base : Nat) :
    (s.beginRecord r words base).pending = s.pending ∧ (s.beginRecord r words base).spc = s.spc ∧
    (s.beginRecord r words base).up = s.up ∧ (s.beginRecord r words base).aq = s.aq ∧
    (s.beginRecord r words base).jc = s.jc ∧ (s.beginRecord r words base).re = s.re ∧
    (s.beginRecord r words base).ll = s.ll ∧ (s.beginRecord r words base).mm = s.mm ∧
    (s.beginRecord r words base).rp = s.rp ∧ (s.beginRecord r words base).ct = s.ct ∧
    (s.beginRecord r words base).pu = s.pu ∧ (s.beginRecord r words base).memory = s.memory ∧
    (s.beginRecord r words base).freeCount = s.freeCount := by
  simp [beginRecord]

@[simp] theorem beginFault_frame (s : State) (base : Nat) :
    (s.beginFault base).pending = s.pending ∧ (s.beginFault base).spc = s.spc ∧ (s.beginFault base).up = s.up ∧
    (s.beginFault base).aq = s.aq ∧ (s.beginFault base).jc = s.jc ∧ (s.beginFault base).re = s.re ∧
    (s.beginFault base).ll = s.ll ∧ (s.beginFault base).mm = s.mm ∧ (s.beginFault base).rp = s.rp ∧
    (s.beginFault base).ct = s.ct ∧ (s.beginFault base).pu = s.pu ∧ (s.beginFault base).memory = s.memory ∧
    (s.beginFault base).freeCount = s.freeCount := by
  simp [beginFault]

@[simp] theorem beginStatus_frame (s : State) (base : Nat) :
    (s.beginStatus base).pending = s.pending ∧ (s.beginStatus base).spc = s.spc ∧ (s.beginStatus base).up = s.up ∧
    (s.beginStatus base).aq = s.aq ∧ (s.beginStatus base).jc = s.jc ∧ (s.beginStatus base).re = s.re ∧
    (s.beginStatus base).ll = s.ll ∧ (s.beginStatus base).mm = s.mm ∧ (s.beginStatus base).rp = s.rp ∧
    (s.beginStatus base).ct = s.ct ∧ (s.beginStatus base).pu = s.pu ∧ (s.beginStatus base).memory = s.memory ∧
    (s.beginStatus base).freeCount = s.freeCount := by
  simp [beginStatus]

@[simp] theorem beginCounters_frame (s : State) (kind : CaptureKind) (base : Nat) :
    (s.beginCounters kind base).pending = s.pending ∧ (s.beginCounters kind base).spc = s.spc ∧
    (s.beginCounters kind base).up = s.up ∧ (s.beginCounters kind base).aq = s.aq ∧
    (s.beginCounters kind base).jc = s.jc ∧ (s.beginCounters kind base).re = s.re ∧
    (s.beginCounters kind base).ll = s.ll ∧ (s.beginCounters kind base).mm = s.mm ∧
    (s.beginCounters kind base).rp = s.rp ∧ (s.beginCounters kind base).ct = s.ct ∧
    (s.beginCounters kind base).pu = s.pu ∧ (s.beginCounters kind base).memory = s.memory ∧
    (s.beginCounters kind base).freeCount = s.freeCount := by
  simp [beginCounters]

@[simp] theorem beginDueRecord_frame (s : State) :
    s.beginDueRecord.pending = s.pending ∧ s.beginDueRecord.spc = s.spc ∧ s.beginDueRecord.up = s.up ∧
    s.beginDueRecord.aq = s.aq ∧ s.beginDueRecord.jc = s.jc ∧ s.beginDueRecord.re = s.re ∧
    s.beginDueRecord.ll = s.ll ∧ s.beginDueRecord.mm = s.mm ∧ s.beginDueRecord.rp = s.rp ∧
    s.beginDueRecord.ct = s.ct ∧ s.beginDueRecord.pu = s.pu ∧ s.beginDueRecord.memory = s.memory ∧
    s.beginDueRecord.freeCount = s.freeCount := by
  unfold beginDueRecord
  (repeat' split) <;> simp

@[simp] theorem complete_frame (s : State) (f : InFlight) :
    (s.complete f).pending = s.pending ∧ (s.complete f).spc = s.spc ∧ (s.complete f).up = s.up ∧
    (s.complete f).aq = s.aq ∧ (s.complete f).jc = s.jc ∧ (s.complete f).re = s.re ∧ (s.complete f).ll = s.ll ∧
    (s.complete f).mm = s.mm ∧ (s.complete f).rp = s.rp ∧ (s.complete f).ct = s.ct ∧ (s.complete f).pu = s.pu.after f ∧
    (s.complete f).freeCount = s.freeCount := by
  unfold complete
  (repeat' split) <;> simp

@[simp] theorem grantAt_frame (s : State) (part : List Place) (p : Place) :
    (s.grantAt part p).pending = s.pending ∧ (s.grantAt part p).spc = s.spc ∧ (s.grantAt part p).up = s.up ∧
    (s.grantAt part p).aq = s.aq ∧ (s.grantAt part p).jc = s.jc ∧ (s.grantAt part p).re = s.re ∧ (s.grantAt part p).ll = s.ll ∧
    (s.grantAt part p).mm = s.mm ∧ (s.grantAt part p).rp = s.rp ∧ (s.grantAt part p).ct = s.ct ∧ (s.grantAt part p).pu = s.pu ∧
    (s.grantAt part p).ru = s.ru ∧ (s.grantAt part p).memory = s.memory ∧ (s.grantAt part p).freeCount = s.freeCount := by
  unfold grantAt
  (repeat' split) <;> simp

@[simp] theorem grant_frame (s : State) :
    s.grant.pending = s.pending ∧ s.grant.spc = s.spc ∧ s.grant.up = s.up ∧ s.grant.aq = s.aq ∧ s.grant.jc = s.jc ∧
    s.grant.re = s.re ∧ s.grant.ll = s.ll ∧ s.grant.mm = s.mm ∧ s.grant.rp = s.rp ∧ s.grant.ct = s.ct ∧
    s.grant.pu = s.pu ∧ s.grant.ru = s.ru ∧ s.grant.memory = s.memory := by
  unfold grant
  dsimp only
  (repeat' split) <;> simp

@[simp] theorem grantFirst_frame (s : State) (mine : Place → Bool) :
    (s.grantFirst mine).pending = s.pending ∧ (s.grantFirst mine).spc = s.spc ∧ (s.grantFirst mine).up = s.up ∧
    (s.grantFirst mine).aq = s.aq ∧ (s.grantFirst mine).jc = s.jc ∧ (s.grantFirst mine).re = s.re ∧ (s.grantFirst mine).ll = s.ll ∧
    (s.grantFirst mine).mm = s.mm ∧ (s.grantFirst mine).rp = s.rp ∧ (s.grantFirst mine).ct = s.ct ∧ (s.grantFirst mine).pu = s.pu ∧
    (s.grantFirst mine).ru = s.ru ∧ (s.grantFirst mine).memory = s.memory := by
  unfold grantFirst
  dsimp only
  (repeat' split) <;> simp

@[simp] theorem answerHost_frame (s : State) (ready : Bool) (data : Option Word) :
    (s.answerHost ready data).pending = s.pending ∧ (s.answerHost ready data).spc = s.spc ∧
    (s.answerHost ready data).aq = s.aq ∧ (s.answerHost ready data).jc = s.jc ∧ (s.answerHost ready data).re = s.re ∧
    (s.answerHost ready data).ll = s.ll ∧ (s.answerHost ready data).mm = s.mm ∧ (s.answerHost ready data).rp = s.rp ∧
    (s.answerHost ready data).ct = s.ct ∧ (s.answerHost ready data).pu = s.pu ∧ (s.answerHost ready data).mp = s.mp ∧
    (s.answerHost ready data).ru = s.ru ∧ (s.answerHost ready data).memory = s.memory ∧
    (s.answerHost ready data).freeCount = s.freeCount := by
  simp [answerHost]

@[simp] theorem refuseHost_frame (s : State) (t : HostTransfer) :
    (s.refuseHost t).pending = s.pending ∧ (s.refuseHost t).spc = s.spc ∧ (s.refuseHost t).aq = s.aq ∧
    (s.refuseHost t).jc = s.jc ∧ (s.refuseHost t).re = s.re ∧ (s.refuseHost t).ll = s.ll ∧
    (s.refuseHost t).mm = s.mm ∧ (s.refuseHost t).rp = s.rp ∧ (s.refuseHost t).ct = s.ct ∧
    (s.refuseHost t).pu = s.pu ∧ (s.refuseHost t).mp = s.mp ∧ (s.refuseHost t).ru = s.ru ∧
    (s.refuseHost t).memory = s.memory ∧ (s.refuseHost t).freeCount = s.freeCount := by
  unfold refuseHost
  (repeat' split) <;> simp

@[simp] theorem stopHold_frame (s : State) :
    s.stopHold.pending = s.pending ∧ s.stopHold.spc = s.spc ∧ s.stopHold.aq = s.aq ∧ s.stopHold.jc = s.jc ∧
    s.stopHold.re = s.re ∧ s.stopHold.ll = s.ll ∧ s.stopHold.mm = s.mm ∧ s.stopHold.rp = s.rp ∧ s.stopHold.ct = s.ct ∧
    s.stopHold.pu = s.pu ∧ s.stopHold.mp = s.mp ∧ s.stopHold.ru = s.ru ∧ s.stopHold.memory = s.memory ∧
    s.stopHold.freeCount = s.freeCount := by
  simp [stopHold]

@[simp] theorem headLeaves_frame (s : State) :
    s.headLeaves.pending = s.pending ∧ s.headLeaves.spc = s.spc ∧ s.headLeaves.jc = s.jc ∧ s.headLeaves.re = s.re ∧
    s.headLeaves.ll = s.ll ∧ s.headLeaves.mm = s.mm ∧ s.headLeaves.rp = s.rp ∧ s.headLeaves.ct = s.ct ∧
    s.headLeaves.pu = s.pu ∧ s.headLeaves.mp = s.mp ∧ s.headLeaves.ru = s.ru ∧ s.headLeaves.memory = s.memory ∧
    s.headLeaves.freeCount = s.freeCount := by
  unfold headLeaves
  (repeat' split) <;> simp

@[simp] theorem takeHead_frame (s : State) :
    s.takeHead.pending = s.pending ∧ s.takeHead.spc = s.spc ∧ s.takeHead.up = s.up ∧ s.takeHead.jc = s.jc ∧
    s.takeHead.re = s.re ∧ s.takeHead.ll = s.ll ∧ s.takeHead.mm = s.mm ∧ s.takeHead.rp = s.rp ∧ s.takeHead.ct = s.ct ∧
    s.takeHead.pu = s.pu ∧ s.takeHead.mp = s.mp ∧ s.takeHead.ru = s.ru ∧ s.takeHead.memory = s.memory ∧
    s.takeHead.freeCount = s.freeCount := by
  simp [takeHead]

@[simp] theorem startDirect_frame (s : State) :
    s.startDirect.pending = s.pending ∧ s.startDirect.spc = s.spc ∧
    s.startDirect.aq = s.aq ∧ s.startDirect.jc = s.jc ∧ s.startDirect.re = s.re ∧ s.startDirect.ll = s.ll ∧
    s.startDirect.mm = s.mm ∧ s.startDirect.rp = s.rp ∧ s.startDirect.ct = s.ct ∧ s.startDirect.pu = s.pu ∧
    s.startDirect.ru = s.ru ∧ s.startDirect.memory = s.memory ∧ s.startDirect.freeCount = s.freeCount := by
  unfold startDirect
  (repeat' split) <;> simp

@[simp] theorem dropHeldCanvas_frame (s : State) :
    s.dropHeldCanvas.pending = s.pending ∧ s.dropHeldCanvas.spc = s.spc ∧ s.dropHeldCanvas.jc = s.jc ∧
    s.dropHeldCanvas.re = s.re ∧ s.dropHeldCanvas.ll = s.ll ∧ s.dropHeldCanvas.mm = s.mm ∧
    s.dropHeldCanvas.rp = s.rp ∧ s.dropHeldCanvas.ct = s.ct ∧ s.dropHeldCanvas.pu = s.pu ∧
    s.dropHeldCanvas.mp = s.mp ∧ s.dropHeldCanvas.ru = s.ru ∧ s.dropHeldCanvas.memory = s.memory ∧
    s.dropHeldCanvas.freeCount = s.freeCount := by
  unfold dropHeldCanvas
  dsimp only
  (repeat' split) <;> simp

@[simp] theorem handToPort_frame (s : State) :
    s.handToPort.pending = s.pending ∧ s.handToPort.spc = s.spc ∧ s.handToPort.aq = s.aq ∧ s.handToPort.jc = s.jc ∧
    s.handToPort.re = s.re ∧ s.handToPort.ll = s.ll ∧ s.handToPort.mm = s.mm ∧ s.handToPort.rp = s.rp ∧
    s.handToPort.ct = s.ct ∧ s.handToPort.pu = s.pu ∧ s.handToPort.ru = s.ru ∧ s.handToPort.memory = s.memory ∧
    s.handToPort.freeCount = s.freeCount := by
  unfold handToPort
  (repeat' split) <;> simp

@[simp] theorem servePassive_frame (s : State) :
    s.servePassive.pending = s.pending ∧ s.servePassive.spc = s.spc ∧ s.servePassive.jc = s.jc ∧
    s.servePassive.re = s.re ∧ s.servePassive.ll = s.ll ∧ s.servePassive.mm = s.mm ∧ s.servePassive.rp = s.rp ∧
    s.servePassive.ct = s.ct ∧ s.servePassive.pu = s.pu ∧ s.servePassive.ru = s.ru ∧
    s.servePassive.memory = s.memory ∧ s.servePassive.freeCount = s.freeCount := by
  unfold servePassive
  (repeat' split) <;> simp

@[simp] theorem endStep_frame (s : State) :
    s.endStep.pending = s.pending ∧ s.endStep.spc = s.spc ∧ s.endStep.up = s.up ∧ s.endStep.aq = s.aq ∧
    s.endStep.jc = s.jc ∧ s.endStep.re = s.re ∧ s.endStep.ll = s.ll ∧ s.endStep.mm = s.mm ∧ s.endStep.rp = s.rp ∧
    s.endStep.ct = s.ct ∧ s.endStep.pu = s.pu ∧ s.endStep.ru = s.beginDueRecord.ru ∧ s.endStep.memory = s.memory ∧
    s.endStep.freeCount = s.freeCount := by
  simp [endStep]

/-- The end of a step keeps the port's requests, counts, transfer and sense as the Report Unit leaves them. -/
@[simp] theorem endStep_mp (s : State) :
    s.endStep.mp.requests = s.beginDueRecord.mp.requests ∧ s.endStep.mp.passed = s.beginDueRecord.mp.passed ∧
    s.endStep.mp.inFlight = s.beginDueRecord.mp.inFlight ∧ s.endStep.mp.sense = s.beginDueRecord.mp.sense ∧
    s.endStep.mp.check = s.beginDueRecord.mp.check ∧ s.endStep.mp.path = s.beginDueRecord.mp.path ∧
    s.endStep.mp.cut = s.beginDueRecord.mp.cut := by
  simp [endStep]

@[simp] theorem settle_frame (s : State) :
    s.settle.pending = s.pending ∧ s.settle.spc = s.spc ∧ s.settle.jc = s.jc ∧ s.settle.re = s.re ∧
    s.settle.ll = s.ll ∧ s.settle.mm = s.mm ∧ s.settle.rp = s.rp ∧ s.settle.ct = s.ct ∧ s.settle.pu = s.pu ∧
    s.settle.memory = s.memory ∧ s.settle.freeCount = s.freeCount := by
  simp [settle]

@[simp] theorem loseMarks_frame (s : State) (watching : Bool) (pace : Option Nat) :
    (s.loseMarks watching pace).pending = s.pending ∧ (s.loseMarks watching pace).spc = s.spc ∧
    (s.loseMarks watching pace).up = s.up ∧ (s.loseMarks watching pace).aq = s.aq ∧
    (s.loseMarks watching pace).jc = s.jc ∧ (s.loseMarks watching pace).re = s.re ∧
    (s.loseMarks watching pace).ll = s.ll ∧ (s.loseMarks watching pace).rp = s.rp ∧
    (s.loseMarks watching pace).ct = s.ct ∧ (s.loseMarks watching pace).pu = s.pu ∧
    (s.loseMarks watching pace).mp = s.mp ∧ (s.loseMarks watching pace).memory = s.memory ∧
    (s.loseMarks watching pace).freeCount = s.freeCount := by
  unfold loseMarks
  (repeat' split) <;> simp

@[simp] theorem wake_frame (s : State) :
    s.wake.pending = s.pending ∧ s.wake.up = s.up ∧ s.wake.aq = s.aq ∧ s.wake.jc = s.jc ∧ s.wake.re = s.re ∧
    s.wake.ll = s.ll ∧ s.wake.rp = s.rp ∧ s.wake.ct = s.ct ∧ s.wake.pu = s.pu ∧ s.wake.mp = s.mp ∧
    s.wake.memory = s.memory ∧ s.wake.freeCount = s.freeCount := by
  simp [wake]

@[simp] theorem enterStandby_frame (s : State) :
    s.enterStandby.pending = s.pending ∧ s.enterStandby.up = s.up ∧ s.enterStandby.aq = s.aq ∧
    s.enterStandby.jc = s.jc ∧ s.enterStandby.re = s.re ∧ s.enterStandby.ll = s.ll ∧ s.enterStandby.rp = s.rp ∧
    s.enterStandby.ct = s.ct ∧ s.enterStandby.pu = s.pu ∧ s.enterStandby.mp = s.mp ∧
    s.enterStandby.memory = s.memory ∧ s.enterStandby.freeCount = s.freeCount := by
  unfold enterStandby
  dsimp only
  (repeat' split) <;> simp

@[simp] theorem standbyCheck_frame (s : State) :
    s.standbyCheck.pending = s.pending ∧ s.standbyCheck.up = s.up ∧ s.standbyCheck.aq = s.aq ∧
    s.standbyCheck.jc = s.jc ∧ s.standbyCheck.re = s.re ∧ s.standbyCheck.ll = s.ll ∧ s.standbyCheck.rp = s.rp ∧
    s.standbyCheck.ct = s.ct ∧ s.standbyCheck.pu = s.pu ∧ s.standbyCheck.mp = s.mp ∧
    s.standbyCheck.memory = s.memory ∧ s.standbyCheck.freeCount = s.freeCount := by
  unfold standbyCheck
  (repeat' split) <;> simp

@[simp] theorem cancelStandby_frame (s : State) :
    s.cancelStandby.pending = s.pending ∧ s.cancelStandby.up = s.up ∧ s.cancelStandby.aq = s.aq ∧
    s.cancelStandby.jc = s.jc ∧ s.cancelStandby.re = s.re ∧ s.cancelStandby.ll = s.ll ∧ s.cancelStandby.mm = s.mm ∧
    s.cancelStandby.rp = s.rp ∧ s.cancelStandby.ct = s.ct ∧ s.cancelStandby.pu = s.pu ∧ s.cancelStandby.mp = s.mp ∧
    s.cancelStandby.memory = s.memory ∧ s.cancelStandby.freeCount = s.freeCount := by
  unfold cancelStandby
  (repeat' split) <;> simp

end Sys2Proof.Machine.State
end

