-- ==== Sys2Proof/Laws/FrameRelease.lean ====
section
/-!
SUPPORT. What each operation leaves unchanged, one lemma for each: the Load Limiter, the Release Engine and the Reel Player.
-/
namespace Sys2Proof.Machine.State

@[simp] theorem countDerates_frame (s : State) (b : Batch) :
    (s.countDerates b).pending = s.pending ∧ (s.countDerates b).spc = s.spc ∧ (s.countDerates b).up = s.up ∧
    (s.countDerates b).aq = s.aq ∧ (s.countDerates b).jc = s.jc ∧ (s.countDerates b).re = s.re ∧
    (s.countDerates b).ll = s.ll ∧ (s.countDerates b).mm = s.mm ∧ (s.countDerates b).rp = s.rp ∧
    (s.countDerates b).ct = s.ct ∧ (s.countDerates b).pu = s.pu ∧ (s.countDerates b).mp = s.mp ∧
    (s.countDerates b).memory = s.memory ∧ (s.countDerates b).freeCount = s.freeCount := by
  unfold countDerates
  generalize (List.finRange 8).filter _ = l
  induction l generalizing s with
  | nil => simp
  | cons g l ih => simpa using ih (s.count .derate)

@[simp] theorem setStage_frame (s : State) (i : Fin 8) (p : Phase) (e : Engine) :
    (s.setStage i p e).pending = s.pending ∧ (s.setStage i p e).spc = s.spc ∧ (s.setStage i p e).up = s.up ∧
    (s.setStage i p e).aq = s.aq ∧ (s.setStage i p e).ll = s.ll ∧ (s.setStage i p e).mm = s.mm ∧
    (s.setStage i p e).rp = s.rp ∧ (s.setStage i p e).ct = s.ct ∧ (s.setStage i p e).pu = s.pu ∧
    (s.setStage i p e).mp = s.mp ∧ (s.setStage i p e).ru = s.ru ∧ (s.setStage i p e).memory = s.memory ∧
    (s.setStage i p e).freeCount = s.freeCount := by
  simp [setStage]

@[simp] theorem firstPassNext_frame (s : State) :
    s.firstPassNext.pending = s.pending ∧ s.firstPassNext.spc = s.spc ∧ s.firstPassNext.up = s.up ∧
    s.firstPassNext.aq = s.aq ∧ s.firstPassNext.ll = s.ll ∧ s.firstPassNext.mm = s.mm ∧ s.firstPassNext.rp = s.rp ∧
    s.firstPassNext.ct = s.ct ∧ s.firstPassNext.pu = s.pu ∧ s.firstPassNext.ru = s.ru ∧
    s.firstPassNext.memory = s.memory ∧ s.firstPassNext.freeCount = s.freeCount := by
  unfold firstPassNext
  (repeat' split) <;> simp

@[simp] theorem endMeasure_frame (s : State) :
    s.endMeasure.pending = s.pending ∧ s.endMeasure.spc = s.spc ∧ s.endMeasure.up = s.up ∧ s.endMeasure.aq = s.aq ∧
    s.endMeasure.ll = s.ll ∧ s.endMeasure.mm = s.mm ∧ s.endMeasure.rp = s.rp ∧ s.endMeasure.ct = s.ct ∧
    s.endMeasure.pu = s.pu ∧ s.endMeasure.memory = s.memory ∧ s.endMeasure.freeCount = s.freeCount := by
  unfold endMeasure
  (repeat' split) <;> simp

@[simp] theorem firstPassDone_frame (s : State) :
    s.firstPassDone.pending = s.pending ∧ s.firstPassDone.spc = s.spc ∧ s.firstPassDone.up = s.up ∧
    s.firstPassDone.aq = s.aq ∧ s.firstPassDone.ll = s.ll ∧ s.firstPassDone.mm = s.mm ∧ s.firstPassDone.rp = s.rp ∧
    s.firstPassDone.ct = s.ct ∧ s.firstPassDone.pu = s.pu ∧ s.firstPassDone.ru = s.ru ∧
    s.firstPassDone.memory = s.memory ∧ s.firstPassDone.freeCount = s.freeCount := by
  unfold firstPassDone
  (repeat' split) <;> simp

@[simp] theorem takeBatch_frame (s : State) :
    s.takeBatch.pending = s.pending ∧ s.takeBatch.spc = s.spc ∧ s.takeBatch.up = s.up ∧ s.takeBatch.aq = s.aq ∧
    s.takeBatch.ll = s.ll ∧ s.takeBatch.mm = s.mm ∧ s.takeBatch.rp = s.rp ∧ s.takeBatch.ct = s.ct ∧
    s.takeBatch.pu = s.pu ∧ s.takeBatch.memory = s.memory ∧ s.takeBatch.freeCount = s.freeCount := by
  unfold takeBatch
  dsimp only
  (repeat' split) <;> simp

@[simp] theorem takeIfEligible_frame (s : State) :
    s.takeIfEligible.pending = s.pending ∧ s.takeIfEligible.spc = s.spc ∧ s.takeIfEligible.up = s.up ∧
    s.takeIfEligible.aq = s.aq ∧ s.takeIfEligible.ll = s.ll ∧ s.takeIfEligible.mm = s.mm ∧
    s.takeIfEligible.rp = s.rp ∧ s.takeIfEligible.ct = s.ct ∧ s.takeIfEligible.pu = s.pu ∧
    s.takeIfEligible.memory = s.memory ∧ s.takeIfEligible.freeCount = s.freeCount := by
  unfold takeIfEligible
  (repeat' split) <;> simp

@[simp] theorem askSecondPass_frame (s : State) (e : Entry) :
    (s.askSecondPass e).pending = s.pending ∧ (s.askSecondPass e).spc = s.spc ∧ (s.askSecondPass e).up = s.up ∧
    (s.askSecondPass e).aq = s.aq ∧ (s.askSecondPass e).jc = s.jc ∧ (s.askSecondPass e).re = s.re ∧
    (s.askSecondPass e).ll = s.ll ∧ (s.askSecondPass e).mm = s.mm ∧ (s.askSecondPass e).rp = s.rp ∧
    (s.askSecondPass e).ct = s.ct ∧ (s.askSecondPass e).pu = s.pu ∧ (s.askSecondPass e).ru = s.ru ∧
    (s.askSecondPass e).memory = s.memory ∧ (s.askSecondPass e).freeCount = s.freeCount := by
  simp [askSecondPass]

@[simp] theorem askBlanking_frame (s : State) :
    s.askBlanking.pending = s.pending ∧ s.askBlanking.spc = s.spc ∧ s.askBlanking.up = s.up ∧
    s.askBlanking.aq = s.aq ∧ s.askBlanking.jc = s.jc ∧ s.askBlanking.re = s.re ∧ s.askBlanking.ll = s.ll ∧
    s.askBlanking.mm = s.mm ∧ s.askBlanking.rp = s.rp ∧ s.askBlanking.ct = s.ct ∧ s.askBlanking.pu = s.pu ∧
    s.askBlanking.ru = s.ru ∧ s.askBlanking.memory = s.memory ∧ s.askBlanking.freeCount = s.freeCount := by
  simp [askBlanking]

@[simp] theorem setPlayer_frame (s : State) (p : Player) :
    (s.setPlayer p).pending = s.pending ∧ (s.setPlayer p).spc = s.spc ∧ (s.setPlayer p).up = s.up ∧
    (s.setPlayer p).aq = s.aq ∧ (s.setPlayer p).jc = s.jc ∧ (s.setPlayer p).re = s.re ∧ (s.setPlayer p).ll = s.ll ∧
    (s.setPlayer p).mm = s.mm ∧ (s.setPlayer p).ct = s.ct ∧ (s.setPlayer p).pu = s.pu ∧ (s.setPlayer p).mp = s.mp ∧
    (s.setPlayer p).memory = s.memory ∧ (s.setPlayer p).freeCount = s.freeCount := by
  unfold setPlayer
  (repeat' split) <;> simp

@[simp] theorem markEarlier_frame (s : State) :
    s.markEarlier.pending = s.pending ∧ s.markEarlier.spc = s.spc ∧ s.markEarlier.up = s.up ∧
    s.markEarlier.aq = s.aq ∧ s.markEarlier.re = s.re ∧ s.markEarlier.ll = s.ll ∧ s.markEarlier.mm = s.mm ∧
    s.markEarlier.rp = s.rp ∧ s.markEarlier.ct = s.ct ∧ s.markEarlier.pu = s.pu ∧ s.markEarlier.mp = s.mp ∧
    s.markEarlier.ru = s.ru ∧ s.markEarlier.memory = s.memory ∧ s.markEarlier.freeCount = s.freeCount := by
  simp [markEarlier]

@[simp] theorem askHeader_frame (s : State) :
    s.askHeader.pending = s.pending ∧ s.askHeader.spc = s.spc ∧ s.askHeader.up = s.up ∧ s.askHeader.aq = s.aq ∧
    s.askHeader.jc = s.jc ∧ s.askHeader.re = s.re ∧ s.askHeader.ll = s.ll ∧ s.askHeader.mm = s.mm ∧
    s.askHeader.ct = s.ct ∧ s.askHeader.pu = s.pu ∧ s.askHeader.ru = s.ru ∧ s.askHeader.memory = s.memory ∧
    s.askHeader.freeCount = s.freeCount := by
  simp [askHeader]

@[simp] theorem playStart_frame (s : State) (n : Fin 4) :
    (s.playStart n).pending = s.pending ∧ (s.playStart n).up = s.up ∧ (s.playStart n).aq = s.aq ∧
    (s.playStart n).re = s.re ∧ (s.playStart n).ll = s.ll ∧ (s.playStart n).mm = s.mm ∧ (s.playStart n).ct = s.ct ∧
    (s.playStart n).pu = s.pu ∧ (s.playStart n).memory = s.memory ∧ (s.playStart n).freeCount = s.freeCount := by
  simp [playStart]

@[simp] theorem ignoreCue_frame (s : State) (src : CueSource) (n : Option (Fin 4)) :
    (s.ignoreCue src n).pending = s.pending ∧ (s.ignoreCue src n).spc = s.spc ∧ (s.ignoreCue src n).up = s.up ∧
    (s.ignoreCue src n).aq = s.aq ∧ (s.ignoreCue src n).jc = s.jc ∧ (s.ignoreCue src n).re = s.re ∧
    (s.ignoreCue src n).ll = s.ll ∧ (s.ignoreCue src n).mm = s.mm ∧ (s.ignoreCue src n).ct = s.ct ∧
    (s.ignoreCue src n).pu = s.pu ∧ (s.ignoreCue src n).mp = s.mp ∧ (s.ignoreCue src n).ru = s.ru ∧
    (s.ignoreCue src n).memory = s.memory ∧ (s.ignoreCue src n).freeCount = s.freeCount := by
  simp [ignoreCue]

@[simp] theorem cueInIdle_frame (s : State) (src : CueSource) (n : Fin 4) :
    (s.cueInIdle src n).pending = s.pending ∧ (s.cueInIdle src n).up = s.up ∧ (s.cueInIdle src n).aq = s.aq ∧
    (s.cueInIdle src n).re = s.re ∧ (s.cueInIdle src n).ll = s.ll ∧ (s.cueInIdle src n).mm = s.mm ∧
    (s.cueInIdle src n).ct = s.ct ∧ (s.cueInIdle src n).pu = s.pu ∧ (s.cueInIdle src n).memory = s.memory ∧
    (s.cueInIdle src n).freeCount = s.freeCount := by
  unfold cueInIdle
  (repeat' split) <;> simp

@[simp] theorem keepCue_frame (s : State) (n : Fin 4) :
    (s.keepCue n).pending = s.pending ∧ (s.keepCue n).up = s.up ∧ (s.keepCue n).aq = s.aq ∧ (s.keepCue n).jc = s.jc ∧
    (s.keepCue n).re = s.re ∧ (s.keepCue n).ll = s.ll ∧ (s.keepCue n).mm = s.mm ∧ (s.keepCue n).ct = s.ct ∧
    (s.keepCue n).pu = s.pu ∧ (s.keepCue n).mp = s.mp ∧ (s.keepCue n).memory = s.memory ∧
    (s.keepCue n).freeCount = s.freeCount := by
  simp [keepCue]

@[simp] theorem takeCue_frame (s : State) (src : CueSource) (n : Fin 4) :
    (s.takeCue src n).pending = s.pending ∧ (s.takeCue src n).up = s.up ∧ (s.takeCue src n).aq = s.aq ∧
    (s.takeCue src n).re = s.re ∧ (s.takeCue src n).ll = s.ll ∧ (s.takeCue src n).mm = s.mm ∧
    (s.takeCue src n).ct = s.ct ∧ (s.takeCue src n).pu = s.pu ∧ (s.takeCue src n).memory = s.memory ∧
    (s.takeCue src n).freeCount = s.freeCount := by
  unfold takeCue
  (repeat' split) <;> simp

@[simp] theorem servePending_frame (s : State) :
    s.servePending.pending = s.pending ∧ s.servePending.up = s.up ∧ s.servePending.aq = s.aq ∧
    s.servePending.ll = s.ll ∧ s.servePending.mm = s.mm ∧ s.servePending.ct = s.ct ∧ s.servePending.pu = s.pu ∧
    s.servePending.memory = s.memory ∧ s.servePending.freeCount = s.freeCount := by
  unfold servePending
  (repeat' split) <;> simp

@[simp] theorem rpIdle_frame (s : State) :
    s.rpIdle.pending = s.pending ∧ s.rpIdle.up = s.up ∧ s.rpIdle.aq = s.aq ∧ s.rpIdle.ll = s.ll ∧ s.rpIdle.ct = s.ct ∧
    s.rpIdle.pu = s.pu ∧ s.rpIdle.memory = s.memory ∧ s.rpIdle.freeCount = s.freeCount := by
  unfold rpIdle
  dsimp only
  (repeat' split) <;> simp

@[simp] theorem releaseDrawn_frame (s : State) :
    s.releaseDrawn.pending = s.pending ∧ s.releaseDrawn.spc = s.spc ∧ s.releaseDrawn.up = s.up ∧
    s.releaseDrawn.aq = s.aq ∧ s.releaseDrawn.re = s.re ∧ s.releaseDrawn.ll = s.ll ∧ s.releaseDrawn.mm = s.mm ∧
    s.releaseDrawn.rp = s.rp ∧ s.releaseDrawn.ct = s.ct ∧ s.releaseDrawn.mp = s.mp ∧ s.releaseDrawn.ru = s.ru ∧
    s.releaseDrawn.memory = s.memory ∧ s.releaseDrawn.freeCount = s.freeCount := by
  simp [releaseDrawn]

@[simp] theorem dropDrawn_frame (s : State) (canvas : Addr) :
    (s.dropDrawn canvas).pending = s.pending ∧ (s.dropDrawn canvas).spc = s.spc ∧ (s.dropDrawn canvas).re = s.re ∧
    (s.dropDrawn canvas).ll = s.ll ∧ (s.dropDrawn canvas).mm = s.mm ∧ (s.dropDrawn canvas).rp = s.rp ∧
    (s.dropDrawn canvas).ct = s.ct ∧ (s.dropDrawn canvas).mp = s.mp ∧ (s.dropDrawn canvas).memory = s.memory ∧
    (s.dropDrawn canvas).freeCount = s.freeCount := by
  simp [dropDrawn]

@[simp] theorem recheckDrawn_frame (s : State) (ok : Bool) :
    (s.recheckDrawn ok).pending = s.pending ∧ (s.recheckDrawn ok).spc = s.spc ∧ (s.recheckDrawn ok).re = s.re ∧
    (s.recheckDrawn ok).ll = s.ll ∧ (s.recheckDrawn ok).mm = s.mm ∧ (s.recheckDrawn ok).rp = s.rp ∧
    (s.recheckDrawn ok).ct = s.ct ∧ (s.recheckDrawn ok).mp = s.mp ∧ (s.recheckDrawn ok).memory = s.memory ∧
    (s.recheckDrawn ok).freeCount = s.freeCount := by
  unfold recheckDrawn
  (repeat' split) <;> simp

@[simp] theorem withdrawReel_frame (s : State) :
    s.withdrawReel.pending = s.pending ∧ s.withdrawReel.spc = s.spc ∧ s.withdrawReel.up = s.up ∧
    s.withdrawReel.aq = s.aq ∧ s.withdrawReel.re = s.re ∧ s.withdrawReel.ll = s.ll ∧ s.withdrawReel.mm = s.mm ∧
    s.withdrawReel.rp = s.rp ∧ s.withdrawReel.ru = s.ru ∧ s.withdrawReel.memory = s.memory ∧
    s.withdrawReel.freeCount = s.freeCount := by
  simp [withdrawReel]

@[simp] theorem discardReels_frame (s : State) :
    s.discardReels.pending = s.pending ∧ s.discardReels.spc = s.spc ∧ s.discardReels.re = s.re ∧
    s.discardReels.ll = s.ll ∧ s.discardReels.mm = s.mm ∧ s.discardReels.rp = s.rp ∧ s.discardReels.ct = s.ct ∧
    s.discardReels.mp = s.mp ∧ s.discardReels.memory = s.memory ∧ s.discardReels.freeCount = s.freeCount := by
  simp [discardReels]

@[simp] theorem clearHold_frame (s : State) :
    s.clearHold.pending = s.pending ∧ s.clearHold.spc = s.spc ∧ s.clearHold.up = s.up ∧ s.clearHold.aq = s.aq ∧
    s.clearHold.ll = s.ll ∧ s.clearHold.mm = s.mm ∧ s.clearHold.rp = s.rp ∧ s.clearHold.ct = s.ct ∧
    s.clearHold.pu = s.pu ∧ s.clearHold.mp = s.mp ∧ s.clearHold.ru = s.ru ∧ s.clearHold.memory = s.memory ∧
    s.clearHold.freeCount = s.freeCount := by
  simp [clearHold]

@[simp] theorem stopReel_frame (s : State) (aborted : Bool) :
    (s.stopReel aborted).pending = s.pending ∧ (s.stopReel aborted).ll = s.ll ∧
    (s.stopReel aborted).memory = s.memory ∧ (s.stopReel aborted).freeCount = s.freeCount := by
  unfold stopReel
  dsimp only
  (repeat' split) <;> simp

@[simp] theorem reelStop_frame (s : State) :
    s.reelStop.pending = s.pending ∧ s.reelStop.ll = s.ll ∧ s.reelStop.memory = s.memory := by
  unfold reelStop
  (repeat' split) <;> simp

@[simp] theorem reelAbort_frame (s : State) :
    s.reelAbort.pending = s.pending ∧ s.reelAbort.ll = s.ll ∧ s.reelAbort.memory = s.memory ∧
    s.reelAbort.freeCount = s.freeCount := by
  simp [reelAbort]

@[simp] theorem takeFirst_frame (s : State) :
    s.takeFirst.pending = s.pending ∧ s.takeFirst.spc = s.spc ∧ s.takeFirst.up = s.up ∧ s.takeFirst.aq = s.aq ∧
    s.takeFirst.ll = s.ll ∧ s.takeFirst.mm = s.mm ∧ s.takeFirst.rp = s.rp ∧ s.takeFirst.ct = s.ct ∧
    s.takeFirst.pu = s.pu ∧ s.takeFirst.memory = s.memory := by
  unfold takeFirst
  dsimp only
  (repeat' split) <;> simp

@[simp] theorem beginFrame_frame (s : State) :
    s.beginFrame.pending = s.pending ∧ s.beginFrame.ll = s.ll ∧ s.beginFrame.memory = s.memory := by
  unfold beginFrame
  dsimp only
  (repeat' split) <;> simp

@[simp] theorem lateAbort_frame (s : State) (a : Nat) :
    (s.lateAbort a).pending = s.pending ∧ (s.lateAbort a).spc = s.spc ∧ (s.lateAbort a).up = s.up ∧
    (s.lateAbort a).aq = s.aq ∧ (s.lateAbort a).jc = s.jc ∧ (s.lateAbort a).re = s.re ∧ (s.lateAbort a).ll = s.ll ∧
    (s.lateAbort a).mm = s.mm ∧ (s.lateAbort a).ct = s.ct ∧ (s.lateAbort a).pu = s.pu ∧ (s.lateAbort a).mp = s.mp ∧
    (s.lateAbort a).memory = s.memory ∧ (s.lateAbort a).freeCount = s.freeCount := by
  unfold lateAbort
  dsimp only
  (repeat' split) <;> simp

@[simp] theorem meetStop_frame (s : State) :
    s.meetStop.pending = s.pending ∧ s.meetStop.spc = s.spc ∧ s.meetStop.up = s.up ∧ s.meetStop.aq = s.aq ∧
    s.meetStop.jc = s.jc ∧ s.meetStop.re = s.re ∧ s.meetStop.ll = s.ll ∧ s.meetStop.mm = s.mm ∧ s.meetStop.ct = s.ct ∧
    s.meetStop.pu = s.pu ∧ s.meetStop.mp = s.mp ∧ s.meetStop.memory = s.memory := by
  unfold meetStop
  (repeat' split) <;> simp

@[simp] theorem sealReel_frame (s : State) :
    s.sealReel.pending = s.pending ∧ s.sealReel.spc = s.spc ∧ s.sealReel.up = s.up ∧ s.sealReel.aq = s.aq ∧
    s.sealReel.re = s.re ∧ s.sealReel.ll = s.ll ∧ s.sealReel.mm = s.mm ∧ s.sealReel.rp = s.rp ∧ s.sealReel.ct = s.ct ∧
    s.sealReel.pu = s.pu ∧ s.sealReel.mp = s.mp ∧ s.sealReel.ru = s.ru ∧ s.sealReel.memory = s.memory ∧
    s.sealReel.freeCount = s.freeCount := by
  unfold sealReel
  (repeat' split) <;> simp

@[simp] theorem advance_frame (s : State) :
    s.advance.pending = s.pending ∧ s.advance.ll = s.ll ∧ s.advance.memory = s.memory := by
  unfold advance
  dsimp only
  (repeat' split) <;> simp

@[simp] theorem endFrame_frame (s : State) :
    s.endFrame.pending = s.pending ∧ s.endFrame.ll = s.ll ∧ s.endFrame.memory = s.memory := by
  simp [endFrame]

@[simp] theorem loadPair_frame (s : State) (i : Nat) :
    (s.loadPair i).pending = s.pending ∧ (s.loadPair i).ll = s.ll ∧ (s.loadPair i).memory = s.memory := by
  unfold loadPair
  (repeat' split) <;> simp

@[simp] theorem updateDone_frame (s : State) :
    s.updateDone.pending = s.pending ∧ s.updateDone.ll = s.ll ∧ s.updateDone.memory = s.memory := by
  unfold updateDone
  (repeat' split) <;> simp

@[simp] theorem releaseReel_frame (s : State) :
    s.releaseReel.pending = s.pending ∧ s.releaseReel.spc = s.spc ∧ s.releaseReel.up = s.up ∧
    s.releaseReel.aq = s.aq ∧ s.releaseReel.re = s.re ∧ s.releaseReel.ll = s.ll ∧ s.releaseReel.mm = s.mm ∧
    s.releaseReel.rp = s.rp ∧ s.releaseReel.ct = s.ct ∧ s.releaseReel.mp = s.mp ∧ s.releaseReel.ru = s.ru ∧
    s.releaseReel.memory = s.memory ∧ s.releaseReel.freeCount = s.freeCount := by
  simp [releaseReel]

@[simp] theorem truncate_frame (s : State) :
    s.truncate.pending = s.pending ∧ s.truncate.ll = s.ll ∧ s.truncate.memory = s.memory := by
  unfold truncate
  (repeat' split) <;> simp

@[simp] theorem failReel_frame (s : State) :
    s.failReel.pending = s.pending ∧ s.failReel.ll = s.ll ∧ s.failReel.memory = s.memory := by
  simp [failReel]

@[simp] theorem recheckReel_frame (s : State) (ok : Bool) :
    (s.recheckReel ok).pending = s.pending ∧ (s.recheckReel ok).ll = s.ll ∧ (s.recheckReel ok).memory = s.memory := by
  unfold recheckReel
  (repeat' split) <;> simp

@[simp] theorem stoppedNotice_frame (s : State) :
    s.stoppedNotice.pending = s.pending ∧ s.stoppedNotice.spc = s.spc ∧ s.stoppedNotice.up = s.up ∧
    s.stoppedNotice.aq = s.aq ∧ s.stoppedNotice.jc = s.jc ∧ s.stoppedNotice.re = s.re ∧ s.stoppedNotice.ll = s.ll ∧
    s.stoppedNotice.mm = s.mm ∧ s.stoppedNotice.ct = s.ct ∧ s.stoppedNotice.pu = s.pu ∧ s.stoppedNotice.mp = s.mp ∧
    s.stoppedNotice.memory = s.memory := by
  unfold stoppedNotice
  (repeat' split) <;> simp

@[simp] theorem flipNotice_frame (s : State) :
    s.flipNotice.pending = s.pending ∧ s.flipNotice.ll = s.ll ∧ s.flipNotice.memory = s.memory := by
  unfold flipNotice
  (repeat' split) <;> simp

@[simp] theorem holdZeroNotice_frame (s : State) :
    s.holdZeroNotice.pending = s.pending ∧ s.holdZeroNotice.up = s.up ∧ s.holdZeroNotice.aq = s.aq ∧
    s.holdZeroNotice.ll = s.ll ∧ s.holdZeroNotice.ct = s.ct ∧ s.holdZeroNotice.pu = s.pu ∧
    s.holdZeroNotice.memory = s.memory ∧ s.holdZeroNotice.freeCount = s.freeCount := by
  unfold holdZeroNotice
  (repeat' split) <;> simp

@[simp] theorem retire_frame (s : State) (i : Fin 8) (b : Batch) :
    (s.retire i b).pending = s.pending ∧ (s.retire i b).ll = s.ll ∧ (s.retire i b).memory = s.memory := by
  unfold retire
  (repeat' split) <;> simp

@[simp] theorem secondPassNext_frame (s : State) :
    s.secondPassNext.pending = s.pending ∧ s.secondPassNext.ll = s.ll ∧ s.secondPassNext.memory = s.memory := by
  unfold secondPassNext
  (repeat' split) <;> simp

@[simp] theorem secondPassDone_frame (s : State) :
    s.secondPassDone.pending = s.pending ∧ s.secondPassDone.ll = s.ll ∧ s.secondPassDone.memory = s.memory := by
  simp [secondPassDone]

@[simp] theorem tellFlip_frame (s : State) (b : Batch) :
    (s.tellFlip b).pending = s.pending ∧ (s.tellFlip b).ll = s.ll ∧ (s.tellFlip b).memory = s.memory := by
  unfold tellFlip
  (repeat' split) <;> simp

@[simp] theorem flip_frame (s : State) :
    s.flip.pending = s.pending ∧ s.flip.memory = s.memory := by
  unfold flip
  (repeat' split) <;> simp

@[simp] theorem holdDown_frame (s : State) :
    s.holdDown.pending = s.pending ∧ s.holdDown.up = s.up ∧ s.holdDown.aq = s.aq ∧ s.holdDown.ll = s.ll ∧
    s.holdDown.ct = s.ct ∧ s.holdDown.pu = s.pu ∧ s.holdDown.memory = s.memory ∧ s.holdDown.freeCount = s.freeCount := by
  unfold holdDown
  (repeat' split) <;> simp

@[simp] theorem reMark_frame (s : State) :
    s.reMark.pending = s.pending ∧ s.reMark.memory = s.memory := by
  unfold reMark
  (repeat' split) <;> simp

@[simp] theorem ruMark_frame (s : State) :
    s.ruMark.pending = s.pending ∧ s.ruMark.spc = s.spc ∧ s.ruMark.up = s.up ∧ s.ruMark.aq = s.aq ∧
    s.ruMark.jc = s.jc ∧ s.ruMark.re = s.re ∧ s.ruMark.ll = s.ll ∧ s.ruMark.mm = s.mm ∧ s.ruMark.rp = s.rp ∧
    s.ruMark.ct = s.ct ∧ s.ruMark.pu = s.pu ∧ s.ruMark.mp = s.mp ∧ s.ruMark.memory = s.memory ∧
    s.ruMark.freeCount = s.freeCount := by
  unfold ruMark
  (repeat' split) <;> simp

@[simp] theorem deliverMark_frame (s : State) :
    s.deliverMark.pending = s.pending ∧ s.deliverMark.memory = s.memory := by
  simp [deliverMark]

end Sys2Proof.Machine.State
end

