-- ==== Sys2Proof/Laws/FrameCanvas.lean ====
section
/-!
SUPPORT. What each operation leaves unchanged, one lemma for each: the Journal Controller, the Canvas Translator and starts.
-/
namespace Sys2Proof.Machine.State

@[simp] theorem placed_frame (s : State) (r : Requester) :
    (s.placed r).pending = s.pending ∧ (s.placed r).ll = s.ll ∧ (s.placed r).memory = s.memory := by
  unfold placed
  (repeat' split) <;> simp

@[simp] theorem placeStored_frame (s : State) (r : Requester) (w : Staged) (v : Stored) :
    (s.placeStored r w v).pending = s.pending ∧ (s.placeStored r w v).ll = s.ll ∧
    (s.placeStored r w v).memory = s.memory := by
  unfold placeStored
  (repeat' split) <;> simp

@[simp] theorem askBase_frame (s : State) (r : Requester) (w : Staged) :
    (s.askBase r w).pending = s.pending ∧ (s.askBase r w).spc = s.spc ∧ (s.askBase r w).up = s.up ∧
    (s.askBase r w).aq = s.aq ∧ (s.askBase r w).re = s.re ∧ (s.askBase r w).ll = s.ll ∧ (s.askBase r w).mm = s.mm ∧
    (s.askBase r w).rp = s.rp ∧ (s.askBase r w).ct = s.ct ∧ (s.askBase r w).pu = s.pu ∧ (s.askBase r w).ru = s.ru ∧
    (s.askBase r w).memory = s.memory ∧ (s.askBase r w).freeCount = s.freeCount := by
  simp [askBase]

@[simp] theorem combineWith_frame (s : State) (r : Requester) (w : Staged) (base : Stored) :
    (s.combineWith r w base).pending = s.pending ∧ (s.combineWith r w base).ll = s.ll ∧
    (s.combineWith r w base).memory = s.memory := by
  unfold combineWith
  (repeat' split) <;> simp

@[simp] theorem place_frame (s : State) (r : Requester) (w : Staged) :
    (s.place r w).pending = s.pending ∧ (s.place r w).ll = s.ll ∧ (s.place r w).memory = s.memory := by
  unfold place
  (repeat' split) <;> simp

@[simp] theorem grantEntry_frame (s : State) (i : Fin 8) (w : Staged) :
    (s.grantEntry i w).pending = s.pending ∧ (s.grantEntry i w).spc = s.spc ∧ (s.grantEntry i w).up = s.up ∧
    (s.grantEntry i w).aq = s.aq ∧ (s.grantEntry i w).re = s.re ∧ (s.grantEntry i w).ll = s.ll ∧
    (s.grantEntry i w).mm = s.mm ∧ (s.grantEntry i w).rp = s.rp ∧ (s.grantEntry i w).ct = s.ct ∧
    (s.grantEntry i w).pu = s.pu ∧ (s.grantEntry i w).mp = s.mp ∧ (s.grantEntry i w).memory = s.memory ∧
    (s.grantEntry i w).freeCount = s.freeCount := by
  unfold grantEntry
  dsimp only
  (repeat' split) <;> simp

@[simp] theorem waitEntry_frame (s : State) (r : Requester) (w : Staged) :
    (s.waitEntry r w).pending = s.pending ∧ (s.waitEntry r w).spc = s.spc ∧ (s.waitEntry r w).up = s.up ∧
    (s.waitEntry r w).aq = s.aq ∧ (s.waitEntry r w).re = s.re ∧ (s.waitEntry r w).ll = s.ll ∧
    (s.waitEntry r w).mm = s.mm ∧ (s.waitEntry r w).rp = s.rp ∧ (s.waitEntry r w).ct = s.ct ∧
    (s.waitEntry r w).pu = s.pu ∧ (s.waitEntry r w).mp = s.mp ∧ (s.waitEntry r w).ru = s.ru ∧
    (s.waitEntry r w).memory = s.memory ∧ (s.waitEntry r w).freeCount = s.freeCount := by
  simp [waitEntry]

@[simp] theorem failEntry_frame (s : State) (r : Requester) (w : Staged) :
    (s.failEntry r w).pending = s.pending ∧ (s.failEntry r w).ll = s.ll ∧ (s.failEntry r w).memory = s.memory := by
  unfold failEntry
  (repeat' split) <;> simp

@[simp] theorem stageEntry_frame (s : State) (r : Requester) (w : Staged) :
    (s.stageEntry r w).pending = s.pending ∧ (s.stageEntry r w).ll = s.ll ∧ (s.stageEntry r w).memory = s.memory := by
  unfold stageEntry
  (repeat' split) <;> simp

@[simp] theorem openBatch_frame (s : State) (o : Origin) (hold : Nat) :
    (s.openBatch o hold).pending = s.pending ∧ (s.openBatch o hold).spc = s.spc ∧ (s.openBatch o hold).up = s.up ∧
    (s.openBatch o hold).aq = s.aq ∧ (s.openBatch o hold).re = s.re ∧ (s.openBatch o hold).ll = s.ll ∧
    (s.openBatch o hold).mm = s.mm ∧ (s.openBatch o hold).rp = s.rp ∧ (s.openBatch o hold).ct = s.ct ∧
    (s.openBatch o hold).pu = s.pu ∧ (s.openBatch o hold).mp = s.mp ∧ (s.openBatch o hold).ru = s.ru ∧
    (s.openBatch o hold).memory = s.memory ∧ (s.openBatch o hold).freeCount = s.freeCount := by
  unfold openBatch
  (repeat' split) <;> simp

@[simp] theorem stageDrawn_frame (s : State) (w : Staged) :
    (s.stageDrawn w).pending = s.pending ∧ (s.stageDrawn w).ll = s.ll ∧ (s.stageDrawn w).memory = s.memory := by
  unfold stageDrawn
  dsimp only
  (repeat' split) <;> simp

@[simp] theorem stage_frame (s : State) (r : Requester) (w : Staged) :
    (s.stage r w).pending = s.pending ∧ (s.stage r w).ll = s.ll ∧ (s.stage r w).memory = s.memory := by
  unfold stage
  (repeat' split) <;> simp

@[simp] theorem openReelBatch_frame (s : State) (o : ReelOpen) :
    (s.openReelBatch o).pending = s.pending ∧ (s.openReelBatch o).ll = s.ll ∧ (s.openReelBatch o).memory = s.memory := by
  simp [openReelBatch]

@[simp] theorem askReelBatch_frame (s : State) (o : ReelOpen) :
    (s.askReelBatch o).pending = s.pending ∧ (s.askReelBatch o).ll = s.ll ∧ (s.askReelBatch o).memory = s.memory := by
  unfold askReelBatch
  (repeat' split) <;> simp

@[simp] theorem baseDone_frame (s : State) (r : Requester) (d : Delivered) (word : WordAddr) :
    (s.baseDone r d word).pending = s.pending ∧ (s.baseDone r d word).ll = s.ll ∧
    (s.baseDone r d word).memory = s.memory := by
  unfold baseDone
  (repeat' split) <;> simp

@[simp] theorem readBackFor_frame (s : State) (order : BitVec 3) (f : Nat) (canvas : Addr) :
    (s.readBackFor order f canvas).pending = s.pending ∧ (s.readBackFor order f canvas).spc = s.spc ∧
    (s.readBackFor order f canvas).re = s.re ∧ (s.readBackFor order f canvas).ll = s.ll ∧
    (s.readBackFor order f canvas).mm = s.mm ∧ (s.readBackFor order f canvas).rp = s.rp ∧
    (s.readBackFor order f canvas).ct = s.ct ∧ (s.readBackFor order f canvas).pu = s.pu ∧
    (s.readBackFor order f canvas).ru = s.ru ∧ (s.readBackFor order f canvas).memory = s.memory ∧
    (s.readBackFor order f canvas).freeCount = s.freeCount := by
  unfold readBackFor
  (repeat' split) <;> simp

@[simp] theorem readBackDone_frame (s : State) (d : Delivered) :
    (s.readBackDone d).pending = s.pending ∧ (s.readBackDone d).spc = s.spc ∧ (s.readBackDone d).re = s.re ∧
    (s.readBackDone d).ll = s.ll ∧ (s.readBackDone d).mm = s.mm ∧ (s.readBackDone d).rp = s.rp ∧
    (s.readBackDone d).ct = s.ct ∧ (s.readBackDone d).pu = s.pu ∧ (s.readBackDone d).mp = s.mp ∧
    (s.readBackDone d).memory = s.memory ∧ (s.readBackDone d).freeCount = s.freeCount := by
  unfold readBackDone
  (repeat' split) <;> simp

@[simp] theorem sealDrawn_frame (s : State) (x : Word) :
    (s.sealDrawn x).pending = s.pending ∧ (s.sealDrawn x).spc = s.spc ∧ (s.sealDrawn x).up = s.up ∧
    (s.sealDrawn x).aq = s.aq ∧ (s.sealDrawn x).re = s.re ∧ (s.sealDrawn x).ll = s.ll ∧ (s.sealDrawn x).mm = s.mm ∧
    (s.sealDrawn x).rp = s.rp ∧ (s.sealDrawn x).ct = s.ct ∧ (s.sealDrawn x).pu = s.pu ∧ (s.sealDrawn x).mp = s.mp ∧
    (s.sealDrawn x).ru = s.ru ∧ (s.sealDrawn x).memory = s.memory ∧ (s.sealDrawn x).freeCount = s.freeCount := by
  unfold sealDrawn
  (repeat' split) <;> simp

@[simp] theorem actSeal_frame (s : State) (x : Word) :
    (s.actSeal x).pending = s.pending ∧ (s.actSeal x).ll = s.ll ∧ (s.actSeal x).memory = s.memory := by
  unfold actSeal
  (repeat' split) <;> simp

@[simp] theorem ctFree_frame (s : State) :
    s.ctFree.pending = s.pending ∧ s.ctFree.spc = s.spc ∧ s.ctFree.up = s.up ∧ s.ctFree.aq = s.aq ∧
    s.ctFree.jc = s.jc ∧ s.ctFree.re = s.re ∧ s.ctFree.ll = s.ll ∧ s.ctFree.mm = s.mm ∧ s.ctFree.rp = s.rp ∧
    s.ctFree.pu = s.pu ∧ s.ctFree.mp = s.mp ∧ s.ctFree.ru = s.ru ∧ s.ctFree.memory = s.memory ∧
    s.ctFree.freeCount = s.freeCount := by
  simp [ctFree]

@[simp] theorem answerFault_frame (s : State) (k : ReqKind) :
    (s.answerFault k).pending = s.pending ∧ (s.answerFault k).ll = s.ll ∧ (s.answerFault k).memory = s.memory := by
  unfold answerFault
  (repeat' split) <;> simp

@[simp] theorem giveUpdate_frame (s : State) (i : Nat) (a v : Word) :
    (s.giveUpdate i a v).pending = s.pending ∧ (s.giveUpdate i a v).spc = s.spc ∧ (s.giveUpdate i a v).up = s.up ∧
    (s.giveUpdate i a v).aq = s.aq ∧ (s.giveUpdate i a v).jc = s.jc ∧ (s.giveUpdate i a v).re = s.re ∧
    (s.giveUpdate i a v).ll = s.ll ∧ (s.giveUpdate i a v).mm = s.mm ∧ (s.giveUpdate i a v).pu = s.pu ∧
    (s.giveUpdate i a v).mp = s.mp ∧ (s.giveUpdate i a v).ru = s.ru ∧ (s.giveUpdate i a v).memory = s.memory ∧
    (s.giveUpdate i a v).freeCount = s.freeCount := by
  simp [giveUpdate]

@[simp] theorem ctEndDiscarded_frame (s : State) :
    s.ctEndDiscarded.pending = s.pending ∧ s.ctEndDiscarded.spc = s.spc ∧ s.ctEndDiscarded.up = s.up ∧
    s.ctEndDiscarded.aq = s.aq ∧ s.ctEndDiscarded.jc = s.jc ∧ s.ctEndDiscarded.re = s.re ∧
    s.ctEndDiscarded.ll = s.ll ∧ s.ctEndDiscarded.mm = s.mm ∧ s.ctEndDiscarded.pu = s.pu ∧
    s.ctEndDiscarded.mp = s.mp ∧ s.ctEndDiscarded.ru = s.ru ∧ s.ctEndDiscarded.memory = s.memory ∧
    s.ctEndDiscarded.freeCount = s.freeCount := by
  unfold ctEndDiscarded
  (repeat' split) <;> simp

@[simp] theorem ctFault_frame (s : State) (q : CtReq) (k : FaultKind) :
    (s.ctFault q k).pending = s.pending ∧ (s.ctFault q k).ll = s.ll ∧ (s.ctFault q k).memory = s.memory := by
  unfold ctFault
  (repeat' split) <;> simp

@[simp] theorem transform_frame (s : State) (r : Requester) (q : CtReq) (t : Translation) :
    (s.transform r q t).pending = s.pending ∧ (s.transform r q t).ll = s.ll ∧ (s.transform r q t).memory = s.memory := by
  unfold transform
  (repeat' split) <;> simp

@[simp] theorem ctHand_frame (s : State) (q : CtReq) (t : Translation) :
    (s.ctHand q t).pending = s.pending ∧ (s.ctHand q t).ll = s.ll ∧ (s.ctHand q t).memory = s.memory := by
  unfold ctHand
  (repeat' split) <;> simp

@[simp] theorem ctFinish_frame (s : State) (q : CtReq) (r : TrResult) :
    (s.ctFinish q r).pending = s.pending ∧ (s.ctFinish q r).ll = s.ll ∧ (s.ctFinish q r).memory = s.memory := by
  unfold ctFinish
  (repeat' split) <;> simp

@[simp] theorem walkRead_frame (s : State) (k : Walk) (step : WalkStep) (o : Owner) (w : WordAddr) :
    (s.walkRead k step o w).pending = s.pending ∧ (s.walkRead k step o w).spc = s.spc ∧
    (s.walkRead k step o w).up = s.up ∧ (s.walkRead k step o w).aq = s.aq ∧ (s.walkRead k step o w).jc = s.jc ∧
    (s.walkRead k step o w).re = s.re ∧ (s.walkRead k step o w).ll = s.ll ∧ (s.walkRead k step o w).mm = s.mm ∧
    (s.walkRead k step o w).rp = s.rp ∧ (s.walkRead k step o w).pu = s.pu ∧ (s.walkRead k step o w).ru = s.ru ∧
    (s.walkRead k step o w).memory = s.memory ∧ (s.walkRead k step o w).freeCount = s.freeCount := by
  simp [walkRead]

@[simp] theorem walkStart_frame (s : State) (q : CtReq) :
    (s.walkStart q).pending = s.pending ∧ (s.walkStart q).ll = s.ll ∧ (s.walkStart q).memory = s.memory := by
  unfold walkStart
  dsimp only
  (repeat' split) <;> simp

@[simp] theorem walkSegment_frame (s : State) (q : CtReq) (k : Walk) :
    (s.walkSegment q k).pending = s.pending ∧ (s.walkSegment q k).ll = s.ll ∧ (s.walkSegment q k).memory = s.memory := by
  unfold walkSegment
  dsimp only
  (repeat' split) <;> simp

@[simp] theorem walkFill_frame (s : State) (q : CtReq) (k : Walk) :
    (s.walkFill q k).pending = s.pending ∧ (s.walkFill q k).spc = s.spc ∧ (s.walkFill q k).up = s.up ∧
    (s.walkFill q k).aq = s.aq ∧ (s.walkFill q k).jc = s.jc ∧ (s.walkFill q k).re = s.re ∧
    (s.walkFill q k).ll = s.ll ∧ (s.walkFill q k).mm = s.mm ∧ (s.walkFill q k).rp = s.rp ∧
    (s.walkFill q k).pu = s.pu ∧ (s.walkFill q k).mp = s.mp ∧ (s.walkFill q k).ru = s.ru ∧
    (s.walkFill q k).memory = s.memory ∧ (s.walkFill q k).freeCount = s.freeCount := by
  unfold walkFill
  (repeat' split) <;> simp

@[simp] theorem walkComplete_frame (s : State) (q : CtReq) (k : Walk) (r : TrResult) :
    (s.walkComplete q k r).pending = s.pending ∧ (s.walkComplete q k r).ll = s.ll ∧
    (s.walkComplete q k r).memory = s.memory := by
  simp [walkComplete]

@[simp] theorem walkDecide_frame (s : State) (q : CtReq) (k : Walk) (r : TrResult) :
    (s.walkDecide q k r).pending = s.pending ∧ (s.walkDecide q k r).ll = s.ll ∧
    (s.walkDecide q k r).memory = s.memory := by
  unfold walkDecide
  dsimp only
  (repeat' split) <;> simp

@[simp] theorem walkCheck_frame (s : State) (q : CtReq) (k : Walk) :
    (s.walkCheck q k).pending = s.pending ∧ (s.walkCheck q k).ll = s.ll ∧ (s.walkCheck q k).memory = s.memory := by
  unfold walkCheck
  (repeat' split) <;> simp

@[simp] theorem walkDirectory_frame (s : State) (q : CtReq) (k : Walk) :
    (s.walkDirectory q k).pending = s.pending ∧ (s.walkDirectory q k).ll = s.ll ∧
    (s.walkDirectory q k).memory = s.memory := by
  unfold walkDirectory
  (repeat' split) <;> simp

@[simp] theorem walkEntry_frame (s : State) (q : CtReq) (k : Walk) :
    (s.walkEntry q k).pending = s.pending ∧ (s.walkEntry q k).ll = s.ll ∧ (s.walkEntry q k).memory = s.memory := by
  unfold walkEntry
  (repeat' split) <;> simp

@[simp] theorem walkReadDone_frame (s : State) (q : CtReq) (k : Walk) (d : Delivered) :
    (s.walkReadDone q k d).pending = s.pending ∧ (s.walkReadDone q k d).ll = s.ll ∧
    (s.walkReadDone q k d).memory = s.memory := by
  unfold walkReadDone
  (repeat' split) <;> simp

@[simp] theorem walkFlagDone_frame (s : State) (q : CtReq) (k : Walk) :
    (s.walkFlagDone q k).pending = s.pending ∧ (s.walkFlagDone q k).ll = s.ll ∧
    (s.walkFlagDone q k).memory = s.memory := by
  unfold walkFlagDone
  (repeat' split) <;> simp

@[simp] theorem hitPass_frame (s : State) (q : CtReq) (h : Hit) (t : Translation) :
    (s.hitPass q h t).pending = s.pending ∧ (s.hitPass q h t).ll = s.ll ∧ (s.hitPass q h t).memory = s.memory := by
  unfold hitPass
  (repeat' split) <;> simp

@[simp] theorem hitCheck_frame (s : State) (q : CtReq) (h : Hit) :
    (s.hitCheck q h).pending = s.pending ∧ (s.hitCheck q h).ll = s.ll ∧ (s.hitCheck q h).memory = s.memory := by
  unfold hitCheck
  (repeat' split) <;> simp

@[simp] theorem hitStart_frame (s : State) (q : CtReq) (e : CacheEntry) :
    (s.hitStart q e).pending = s.pending ∧ (s.hitStart q e).ll = s.ll ∧ (s.hitStart q e).memory = s.memory := by
  simp [hitStart]

@[simp] theorem ctBegin_frame (s : State) (q : CtReq) :
    (s.ctBegin q).pending = s.pending ∧ (s.ctBegin q).ll = s.ll ∧ (s.ctBegin q).memory = s.memory := by
  unfold ctBegin
  (repeat' split) <;> simp

@[simp] theorem answerQuestion_frame (s : State) :
    s.answerQuestion.pending = s.pending ∧ s.answerQuestion.ll = s.ll ∧ s.answerQuestion.memory = s.memory := by
  unfold answerQuestion
  (repeat' split) <;> simp

@[simp] theorem hostWriteWalk_frame (s : State) (q : CtReq) (k : Walk) (w : WordAddr) :
    (s.hostWriteWalk q k w).pending = s.pending ∧ (s.hostWriteWalk q k w).ll = s.ll ∧
    (s.hostWriteWalk q k w).memory = s.memory := by
  unfold hostWriteWalk
  (repeat' split) <;> simp

@[simp] theorem hostWriteHit_frame (s : State) (q : CtReq) (h : Hit) (w : WordAddr) :
    (s.hostWriteHit q h w).pending = s.pending ∧ (s.hostWriteHit q h w).ll = s.ll ∧
    (s.hostWriteHit q h w).memory = s.memory := by
  unfold hostWriteHit
  (repeat' split) <;> simp

@[simp] theorem ctHostWrite_frame (s : State) (w : WordAddr) :
    (s.ctHostWrite w).pending = s.pending ∧ (s.ctHostWrite w).ll = s.ll ∧ (s.ctHostWrite w).memory = s.memory := by
  unfold ctHostWrite
  dsimp only
  (repeat' split) <;> simp

@[simp] theorem ctTake_frame (s : State) (r : Requester) (q : CtReq) :
    (s.ctTake r q).pending = s.pending ∧ (s.ctTake r q).ll = s.ll ∧ (s.ctTake r q).memory = s.memory := by
  simp [ctTake]

@[simp] theorem askRecord_frame (s : State) (l : Load) (a : Nat) :
    (s.askRecord l a).pending = s.pending ∧ (s.askRecord l a).spc = s.spc ∧ (s.askRecord l a).up = s.up ∧
    (s.askRecord l a).aq = s.aq ∧ (s.askRecord l a).jc = s.jc ∧ (s.askRecord l a).re = s.re ∧
    (s.askRecord l a).ll = s.ll ∧ (s.askRecord l a).mm = s.mm ∧ (s.askRecord l a).rp = s.rp ∧
    (s.askRecord l a).ct = s.ct ∧ (s.askRecord l a).ru = s.ru ∧ (s.askRecord l a).memory = s.memory ∧
    (s.askRecord l a).freeCount = s.freeCount := by
  simp [askRecord]

@[simp] theorem puRun_frame (s : State) :
    s.puRun.pending = s.pending ∧ s.puRun.spc = s.spc ∧ s.puRun.up = s.up ∧ s.puRun.aq = s.aq ∧ s.puRun.jc = s.jc ∧
    s.puRun.re = s.re ∧ s.puRun.ll = s.ll ∧ s.puRun.mm = s.mm ∧ s.puRun.rp = s.rp ∧ s.puRun.ct = s.ct ∧
    s.puRun.ru = s.ru ∧ s.puRun.memory = s.memory ∧ s.puRun.freeCount = s.freeCount := by
  unfold puRun
  (repeat' split) <;> simp

@[simp] theorem startBlanking_frame (s : State) :
    s.startBlanking.pending = s.pending ∧ s.startBlanking.up = s.up ∧ s.startBlanking.aq = s.aq ∧
    s.startBlanking.jc = s.jc ∧ s.startBlanking.mm = s.mm ∧ s.startBlanking.rp = s.rp ∧ s.startBlanking.ct = s.ct ∧
    s.startBlanking.pu = s.pu ∧ s.startBlanking.ru = s.ru ∧ s.startBlanking.memory = s.memory ∧
    s.startBlanking.freeCount = s.freeCount := by
  simp [startBlanking]

@[simp] theorem afterLoads_frame (s : State) :
    s.afterLoads.pending = s.pending ∧ s.afterLoads.up = s.up ∧ s.afterLoads.aq = s.aq ∧ s.afterLoads.jc = s.jc ∧
    s.afterLoads.mm = s.mm ∧ s.afterLoads.rp = s.rp ∧ s.afterLoads.ct = s.ct ∧ s.afterLoads.ru = s.ru ∧
    s.afterLoads.memory = s.memory ∧ s.afterLoads.freeCount = s.freeCount := by
  unfold afterLoads
  (repeat' split) <;> simp

@[simp] theorem profileReadDone_frame (s : State) (d : Delivered) :
    (s.profileReadDone d).pending = s.pending ∧ (s.profileReadDone d).memory = s.memory := by
  unfold profileReadDone
  (repeat' split) <;> simp

@[simp] theorem actReload_frame (s : State) (x : Word) :
    (s.actReload x).pending = s.pending ∧ (s.actReload x).ll = s.ll ∧ (s.actReload x).memory = s.memory := by
  simp [actReload]

@[simp] theorem blankingDone_frame (s : State) :
    s.blankingDone.pending = s.pending ∧ s.blankingDone.spc = s.spc ∧ s.blankingDone.up = s.up ∧
    s.blankingDone.aq = s.aq ∧ s.blankingDone.jc = s.jc ∧ s.blankingDone.ll = s.ll ∧ s.blankingDone.mm = s.mm ∧
    s.blankingDone.rp = s.rp ∧ s.blankingDone.ct = s.ct ∧ s.blankingDone.pu = s.pu ∧ s.blankingDone.ru = s.ru ∧
    s.blankingDone.memory = s.memory ∧ s.blankingDone.freeCount = s.freeCount := by
  unfold blankingDone
  dsimp only
  (repeat' split) <;> simp

@[simp] theorem takeRoot_frame (s : State) (r : Root) :
    (s.takeRoot r).pending = s.pending ∧ (s.takeRoot r).spc = s.spc ∧ (s.takeRoot r).aq = s.aq ∧
    (s.takeRoot r).memory = s.memory ∧ (s.takeRoot r).freeCount = s.freeCount := by
  unfold takeRoot
  (repeat' split) <;> simp

@[simp] theorem loadProfiles_frame (s : State) :
    s.loadProfiles.pending = s.pending ∧ s.loadProfiles.up = s.up ∧ s.loadProfiles.aq = s.aq ∧
    s.loadProfiles.jc = s.jc ∧ s.loadProfiles.mm = s.mm ∧ s.loadProfiles.rp = s.rp ∧ s.loadProfiles.ct = s.ct ∧
    s.loadProfiles.ru = s.ru ∧ s.loadProfiles.memory = s.memory ∧ s.loadProfiles.freeCount = s.freeCount := by
  simp [loadProfiles]

@[simp] theorem rootFail_frame (s : State) (code : Nat) (a : Addr) :
    (s.rootFail code a).pending = s.pending ∧ (s.rootFail code a).spc = s.spc ∧ (s.rootFail code a).up = s.up ∧
    (s.rootFail code a).aq = s.aq ∧ (s.rootFail code a).jc = s.jc ∧ (s.rootFail code a).re = s.re ∧
    (s.rootFail code a).ll = s.ll ∧ (s.rootFail code a).mm = s.mm ∧ (s.rootFail code a).rp = s.rp ∧
    (s.rootFail code a).ct = s.ct ∧ (s.rootFail code a).pu = s.pu ∧ (s.rootFail code a).memory = s.memory ∧
    (s.rootFail code a).freeCount = s.freeCount := by
  simp [rootFail]

@[simp] theorem rootCheck_frame (s : State) :
    s.rootCheck.pending = s.pending ∧ s.rootCheck.aq = s.aq ∧ s.rootCheck.memory = s.memory := by
  unfold rootCheck
  dsimp only
  (repeat' split) <;> simp

@[simp] theorem askRoot_frame (s : State) :
    s.askRoot.pending = s.pending ∧ s.askRoot.spc = s.spc ∧ s.askRoot.up = s.up ∧ s.askRoot.aq = s.aq ∧
    s.askRoot.jc = s.jc ∧ s.askRoot.re = s.re ∧ s.askRoot.ll = s.ll ∧ s.askRoot.mm = s.mm ∧ s.askRoot.rp = s.rp ∧
    s.askRoot.ct = s.ct ∧ s.askRoot.pu = s.pu ∧ s.askRoot.ru = s.ru ∧ s.askRoot.memory = s.memory ∧
    s.askRoot.freeCount = s.freeCount := by
  simp [askRoot]

@[simp] theorem rootReadDone_frame (s : State) (d : Delivered) (word : WordAddr) :
    (s.rootReadDone d word).pending = s.pending ∧ (s.rootReadDone d word).aq = s.aq ∧
    (s.rootReadDone d word).memory = s.memory := by
  unfold rootReadDone
  dsimp only
  (repeat' split) <;> simp

@[simp] theorem enterRunning_frame (s : State) :
    s.enterRunning.pending = s.pending ∧ s.enterRunning.up = s.up ∧ s.enterRunning.aq = s.aq ∧
    s.enterRunning.ll = s.ll ∧ s.enterRunning.ct = s.ct ∧ s.enterRunning.pu = s.pu ∧
    s.enterRunning.memory = s.memory ∧ s.enterRunning.freeCount = s.freeCount := by
  unfold enterRunning
  dsimp only
  (repeat' split) <;> simp

@[simp] theorem enterPassive_frame (s : State) :
    s.enterPassive.pending = s.pending ∧ s.enterPassive.aq = s.aq ∧ s.enterPassive.jc = s.jc ∧
    s.enterPassive.re = s.re ∧ s.enterPassive.ll = s.ll ∧ s.enterPassive.ct = s.ct ∧ s.enterPassive.pu = s.pu ∧
    s.enterPassive.memory = s.memory := by
  simp [enterPassive]

@[simp] theorem handWaiting_frame (s : State) :
    s.handWaiting.pending = s.pending ∧ s.handWaiting.spc = s.spc ∧ s.handWaiting.aq = s.aq ∧
    s.handWaiting.jc = s.jc ∧ s.handWaiting.re = s.re ∧ s.handWaiting.ll = s.ll ∧ s.handWaiting.mm = s.mm ∧
    s.handWaiting.rp = s.rp ∧ s.handWaiting.ct = s.ct ∧ s.handWaiting.pu = s.pu ∧ s.handWaiting.ru = s.ru ∧
    s.handWaiting.memory = s.memory ∧ s.handWaiting.freeCount = s.freeCount := by
  unfold handWaiting
  (repeat' split) <;> simp

@[simp] theorem acceptRestart_frame (s : State) :
    s.acceptRestart.pending = s.pending ∧ s.acceptRestart.aq = s.aq ∧ s.acceptRestart.re = s.re ∧
    s.acceptRestart.ll = s.ll ∧ s.acceptRestart.memory = s.memory := by
  simp [acceptRestart]

@[simp] theorem actRestart_frame (s : State) :
    s.actRestart.pending = s.pending ∧ s.actRestart.aq = s.aq ∧ s.actRestart.re = s.re ∧ s.actRestart.ll = s.ll ∧
    s.actRestart.memory = s.memory := by
  unfold actRestart
  (repeat' split) <;> simp

end Sys2Proof.Machine.State
end

