-- ==== Sys2Proof/Laws/FrameCommand.lean ====
section
/-!
SUPPORT. What each operation leaves unchanged, one lemma for each: what the commands are made of.
-/
namespace Sys2Proof.Machine.State

@[simp] theorem assertReset_frame (s : State) :
    s.assertReset.pending = s.pending ∧ s.assertReset.memory = s.memory := by
  unfold assertReset
  (repeat' split) <;> simp

@[simp] theorem releaseReset_frame (s : State) :
    s.releaseReset.pending = s.pending ∧ s.releaseReset.up = s.up ∧ s.releaseReset.aq = s.aq ∧
    s.releaseReset.jc = s.jc ∧ s.releaseReset.re = s.re ∧ s.releaseReset.ll = s.ll ∧ s.releaseReset.ct = s.ct ∧
    s.releaseReset.pu = s.pu ∧ s.releaseReset.memory = s.memory ∧ s.releaseReset.freeCount = s.freeCount := by
  simp [releaseReset]

@[simp] theorem startResultDone_frame (s : State) (o : Owner) :
    (s.startResultDone o).pending = s.pending ∧ (s.startResultDone o).aq = s.aq ∧ (s.startResultDone o).ll = s.ll ∧
    (s.startResultDone o).ct = s.ct ∧ (s.startResultDone o).pu = s.pu ∧ (s.startResultDone o).memory = s.memory := by
  unfold startResultDone
  (repeat' split) <;> simp

@[simp] theorem refuseArrival_frame (s : State) (t : HostTransfer) (k : FaultKind) :
    (s.refuseArrival t k).pending = s.pending ∧ (s.refuseArrival t k).spc = s.spc ∧ (s.refuseArrival t k).aq = s.aq ∧
    (s.refuseArrival t k).jc = s.jc ∧ (s.refuseArrival t k).re = s.re ∧ (s.refuseArrival t k).ll = s.ll ∧
    (s.refuseArrival t k).mm = s.mm ∧ (s.refuseArrival t k).rp = s.rp ∧ (s.refuseArrival t k).ct = s.ct ∧
    (s.refuseArrival t k).pu = s.pu ∧ (s.refuseArrival t k).mp = s.mp ∧ (s.refuseArrival t k).memory = s.memory ∧
    (s.refuseArrival t k).freeCount = s.freeCount := by
  simp [refuseArrival]

@[simp] theorem startHold_frame (s : State) :
    s.startHold.pending = s.pending ∧ s.startHold.spc = s.spc ∧ s.startHold.aq = s.aq ∧ s.startHold.jc = s.jc ∧
    s.startHold.re = s.re ∧ s.startHold.ll = s.ll ∧ s.startHold.mm = s.mm ∧ s.startHold.rp = s.rp ∧
    s.startHold.ct = s.ct ∧ s.startHold.pu = s.pu ∧ s.startHold.mp = s.mp ∧ s.startHold.ru = s.ru ∧
    s.startHold.memory = s.memory ∧ s.startHold.freeCount = s.freeCount := by
  simp [startHold]

@[simp] theorem waitAt_frame (s : State) (t : HostTransfer) (p : WaitPlace) :
    (s.waitAt t p).pending = s.pending ∧ (s.waitAt t p).spc = s.spc ∧ (s.waitAt t p).aq = s.aq ∧
    (s.waitAt t p).jc = s.jc ∧ (s.waitAt t p).re = s.re ∧ (s.waitAt t p).ll = s.ll ∧ (s.waitAt t p).mm = s.mm ∧
    (s.waitAt t p).rp = s.rp ∧ (s.waitAt t p).ct = s.ct ∧ (s.waitAt t p).pu = s.pu ∧ (s.waitAt t p).mp = s.mp ∧
    (s.waitAt t p).ru = s.ru ∧ (s.waitAt t p).memory = s.memory ∧ (s.waitAt t p).freeCount = s.freeCount := by
  simp [waitAt]

@[simp] theorem enqueue_frame (s : State) (t : HostTransfer) :
    (s.enqueue t).pending = s.pending ∧ (s.enqueue t).spc = s.spc ∧ (s.enqueue t).up = s.up ∧
    (s.enqueue t).jc = s.jc ∧ (s.enqueue t).re = s.re ∧ (s.enqueue t).ll = s.ll ∧ (s.enqueue t).mm = s.mm ∧
    (s.enqueue t).rp = s.rp ∧ (s.enqueue t).ct = s.ct ∧ (s.enqueue t).pu = s.pu ∧ (s.enqueue t).mp = s.mp ∧
    (s.enqueue t).ru = s.ru ∧ (s.enqueue t).memory = s.memory ∧ (s.enqueue t).freeCount = s.freeCount := by
  simp [enqueue]

@[simp] theorem accept_frame (s : State) (t : HostTransfer) :
    (s.accept t).pending = s.pending ∧ (s.accept t).spc = s.spc ∧ (s.accept t).jc = s.jc ∧ (s.accept t).re = s.re ∧
    (s.accept t).ll = s.ll ∧ (s.accept t).mm = s.mm ∧ (s.accept t).rp = s.rp ∧ (s.accept t).ct = s.ct ∧
    (s.accept t).pu = s.pu ∧ (s.accept t).mp = s.mp ∧ (s.accept t).ru = s.ru ∧ (s.accept t).memory = s.memory ∧
    (s.accept t).freeCount = s.freeCount := by
  unfold accept
  (repeat' split) <;> simp

@[simp] theorem arrive_frame (s : State) (t : HostTransfer) :
    (s.arrive t).pending = s.pending ∧ (s.arrive t).spc = s.spc ∧ (s.arrive t).jc = s.jc ∧ (s.arrive t).re = s.re ∧
    (s.arrive t).ll = s.ll ∧ (s.arrive t).mm = s.mm ∧ (s.arrive t).rp = s.rp ∧ (s.arrive t).ct = s.ct ∧
    (s.arrive t).pu = s.pu ∧ (s.arrive t).mp = s.mp ∧ (s.arrive t).memory = s.memory ∧
    (s.arrive t).freeCount = s.freeCount := by
  unfold arrive
  (repeat' split) <;> simp

@[simp] theorem arriveIn_frame (s : State) (t : HostTransfer) :
    (s.arriveIn t).pending = s.pending ∧ (s.arriveIn t).jc = s.jc ∧ (s.arriveIn t).re = s.re ∧
    (s.arriveIn t).ll = s.ll ∧ (s.arriveIn t).rp = s.rp ∧ (s.arriveIn t).ct = s.ct ∧ (s.arriveIn t).pu = s.pu ∧
    (s.arriveIn t).mp = s.mp ∧ (s.arriveIn t).memory = s.memory ∧ (s.arriveIn t).freeCount = s.freeCount := by
  unfold arriveIn
  (repeat' split) <;> simp

@[simp] theorem clearAnswer_frame (s : State) :
    s.clearAnswer.pending = s.pending ∧ s.clearAnswer.spc = s.spc ∧ s.clearAnswer.aq = s.aq ∧
    s.clearAnswer.jc = s.jc ∧ s.clearAnswer.re = s.re ∧ s.clearAnswer.ll = s.ll ∧ s.clearAnswer.mm = s.mm ∧
    s.clearAnswer.rp = s.rp ∧ s.clearAnswer.ct = s.ct ∧ s.clearAnswer.pu = s.pu ∧ s.clearAnswer.mp = s.mp ∧
    s.clearAnswer.ru = s.ru ∧ s.clearAnswer.memory = s.memory ∧ s.clearAnswer.freeCount = s.freeCount := by
  simp [clearAnswer]

@[simp] theorem dropWaiting_frame (s : State) (w : Waiting) :
    (s.dropWaiting w).pending = s.pending ∧ (s.dropWaiting w).spc = s.spc ∧ (s.dropWaiting w).up = s.up ∧
    (s.dropWaiting w).jc = s.jc ∧ (s.dropWaiting w).re = s.re ∧ (s.dropWaiting w).ll = s.ll ∧
    (s.dropWaiting w).mm = s.mm ∧ (s.dropWaiting w).rp = s.rp ∧ (s.dropWaiting w).ct = s.ct ∧
    (s.dropWaiting w).pu = s.pu ∧ (s.dropWaiting w).mp = s.mp ∧ (s.dropWaiting w).ru = s.ru ∧
    (s.dropWaiting w).memory = s.memory ∧ (s.dropWaiting w).freeCount = s.freeCount := by
  unfold dropWaiting
  (repeat' split) <;> simp

@[simp] theorem expireHold_frame (s : State) (w : Waiting) :
    (s.expireHold w).pending = s.pending ∧ (s.expireHold w).spc = s.spc ∧ (s.expireHold w).jc = s.jc ∧
    (s.expireHold w).re = s.re ∧ (s.expireHold w).ll = s.ll ∧ (s.expireHold w).mm = s.mm ∧
    (s.expireHold w).rp = s.rp ∧ (s.expireHold w).ct = s.ct ∧ (s.expireHold w).pu = s.pu ∧
    (s.expireHold w).mp = s.mp ∧ (s.expireHold w).memory = s.memory ∧ (s.expireHold w).freeCount = s.freeCount := by
  simp [expireHold]

@[simp] theorem answerCarried_frame (s : State) (f : InFlight) (d : Delivered) :
    (s.answerCarried f d).pending = s.pending ∧ (s.answerCarried f d).spc = s.spc ∧ (s.answerCarried f d).aq = s.aq ∧
    (s.answerCarried f d).jc = s.jc ∧ (s.answerCarried f d).re = s.re ∧ (s.answerCarried f d).ll = s.ll ∧
    (s.answerCarried f d).mm = s.mm ∧ (s.answerCarried f d).rp = s.rp ∧ (s.answerCarried f d).ct = s.ct ∧
    (s.answerCarried f d).pu = s.pu ∧ (s.answerCarried f d).mp = s.mp ∧ (s.answerCarried f d).ru = s.ru ∧
    (s.answerCarried f d).memory = s.memory ∧ (s.answerCarried f d).freeCount = s.freeCount := by
  unfold answerCarried
  (repeat' split) <;> simp

@[simp] theorem passiveDone_frame (s : State) (f : InFlight) (d : Delivered) :
    (s.passiveDone f d).pending = s.pending ∧ (s.passiveDone f d).aq = s.aq ∧ (s.passiveDone f d).re = s.re ∧
    (s.passiveDone f d).ll = s.ll ∧ (s.passiveDone f d).memory = s.memory := by
  unfold passiveDone
  (repeat' split) <;> simp

@[simp] theorem takePlainWrite_frame (s : State) (t : HostTransfer) :
    (s.takePlainWrite t).pending = s.pending ∧ (s.takePlainWrite t).ll = s.ll ∧
    (s.takePlainWrite t).memory = s.memory := by
  simp [takePlainWrite]

@[simp] theorem takePlainRead_frame (s : State) (t : HostTransfer) :
    (s.takePlainRead t).pending = s.pending ∧ (s.takePlainRead t).spc = s.spc ∧ (s.takePlainRead t).jc = s.jc ∧
    (s.takePlainRead t).re = s.re ∧ (s.takePlainRead t).ll = s.ll ∧ (s.takePlainRead t).mm = s.mm ∧
    (s.takePlainRead t).rp = s.rp ∧ (s.takePlainRead t).ct = s.ct ∧ (s.takePlainRead t).pu = s.pu ∧
    (s.takePlainRead t).ru = s.ru ∧ (s.takePlainRead t).memory = s.memory ∧
    (s.takePlainRead t).freeCount = s.freeCount := by
  simp [takePlainRead]

@[simp] theorem offerCanvas_frame (s : State) (k : ReqKind) (t : HostTransfer) :
    (s.offerCanvas k t).pending = s.pending ∧ (s.offerCanvas k t).spc = s.spc ∧ (s.offerCanvas k t).up = s.up ∧
    (s.offerCanvas k t).aq = s.aq ∧ (s.offerCanvas k t).jc = s.jc ∧ (s.offerCanvas k t).re = s.re ∧
    (s.offerCanvas k t).ll = s.ll ∧ (s.offerCanvas k t).mm = s.mm ∧ (s.offerCanvas k t).rp = s.rp ∧
    (s.offerCanvas k t).pu = s.pu ∧ (s.offerCanvas k t).mp = s.mp ∧ (s.offerCanvas k t).ru = s.ru ∧
    (s.offerCanvas k t).memory = s.memory ∧ (s.offerCanvas k t).freeCount = s.freeCount := by
  simp [offerCanvas]

@[simp] theorem takeCanvasWrite_frame (s : State) (t : HostTransfer) :
    (s.takeCanvasWrite t).pending = s.pending ∧ (s.takeCanvasWrite t).spc = s.spc ∧ (s.takeCanvasWrite t).up = s.up ∧
    (s.takeCanvasWrite t).jc = s.jc ∧ (s.takeCanvasWrite t).re = s.re ∧ (s.takeCanvasWrite t).ll = s.ll ∧
    (s.takeCanvasWrite t).mm = s.mm ∧ (s.takeCanvasWrite t).rp = s.rp ∧ (s.takeCanvasWrite t).pu = s.pu ∧
    (s.takeCanvasWrite t).mp = s.mp ∧ (s.takeCanvasWrite t).ru = s.ru ∧ (s.takeCanvasWrite t).memory = s.memory ∧
    (s.takeCanvasWrite t).freeCount = s.freeCount := by
  simp [takeCanvasWrite]

@[simp] theorem takeCanvasRead_frame (s : State) (t : HostTransfer) :
    (s.takeCanvasRead t).pending = s.pending ∧ (s.takeCanvasRead t).spc = s.spc ∧ (s.takeCanvasRead t).jc = s.jc ∧
    (s.takeCanvasRead t).re = s.re ∧ (s.takeCanvasRead t).ll = s.ll ∧ (s.takeCanvasRead t).mm = s.mm ∧
    (s.takeCanvasRead t).rp = s.rp ∧ (s.takeCanvasRead t).pu = s.pu ∧ (s.takeCanvasRead t).mp = s.mp ∧
    (s.takeCanvasRead t).ru = s.ru ∧ (s.takeCanvasRead t).memory = s.memory ∧
    (s.takeCanvasRead t).freeCount = s.freeCount := by
  simp [takeCanvasRead]

@[simp] theorem plainReadDone_frame (s : State) (d : Delivered) :
    (s.plainReadDone d).pending = s.pending ∧ (s.plainReadDone d).spc = s.spc ∧ (s.plainReadDone d).jc = s.jc ∧
    (s.plainReadDone d).re = s.re ∧ (s.plainReadDone d).ll = s.ll ∧ (s.plainReadDone d).mm = s.mm ∧
    (s.plainReadDone d).rp = s.rp ∧ (s.plainReadDone d).ct = s.ct ∧ (s.plainReadDone d).pu = s.pu ∧
    (s.plainReadDone d).mp = s.mp ∧ (s.plainReadDone d).memory = s.memory ∧
    (s.plainReadDone d).freeCount = s.freeCount := by
  unfold plainReadDone
  (repeat' split) <;> simp

@[simp] theorem actReport_frame (s : State) :
    s.actReport.pending = s.pending ∧ s.actReport.spc = s.spc ∧ s.actReport.up = s.up ∧ s.actReport.aq = s.aq ∧
    s.actReport.jc = s.jc ∧ s.actReport.re = s.re ∧ s.actReport.ll = s.ll ∧ s.actReport.mm = s.mm ∧
    s.actReport.rp = s.rp ∧ s.actReport.ct = s.ct ∧ s.actReport.pu = s.pu ∧ s.actReport.mp = s.mp ∧
    s.actReport.memory = s.memory ∧ s.actReport.freeCount = s.freeCount := by
  simp [actReport]

@[simp] theorem actAcknowledge_frame (s : State) (x : Word) :
    (s.actAcknowledge x).pending = s.pending ∧ (s.actAcknowledge x).spc = s.spc ∧ (s.actAcknowledge x).up = s.up ∧
    (s.actAcknowledge x).aq = s.aq ∧ (s.actAcknowledge x).jc = s.jc ∧ (s.actAcknowledge x).re = s.re ∧
    (s.actAcknowledge x).ll = s.ll ∧ (s.actAcknowledge x).mm = s.mm ∧ (s.actAcknowledge x).rp = s.rp ∧
    (s.actAcknowledge x).ct = s.ct ∧ (s.actAcknowledge x).pu = s.pu ∧ (s.actAcknowledge x).mp = s.mp ∧
    (s.actAcknowledge x).memory = s.memory ∧ (s.actAcknowledge x).freeCount = s.freeCount := by
  simp [actAcknowledge]

@[simp] theorem actStandby_frame (s : State) :
    s.actStandby.pending = s.pending ∧ s.actStandby.up = s.up ∧ s.actStandby.aq = s.aq ∧ s.actStandby.jc = s.jc ∧
    s.actStandby.re = s.re ∧ s.actStandby.ll = s.ll ∧ s.actStandby.rp = s.rp ∧ s.actStandby.ct = s.ct ∧
    s.actStandby.pu = s.pu ∧ s.actStandby.mp = s.mp ∧ s.actStandby.memory = s.memory ∧
    s.actStandby.freeCount = s.freeCount := by
  unfold actStandby
  (repeat' split) <;> simp

@[simp] theorem actPlay_frame (s : State) (x : Word) :
    (s.actPlay x).pending = s.pending ∧ (s.actPlay x).up = s.up ∧ (s.actPlay x).aq = s.aq ∧ (s.actPlay x).re = s.re ∧
    (s.actPlay x).ll = s.ll ∧ (s.actPlay x).mm = s.mm ∧ (s.actPlay x).ct = s.ct ∧ (s.actPlay x).pu = s.pu ∧
    (s.actPlay x).memory = s.memory ∧ (s.actPlay x).freeCount = s.freeCount := by
  unfold actPlay
  (repeat' split) <;> simp

@[simp] theorem cueOnLine_frame (s : State) (n : Fin 4) :
    (s.cueOnLine n).pending = s.pending ∧ (s.cueOnLine n).up = s.up ∧ (s.cueOnLine n).aq = s.aq ∧
    (s.cueOnLine n).re = s.re ∧ (s.cueOnLine n).ll = s.ll ∧ (s.cueOnLine n).ct = s.ct ∧ (s.cueOnLine n).pu = s.pu ∧
    (s.cueOnLine n).memory = s.memory ∧ (s.cueOnLine n).freeCount = s.freeCount := by
  unfold cueOnLine
  (repeat' split) <;> simp

@[simp] theorem takeRequest_frame (s : State) :
    s.takeRequest.pending = s.pending ∧ s.takeRequest.ll = s.ll ∧ s.takeRequest.memory = s.memory := by
  unfold takeRequest
  (repeat' split) <;> simp

@[simp] theorem hitDone_frame (s : State) :
    s.hitDone.pending = s.pending ∧ s.hitDone.ll = s.ll ∧ s.hitDone.memory = s.memory := by
  unfold hitDone
  (repeat' split) <;> simp

@[simp] theorem grantWaiting_frame (s : State) :
    s.grantWaiting.pending = s.pending ∧ s.grantWaiting.ll = s.ll ∧ s.grantWaiting.memory = s.memory := by
  unfold grantWaiting
  (repeat' split) <;> simp

@[simp] theorem grantDrawnSlot_frame (s : State) :
    s.grantDrawnSlot.pending = s.pending ∧ s.grantDrawnSlot.ll = s.ll ∧ s.grantDrawnSlot.memory = s.memory := by
  unfold grantDrawnSlot
  (repeat' split) <;> simp

@[simp] theorem grantSlot_frame (s : State) :
    s.grantSlot.pending = s.pending ∧ s.grantSlot.ll = s.ll ∧ s.grantSlot.memory = s.memory := by
  unfold grantSlot
  (repeat' split) <;> simp

@[simp] theorem clearLoss_frame (s : State) :
    s.clearLoss.pending = s.pending ∧ s.clearLoss.memory = s.memory := by
  simp [clearLoss]

@[simp] theorem lostFrameMark_frame (s : State) :
    s.lostFrameMark.pending = s.pending ∧ s.lostFrameMark.memory = s.memory := by
  unfold lostFrameMark
  (repeat' split) <;> simp

@[simp] theorem frameMark_frame (s : State) :
    s.frameMark.pending = s.pending ∧ s.frameMark.memory = s.memory := by
  unfold frameMark
  (repeat' split) <;> simp

@[simp] theorem declareLoss_frame (s : State) :
    s.declareLoss.pending = s.pending ∧ s.declareLoss.spc = s.spc ∧ s.declareLoss.up = s.up ∧
    s.declareLoss.aq = s.aq ∧ s.declareLoss.jc = s.jc ∧ s.declareLoss.re = s.re ∧ s.declareLoss.ll = s.ll ∧
    s.declareLoss.rp = s.rp ∧ s.declareLoss.ct = s.ct ∧ s.declareLoss.pu = s.pu ∧ s.declareLoss.mp = s.mp ∧
    s.declareLoss.memory = s.memory ∧ s.declareLoss.freeCount = s.freeCount := by
  unfold declareLoss
  (repeat' split) <;> simp

@[simp] theorem lossExpiry_frame (s : State) :
    s.lossExpiry.pending = s.pending ∧ s.lossExpiry.spc = s.spc ∧ s.lossExpiry.up = s.up ∧ s.lossExpiry.aq = s.aq ∧
    s.lossExpiry.jc = s.jc ∧ s.lossExpiry.re = s.re ∧ s.lossExpiry.ll = s.ll ∧ s.lossExpiry.rp = s.rp ∧
    s.lossExpiry.ct = s.ct ∧ s.lossExpiry.pu = s.pu ∧ s.lossExpiry.mp = s.mp ∧ s.lossExpiry.memory = s.memory ∧
    s.lossExpiry.freeCount = s.freeCount := by
  unfold lossExpiry
  (repeat' split) <;> simp

@[simp] theorem paceExpiry_frame (s : State) :
    s.paceExpiry.pending = s.pending ∧ s.paceExpiry.memory = s.memory := by
  simp [paceExpiry]

@[simp] theorem headerDone_frame (s : State) (d : Delivered) :
    (s.headerDone d).pending = s.pending ∧ (s.headerDone d).ll = s.ll ∧ (s.headerDone d).memory = s.memory := by
  unfold headerDone
  dsimp only
  (repeat' split) <;> simp

@[simp] theorem meetHeader_frame (s : State) :
    s.meetHeader.pending = s.pending ∧ s.meetHeader.spc = s.spc ∧ s.meetHeader.up = s.up ∧ s.meetHeader.aq = s.aq ∧
    s.meetHeader.jc = s.jc ∧ s.meetHeader.re = s.re ∧ s.meetHeader.ll = s.ll ∧ s.meetHeader.mm = s.mm ∧
    s.meetHeader.ct = s.ct ∧ s.meetHeader.pu = s.pu ∧ s.meetHeader.mp = s.mp ∧ s.meetHeader.memory = s.memory := by
  unfold meetHeader
  (repeat' split) <;> simp

@[simp] theorem reportPair_frame (s : State) (d : Delivered) (a : Nat) :
    (s.reportPair d a).pending = s.pending ∧ (s.reportPair d a).spc = s.spc ∧ (s.reportPair d a).up = s.up ∧
    (s.reportPair d a).aq = s.aq ∧ (s.reportPair d a).jc = s.jc ∧ (s.reportPair d a).re = s.re ∧
    (s.reportPair d a).ll = s.ll ∧ (s.reportPair d a).mm = s.mm ∧ (s.reportPair d a).rp = s.rp ∧
    (s.reportPair d a).ct = s.ct ∧ (s.reportPair d a).pu = s.pu ∧ (s.reportPair d a).mp = s.mp ∧
    (s.reportPair d a).memory = s.memory ∧ (s.reportPair d a).freeCount = s.freeCount := by
  unfold reportPair
  (repeat' split) <;> simp

@[simp] theorem badUpdate_frame (s : State) (i : Nat) :
    (s.badUpdate i).pending = s.pending ∧ (s.badUpdate i).ll = s.ll ∧ (s.badUpdate i).memory = s.memory := by
  simp [badUpdate]

@[simp] theorem offerUpdate_frame (s : State) (i : Nat) (a v : Word) :
    (s.offerUpdate i a v).pending = s.pending ∧ (s.offerUpdate i a v).spc = s.spc ∧ (s.offerUpdate i a v).up = s.up ∧
    (s.offerUpdate i a v).aq = s.aq ∧ (s.offerUpdate i a v).jc = s.jc ∧ (s.offerUpdate i a v).re = s.re ∧
    (s.offerUpdate i a v).ll = s.ll ∧ (s.offerUpdate i a v).mm = s.mm ∧ (s.offerUpdate i a v).pu = s.pu ∧
    (s.offerUpdate i a v).mp = s.mp ∧ (s.offerUpdate i a v).ru = s.ru ∧ (s.offerUpdate i a v).memory = s.memory ∧
    (s.offerUpdate i a v).freeCount = s.freeCount := by
  unfold offerUpdate
  split <;> simp

@[simp] theorem pairDone_frame (s : State) (i : Nat) (a v : Word) (bad : Bool) :
    (s.pairDone i a v bad).pending = s.pending ∧ (s.pairDone i a v bad).ll = s.ll ∧
    (s.pairDone i a v bad).memory = s.memory := by
  unfold pairDone
  (repeat' split) <;> simp

@[simp] theorem pairReadDone_frame (s : State) (d : Delivered) :
    (s.pairReadDone d).pending = s.pending ∧ (s.pairReadDone d).ll = s.ll ∧ (s.pairReadDone d).memory = s.memory := by
  unfold pairReadDone
  (repeat' split) <;> simp

@[simp] theorem statusDone_frame (s : State) :
    s.statusDone.pending = s.pending ∧ s.statusDone.spc = s.spc ∧ s.statusDone.up = s.up ∧ s.statusDone.aq = s.aq ∧
    s.statusDone.jc = s.jc ∧ s.statusDone.re = s.re ∧ s.statusDone.ll = s.ll ∧ s.statusDone.mm = s.mm ∧
    s.statusDone.rp = s.rp ∧ s.statusDone.ct = s.ct ∧ s.statusDone.pu = s.pu ∧ s.statusDone.memory = s.memory ∧
    s.statusDone.freeCount = s.freeCount := by
  unfold statusDone
  dsimp only
  (repeat' split) <;> simp

end Sys2Proof.Machine.State
end

