-- ==== Sys2Proof/Laws/Tables.lean ====
section
/-!
SUPPORT. Tables and sparse lists: what a row reads after an update, what a key reads after a write, and that writes keep the canonical
form.
-/
namespace Sys2Proof.Machine

/-! ### Fixed tables -/

@[simp] theorem tget_tset_same {α : Type} {n : Nat} (v : Vector α n) (i : Fin n) (x : α) : tget (tset v i x) i = x := by
  simp [tget, tset, Vector.get_eq_getElem]

theorem tget_tset_ne {α : Type} {n : Nat} (v : Vector α n) {i j : Fin n} (x : α) (h : i ≠ j) :
    tget (tset v i x) j = tget v j := by
  have h' : i.val ≠ j.val := fun e => h (Fin.ext e)
  simp [tget, tset, Vector.get_eq_getElem, h']

@[simp] theorem tget_tmap {α β : Type} {n : Nat} (f : α → β) (v : Vector α n) (i : Fin n) : tget (tmap f v) i = f (tget v i) := by
  simp [tget, tmap, Vector.get_eq_getElem]

@[simp] theorem tget_ofFn {α : Type} {n : Nat} (f : Fin n → α) (i : Fin n) : tget (Vector.ofFn f) i = f i := by
  simp [tget, Vector.get_eq_getElem]

@[simp] theorem tget_replicate {α : Type} {n : Nat} (x : α) (i : Fin n) : tget (Vector.replicate n x) i = x := by
  simp [tget, Vector.get_eq_getElem]

/-- Tables are equal when their rows are. -/
theorem table_ext {α : Type} {n : Nat} {v w : Vector α n} (h : ∀ i, tget v i = tget w i) : v = w := by
  apply Vector.ext
  intro i hi
  simpa [tget, Vector.get_eq_getElem] using h ⟨i, hi⟩

/-! ### Batch slots -/

@[simp] theorem Jc.at_put_same (j : Jc) (i : Fin 8) (b : Option Batch) : (j.put i b).at i = b := by
  simp [Jc.at, Jc.put]

theorem Jc.at_put_ne (j : Jc) {i k : Fin 8} (b : Option Batch) (h : i ≠ k) : (j.put i b).at k = j.at k := by
  simp [Jc.at, Jc.put, tget_tset_ne _ _ h]

@[simp] theorem Jc.at_mapBatches (j : Jc) (f : Batch → Batch) (i : Fin 8) : (j.mapBatches f).at i = (j.at i).map f := by
  simp [Jc.at, Jc.mapBatches]

@[simp] theorem Jc.at_modify_same (j : Jc) (i : Fin 8) (f : Batch → Batch) : (j.modify i f).at i = (j.at i).map f := by
  unfold Jc.modify
  cases h : j.at i with
  | none => simpa using h
  | some b => simp

theorem Jc.at_modify_ne (j : Jc) {i k : Fin 8} (f : Batch → Batch) (h : i ≠ k) : (j.modify i f).at k = j.at k := by
  unfold Jc.modify
  cases j.at i with
  | none => rfl
  | some b => exact Jc.at_put_ne j _ h

/-! ### Sparse lists -/

namespace Sparse

variable {α : Type}

/-- A list whose keys are all above `a` reads `d` at `a`. -/
theorem get_of_all_lt (d : α) (l : List (Nat × α)) (a : Nat) (h : ∀ c ∈ l, a < c.1) : get d l a = d := by
  induction l with
  | nil => rfl
  | cons c l ih =>
    obtain ⟨k, v⟩ := c
    have hk : a < k := h (k, v) (by simp)
    have : k ≠ a := by omega
    simp only [get, if_neg this]
    exact ih (fun c hc => h c (by simp [hc]))

theorem get_insert_same (d : α) (l : List (Nat × α)) (a : Nat) (x : α) (h : ∀ c ∈ l, c.1 ≠ a) :
    get d (insert a x l) a = x := by
  induction l with
  | nil => simp [insert, get]
  | cons c l ih =>
    obtain ⟨k, v⟩ := c
    have hk : k ≠ a := h (k, v) (by simp)
    unfold insert
    split
    · simp [get]
    · simp only [get, if_neg hk]
      exact ih (fun c hc => h c (by simp [hc]))

theorem get_insert_ne (d : α) (l : List (Nat × α)) {a b : Nat} (x : α) (h : a ≠ b) :
    get d (insert a x l) b = get d l b := by
  induction l with
  | nil => simp [insert, get, h]
  | cons c l ih =>
    obtain ⟨k, v⟩ := c
    unfold insert
    split
    · simp [get, h]
    · simp only [get, ih]

theorem get_filter_ne (d : α) (l : List (Nat × α)) {a b : Nat} (h : a ≠ b) :
    get d (l.filter (fun c => c.1 != a)) b = get d l b := by
  induction l with
  | nil => rfl
  | cons c l ih =>
    obtain ⟨k, v⟩ := c
    by_cases hk : k = a
    · subst hk
      simp [get, h, ih]
    · simp [hk, get, ih]

theorem get_filter_same (d : α) (l : List (Nat × α)) (a : Nat) : get d (l.filter (fun c => c.1 != a)) a = d := by
  induction l with
  | nil => rfl
  | cons c l ih =>
    obtain ⟨k, v⟩ := c
    by_cases hk : k = a
    · simp [hk, ih]
    · simp [hk, get, ih]

variable [DecidableEq α]

/-- What is written at a key is read at it. -/
@[simp] theorem get_set_same (d : α) (l : List (Nat × α)) (a : Nat) (x : α) : get d (set d l a x) a = x := by
  by_cases hx : x = d
  · simp [set, hx, get_filter_same]
  · simp only [set, if_neg hx]
    exact get_insert_same d _ a x (fun c hc => by simpa using (List.mem_filter.mp hc).2)

/-- Every other key reads as before. -/
theorem get_set_ne (d : α) (l : List (Nat × α)) {a b : Nat} (x : α) (h : a ≠ b) : get d (set d l a x) b = get d l b := by
  by_cases hx : x = d
  · simp [set, hx, get_filter_ne d l h]
  · simp [set, hx, get_insert_ne d _ x h, get_filter_ne d l h]

omit [DecidableEq α] in
theorem rising_iff (l : List (Nat × α)) : rising l = true ↔ l.Pairwise (fun p q => p.1 < q.1) := by
  induction l with
  | nil => simp [rising]
  | cons c l ih =>
    obtain ⟨k, v⟩ := c
    cases l with
    | nil => simp [rising]
    | cons c' l' =>
      obtain ⟨k', v'⟩ := c'
      simp only [rising, Bool.and_eq_true, decide_eq_true_eq, ih]
      constructor
      · rintro ⟨h1, h2⟩
        refine List.pairwise_cons.mpr ⟨?_, h2⟩
        intro q hq
        rcases List.mem_cons.mp hq with rfl | hq
        · exact h1
        · exact lt_trans h1 ((List.pairwise_cons.mp h2).1 q hq)
      · intro h
        exact ⟨(List.pairwise_cons.mp h).1 (k', v') (by simp), (List.pairwise_cons.mp h).2⟩

omit [DecidableEq α] in
theorem mem_insert (a : Nat) (x : α) (l : List (Nat × α)) (c : Nat × α) : c ∈ insert a x l ↔ c = (a, x) ∨ c ∈ l := by
  induction l with
  | nil => simp [insert]
  | cons p l ih =>
    obtain ⟨k, v⟩ := p
    unfold insert
    split
    · simp
    · simp only [List.mem_cons, ih]
      tauto

omit [DecidableEq α] in
theorem rising_insert (a : Nat) (x : α) (l : List (Nat × α)) (hl : rising l = true) (ha : ∀ c ∈ l, c.1 ≠ a) :
    rising (insert a x l) = true := by
  rw [rising_iff] at hl ⊢
  induction l with
  | nil => simp [insert]
  | cons p l ih =>
    obtain ⟨k, v⟩ := p
    obtain ⟨h1, h2⟩ := List.pairwise_cons.mp hl
    unfold insert
    split
    · rename_i hak
      refine List.pairwise_cons.mpr ⟨?_, hl⟩
      intro q hq
      rcases List.mem_cons.mp hq with rfl | hq
      · exact hak
      · exact lt_trans hak (h1 q hq)
    · rename_i hak
      have hne : k ≠ a := ha (k, v) (by simp)
      refine List.pairwise_cons.mpr ⟨?_, ih h2 (fun c hc => ha c (by simp [hc]))⟩
      intro q hq
      rcases (mem_insert a x l q).mp hq with rfl | hq
      · show k < a
        omega
      · exact h1 q hq

/-- A write keeps the canonical form. -/
theorem wf_set (d : α) (l : List (Nat × α)) (a : Nat) (x : α) (h : wf d l = true) : wf d (set d l a x) = true := by
  simp only [wf, Bool.and_eq_true, List.all_eq_true, decide_eq_true_eq] at h ⊢
  obtain ⟨h1, h2⟩ := h
  have hr : rising (l.filter (fun c => c.1 != a)) = true := by
    rw [rising_iff] at h1 ⊢
    exact h1.filter _
  have hm : ∀ c ∈ l.filter (fun c => c.1 != a), c.2 ≠ d := fun c hc => h2 c (List.mem_filter.mp hc).1
  by_cases hx : x = d
  · simp only [set, if_pos hx]
    exact ⟨hr, hm⟩
  · simp only [set, if_neg hx]
    refine ⟨rising_insert a x _ hr (fun c hc => by simpa using (List.mem_filter.mp hc).2), ?_⟩
    intro c hc
    rcases (mem_insert a x _ c).mp hc with rfl | hc
    · exact hx
    · exact hm c hc

end Sparse

end Sys2Proof.Machine
end

