-- ==== Sys2Proof/Laws/Memory.lean ====
section
/-!
SUPPORT. The lighting memory: what a byte reads after a write, and that every memory operation keeps the canonical form.
-/
namespace Sys2Proof.Machine.Memory

@[simp] theorem byte_writeByte_same (m : Memory) (a : Nat) (b : Byte) (p : Bool) : (m.writeByte a b p).byte a = b := by
  simp [byte, writeByte]

@[simp] theorem bit_writeByte_same (m : Memory) (a : Nat) (b : Byte) (p : Bool) : (m.writeByte a b p).bit a = p := by
  simp [bit, writeByte]

theorem byte_writeByte_ne (m : Memory) {a c : Nat} (b : Byte) (p : Bool) (h : a ≠ c) :
    (m.writeByte a b p).byte c = m.byte c := by
  simp [byte, writeByte, Sparse.get_set_ne _ _ _ h]

theorem bit_writeByte_ne (m : Memory) {a c : Nat} (b : Byte) (p : Bool) (h : a ≠ c) :
    (m.writeByte a b p).bit c = m.bit c := by
  simp [bit, writeByte, Sparse.get_set_ne _ _ _ h]

theorem wf_writeByte (m : Memory) (a : Nat) (b : Byte) (p : Bool) (h : m.wf = true) : (m.writeByte a b p).wf = true := by
  simp only [wf, writeByte, Bool.and_eq_true] at h ⊢
  exact ⟨Sparse.wf_set _ _ _ _ h.1, Sparse.wf_set _ _ _ _ h.2⟩

theorem wf_writeEnabled (m : Memory) (w : WordAddr) (be : BitVec 4) (x : Word) (p : Sense) (k : Nat) (h : m.wf = true) :
    (m.writeEnabled w be x p k).wf = true := by
  unfold writeEnabled
  split
  · exact wf_writeByte _ _ _ _ h
  · exact h

theorem byte_writeEnabled_ne (m : Memory) (w : WordAddr) (be : BitVec 4) (x : Word) (p : Sense) (k c : Nat)
    (h : 4 * w.toNat + k ≠ c) : (m.writeEnabled w be x p k).byte c = m.byte c := by
  unfold writeEnabled
  split
  · exact byte_writeByte_ne _ _ _ h
  · rfl

theorem bit_writeEnabled_ne (m : Memory) (w : WordAddr) (be : BitVec 4) (x : Word) (p : Sense) (k c : Nat)
    (h : 4 * w.toNat + k ≠ c) : (m.writeEnabled w be x p k).bit c = m.bit c := by
  unfold writeEnabled
  split
  · exact bit_writeByte_ne _ _ _ h
  · rfl

/-- A write of a word keeps the canonical form. -/
theorem wf_writeWord (m : Memory) (w : WordAddr) (be : BitVec 4) (x : Word) (p : Sense) (h : m.wf = true) :
    (m.writeWord w be x p).wf = true := by
  unfold writeWord
  exact wf_writeEnabled _ _ _ _ _ _ (wf_writeEnabled _ _ _ _ _ _ (wf_writeEnabled _ _ _ _ _ _ (wf_writeEnabled _ _ _ _ _ _ h)))

/-- A write of a word changes no byte outside it. -/
theorem byte_writeWord_outside (m : Memory) (w : WordAddr) (be : BitVec 4) (x : Word) (p : Sense) (c : Nat)
    (h : c < 4 * w.toNat ∨ 4 * w.toNat + 3 < c) : (m.writeWord w be x p).byte c = m.byte c := by
  unfold writeWord
  rw [byte_writeEnabled_ne _ _ _ _ _ _ _ (by omega), byte_writeEnabled_ne _ _ _ _ _ _ _ (by omega),
    byte_writeEnabled_ne _ _ _ _ _ _ _ (by omega), byte_writeEnabled_ne _ _ _ _ _ _ _ (by omega)]

/-- A write of a word changes no parity bit outside it. -/
theorem bit_writeWord_outside (m : Memory) (w : WordAddr) (be : BitVec 4) (x : Word) (p : Sense) (c : Nat)
    (h : c < 4 * w.toNat ∨ 4 * w.toNat + 3 < c) : (m.writeWord w be x p).bit c = m.bit c := by
  unfold writeWord
  rw [bit_writeEnabled_ne _ _ _ _ _ _ _ (by omega), bit_writeEnabled_ne _ _ _ _ _ _ _ (by omega),
    bit_writeEnabled_ne _ _ _ _ _ _ _ (by omega), bit_writeEnabled_ne _ _ _ _ _ _ _ (by omega)]

/-- A completed transfer keeps the canonical form. -/
theorem wf_after (m : Memory) (f : InFlight) (h : m.wf = true) : (m.after f).wf = true := by
  unfold after
  split
  · exact h
  · exact wf_writeWord _ _ _ _ _ h

end Sys2Proof.Machine.Memory
end

