-- ==== Sys2Proof/Laws/Commands.lean ====
section
/-!
SUPPORT. The shapes that commands have: the completion of a transfer, the taking of the head, and the control word; and what settles
after every step.
-/
namespace Sys2Proof.Machine.State

/-! ### Completions -/

/-- A completion command that finds its transfer. -/
theorem onCompletion_run (s : State) (mine : Owner → Bool) (k : Delivered → InFlight → State → State) (f : InFlight)
    (h : s.mp.inFlight = some f) (hm : mine f.req.owner = true) (hd : f.discard = false) :
    s.onCompletion mine k = (k (s.delivered f) f (s.complete f)).settle := by
  simp [onCompletion, h, hm, hd]

/-- A completion command whose transfer is to be discarded. -/
theorem onCompletion_discard (s : State) (mine : Owner → Bool) (k : Delivered → InFlight → State → State) (f : InFlight)
    (h : s.mp.inFlight = some f) (hm : mine f.req.owner = true) (hd : f.discard = true) :
    s.onCompletion mine k = (s.complete f).settle := by
  simp [onCompletion, h, hm, hd]

/-- A completion command that finds no transfer of its own leaves the state as it is. -/
theorem onCompletion_idle (s : State) (mine : Owner → Bool) (k : Delivered → InFlight → State → State)
    (h : ∀ f, s.mp.inFlight = some f → mine f.req.owner = false) : s.onCompletion mine k = s := by
  unfold onCompletion
  split
  · rename_i f hf
    simp [h f hf]
  · rfl

@[simp] theorem complete_memory (s : State) (f : InFlight) : (s.complete f).memory = s.memory.after f := by
  unfold complete
  dsimp only
  split <;> simp

@[simp] theorem complete_inFlight (s : State) (f : InFlight) : (s.complete f).mp.inFlight = none := by
  unfold complete
  dsimp only
  split <;> simp

theorem complete_mp (s : State) (f : InFlight) : (s.complete f).mp = { s.mp with
    inFlight := none, cut := none, completing := true } := by
  unfold complete
  dsimp only
  split <;> simp

theorem complete_ru (s : State) (f : InFlight) :
    (s.complete f).ru = if (s.delivered f).error then s.ru.count .parity else s.ru := by
  unfold complete
  dsimp only
  split <;> simp [State.count]

/-- What a completion leaves of the queue of commands and of the count of free values. -/
theorem onCompletion_pending (s : State) (mine : Owner → Bool) (k : Delivered → InFlight → State → State)
    (hk : ∀ d f t, (k d f t).pending = t.pending) : (s.onCompletion mine k).pending = s.pending := by
  unfold onCompletion
  split
  · split
    · split <;> simp [hk]
    · rfl
  · rfl

/-- The memory after a completion command: the transfer's own write, or nothing. -/
theorem onCompletion_memory (s : State) (mine : Owner → Bool) (k : Delivered → InFlight → State → State)
    (hk : ∀ d f t, (k d f t).memory = t.memory) :
    (s.onCompletion mine k).memory = s.memory
      ∨ ∃ f, s.mp.inFlight = some f ∧ (s.onCompletion mine k).memory = s.memory.after f := by
  unfold onCompletion
  split
  · rename_i f hf
    split
    · right
      refine ⟨f, hf, ?_⟩
      split <;> simp [hk]
    · left; rfl
  · left; rfl

/-! ### Heads and control words -/

theorem takeIf_run (s : State) (kind : HostTransfer → Bool) (k : HostTransfer → State → State) (t : HostTransfer)
    (h : s.headToTake = some t) (hk : kind t = true) : s.takeIf kind k = (k t s).settle := by
  simp [takeIf, h, hk]

theorem takeIf_pending (s : State) (kind : HostTransfer → Bool) (k : HostTransfer → State → State)
    (hk : ∀ t u, (k t u).pending = u.pending) : (s.takeIf kind k).pending = s.pending := by
  unfold takeIf
  (repeat' split) <;> simp [hk]

theorem takeIf_memory (s : State) (kind : HostTransfer → Bool) (k : HostTransfer → State → State)
    (hk : ∀ t u, (k t u).memory = u.memory) : (s.takeIf kind k).memory = s.memory := by
  unfold takeIf
  (repeat' split) <;> simp [hk]

theorem walkOn_pending (s : State) (k : State → CtReq → Walk → State) (hk : ∀ t q w, (k t q w).pending = t.pending) :
    (s.walkOn k).pending = s.pending := by
  unfold walkOn
  (repeat' split) <;> simp [hk]

theorem walkOn_memory (s : State) (k : State → CtReq → Walk → State) (hk : ∀ t q w, (k t q w).memory = t.memory) :
    (s.walkOn k).memory = s.memory := by
  unfold walkOn
  (repeat' split) <;> simp [hk]

theorem controlDone_run (s : State) (want : ControlWord → Word → Bool) (act : State → Word → State) (c : ControlWord)
    (x : Word) (f : InFlight) (h : s.headAction = some (c, x)) (hw : want c x = true) (hf : s.mp.inFlight = some f)
    (ho : f.req.owner = .plainWrite) (hd : f.discard = false) :
    s.controlDone want act = (act (s.complete f).headLeaves x).settle := by
  simp only [controlDone, h, hw, if_true]
  rw [onCompletion_run s _ _ f hf (by simp [ho]) hd]

theorem controlDone_pending (s : State) (want : ControlWord → Word → Bool) (act : State → Word → State)
    (ha : ∀ t x, (act t x).pending = t.pending) : (s.controlDone want act).pending = s.pending := by
  unfold controlDone
  split
  · split
    · exact onCompletion_pending _ _ _ (fun d f t => by simp [ha])
    · rfl
  · rfl

theorem controlDone_memory (s : State) (want : ControlWord → Word → Bool) (act : State → Word → State)
    (ha : ∀ t x, (act t x).memory = t.memory) :
    (s.controlDone want act).memory = s.memory
      ∨ ∃ f, s.mp.inFlight = some f ∧ (s.controlDone want act).memory = s.memory.after f := by
  unfold controlDone
  split
  · split
    · exact onCompletion_memory _ _ _ (fun d f t => by simp [ha])
    · left; rfl
  · left; rfl

/-- The AQ takes its head in RUNNING, where no transfer handed over in PASSIVE has its place. -/
theorem headToTake_running (s : State) (t : HostTransfer) (h : s.aq.queue.head? = some t) (hn : s.aq.taken = false)
    (ha : s.portTaken = false) (hp : s.spc.part = .running) : s.headToTake = some t := by
  simp [headToTake, h, hn, ha, hp]

/-- While a transfer handed over in PASSIVE has the AQ head's place, no head is taken. -/
theorem takeIf_portTaken (s : State) (kind : HostTransfer → Bool) (k : HostTransfer → State → State)
    (h : s.portTaken = true) : s.takeIf kind k = s := by
  simp [takeIf, headToTake, h]

/-! ### Settling -/

/-- In PASSIVE alone the UP and the AQ do something between services. -/
theorem servePassive_of_ne (s : State) (h : s.spc.part ≠ .passive) : s.servePassive = s := by
  simp [servePassive, h]

/-- Outside PASSIVE, settling leaves the queue, and the lighting bus as the direct path leaves it. -/
theorem settle_up (s : State) (h : s.spc.part ≠ .passive) : s.settle.up = s.startDirect.up := by
  simp [settle, servePassive_of_ne _ (show s.startDirect.spc.part ≠ .passive by simpa using h)]

theorem settle_aq (s : State) (h : s.spc.part ≠ .passive) : s.settle.aq = s.aq := by
  simp [settle, servePassive_of_ne _ (show s.startDirect.spc.part ≠ .passive by simpa using h)]

theorem ask_requests_same (s : State) (p : Place) (r : Request) : tget (s.ask p r).mp.requests p = some r := by
  simp [ask]

theorem ask_requests_ne (s : State) {p q : Place} (r : Request) (h : p ≠ q) :
    tget (s.ask p r).mp.requests q = tget s.mp.requests q := by
  simp [ask, tget_tset_ne _ _ h]

theorem beginRecord_requests (s : State) (r : Record) (ws : List Word) (b : Nat) {q : Place} (h : placeRu ≠ q) :
    tget (s.beginRecord r ws b).mp.requests q = tget s.mp.requests q := by
  simp [beginRecord, askRecordWord, askWrite, ask_requests_ne _ _ h]

theorem beginDueRecord_requests (s : State) {q : Place} (h : placeRu ≠ q) :
    tget s.beginDueRecord.mp.requests q = tget s.mp.requests q := by
  unfold beginDueRecord beginFault beginStatus beginCounters
  (repeat' split) <;> simp [beginRecord_requests _ _ _ _ h]

theorem startDirect_requests (s : State) : s.startDirect.mp.requests = s.mp.requests := by
  unfold startDirect
  (repeat' split) <;> simp

/-- Outside PASSIVE, settling touches no place of the arbiter but the Report Unit's. -/
theorem settle_requests (s : State) (h : s.spc.part ≠ .passive) {q : Place} (hq : placeRu ≠ q) :
    tget s.settle.mp.requests q = tget s.mp.requests q := by
  simp only [settle, endStep_mp]
  rw [beginDueRecord_requests _ hq, servePassive_of_ne _ (show s.startDirect.spc.part ≠ .passive by simpa using h),
    startDirect_requests]

/-- Settling does not change what the Report Unit holds of faults and causes. -/
theorem beginDueRecord_causes (s : State) : s.beginDueRecord.ru.causes = s.ru.causes := by
  unfold beginDueRecord beginFault beginStatus beginCounters
  (repeat' split) <;> simp [beginRecord, askRecordWord, askWrite]

theorem beginDueRecord_fault (s : State) : s.beginDueRecord.ru.fault = s.ru.fault := by
  unfold beginDueRecord beginFault beginStatus beginCounters
  (repeat' split) <;> simp [beginRecord, askRecordWord, askWrite]

theorem servePassive_ru (s : State) : s.servePassive.ru = s.ru := by simp

theorem settle_causes (s : State) : s.settle.ru.causes = s.ru.causes := by
  simp [settle, beginDueRecord_causes]

theorem settle_fault (s : State) : s.settle.ru.fault = s.ru.fault := by
  simp [settle, beginDueRecord_fault]

end Sys2Proof.Machine.State
end

