-- ==== Sys2Proof/Laws/Port.lean ====
section
/-!
SUPPORT. The grant: which places hold a request, which of those that take part is chosen, and what the port then is (R185).
-/
namespace Sys2Proof.Machine

theorem mem_places (p : Place) : p ∈ places := by
  revert p
  decide

theorem places_rising : places.Pairwise (· < ·) := by decide

theorem Mp.mem_held (m : Mp) (p : Place) : p ∈ m.held ↔ tget m.requests p ≠ none := by
  simp [Mp.held, mem_places, Mp.holds, Option.isSome_iff_ne_none]

theorem Mp.held_rising (m : Mp) : m.held.Pairwise (· < ·) := places_rising.filter _

/-- The first element of a rising list that satisfies a test. -/
theorem find_of_rising (l : List Place) (hl : l.Pairwise (· < ·)) (f : Place → Bool) (p : Place) (hp : p ∈ l)
    (h : f p = true) (hf : ∀ q, q < p → q ∈ l → f q = false) : l.find? f = some p := by
  induction l with
  | nil => simp at hp
  | cons a l ih =>
    rw [List.pairwise_cons] at hl
    rcases List.mem_cons.mp hp with rfl | hm
    · simp [h]
    · rw [List.find?_cons, hf a (hl.1 p hm) (by simp)]
      exact ih hl.2 hm (fun q hq hql => hf q hq (by simp [hql]))

/-- The port chooses the first of those that take part. -/
theorem Mp.choice_of_isFirst (m : Mp) (l : List Place) (hl : l.Pairwise (· < ·)) (takes : Place → Prop) (p : Place)
    (hm : ∀ q, q ∈ l ↔ takes q) (h : m.isFirst takes p) : m.choice l = some p := by
  obtain ⟨ht, h⟩ := h
  unfold Mp.choice
  rcases h with ⟨h1, h2⟩ | ⟨h1, h2⟩
  · rw [find_of_rising l hl _ p ((hm p).2 ht) (by simp [h1]) (fun q hq hql => by simpa using h2 q hq ((hm q).1 hql))]
    rfl
  · have e : l.find? (fun p => tget m.passed p == 8) = none := by
      simp only [List.find?_eq_none, beq_iff_eq]
      exact fun q hq => h1 q ((hm q).1 hq)
    rw [e]
    cases l with
    | nil => exact absurd ((hm p).2 ht) (by simp)
    | cons a l =>
      rw [List.pairwise_cons] at hl
      rcases List.mem_cons.mp ((hm p).2 ht) with rfl | hx
      · rfl
      · exact absurd ((hm a).1 (by simp)) (h2 a (hl.1 p hx))

/-- What the port is after a grant. -/
theorem Mp.grants_grant (m : Mp) (l : List Place) (takes : Place → Prop) (p : Place) (r : Request)
    (hm : ∀ q, q ∈ l ↔ takes q) (hh : ∀ q, takes q → tget m.requests q ≠ none) : m.grants takes p r (m.grant l p r) := by
  refine ⟨rfl, ?_, ?_, ?_, ?_, ?_, rfl, rfl, rfl, rfl, rfl⟩
  · have hc : controlPage r.word = true ↔ 4 * r.word.toNat < 0x100 := by
      simp [controlPage]
      omega
    simp only [Mp.grant, Mp.senseFor, Request.onBus, hc, Option.some.injEq, InFlight.mk.injEq, true_and]
    cases r.op <;> rfl
  · simp [Mp.grant, Mp.passedAfter]
  · intro q hq ht
    simp [Mp.grant, Mp.passedAfter, hq, (hm q).2 ht]
  · intro q hq ht hr
    have : q ∉ l := fun h => ht ((hm q).1 h)
    simp [Mp.grant, Mp.passedAfter, hq, this, Mp.holds, Option.isSome_iff_ne_none, hr]
  · intro q hq hr
    have : q ∉ l := fun h => hh q ((hm q).1 h) hr
    simp [Mp.grant, Mp.passedAfter, hq, this, Mp.holds, hr]

end Sys2Proof.Machine
end

