-- ==== Sys2Proof/Laws/Settled.lean ====
section
/-!
SUPPORT. What settling leaves to do where the direct path and PASSIVE are already served: a due record alone.
-/
namespace Sys2Proof.Machine.State

theorem startDirect_id (s : State) (h : ∀ w ∈ s.up.waiting, w.place = .direct → s.mp.inFlight.isSome = true) :
    s.startDirect = s := by
  unfold startDirect
  split
  · rename_i t hf hw
    simpa [hf] using h _ hw rfl
  · rfl

/-- Once the memory is free a plain transfer that waits for the direct path is put on the bus (R180, R190). -/
theorem startDirect_plain (s : State) (t : HostTransfer) (hf : s.mp.inFlight = none)
    (hw : s.up.waiting = some ⟨t, .direct⟩) (h : region t = .plain) :
    s.startDirect = { s with mp := { s.mp with
      inFlight := some (Request.onBus { owner := .direct, op := opOf t, word := wordOfTransfer t } .odd false) } } := by
  simp [startDirect, hf, hw, h, setMp]

/-- Once the memory is free any other transfer that waits for it is answered with error (R180). -/
theorem startDirect_other (s : State) (t : HostTransfer) (hf : s.mp.inFlight = none)
    (hw : s.up.waiting = some ⟨t, .direct⟩) (h : region t ≠ .plain) :
    s.startDirect = { s with up := { s.up with waiting := none, answer := some (errorAnswer t) } } := by
  simp [startDirect, hf, hw, h, refuseHost, answerHost, setUp, errorAnswer]

theorem dropHeldCanvas_id (s : State) (h : ∀ t ∈ s.aq.queue.head?, region t = .plain) : s.dropHeldCanvas = s := by
  have ht : s.aq.queue.takeWhile (fun t => region t != .plain) = [] := by
    cases hq : s.aq.queue with
    | nil => rfl
    | cons t r => simp [h t (by simp [hq])]
  have hd : s.aq.queue.dropWhile (fun t => region t != .plain) = s.aq.queue := by
    cases hq : s.aq.queue with
    | nil => rfl
    | cons t r => simp [h t (by simp [hq])]
  simp only [dropHeldCanvas, ht, hd, List.any_nil]
  rfl

theorem handToPort_id (s : State) (h : s.aq.queue = [] → ∀ w ∈ s.up.waiting, w.place ≠ .forPort) : s.handToPort = s := by
  unfold handToPort
  split
  · rename_i t hq hw
    exact absurd rfl (h hq _ hw)
  · rfl

theorem servePassive_id (s : State) (h : s.passiveServed) : s.servePassive = s := by
  unfold servePassive
  split
  · rename_i hp
    rw [dropHeldCanvas_id _ (h hp.1 hp.2).1, handToPort_id _ (h hp.1 hp.2).2]
  · rfl

/-- Where the direct path and PASSIVE are served, settling begins a due record and nothing else. -/
theorem settle_of_served (s : State) (hd : ∀ w ∈ s.up.waiting, w.place = .direct → s.mp.inFlight.isSome = true)
    (hp : s.passiveServed) : s.settle = s.endStep := by
  simp only [settle]
  rw [startDirect_id s hd, servePassive_id s hp]

/-- A transfer of a requester that is not to be discarded leaves none waiting for the direct path. -/
theorem directServed_inFlight (s : State) (h : s.directServed) (f : InFlight) (hf : s.mp.inFlight = some f)
    (hd : f.discard = false) (ho : f.req.owner ≠ .direct) : ∀ w ∈ s.up.waiting, w.place ≠ .direct := by
  intro w hw hp
  obtain ⟨_, g, hg, hx⟩ := h.2 w hw hp
  rw [hf] at hg
  cases hg
  simp_all

/-- Past the start, none waits for the direct path. -/
theorem directServed_running (s : State) (h : s.directServed) (hb : s.spc.part ≠ .bypass)
    (hr : s.spc.part ≠ .starting .readRoot) : ∀ w ∈ s.up.waiting, w.place ≠ .direct := by
  intro w hw hp
  obtain ⟨hx, _⟩ := h.2 w hw hp
  exact hx.elim hb hr

/-! ### Completions that find their transfer -/

theorem delivered_of_read (s : State) (f : InFlight) (h : f.req.op = .read) :
    s.delivered f = { data := s.dataOf f, error := s.readError f } := by
  simp [delivered, h, MemOp.isRead, dataOf, readError]

/-- A read changes nothing of the PU. -/
theorem puAfter_of_read (u : Pu) (f : InFlight) (h : f.req.op = .read) : u.after f = u := by
  unfold Pu.after
  rw [h]
  split
  · contradiction
  · rfl

/-- A host write changes nothing of the PU (R156). -/
theorem puAfter_of_host (u : Pu) (f : InFlight) (h : f.req.owner.isHost = true) : u.after f = u := by
  unfold Pu.after
  split <;> simp [h]

/-- With no load in progress no write changes the PU. -/
theorem puAfter_of_idle (u : Pu) (f : InFlight) (h : u.load = none) : u.after f = u := by
  unfold Pu.after
  rw [h]

/-- A write of the part's own is seen by the profile read asked for its word, and by no other (R152). -/
theorem puAfter_of_own (u : Pu) (f : InFlight) (l : Load) (be : BitVec 4) (x : Word) (hl : u.load = some l)
    (hop : f.req.op = .write be x) (ho : f.req.owner.isHost = false) :
    u.after f = if f.req.word = u.loadWord l then { u with load := some { l with asked := x } } else u := by
  simp [Pu.after, hl, hop, ho]

theorem complete_of_read (s : State) (f : InFlight) (h : f.req.op = .read) :
    s.complete f = { s with mp := s.mp.freed, ru := s.ruAfterRead f } := by
  unfold complete ruAfterRead
  rw [delivered_of_read s f h, puAfter_of_read s.pu f h]
  simp only [Memory.after, h]
  cases s.readError f <;> rfl

theorem complete_of_write (s : State) (f : InFlight) (h : f.req.op ≠ .read) :
    s.complete f = { s with mp := s.mp.freed, memory := s.memory.after f, pu := s.pu.after f } := by
  cases hop : f.req.op with
  | read => exact absurd hop h
  | write be x =>
    unfold complete
    simp only [delivered, hop, MemOp.isRead, Bool.false_and]
    rfl

/-- The completion of a host write (R156). -/
theorem complete_of_hostWrite (s : State) (f : InFlight) (h : f.req.op ≠ .read) (ho : f.req.owner.isHost = true) :
    s.complete f = { s with mp := s.mp.freed, memory := s.memory.after f } := by
  rw [complete_of_write s f h, puAfter_of_host s.pu f ho]

theorem ruAfterRead_of_good (s : State) (f : InFlight) (h : s.readError f = false) : s.ruAfterRead f = s.ru := by
  simp [ruAfterRead, h]

theorem ruAfterRead_of_bad (s : State) (f : InFlight) (h : s.readError f = true) :
    s.ruAfterRead f = s.ru.count .parity := by
  simp [ruAfterRead, h]

/-- A completion that finds its transfer, where its requester's effect is the state `x`. -/
theorem onCompletion_finds {s x : State} {f : InFlight} {o : Owner} {mine : Owner → Bool}
    {k : Delivered → InFlight → State → State} (hs : s.settled) (h : s.inFlightFor f o) (ho : o ≠ .direct)
    (hm : mine o = true) (hk : k (s.delivered f) f (s.complete f) = x)
    (hw : ∀ w ∈ x.up.waiting, w.place = .direct → w ∈ s.up.waiting) (hp : x.passiveServed) :
    s.onCompletion mine k = x.endStep := by
  rw [onCompletion_run s mine k f h.1 (by rw [h.2.1]; exact hm) h.2.2, hk, settle_of_served x _ hp]
  intro w hx hd
  exact absurd hd (directServed_inFlight s hs.1 f h.1 h.2.2 (by rw [h.2.1]; exact ho) w (hw w hx hd))

/-! ### Commands that take the head, and the head's leaving -/

theorem next_settle {s x : State} (hw : ∀ w ∈ x.up.waiting, w.place ≠ .direct) (hp : x.passiveServed) (h : s = x) :
    (Host.Outcome.next s.settle : Result) = .next x.endStep := by
  subst h
  rw [settle_of_served s (fun w hx hd => absurd hd (hw w hx)) hp]

theorem directServed_flying (s : State) (h : s.directServed) :
    ∀ w ∈ s.up.waiting, w.place = .direct → s.mp.inFlight.isSome = true := by
  intro w hw hd
  obtain ⟨_, f, hf, _⟩ := h.2 w hw hd
  simp only [Option.mem_def] at hf
  simp [hf]

/-- A command that touches neither the bus nor the queue, nor what is in flight. -/
theorem next_settle_apart {s x y : State} (hs : s.settled) (e1 : x.up = s.up) (e2 : x.mp.inFlight = s.mp.inFlight)
    (e3 : x.aq = s.aq) (e4 : x.spc.part ≠ .passive ∨ x.spc.part = s.spc.part) (h : y = x) :
    (Host.Outcome.next y.settle : Result) = .next x.endStep := by
  subst h
  rw [settle_of_served _ (by rw [e1, e2]; exact directServed_flying s hs.1)]
  intro hp ht
  rcases e4 with e4 | e4
  · exact absurd hp e4
  · rw [e3, e1]
    exact hs.2 (by rw [← e4]; exact hp) (by rw [← e3]; exact ht)

theorem portTaken_iff (s : State) : s.portTaken = true ↔ ∃ w ∈ s.up.waiting, w.place = .atPort := by
  cases h : s.up.waiting <;> simp [portTaken, h]

/-- What can still follow in the moment of a completion, block by block. -/
theorem followsUp_iff (s : State) : s.followsUp = true ↔ s.canFollow := by
  have hh : s.headToTake.isSome = true ↔ ∃ t ∈ s.aq.queue.head?, s.headReady t := by
    have hp : s.portTaken = false → ∀ w ∈ s.up.waiting, w.place ≠ .atPort := fun h w hw he => by
      rw [(portTaken_iff s).2 ⟨w, hw, he⟩] at h
      simp at h
    unfold headToTake
    cases h1 : s.aq.taken <;> cases h2 : s.portTaken <;> simp [headReady, h1]
    · cases hq : s.aq.queue with
      | nil => simp
      | cons a l =>
        simp
        tauto
    · intro t _ hn
      obtain ⟨w, hw, he⟩ := (portTaken_iff s).1 h2
      exact absurd he (hn w hw)
  have hw : (!s.jc.waiters.isEmpty) = true ↔ s.jc.waiters ≠ [] := by cases s.jc.waiters <;> simp
  simp only [followsUp, canFollow, Bool.or_eq_true, Bool.and_eq_true, hh, hw, Option.isSome_iff_ne_none,
    Option.isNone_iff_eq_none, decide_eq_true_eq, Option.any_eq_true, beq_iff_eq, Option.mem_def, ne_eq, or_assoc]

/-- The end of a request whose result is discarded (R123, R136). -/
theorem ctEndDiscarded_eq (s : State) : s.ctEndDiscarded = s.discardEnded := by
  unfold ctEndDiscarded discardEnded
  cases s.rp.step <;> rfl


theorem portTaken_of_ne (s : State) (h : ∀ w ∈ s.up.waiting, w.place ≠ .atPort) : s.portTaken = false := by
  by_contra hp
  obtain ⟨w, hw, hx⟩ := (portTaken_iff s).mp (by simpa using hp)
  exact h w hw hx

theorem headToTake_of_ready (s : State) (t : HostTransfer) (h : s.headReady t) : s.headToTake = some t := by
  obtain ⟨h1, h2, h3, h4⟩ := h
  simp [headToTake, h1, h2, portTaken_of_ne s h3, h4]

/-- What `restDone` calls VOID is what the PU does with the due profiles whose records lie above the plain window. -/
theorem allVoid_eq (u : Pu) : u.allVoid = u.voidDue := rfl

theorem headLeaves_eq (s : State) : s.headLeaves = { s with aq := s.nextQueue, up := s.nextUp } := by
  rcases hw : s.up.waiting with _ | ⟨t, p⟩
  · simp [headLeaves, nextQueue, nextUp, hw, setAq]
  · cases p <;> cases ht : t.write <;>
      simp [headLeaves, nextQueue, nextUp, hw, ht, setAq, setUp, answerHost, stopHold]

theorem nextUp_direct (s : State) (h : ∀ w ∈ s.up.waiting, w.place ≠ .direct) :
    ∀ w ∈ s.nextUp.waiting, w.place ≠ .direct := by
  unfold nextUp
  split
  · split <;> simp
  · exact h

theorem cancelStandby_eq (s : State) : s.cancelStandby = { s with spc := s.spcCancelled, ru := s.ruCancelled } := by
  unfold cancelStandby
  by_cases h : s.spc.standbyPending = true
  · rw [if_pos h]
    simp [spcCancelled, ruCancelled, setSpc, State.raise, setRu, h]
  · have h : s.spc.standbyPending = false := by simpa using h
    have hc : s.spcCancelled = s.spc := by
      unfold spcCancelled
      rw [← h]
    rw [hc]
    simp [ruCancelled, h]

/-- A control word acted on: the completion of its write, the head's leaving, and the action. -/
theorem controlDone_finds {s x : State} {f : InFlight} {t : HostTransfer} {c : ControlWord}
    {want : ControlWord → Word → Bool} {act : State → Word → State} (hs : s.settled) (h : s.headWriting f t)
    (hr : s.spc.part = .running) (hc : controlOf t = some c) (hw : want c t.data = true)
    (hx : act { s with memory := s.memory.after f, mp := s.mp.freed, aq := s.nextQueue, up := s.nextUp } t.data = x)
    (hu : ∀ w ∈ x.up.waiting, w ∈ s.nextUp.waiting) (hp : x.passiveServed) :
    s.controlDone want act = x.endStep := by
  have hf : s.inFlightFor f .plainWrite := ⟨h.1, by rw [h.2.1], h.2.2.1⟩
  have ha : s.headAction = some (c, t.data) := by
    unfold headAction
    obtain ⟨_, _, _, h4, h5⟩ := h
    cases hq : s.aq.queue with
    | nil => simp [hq] at h4
    | cons u r =>
      rw [hq] at h4
      simp only [List.head?_cons, Option.some.injEq] at h4
      subst h4
      simp [hc, h5, hr]
  have hd := directServed_inFlight s hs.1 f h.1 h.2.2.1 (by rw [h.2.1]; simp)
  rw [controlDone_run s want act c t.data f ha hw h.1 hf.2.1 h.2.2.1,
    complete_of_hostWrite s f (by rw [h.2.1]; simp) (by rw [h.2.1]; rfl), headLeaves_eq]
  rw [settle_of_served _ _ _]
  · exact congrArg State.endStep hx
  · intro w hw2 hd2
    exact absurd hd2 (nextUp_direct s hd w (hu w (by rw [← hx]; exact hw2)))
  · have := hp
    rw [← hx] at this
    exact this

end Sys2Proof.Machine.State
end

