-- ==== Sys2Proof/WellFormed.lean ====
section
/-!
DEFINITION. Which commands are well formed. The operand types carry the ranges of 00_scope.md (24-bit addresses, four
byte enables, cue lines 0 to 3); the one further check is that a read drives no data (R167: the data belongs to a write).
-/
namespace Sys2Proof

/-- R167: the host drives the data for a write only; a read is written with data 0. -/
def HostTransfer.wellFormed (t : HostTransfer) : Bool :=
  t.write || t.data == 0

/-- Every command but an arriving transfer is well formed as it stands. -/
def Instr.wellFormed : Instr → Bool
  | .transferArrival t => t.wellFormed
  | .resetAsserted | .resetReleased | .rootReadCompletion | .startResultWriteCompletion | .profileReadCompletion
  | .blankingWriteCompletion | .holdTimerExpiry | .passiveTransferCompletion | .directTransferCompletion | .memoryGrant
  | .plainWriteTaken | .plainWriteCompletion | .sealWord | .takeover | .reportWord | .acknowledgeWord | .standbyWord
  | .profileReloadWord | .reelStopWord | .restartWord | .playWord | .cueLineEdge _ | .canvasWriteTaken | .canvasReadTaken
  | .plainReadTaken | .plainReadCompletion | .ctRequestTaken | .directoryReadCompletion | .segmentReadCompletion
  | .flagWordWriteCompletion | .hitWriteBackCompletion | .entryGrant | .slotGrant | .baseReadCompletion
  | .canvasReadMemoryCompletion | .batchTaken | .measureEnd | .firstPassWriteCompletion | .secondPassWriteCompletion
  | .frameMark | .lossWindowExpiry | .paceTimerExpiry | .headerReadCompletion | .updatePairReadCompletion
  | .statusWriteCompletion => true

end Sys2Proof
end

