-- ==== Sys2Proof/Tests/Slice0.lean ====
section
/-!
SUPPORT. The model's own tests: the well-formedness check, the word forms of the spec's records,
  and for every statement that has
hypotheses a concrete state and operands that meet them, clause by clause.
-/
namespace Sys2Proof.Tests
open Sys2Proof Sys2Proof.Machine

/-! ### Small states -/

/-- The part RUNNING, on the arbitrated path, marks and cues watched. -/
def run : State := { State.reset with
  spc := { part := .running, rootWords := [], standbyPending := false }
  mp := { Mp.reset with path := .arbitrated }
  up := { Up.reset with bounds := some { bufA := 0x10000, bufB := 0x20000, slotCount := 64, status := 0x30000 } }
  re := { Re.reset with bufA := 0x10000, bufB := 0x20000, slotCount := 64 }
  mm := { Mm.reset with watching := true }
  rp := { Rp.reset with watching := true }
  ru := { Ru.reset with base := some 0x30000 } }

/-- The part in another part state. -/
def inPart (p : Part) : State := { run with spc := { run.spc with part := p } }

/-- The transfer in flight for a request, with odd parity checked. -/
def flight (r : Request) : InFlight := { req := r, sense := .odd, check := true, discard := false, half := Half.first r.op }

/-- A state with a request in flight. -/
def flying (s : State) (r : Request) : State := { s with mp := { s.mp with inFlight := some (flight r) } }

/-- The part RUNNING with the port free, requests in their places, the grant after a completion due or not,
  and passed-over counts. -/
def awaiting (rs : List (Place × Request)) (done : Bool) (seen : List (Place × Nat)) : State := { run with
  mp := { run.mp with
    requests := rs.foldl (fun v x => tset v x.1 (some x.2)) run.mp.requests
    passed := seen.foldl (fun v x => tset v x.1 x.2) run.mp.passed
    completing := done } }

/-- Host transfers. -/
def hostWrite (a : Addr) (x : Word) : HostTransfer := { write := true, addr := a, be := 15, data := x }
def hostRead (a : Addr) : HostTransfer := { write := false, addr := a, be := 15, data := 0 }

/-- The memory write that the head of the queue asks. -/
def headWrite (t : HostTransfer) : Request :=
  { owner := .plainWrite, op := .write t.be t.data, word := wordOfTransfer t }

/-- A state in which the write of the head `t` is in flight. -/
def writing (s : State) (t : HostTransfer) : State :=
  { flying s (headWrite t) with aq := { queue := [t], taken := true } }

/-- A batch of a phase and an origin, with its entries. -/
def batch (p : Phase) (o : Origin) (es : List Entry) : Batch :=
  { Batch.fresh o 1 with phase := p, entries := es }

/-- A pixel at half level, and an entry of frame slot 5 with it. -/
def half : Stored := { c1 := 255, c2 := 128, c3 := 0, level := 128 }
def entry5 : Entry := { frameSlot := 5, rail := 0, value := some half, shown := none, newLoad := none }

/-- A state with a batch in slot `i`. -/
def withBatch (s : State) (i : Fin 8) (b : Batch) : State := { s with jc := s.jc.put i (some b) }

/-- A state with six drawn batches of a phase. -/
def sixDrawn (p : Phase) : State :=
  (List.finRange 6).foldl (fun s i => withBatch s (i.castLE (by decide)) (batch p .drawn [])) run

/-- Entries of the frame slots below a number. -/
def entries (n : Nat) : List Entry := (List.range n).map (fun k => { entry5 with frameSlot := k })

/-- A profile that leaves written values as they are, and a state in which every profile is that one. -/
def plainProfile : Profile := { order := 0, mode := 0, cap := 255, subLevel := 0, red := 255, green := 255, blue := 255 }
def profiled (s : State) : State :=
  { s with pu := { s.pu with store := Vector.replicate 16 { valid := true, fields := plainProfile } }
           ct := { s.ct with dirBase := 0x1000, slotCount := 64 } }

/-- A segment of ten slots from slot 0, and its two words. -/
def seg : SegFields :=
  { present := true, touched := true, changed := false, reverse := false, ring := false, profile := 0, slotBase := 0, length := 10 }

/-- The translation of its pixel 3, in rail group 0. -/
def slot3 : Translation := { frameSlot := 3, rail := 0, profile := plainProfile }

/-- A request at the CT for pixel 3 of segment 0 of zone 0. -/
def request (k : ReqKind) : CtReq := { kind := k, canvas := 0x80000C, value := 0x80FF8000, discard := false }

/-- A state whose CT has taken a request. -/
def asked (k : ReqKind) (s : State) : State := { profiled s with ct := { (profiled s).ct with current := some (request k) } }

/-- A walk at a step; its directory entry is present, touched and counts 1 segment from a table at 0x2000. -/
def walkAt (p : WalkStep) : Walk :=
  { step := p, dir1 := 0x103, dir2 := 0x2000, seg1 := 0, seg2 := 0, bad := false, segWord := wordAt 0x2000, sources := []
    stale := false, wroteChanged := false, result := none }

/-- A state with a walk in flight and a request asked for it on the memory bus. -/
def walking (k : ReqKind) (w : Walk) (r : Request) : State :=
  let s := flying (asked k run) r
  { s with ct := { s.ct with walk := some w } }

/-- A reel update at the CT, which waits for the port with a request, while a transfer stands at the head. -/
def ctWaiting (r : Request) (t : HostTransfer) (c : Ct → Ct) : State :=
  let s := asked .reelUpdate run
  { s with
    aq := { queue := [t], taken := false }, ct := c s.ct
    mp := { s.mp with requests := tset s.mp.requests placeCt (some r) } }

/-- A cache entry for segment 0 of zone 0. -/
def cached (known : Bool) : CacheEntry :=
  { zone := 0, segment := 0, fields := seg, sources := [wordAt 0x1000, wordAt 0x1004, wordAt 0x2000, wordAt 0x2004], known := known }

/-- A state in which a request waits at the CT and its segment is cached. -/
def hitting (k : ReqKind) (c : CacheEntry) (s : State) : State :=
  { profiled s with ct := { (profiled s).ct with cache := [c], offerAq := some (request k) } }

/-- A hit that waits for its write-back. -/
def hit3 : Hit := { fields := seg, flagWord := wordAt 0x2000, known := false, overtaken := false, result := some slot3 }

/-- A finished staged write of frame slot 3. -/
def staged (p : Payload) (w : StageWait) : Staged :=
  { view := .replace, frameSlot := 3, rail := 0, canvas := 0x80000C, payload := p, wait := w }

/-- A held add-view write. -/
def held : HeldWrite := { view := .add, value := { red := 1, green := 2, blue := 3, level := 4 }, profile := plainProfile }

/-- The load of profile 0 from a record at 0x5000, before or after its first word, and a PU that has it in progress. -/
def loadOf (first : Option Word) : Load := { profile := 0, first := first, bad := false, again := false, asked := 0 }
def loading (first : Option Word) : Pu := { Pu.reset with base := 0x5000, load := some (loadOf first) }

/-- The RP loading the first frame of reel 0, of two frames at 0x4000. -/
def reel0 : DirEntry := { start := 0x4000, frames := 2, loops := 0, enabled := true }
def playing (p : Player) (l : LoadStep) (h : Option Header) (s : State) : State :=
  { s with rp := { s.rp with state := p, reel := some 0, readAddr := 0x4000, step := l, header := h
                             directory := tset s.rp.directory 0 reel0 } }

/-- The header of a frame of two pairs at 0x4000. -/
def header2 : Header := { count := 2, hold := 1, addr := 0x4000 }

/-- The origin of a frame of reel 0. -/
def reelFrame : Origin := .reel 0 0 false

/-- The RE with its current batch in slot 0. -/
def engine (e : Engine) (b : Batch) (s : State) : State :=
  { withBatch s 0 b with re := { s.re with state := e, current := some 0 } }

/-- A batch that has been measured, with its entry shown. -/
def shown5 : Entry := { entry5 with shown := some half, newLoad := some 192 }
def measured (p : Phase) (o : Origin) (h : Nat) : Batch :=
  { batch p o [shown5] with hold := h, release := some 7, derate := some (Vector.replicate 8 0)
                            removed := some (Vector.replicate 8 0), added := some (Vector.replicate 8 0) }

/-- A state that an armed batch flips in at the next mark. -/
def armed (o : Origin) (h : Nat) (s : State) : State :=
  let t := engine .armed (measured .armed o h) s
  { t with mm := { t.mm with state := .ok } }

/-- The thirty words of a root record with a profile table base, the last one still to be read. -/
def rootWords (profiles : Word) : List Word :=
  [0x00021C5A, 64, 0x10000, 0x20000, 0x30000, 0x1000, profiles, 0x00400040, 0x00400040, 0x00400040, 0x40,
    0x1000, 0x1000, 0x1000, 0x1000, 0x1000, 0x1000, 0x1000, 0x1000, 0x20141032, 0x7F00, 0x4000, 0x80000002, 0, 0, 0, 0, 0, 0]

/-- READ_ROOT with the words read and the next read in flight. -/
def rooting (ws : List Word) : State :=
  let s := flying (inPart (.starting .readRoot)) (readOf .rootRead (wordAt (4 * ws.length)))
  { s with spc := { s.spc with rootWords := ws } }

/-- A memory whose byte at an address fails its check. -/
def badAt (a : Nat) (s : State) : State := { s with memory := { data := [], par := [(a, false)] } }

/-- A memory with the bytes of two words. -/
def wordsAt (a : Nat) (x : Word) (s : State) : State := { s with memory := s.memory.writeWord (wordAt a) 15 x .odd }

/-! ### Well-formedness -/

theorem test_wellFormed_read : (Instr.transferArrival (hostRead 0x84)).wellFormed = true := by decide
theorem test_wellFormed_refuses_data_of_a_read :
    (Instr.transferArrival { hostRead 0x84 with data := 1 }).wellFormed = false := by decide

/-! ### Records of the spec, written out -/

/-- R217: a segment entry of profile 5, reversed, at slot base 200 with length 10, present and touched. -/
theorem test_segment_words :
    SegFields.ofWords 0x0000050B 0x000A00C8
      = { present := true, touched := true, changed := false, reverse := true, ring := false, profile := 5, slotBase := 200
          length := 10 } := by decide

/-- R129's example: pixel 12 of a ring segment with slot base 200 and length 10, reversed. -/
theorem test_ring_reversed :
    SegFields.frameSlot { seg with reverse := true, ring := true, slotBase := 200 } 12 = 207 := by decide

/-- R216: the seal word's tag and takeover flag. -/
theorem test_seal_word : sealTag 0x8000BEEF = 0xBEEF ∧ sealTakeover 0x8000BEEF = true := by decide

/-- R222: the status record's second word in RUNNING, IDLE, buffer A, MARKS_LOST, player IDLE. -/
theorem test_status_word : run.statusWord1 = 0x00000202 := by decide

/-- R222, R223: an empty fault copy is four words of 0. -/
theorem test_fault_words : run.ru.faultWords = [0, 0, 0, 0] := by decide

/-- R218, R158, R159: a profile of channel order 3 and level cap 16. -/
theorem test_transform :
    ((Profile.ofWords 0x00001003 0x00FFFF80).gainedValue (Pixel.ofWord 0xFF0000FF)).toWord = 0x10800000 := by decide

/-- No row has bits, so no word spells a command and the queue is left as it is (log entry 5). -/
theorem test_no_word_spells_a_command : decodeTableWord 32 0x80 = none ∧ run.withFetchWord 32 0x80 = run := ⟨rfl, rfl⟩

/-- On an empty queue the part idles (log entry 2). -/
theorem test_idle_on_an_empty_queue : step run = .next run := rfl

/-- R115, R117: a stop in WAITING before a header address above the plain window keeps the address only where a mark would flip a
reel batch at that moment, and the next completion clears it (log entry 38). -/
def waitingHigh (e : Engine) (b : Batch) : State :=
  let s := engine e b (playing .waiting .none none run)
  { s with rp := { s.rp with readAddr := 0x7FFFFE, unflipped := 2 } }
theorem test_stop_keeps_the_address_of_its_moment :
    (waitingHigh .armed (measured .armed reelFrame 1)).reelStop.mp.cut = some 0x7FFFFE
      ∧ ((waitingHigh .armed (measured .armed reelFrame 1)).reelStop.complete (flight (headWrite
        (hostWrite 0x100 7)))).mp.cut = none := by
  decide
theorem test_stop_keeps_no_address_before_armed :
    (waitingHigh .measure (batch .measure reelFrame [entry5])).reelStop.mp.cut = none
      ∧ (waitingHigh .firstPass (batch .firstPass reelFrame [entry5])).reelStop.mp.cut = none
      ∧ (waitingHigh .armed (measured .armed .drawn 1)).reelStop.mp.cut = none := by
  decide

/-! ### What meets the hypotheses of the statements -/

/-- A walk's flag word that lands on the awaited word of a profile record is seen by the read, no question being asked (R152). -/
theorem test_profile_read_sees_a_flag_word :
    ((loading none).after (flight (writeOf .walkFlag (wordAt 0x5000) 9))).load = some { loadOf none with asked := 9 }
      ∧ ((loading none).after (flight (headWrite (hostWrite 0x5000 9)))).load = some (loadOf none) := by decide

/-- A canvas read held at the assertion of reset waits while a transfer is in flight, and is answered with error at its end (R180). -/
theorem test_held_read_refused_when_the_memory_is_free :
    ∃ t u, step { flying run (readOf .header 5) with
          up := { run.up with waiting := some ⟨hostRead 0x800000, .queued⟩ }
          pending := [.resetAsserted, .directTransferCompletion] } = .next t
      ∧ t.up.waiting = some ⟨hostRead 0x800000, .direct⟩ ∧ t.up.answer = none
      ∧ step t = .next u ∧ u.up.waiting = none ∧ u.up.answer = some { ready := false, data := some 0 } :=
  ⟨_, _, rfl, rfl, rfl, rfl, rfl, rfl⟩

theorem witness_EveryCommandHasNextState :
    ∃ (s : State), s.pending = [] :=
  ⟨State.reset, by decide⟩

theorem witness_MemoryStaysCanonical :
    ∃ (s : State) (t : State), s.memoryCanonical ∧ step s = .next t :=
  ⟨{ writing run (hostWrite 0x100 7) with pending := [.plainWriteCompletion] }, _, by decide, rfl⟩

theorem witness_QueueHoldsAtMostSixteen :
    ∃ (s : State) (t : State), s.queueBounded ∧ step s = .next t :=
  ⟨{ run
        with pending := [.transferArrival (hostWrite 0x100 7)], aq := { queue := List.replicate 15 (hostWrite 0x100 7), taken := false } },
      _, by decide, rfl⟩

theorem witness_PassedOverCountsStayWithinEight :
    ∃ (s : State) (t : State), s.countsBounded ∧ step s = .next t :=
  ⟨{ run
        with pending := [.memoryGrant], mp := { run.mp with requests := tset (tset run.mp.requests 0 (some (readOf .profileRead 0))) 1 (some (readOf .blankingWrite 0)), passed := Vector.replicate 6 8 } },
      _, by decide, rfl⟩

theorem witness_CacheStaysBoundedAndKeyed :
    (∃ (s : State) (t : State), s.cacheBounded ∧ step s = .next t)
    ∧ (∃ (s : State) (t : State), s.walkServes ∧ step s = .next t) :=
  ⟨⟨{ hitting .canvasRead (cached true) run with pending := [.ctRequestTaken] }, _, by decide, rfl⟩,
    ⟨{ walking .drawnWrite (walkAt .dirFirst) (readOf .dirRead 0) with pending := [.directoryReadCompletion] }, _, by decide,
      rfl⟩⟩

theorem witness_JournalStaysWithinItsPool :
    ∃ (s : State) (t : State), s.journalBounded ∧ step s = .next t :=
  ⟨{ withBatch run 0 (batch .opened .drawn [entry5]) with pending := [.batchTaken] }, _, by decide, rfl⟩

theorem witness_DueRecordsAreBegunByEveryStep :
    ∃ (s : State) (t : State), s.recordsBegun ∧ step s = .next t :=
  ⟨{ run with pending := [.lossWindowExpiry] }, _, by decide, rfl⟩

theorem witness_SettlingLeavesNothingWaiting :
    ∃ (s : State) (t : State), s.settled ∧ step s = .next t :=
  ⟨{ run with pending := [.transferArrival (hostRead 0x100)] }, _, by decide, rfl⟩

theorem witness_ResetAssertedClearsThePart :
    (∃ (s : State), s.spc.part = .bypass)
    ∧ (∃ (s : State), s.spc.part ≠ .bypass)
    ∧ (∃ s : State, s.spc.part ≠ .bypass ∧ s.mp.inFlight = none ∧ s.up.waiting = none)
    ∧ (∃ s : State, s.spc.part ≠ .bypass ∧ s.mp.inFlight = none ∧ ∀ w ∈ s.up.waiting, region w.xfer ≠ .plain)
    ∧ (∃ (s : State) (f : InFlight), s.spc.part ≠ .bypass ∧ s.mp.inFlight = some f ∧ f.req.owner ≠ .direct ∧ f.req.op = .read)
    ∧ (∃ (s : State) (f : InFlight) (be : BitVec 4) (x : Word), s.spc.part ≠ .bypass ∧ s.mp.inFlight = some f ∧
      f.req.owner ≠ .direct ∧ f.req.op = .write be x ∧ be ≠ fullWord ∧ f.half = .read)
    ∧ (∃ (s : State) (f : InFlight) (be : BitVec 4) (x : Word), s.spc.part ≠ .bypass ∧ s.mp.inFlight = some f ∧
      f.req.owner ≠ .direct ∧ f.req.op = .write be x ∧ be ≠ fullWord ∧ f.half = .write)
    ∧ (∃ (s : State) (f : InFlight), s.spc.part ≠ .bypass ∧ s.mp.inFlight = some f ∧ f.req.owner = .direct)
    ∧ (∃ (s : State) (w : Waiting), s.spc.part ≠ .bypass ∧ s.up.waiting = some w ∧ region w.xfer = .plain ∧
      s.mp.inFlight = none)
    ∧ (∃ (s : State) (w : Waiting), s.spc.part ≠ .bypass ∧ s.up.waiting = some w ∧ region w.xfer ≠ .plain ∧
      s.mp.inFlight = none)
    ∧ (∃ (s : State) (w : Waiting), s.spc.part ≠ .bypass ∧ s.up.waiting = some w ∧ region w.xfer ≠ .plain ∧
      s.mp.inFlight ≠ none) :=
  ⟨⟨State.reset, by decide⟩,
    ⟨run, by decide⟩,
    ⟨run, by decide⟩,
    ⟨{ run with up := { run.up with waiting := some ⟨hostRead 0x800000, .forPlace⟩ } }, by decide⟩,
    ⟨flying run (readOf .header 5), flight (readOf .header 5), by decide⟩,
    ⟨flying run (headWrite { hostWrite 0 1 with be := 7 }), flight (headWrite { hostWrite 0 1 with be := 7 }), 7, 1, by decide⟩,
    ⟨{ run with mp := { run.mp with inFlight := some { flight (headWrite { hostWrite 0 1 with be := 7 }) with half := .write } } },
      { flight (headWrite { hostWrite 0 1 with be := 7 }) with half := .write }, 7, 1, by decide⟩,
    ⟨flying (inPart (.starting .readRoot)) { readOf .header 5 with owner := .direct },
      flight { readOf .header 5 with owner := .direct }, by decide⟩,
    ⟨{ run with up := { run.up with waiting := some ⟨hostRead 0x7FFFFC, .queued⟩ } }, ⟨hostRead 0x7FFFFC, .queued⟩, by decide⟩,
    ⟨{ run with up := { run.up with waiting := some ⟨hostRead 0x800000, .queued⟩ } }, ⟨hostRead 0x800000, .queued⟩, by decide⟩,
    ⟨{ flying run (readOf .header 5) with up := { run.up with waiting := some ⟨hostRead 0x800000, .queued⟩ } },
      ⟨hostRead 0x800000, .queued⟩, by decide⟩⟩

theorem witness_ResetReleasedStartsReadRoot :
    (∃ (s : State), s.spc.part ≠ .bypass)
    ∧ (∃ (s : State), s.spc.part = .bypass ∧ s.settled) :=
  ⟨⟨run, by decide⟩,
    ⟨State.reset, by decide⟩⟩

theorem witness_RootReadGoesOnOrFails :
    (∃ (s : State) (f : InFlight), s.settled ∧ s.inFlightFor f .rootRead ∧ f.req.op = .read ∧ s.readError f = false ∧
      s.spc.rootWords.length + 1 < 30)
    ∧ (∃ (s : State) (f : InFlight), s.settled ∧ s.inFlightFor f .rootRead ∧ f.req.op = .read ∧ s.readError f = true)
    ∧ (∃ (s : State) (f : InFlight) (code : Nat), s.settled ∧ s.inFlightFor f .rootRead ∧ f.req.op = .read ∧
      s.readError f = false ∧ s.spc.rootWords.length = 29 ∧
      (Root.ofWords (s.spc.rootWords ++ [s.dataOf f])).failure = some code) :=
  ⟨⟨rooting (List.replicate 28 0), flight (readOf .rootRead (wordAt 112)), by decide⟩,
    ⟨badAt 3 (rooting []), flight (readOf .rootRead (wordAt 0)), by decide⟩,
    ⟨rooting (List.replicate 29 0), flight (readOf .rootRead (wordAt 116)), 1, by decide⟩⟩

theorem witness_RootFoundValidFillsTheBlocks :
    (∃ (s : State) (s0 : State) (f : InFlight) (r : Root) (t : State), s.settled ∧ s.inFlightFor f .rootRead ∧
      f.req.op = .read ∧ s.readError f = false ∧ s.spc.rootWords.length = 29 ∧
      r = Root.ofWords (s.spc.rootWords ++ [s.dataOf f]) ∧ r.failure = none ∧ s.pu.load = none ∧
      s0 = State.grantFirst { s with
      spc := { s.spc with rootWords := s.spc.rootWords ++ [s.dataOf f] }, mp := s.mp.freed } (fun _ => true) ∧
      t = { s0 with
      up := { s.up with
        holdLimit := r.holdLimit
        bounds := some { bufA := r.bufA, bufB := r.bufB, slotCount := r.slotCount, status := r.status } }
      mp := { s0.mp with sense := if r.even then .even else .odd, check := r.check }
      ct := { s.ct with dirBase := r.dirBase, slotCount := r.slotCount }
      pu := { s.pu with base := r.profileBase }
      ll := { s.ll with bounds := r.bounds, limits := r.limits }
      mm := { s.mm with lossWindow := r.lossWindow, pacing := r.pacing }
      rp := { s.rp with directory := r.reels }
      jc := { s.jc with almostFull := r.almostFull }
      re := { s.re with bufA := r.bufA, bufB := r.bufB, slotCount := r.slotCount }
      ru := { s.ru with base := some r.status, mask := r.mask, interval := r.interval, markCount := 0, dueFault := true } } ∧
      r.profileBase + 4 ≤ 0x7FFFFF)
    ∧ (∃ (s : State) (s0 : State) (f : InFlight) (r : Root) (t : State), s.settled ∧ s.inFlightFor f .rootRead ∧
      f.req.op = .read ∧ s.readError f = false ∧ s.spc.rootWords.length = 29 ∧
      r = Root.ofWords (s.spc.rootWords ++ [s.dataOf f]) ∧ r.failure = none ∧ s.pu.load = none ∧
      s0 = State.grantFirst { s with
      spc := { s.spc with rootWords := s.spc.rootWords ++ [s.dataOf f] }, mp := s.mp.freed } (fun _ => true) ∧
      t = { s0 with
      up := { s.up with
        holdLimit := r.holdLimit
        bounds := some { bufA := r.bufA, bufB := r.bufB, slotCount := r.slotCount, status := r.status } }
      mp := { s0.mp with sense := if r.even then .even else .odd, check := r.check }
      ct := { s.ct with dirBase := r.dirBase, slotCount := r.slotCount }
      pu := { s.pu with base := r.profileBase }
      ll := { s.ll with bounds := r.bounds, limits := r.limits }
      mm := { s.mm with lossWindow := r.lossWindow, pacing := r.pacing }
      rp := { s.rp with directory := r.reels }
      jc := { s.jc with almostFull := r.almostFull }
      re := { s.re with bufA := r.bufA, bufB := r.bufB, slotCount := r.slotCount }
      ru := { s.ru with base := some r.status, mask := r.mask, interval := r.interval, markCount := 0, dueFault := true } } ∧
      r.profileBase + 4 ≤ 0x7FFFFF)
    ∧ (∃ (s : State) (s0 : State) (f : InFlight) (r : Root) (t : State), s.settled ∧ s.inFlightFor f .rootRead ∧
      f.req.op = .read ∧ s.readError f = false ∧ s.spc.rootWords.length = 29 ∧
      r = Root.ofWords (s.spc.rootWords ++ [s.dataOf f]) ∧ r.failure = none ∧ s.pu.load = none ∧
      s0 = State.grantFirst { s with
      spc := { s.spc with rootWords := s.spc.rootWords ++ [s.dataOf f] }, mp := s.mp.freed } (fun _ => true) ∧
      t = { s0 with
      up := { s.up with
        holdLimit := r.holdLimit
        bounds := some { bufA := r.bufA, bufB := r.bufB, slotCount := r.slotCount, status := r.status } }
      mp := { s0.mp with sense := if r.even then .even else .odd, check := r.check }
      ct := { s.ct with dirBase := r.dirBase, slotCount := r.slotCount }
      pu := { s.pu with base := r.profileBase }
      ll := { s.ll with bounds := r.bounds, limits := r.limits }
      mm := { s.mm with lossWindow := r.lossWindow, pacing := r.pacing }
      rp := { s.rp with directory := r.reels }
      jc := { s.jc with almostFull := r.almostFull }
      re := { s.re with bufA := r.bufA, bufB := r.bufB, slotCount := r.slotCount }
      ru := { s.ru with base := some r.status, mask := r.mask, interval := r.interval, markCount := 0, dueFault := true } } ∧
      0x7FFFFF < r.profileBase + 4)
    ∧ (∃ (ws : List Word) (w : Nat → Word) (r : Root), (∀ a, w a = ws.getD (a / 4) 0) ∧ r = Root.ofWords ws)
    ∧ (∃ (ws : List Word) (w : Nat → Word) (r : Root) (i : Fin 7), (∀ a, w a = ws.getD (a / 4) 0) ∧ r = Root.ofWords ws)
    ∧ (∃ (ws : List Word) (w : Nat → Word) (r : Root) (g : Fin 8), (∀ a, w a = ws.getD (a / 4) 0) ∧ r = Root.ofWords ws)
    ∧ (∃ (ws : List Word) (w : Nat → Word) (r : Root) (n : Fin 4) (e : DirEntry) (x : Word) (y : Word),
      (∀ a, w a = ws.getD (a / 4) 0) ∧ r = Root.ofWords ws ∧ e = tget r.reels n ∧ x = w (0x54 + 8 * n.val) ∧
      y = w (0x58 + 8 * n.val)) :=
  ⟨⟨rooting (rootWords 0x7FFFF8), _, flight (readOf .rootRead (wordAt 116)), _, _, by decide, by decide, by decide, by decide,
      by decide, rfl, by decide, by decide, rfl, rfl, by decide⟩,
    ⟨{ rooting (rootWords 0x7FFFF8)
        with mp := { (rooting (rootWords 0x7FFFF8)).mp with requests := tset run.mp.requests placeRu (some (readOf .status 9)) } },
      _, flight (readOf .rootRead (wordAt 116)), _, _, by decide, by decide, by decide, by decide, by decide, rfl,
      by decide, by decide, rfl, rfl, by decide⟩,
    ⟨rooting (rootWords 0x7FFFFC), _, flight (readOf .rootRead (wordAt 116)), _, _, by decide, by decide, by decide, by decide,
      by decide, rfl, by decide, by decide, rfl, rfl, by decide⟩,
    ⟨(rootWords 0x5003 ++ [0x800105FF]), (fun a => (rootWords 0x5003 ++ [0x800105FF]).getD (a / 4) 0), _, fun _ => rfl, rfl⟩,
    ⟨(rootWords 0x5003 ++ [0x800105FF]), (fun a => (rootWords 0x5003 ++ [0x800105FF]).getD (a / 4) 0), _, 6, fun _ => rfl, rfl⟩,
    ⟨(rootWords 0x5003 ++ [0x800105FF]), (fun a => (rootWords 0x5003 ++ [0x800105FF]).getD (a / 4) 0), _, 7, fun _ => rfl, rfl⟩,
    ⟨(rootWords 0x5003 ++ [0x800105FF]), (fun a => (rootWords 0x5003 ++ [0x800105FF]).getD (a / 4) 0), _, 3, _, _, _,
      fun _ => rfl, rfl, rfl, rfl, rfl⟩⟩

theorem witness_StartResultEntersRunningOrPassive :
    (∃ (s : State) (f : InFlight), s.settled ∧ s.inFlightFor f (.startResult 0) ∧ f.req.op ≠ .read ∧ s.rp.pendingCue = none)
    ∧ (∃ (s : State) (f : InFlight) (n : Fin 4), s.settled ∧ s.inFlightFor f (.startResult 0) ∧ f.req.op ≠ .read ∧
      s.rp.pendingCue = some n ∧ s.rp.state = .idle ∧ s.eligibleExists = false ∧ (tget s.rp.directory n).enabled = true ∧
      s.spc.standbyPending = false)
    ∧ (∃ (s : State) (f : InFlight) (n : Fin 4), s.settled ∧ s.inFlightFor f (.startResult 0) ∧ f.req.op ≠ .read ∧
      s.rp.pendingCue = some n ∧ s.eligibleExists = false ∧ (tget s.rp.directory n).enabled = false)
    ∧ (∃ (s : State) (s0 : State) (f : InFlight) (code : Nat), s.settled ∧ s.inFlightFor f (.startResult code) ∧ code ≠ 0 ∧
      f.req.op ≠ .read ∧ (∀ t ∈ s.aq.queue.head?, region t = .plain) ∧ (∀ w ∈ s.up.waiting, w.place ≠ .forPort) ∧
      s0 = State.grantFirst { s with memory := s.memory.after f, pu := s.pu.after f, mp := s.mp.freed } (fun _ => true))
    ∧ (∃ (s : State) (s0 : State) (f : InFlight) (code : Nat), s.settled ∧ s.inFlightFor f (.startResult code) ∧ code ≠ 0 ∧
      f.req.op ≠ .read ∧ (∀ t ∈ s.aq.queue.head?, region t = .plain) ∧ (∀ w ∈ s.up.waiting, w.place ≠ .forPort) ∧
      s0 = State.grantFirst { s with memory := s.memory.after f, pu := s.pu.after f, mp := s.mp.freed } (fun _ => true))
    ∧ (∃ (s : State) (s0 : State) (f : InFlight) (code : Nat) (held : List HostTransfer) (rest : List HostTransfer), s.settled ∧
      s.inFlightFor f (.startResult code) ∧ code ≠ 0 ∧ f.req.op ≠ .read ∧ s.aq.queue = held ++ rest ∧ s.aq.taken = false ∧
      (∀ t ∈ held, region t ≠ .plain) ∧ (∀ t ∈ rest.head?, region t = .plain) ∧ (∀ w ∈ s.up.waiting, w.place ≠ .forPort) ∧
      s0 = State.grantFirst { s with memory := s.memory.after f, pu := s.pu.after f, mp := s.mp.freed } (fun _ => true))
    ∧ (∃ (s : State) (s0 : State) (f : InFlight) (code : Nat) (held : List HostTransfer) (rest : List HostTransfer), s.settled ∧
      s.inFlightFor f (.startResult code) ∧ code ≠ 0 ∧ f.req.op ≠ .read ∧ s.aq.queue = held ++ rest ∧ s.aq.taken = false ∧
      (∀ t ∈ held, region t ≠ .plain) ∧ (∀ t ∈ rest.head?, region t = .plain) ∧ (∀ w ∈ s.up.waiting, w.place ≠ .forPort) ∧
      s0 = State.grantFirst { s with memory := s.memory.after f, pu := s.pu.after f, mp := s.mp.freed } (fun _ => true))
    ∧ (∃ (s : State) (f : InFlight), s.settled ∧ s.inFlightFor f (.startResult 0) ∧ f.req.op ≠ .read)
    ∧ (∃ (s : State), s.rp.pendingCue = none)
    ∧ (∃ (s : State) (u : State) (n : Fin 4), s.rp.pendingCue = some n ∧ s.rp.state = .idle ∧
      ((¬(s.re.state = .idle ∧ s.spc.part = .running ∧ s.eligibleExists = true) ∧ u = s) ∨ (s.re.state = .idle ∧
        s.spc.part = .running ∧ ∃ i b, s.takesNext i b ∧ u = s.taken i b)) ∧ (tget s.rp.directory n).enabled = true)
    ∧ (∃ (s : State) (u : State) (n : Fin 4), s.rp.pendingCue = some n ∧ s.rp.state = .idle ∧
      ((¬(s.re.state = .idle ∧ s.spc.part = .running ∧ s.eligibleExists = true) ∧ u = s) ∨ (s.re.state = .idle ∧
        s.spc.part = .running ∧ ∃ i b, s.takesNext i b ∧ u = s.taken i b)) ∧ (tget s.rp.directory n).enabled = true)
    ∧ (∃ (s : State) (u : State) (n : Fin 4), s.rp.pendingCue = some n ∧ s.rp.state = .idle ∧
      ((¬(s.re.state = .idle ∧ s.spc.part = .running ∧ s.eligibleExists = true) ∧ u = s) ∨ (s.re.state = .idle ∧
        s.spc.part = .running ∧ ∃ i b, s.takesNext i b ∧ u = s.taken i b)) ∧ (tget s.rp.directory n).enabled = false) :=
  ⟨⟨flying (inPart (.starting .blanking)) (writeOf (.startResult 0) startResultWord 0),
      flight (writeOf (.startResult 0) startResultWord 0), by decide⟩,
    ⟨{ playing .idle .none none (flying (inPart (.starting .blanking)) (writeOf (.startResult 0) startResultWord 0))
        with rp := { (playing .idle .none none run).rp with pendingCue := some 0 } },
      flight (writeOf (.startResult 0) startResultWord 0), 0, by decide⟩,
    ⟨{ flying (inPart (.starting .blanking)) (writeOf (.startResult 0) startResultWord 0)
        with rp := { run.rp with pendingCue := some 3 } }, flight (writeOf (.startResult 0) startResultWord 0), 3, by decide⟩,
    ⟨flying (inPart (.starting .readRoot)) (writeOf (.startResult 5) startResultWord 5), _,
      flight (writeOf (.startResult 5) startResultWord 5), 5, by decide, by decide, by decide, by decide, by decide,
      by decide, rfl⟩,
    ⟨{ flying (inPart (.starting .readRoot)) (writeOf (.startResult 5) startResultWord 5)
        with mp := { (flying (inPart (.starting .readRoot)) (writeOf (.startResult 5) startResultWord 5)).mp with requests := tset run.mp.requests placeRu (some (readOf .status 9)) } },
      _, flight (writeOf (.startResult 5) startResultWord 5), 5, by decide, by decide, by decide, by decide, by decide,
      by decide, rfl⟩,
    ⟨{ flying (inPart (.starting .readRoot)) (writeOf (.startResult 5) startResultWord 5)
        with aq := { queue := [hostWrite 0xB00000 1, hostRead 0x800000], taken := false }, up := { run.up with waiting := some ⟨hostRead 0x800000, .queued⟩ } },
      _, flight (writeOf (.startResult 5) startResultWord 5), 5, [hostWrite 0xB00000 1, hostRead 0x800000], [], by decide,
      by decide, by decide, by decide, by decide, by decide, by decide, by decide, by decide, rfl⟩,
    ⟨{ flying (inPart (.starting .readRoot)) (writeOf (.startResult 5) startResultWord 5)
        with aq := { queue := [hostWrite 0x800000 1, hostWrite 4 1], taken := false } }, _,
      flight (writeOf (.startResult 5) startResultWord 5), 5, [hostWrite 0x800000 1], [hostWrite 4 1], by decide, by decide,
      by decide, by decide, by decide, by decide, by decide, by decide, by decide, rfl⟩,
    ⟨flying (inPart (.starting .blanking)) (writeOf (.startResult 0) startResultWord 0),
      flight (writeOf (.startResult 0) startResultWord 0), by decide⟩,
    ⟨run, by decide⟩,
    ⟨{ playing .idle .none none (run) with rp := { (playing .idle .none none run).rp with pendingCue := some 0 } }, _, 0,
      by decide, by decide, Or.inl ⟨by decide, rfl⟩, by decide⟩,
    ⟨{ playing .idle .none none (withBatch run 2 ({ batch .sealed .drawn [entry5] with sealOrder := some 4 }))
        with rp := { (playing .idle .none none run).rp with pendingCue := some 0 } }, _, 0, by decide, by decide,
      Or.inr ⟨by decide, by decide, 2, { batch .sealed .drawn [entry5]
        with sealOrder := some 4 }, ⟨by decide, by decide, by decide, by decide⟩, rfl⟩, by decide⟩,
    ⟨{ playing .idle .none none (withBatch run 2 ({ batch .sealed .drawn [] with sealOrder := some 4 }))
        with rp := { (playing .idle .none none run).rp with pendingCue := some 3 } }, _, 3, by decide, by decide,
      Or.inr ⟨by decide, by decide, 2, { batch .sealed .drawn []
        with sealOrder := some 4 }, ⟨by decide, by decide, by decide, by decide⟩, rfl⟩, by decide⟩⟩

theorem witness_ProfileReadDecidesTheProfile :
    (∃ (s : State) (f : InFlight) (l : Load), s.settled ∧ s.inFlightFor f .profileRead ∧ f.req.op = .read ∧ s.pu.load = some l ∧
      l.first = none)
    ∧ (∃ (s : State) (f : InFlight) (l : Load), s.settled ∧ s.inFlightFor f .profileRead ∧ f.req.op = .read ∧
      s.pu.load = some l ∧
      l.first = none)
    ∧ (∃ (s : State) (s1 : State) (f : InFlight) (l : Load) (x : Word) (y : Word) (u : Pu) (p : Fin 16), s.settled ∧
      s.inFlightFor f .profileRead ∧ f.req.op = .read ∧ s.pu.load = some l ∧ l.first = some x ∧
      y = s.profileWord l (s.dataOf f) ∧
      u = { s.pu with
              store := tset s.pu.store l.profile
                { valid := !(l.bad || s.readError f) && decide ((Profile.ofWords x y).order.toNat ≤ 5)
                  fields := Profile.ofWords x y }
              pending := tset s.pu.pending l.profile l.again
              load := none } ∧
      s1 = { s with
        pu := u, mp := s.mp.freed, ru := s.ruAfterRead f, freeCount := s.profileCount l (s.dataOf f) } ∧ s.questionHeld u ∧
      tget u.pending p = true ∧ (∀ q, q < p → tget u.pending q = false) ∧ u.base + 8 * p.val + 4 ≤ 0x7FFFFF)
    ∧ (∃ (s : State) (s1 : State) (f : InFlight) (l : Load) (x : Word) (y : Word) (u : Pu) (p : Fin 16), s.settled ∧
      s.inFlightFor f .profileRead ∧ f.req.op = .read ∧ s.pu.load = some l ∧ l.first = some x ∧
      y = s.profileWord l (s.dataOf f) ∧
      u = { s.pu with
              store := tset s.pu.store l.profile
                { valid := !(l.bad || s.readError f) && decide ((Profile.ofWords x y).order.toNat ≤ 5)
                  fields := Profile.ofWords x y }
              pending := tset s.pu.pending l.profile l.again
              load := none } ∧
      s1 = { s with
        pu := u, mp := s.mp.freed, ru := s.ruAfterRead f, freeCount := s.profileCount l (s.dataOf f) } ∧ s.questionHeld u ∧
      tget u.pending p = true ∧ (∀ q, q < p → tget u.pending q = false) ∧ u.base + 8 * p.val + 4 ≤ 0x7FFFFF)
    ∧ (∃ (s : State) (s1 : State) (f : InFlight) (l : Load) (x : Word) (y : Word) (u : Pu) (v : Pu), s.settled ∧
      s.inFlightFor f .profileRead ∧ f.req.op = .read ∧ s.pu.load = some l ∧ l.first = some x ∧
      y = s.profileWord l (s.dataOf f) ∧
      u = { s.pu with
              store := tset s.pu.store l.profile
                { valid := !(l.bad || s.readError f) && decide ((Profile.ofWords x y).order.toNat ≤ 5)
                  fields := Profile.ofWords x y }
              pending := tset s.pu.pending l.profile l.again
              load := none } ∧
      s1 = { s with
        pu := u, mp := s.mp.freed, ru := s.ruAfterRead f, freeCount := s.profileCount l (s.dataOf f) } ∧ s.questionHeld u ∧
      u.restDone v ∧ s.questionHeld v ∧ s.spc.part ≠ .starting .loadProfiles)
    ∧ (∃ (s : State) (s1 : State) (f : InFlight) (l : Load) (x : Word) (y : Word) (u : Pu) (v : Pu), s.settled ∧
      s.inFlightFor f .profileRead ∧ f.req.op = .read ∧ s.pu.load = some l ∧ l.first = some x ∧
      y = s.profileWord l (s.dataOf f) ∧
      u = { s.pu with
              store := tset s.pu.store l.profile
                { valid := !(l.bad || s.readError f) && decide ((Profile.ofWords x y).order.toNat ≤ 5)
                  fields := Profile.ofWords x y }
              pending := tset s.pu.pending l.profile l.again
              load := none } ∧
      s1 = { s with
        pu := u, mp := s.mp.freed, ru := s.ruAfterRead f, freeCount := s.profileCount l (s.dataOf f) } ∧ s.questionHeld u ∧
      u.restDone v ∧ s.questionHeld v ∧ s.spc.part ≠ .starting .loadProfiles)
    ∧ (∃ (s : State) (s1 : State) (f : InFlight) (l : Load) (x : Word) (y : Word) (u : Pu) (v : Pu), s.settled ∧
      s.inFlightFor f .profileRead ∧ f.req.op = .read ∧ s.pu.load = some l ∧ l.first = some x ∧
      y = s.profileWord l (s.dataOf f) ∧
      u = { s.pu with
              store := tset s.pu.store l.profile
                { valid := !(l.bad || s.readError f) && decide ((Profile.ofWords x y).order.toNat ≤ 5)
                  fields := Profile.ofWords x y }
              pending := tset s.pu.pending l.profile l.again
              load := none } ∧
      s1 = { s with
        pu := u, mp := s.mp.freed, ru := s.ruAfterRead f, freeCount := s.profileCount l (s.dataOf f) } ∧ s.questionHeld u ∧
      u.restDone v ∧ s.questionHeld v ∧ s.spc.part = .starting .loadProfiles ∧ 0 < s.re.slotCount)
    ∧ (∃ (s : State) (s1 : State) (f : InFlight) (l : Load) (x : Word) (y : Word) (u : Pu) (v : Pu), s.settled ∧
      s.inFlightFor f .profileRead ∧ f.req.op = .read ∧ s.pu.load = some l ∧ l.first = some x ∧
      y = s.profileWord l (s.dataOf f) ∧
      u = { s.pu with
              store := tset s.pu.store l.profile
                { valid := !(l.bad || s.readError f) && decide ((Profile.ofWords x y).order.toNat ≤ 5)
                  fields := Profile.ofWords x y }
              pending := tset s.pu.pending l.profile l.again
              load := none } ∧
      s1 = { s with
        pu := u, mp := s.mp.freed, ru := s.ruAfterRead f, freeCount := s.profileCount l (s.dataOf f) } ∧ s.questionHeld u ∧
      u.restDone v ∧ s.questionHeld v ∧ s.spc.part = .starting .loadProfiles ∧ 0 < s.re.slotCount)
    ∧ (∃ (s : State) (s1 : State) (f : InFlight) (l : Load) (x : Word) (y : Word) (u : Pu) (t : State), s.settled ∧
      s.inFlightFor f .profileRead ∧ f.req.op = .read ∧ s.pu.load = some l ∧ l.first = some x ∧
      y = s.profileWord l (s.dataOf f) ∧
      u = { s.pu with
              store := tset s.pu.store l.profile
                { valid := !(l.bad || s.readError f) && decide ((Profile.ofWords x y).order.toNat ≤ 5)
                  fields := Profile.ofWords x y }
              pending := tset s.pu.pending l.profile l.again
              load := none } ∧
      s1 = { s with
        pu := u, mp := s.mp.freed, ru := s.ruAfterRead f, freeCount := s.profileCount l (s.dataOf f) } ∧
      (s.spc.part = .running ∨ s.spc.part = .standby) ∧ s1.profileAnswered t)
    ∧ (∃ (s : State) (s1 : State) (f : InFlight) (l : Load) (x : Word) (y : Word) (u : Pu) (t : State), s.settled ∧
      s.inFlightFor f .profileRead ∧ f.req.op = .read ∧ s.pu.load = some l ∧ l.first = some x ∧
      y = s.profileWord l (s.dataOf f) ∧
      u = { s.pu with
              store := tset s.pu.store l.profile
                { valid := !(l.bad || s.readError f) && decide ((Profile.ofWords x y).order.toNat ≤ 5)
                  fields := Profile.ofWords x y }
              pending := tset s.pu.pending l.profile l.again
              load := none } ∧
      s1 = { s with
        pu := u, mp := s.mp.freed, ru := s.ruAfterRead f, freeCount := s.profileCount l (s.dataOf f) } ∧
      (s.spc.part = .running ∨ s.spc.part = .standby) ∧ s1.profileAnswered t)
    ∧ (∃ (s : State) (s1 : State) (f : InFlight) (l : Load) (x : Word) (y : Word) (u : Pu) (t : State), s.settled ∧
      s.inFlightFor f .profileRead ∧ f.req.op = .read ∧ s.pu.load = some l ∧ l.first = some x ∧
      y = s.profileWord l (s.dataOf f) ∧
      u = { s.pu with
              store := tset s.pu.store l.profile
                { valid := !(l.bad || s.readError f) && decide ((Profile.ofWords x y).order.toNat ≤ 5)
                  fields := Profile.ofWords x y }
              pending := tset s.pu.pending l.profile l.again
              load := none } ∧
      s1 = { s with
        pu := u, mp := s.mp.freed, ru := s.ruAfterRead f, freeCount := s.profileCount l (s.dataOf f) } ∧
      (s.spc.part = .running ∨ s.spc.part = .standby) ∧ s1.profileAnswered t)
    ∧ (∃ (s : State) (s1 : State) (f : InFlight) (l : Load) (x : Word) (y : Word) (u : Pu) (v : Pu) (t : State), s.settled ∧
      s.inFlightFor f .profileRead ∧ f.req.op = .read ∧ s.pu.load = some l ∧ l.first = some x ∧
      y = s.profileWord l (s.dataOf f) ∧
      u = { s.pu with
              store := tset s.pu.store l.profile
                { valid := !(l.bad || s.readError f) && decide ((Profile.ofWords x y).order.toNat ≤ 5)
                  fields := Profile.ofWords x y }
              pending := tset s.pu.pending l.profile l.again
              load := none } ∧
      s1 = { s with
        pu := u, mp := s.mp.freed, ru := s.ruAfterRead f, freeCount := s.profileCount l (s.dataOf f) } ∧
      (s.spc.part = .running ∨ s.spc.part = .standby) ∧ s.questionHeld u ∧ u.restDone v ∧
      State.profileAnswered { s1 with pu := v } t)
    ∧ (∃ (s : State), s.pu.load = none ∧ (∀ p, tget s.pu.pending p = false))
    ∧ (∃ (s : State) (p : Fin 16), s.pu.load = none ∧ tget s.pu.pending p = true ∧ (∀ q, q < p → tget s.pu.pending q = false) ∧
      s.pu.base + 8 * p.val + 4 ≤ 0x7FFFFF)
    ∧ (∃ (s : State) (p : Fin 16), s.pu.load = none ∧ tget s.pu.pending p = true ∧ (∀ q, q < p → tget s.pu.pending q = false) ∧
      0x7FFFFF < s.pu.base + 8 * p.val + 4)
    ∧ (∃ (s : State) (l : Load) (x : Word), x = l.asked)
    ∧ (∃ (s : State) (l : Load) (x : Word), x ≠ l.asked)
    ∧ (∃ (u : Pu) (f : InFlight) (l : Load) (be : BitVec 4) (x : Word) (w : WordAddr), u.load = some l ∧
      f.req.op = .write be x ∧ w = wordAt (u.base + 8 * l.profile.val + if l.first = none then 0 else 4) ∧
      f.req.owner ∉ [Owner.plainWrite, .plainRead, .passive, .direct] ∧ f.req.word = w)
    ∧ (∃ (u : Pu) (f : InFlight) (l : Load) (be : BitVec 4) (x : Word) (w : WordAddr), u.load = some l ∧
      f.req.op = .write be x ∧ w = wordAt (u.base + 8 * l.profile.val + if l.first = none then 0 else 4) ∧
      f.req.owner ∉ [Owner.plainWrite, .plainRead, .passive, .direct] ∧ f.req.word = w)
    ∧ (∃ (u : Pu) (f : InFlight) (l : Load) (be : BitVec 4) (x : Word) (w : WordAddr), u.load = some l ∧
      f.req.op = .write be x ∧ w = wordAt (u.base + 8 * l.profile.val + if l.first = none then 0 else 4) ∧
      (f.req.owner ∈ [Owner.plainWrite, .plainRead, .passive, .direct] ∨ f.req.word ≠ w))
    ∧ (∃ (u : Pu) (f : InFlight) (l : Load) (be : BitVec 4) (x : Word) (w : WordAddr), u.load = some l ∧
      f.req.op = .write be x ∧ w = wordAt (u.base + 8 * l.profile.val + if l.first = none then 0 else 4) ∧
      (f.req.owner ∈ [Owner.plainWrite, .plainRead, .passive, .direct] ∨ f.req.word ≠ w))
    ∧ (∃ (u : Pu) (f : InFlight), u.load = none ∨ f.req.op = .read)
    ∧ (∃ (u : Pu) (f : InFlight), u.load = none ∨ f.req.op = .read)
    ∧ (∃ (x : Word) (y : Word) (p : Profile), p = Profile.ofWords x y) :=
  ⟨⟨{ flying (inPart (.starting .loadProfiles)) (readOf .profileRead (wordAt 0x5000))
        with pu := { Pu.reset with base := 0x5000, load := some { profile := 0, first := none, bad := false, again := false, asked := 0 }, pending := Vector.replicate 16 true } },
      flight (readOf .profileRead (wordAt 0x5000)),
      { profile := 0, first := none, bad := false, again := false, asked := 0 }, by decide⟩,
    ⟨{ flying (inPart (.starting .loadProfiles)) (readOf .profileRead (wordAt 0x5000))
        with pu := { Pu.reset with base := 0x5000, load := some { profile := 0, first := none, bad := false, again := false, asked := 7 }, pending := Vector.replicate 16 true } },
      flight (readOf .profileRead (wordAt 0x5000)),
      { profile := 0, first := none, bad := false, again := false, asked := 7 }, by decide⟩,
    ⟨{ flying (inPart (.starting .loadProfiles)) (readOf .profileRead (wordAt 0x5000))
        with pu := { Pu.reset with base := 0x5000, load := some { profile := 0, first := some 5, bad := false, again := false, asked := 0 }, pending := Vector.replicate 16 true } },
      _, flight (readOf .profileRead (wordAt 0x5000)),
      { profile := 0, first := some 5, bad := false, again := false, asked := 0 }, 5, _, _, 1, by decide, by decide,
      by decide, by decide, by decide, rfl, rfl, rfl, by decide, by decide, by decide, by decide⟩,
    ⟨{ { flying (inPart (.starting .loadProfiles)) (readOf .profileRead (wordAt 0x5000)) with pu := { Pu.reset with base := 0x5000, load := some { profile := 0, first := some 5, bad := false, again := false, asked := 0 }, pending := Vector.replicate 16 true } }
        with ct := { Ct.reset with slotCount := 64, current := some (request .drawnWrite), walk := some { walkAt .profile with seg1 := 0x103, seg2 := 0x000A0000 } } },
      _, flight (readOf .profileRead (wordAt 0x5000)),
      { profile := 0, first := some 5, bad := false, again := false, asked := 0 }, 5, _, _, 1, by decide, by decide,
      by decide, by decide, by decide, rfl, rfl, rfl, by decide, by decide, by decide, by decide⟩,
    ⟨{ { flying (inPart (.starting .loadProfiles)) (readOf .profileRead (wordAt 0x5000)) with pu := { Pu.reset with base := 0x5000, load := some { profile := 15, first := some 5, bad := false, again := false, asked := 0 }, pending := Vector.replicate 16 false } }
        with spc := run.spc }, _, flight (readOf .profileRead (wordAt 0x5000)),
      { profile := 15, first := some 5, bad := false, again := false, asked := 0 }, 5, _, _, _, by decide, by decide,
      by decide, by decide, by decide, rfl, rfl, rfl, by decide, Or.inl ⟨by decide, rfl⟩, by decide, by decide⟩,
    ⟨{ { flying (inPart (.starting .loadProfiles)) (readOf .profileRead (wordAt 0x5000)) with pu := { Pu.reset with base := 0x7FFFF4, load := some { profile := 0, first := some 5, bad := false, again := false, asked := 0 }, pending := tset (Vector.replicate 16 false) 1 true } }
        with spc := run.spc }, _, flight (readOf .profileRead (wordAt 0x5000)),
      { profile := 0, first := some 5, bad := false, again := false, asked := 0 }, 5, _, _, _, by decide, by decide,
      by decide, by decide, by decide, rfl, rfl, rfl, by decide, Or.inr ⟨⟨1, by decide⟩, rfl⟩, by decide, by decide⟩,
    ⟨{ { flying (inPart (.starting .loadProfiles)) (readOf .profileRead (wordAt 0x5000)) with pu := { Pu.reset with base := 0x5000, load := some { profile := 15, first := some 5, bad := false, again := false, asked := 0 }, pending := Vector.replicate 16 false } }
        with re := run.re }, _, flight (readOf .profileRead (wordAt 0x5000)),
      { profile := 15, first := some 5, bad := false, again := false, asked := 0 }, 5, _, _, _, by decide, by decide,
      by decide, by decide, by decide, rfl, rfl, rfl, by decide, Or.inl ⟨by decide, rfl⟩, by decide, by decide, by decide⟩,
    ⟨{ { flying (inPart (.starting .loadProfiles)) (readOf .profileRead (wordAt 0x5000)) with pu := { Pu.reset with base := 0x7FFFF4, load := some { profile := 0, first := some 5, bad := false, again := false, asked := 0 }, pending := tset (Vector.replicate 16 false) 1 true } }
        with re := run.re }, _, flight (readOf .profileRead (wordAt 0x5000)),
      { profile := 0, first := some 5, bad := false, again := false, asked := 0 }, 5, _, _, _, by decide, by decide,
      by decide, by decide, by decide, rfl, rfl, rfl, by decide, Or.inr ⟨⟨1, by decide⟩, rfl⟩, by decide, by decide,
      by decide⟩,
    ⟨{ { { flying (inPart (.starting .loadProfiles)) (readOf .profileRead (wordAt 0x5000)) with pu := { Pu.reset with base := 0x5000, load := some { profile := 0, first := some 5, bad := false, again := false, asked := 0 }, pending := Vector.replicate 16 false } } with spc := run.spc }
        with ct := { Ct.reset with slotCount := 64, current := some (request .drawnWrite), walk := some { walkAt .profile with seg1 := 0x1, seg2 := 0x000A0000 } } },
      _, flight (readOf .profileRead (wordAt 0x5000)),
      { profile := 0, first := some 5, bad := false, again := false, asked := 0 }, 5, _, _, _, by decide, by decide,
      by decide, by decide, by decide, rfl, rfl, rfl, by decide,
      ⟨request .drawnWrite, by decide, Or.inl ⟨{ walkAt .profile
        with seg1 := 0x1, seg2 := 0x000A0000 }, by decide, by decide, ⟨rfl, .ok ({ slot3
        with profile := Profile.ofWords 5 0 }), Or.inl ⟨{ slot3
        with profile := Profile.ofWords 5 0 }, ⟨by decide, by decide, by decide, by decide, by decide, by decide, by decide,
          by decide, by decide⟩, rfl⟩, true, ⟨fun _ => ⟨by decide, by decide, _, rfl⟩, fun _ => rfl⟩, Or.inl ⟨by decide,
          by decide, by decide, rfl⟩⟩⟩⟩⟩,
    ⟨{ { { flying (inPart (.starting .loadProfiles)) (readOf .profileRead (wordAt 0x5000)) with pu := { Pu.reset with base := 0x5000, load := some { profile := 0, first := some 5, bad := false, again := false, asked := 0 }, pending := Vector.replicate 16 false } } with spc := run.spc }
        with ct := { Ct.reset with slotCount := 64, current := some (request .drawnWrite), hit := some { hit3 with result := none } } },
      _, flight (readOf .profileRead (wordAt 0x5000)),
      { profile := 0, first := some 5, bad := false, again := false, asked := 0 }, 5, _, _, _, by decide, by decide,
      by decide, by decide, by decide, rfl, rfl, rfl, by decide,
      ⟨request .drawnWrite, by decide, Or.inr ⟨by decide, { hit3
        with result := none }, by decide, by decide, Or.inr ⟨{ slot3
        with profile := Profile.ofWords 5 0 }, ⟨by decide, by decide, by decide, by decide, by decide, by decide, by decide,
          by decide, by decide⟩, Or.inr ⟨by decide, by decide, by decide, _, rfl, Or.inr ⟨by decide, rfl⟩⟩⟩⟩⟩⟩,
    ⟨{ { { flying (inPart (.starting .loadProfiles)) (readOf .profileRead (wordAt 0x5000)) with pu := { Pu.reset with base := 0x5000, load := some { profile := 0, first := some 5, bad := false, again := false, asked := 0 }, pending := Vector.replicate 16 false } } with spc := { run.spc with part := .standby } }
        with ct := { Ct.reset with slotCount := 64, current := some (request .drawnWrite), hit := some { hit3 with result := none } } },
      _, flight (readOf .profileRead (wordAt 0x5000)),
      { profile := 0, first := some 5, bad := false, again := false, asked := 0 }, 5, _, _, _, by decide, by decide,
      by decide, by decide, by decide, rfl, rfl, rfl, by decide,
      ⟨request .drawnWrite, by decide, Or.inr ⟨by decide, { hit3
        with result := none }, by decide, by decide, Or.inr ⟨{ slot3
        with profile := Profile.ofWords 5 0 }, ⟨by decide, by decide, by decide, by decide, by decide, by decide, by decide,
          by decide, by decide⟩, Or.inr ⟨by decide, by decide, by decide, _, rfl, Or.inr ⟨by decide, rfl⟩⟩⟩⟩⟩⟩,
    ⟨{ { { flying (inPart (.starting .loadProfiles)) (readOf .profileRead (wordAt 0x5000)) with pu := { Pu.reset with base := 0x7FFFF4, load := some { profile := 0, first := some 5, bad := false, again := false, asked := 0 }, pending := tset (Vector.replicate 16 false) 1 true } } with spc := run.spc }
        with ct := { Ct.reset with slotCount := 64, current := some (request .drawnWrite), hit := some { hit3 with result := none, fields := { seg with profile := 1 } } } },
      _, flight (readOf .profileRead (wordAt 0x5000)),
      { profile := 0, first := some 5, bad := false, again := false, asked := 0 }, 5, _, _, _, _, by decide, by decide,
      by decide, by decide, by decide, rfl, rfl, rfl, by decide, by decide, Or.inr ⟨⟨1, by decide⟩, rfl⟩,
      ⟨request .drawnWrite, by decide, Or.inr ⟨by decide, { hit3
        with result := none, fields := { seg with profile := 1 } }, by decide, by decide, Or.inl ⟨.profileVoid, by decide,
          rfl⟩⟩⟩⟩,
    ⟨run, by decide⟩,
    ⟨{ run with pu := { Pu.reset with base := 0x7FFF80, pending := tset (Vector.replicate 16 false) 15 true } }, 15, by decide⟩,
    ⟨{ run with pu := { Pu.reset with base := 0x7FFF84, pending := tset (Vector.replicate 16 false) 15 true } }, 15, by decide⟩,
    ⟨run, { profile := 0, first := none, bad := false, again := false, asked := 0 }, 0, by decide⟩,
    ⟨run, { profile := 0, first := none, bad := false, again := false, asked := 7 }, 0, by decide⟩,
    ⟨loading none, flight (writeOf .walkFlag (wordAt 0x5000) 9), loadOf none, 15, 9, _, rfl, rfl, rfl, by decide, by decide⟩,
    ⟨loading (some 5), flight (writeOf .status (wordAt 0x5004) 9), loadOf (some 5), 15, 9, _, rfl, rfl, rfl, by decide,
      by decide⟩,
    ⟨loading none, flight (headWrite (hostWrite 0x5000 9)), loadOf none, 15, 9, _, rfl, rfl, rfl, by decide⟩,
    ⟨loading (some 5), flight (writeOf .walkFlag (wordAt 0x5000) 9), loadOf (some 5), 15, 9, _, rfl, rfl, rfl, by decide⟩,
    ⟨Pu.reset, flight (writeOf .walkFlag (wordAt 0x5000) 9), by decide⟩,
    ⟨loading none, flight (readOf .dirRead (wordAt 0x5000)), by decide⟩,
    ⟨0x00341235, 0x00FFFF80, _, rfl⟩⟩

theorem witness_BlankingGoesThroughBothBuffers :
    (∃ (s : State) (f : InFlight), s.settled ∧ s.inFlightFor f .blankingWrite ∧ f.req.op ≠ .read ∧
      s.re.blankPos + 1 < s.re.slotCount)
    ∧ (∃ (s : State) (f : InFlight), s.settled ∧ s.inFlightFor f .blankingWrite ∧ f.req.op ≠ .read ∧
      s.re.slotCount ≤ s.re.blankPos + 1 ∧ s.re.blankPos + 1 < 2 * s.re.slotCount)
    ∧ (∃ (s : State) (f : InFlight), s.settled ∧ s.inFlightFor f .blankingWrite ∧ f.req.op ≠ .read ∧
      s.re.slotCount ≤ s.re.blankPos + 1 ∧ s.re.blankPos + 1 < 2 * s.re.slotCount)
    ∧ (∃ (s : State) (f : InFlight), s.settled ∧ s.inFlightFor f .blankingWrite ∧ f.req.op ≠ .read ∧
      2 * s.re.slotCount ≤ s.re.blankPos + 1) :=
  ⟨⟨{ flying (inPart (.starting .blanking)) (writeOf .blankingWrite (wordAt 0x10000) 0)
        with re := { run.re with state := .blanking, blankPos := 62 } }, flight (writeOf .blankingWrite (wordAt 0x10000) 0),
      by decide⟩,
    ⟨{ flying (inPart (.starting .blanking)) (writeOf .blankingWrite (wordAt 0x10000) 0)
        with re := { run.re with state := .blanking, blankPos := 63 } }, flight (writeOf .blankingWrite (wordAt 0x10000) 0),
      by decide⟩,
    ⟨{ flying (inPart (.starting .blanking)) (writeOf .blankingWrite (wordAt 0x10000) 0)
        with re := { run.re with state := .blanking, blankPos := 126 } },
      flight (writeOf .blankingWrite (wordAt 0x10000) 0), by decide⟩,
    ⟨{ flying (inPart (.starting .blanking)) (writeOf .blankingWrite (wordAt 0x10000) 0)
        with re := { run.re with state := .blanking, blankPos := 127 } },
      flight (writeOf .blankingWrite (wordAt 0x10000) 0), by decide⟩⟩

theorem witness_ArrivalChecksRefuse :
    (∃ (s : State) (t : HostTransfer) (k : FaultKind), s.spc.part = .running ∧ s.up.waiting = none ∧
      ((0xB00000 ≤ t.addr.toNat ∧ k = .addressRefused) ∨ (0x800000 ≤ t.addr.toNat ∧ t.addr.toNat < 0xB00000 ∧
        t.be ≠ fullWord ∧ k = .partialCanvas) ∨ (t.addr.toNat < 0x800000 ∧ t.write = true ∧ s.up.protects
        (wordOfTransfer t) = true ∧ k = .protectedWrite)))
    ∧ (∃ (s : State) (t : HostTransfer) (k : FaultKind), s.spc.part = .running ∧ s.up.waiting = none ∧
      ((0xB00000 ≤ t.addr.toNat ∧ k = .addressRefused) ∨ (0x800000 ≤ t.addr.toNat ∧ t.addr.toNat < 0xB00000 ∧
        t.be ≠ fullWord ∧ k = .partialCanvas) ∨ (t.addr.toNat < 0x800000 ∧ t.write = true ∧ s.up.protects
        (wordOfTransfer t) = true ∧ k = .protectedWrite)))
    ∧ (∃ (s : State) (t : HostTransfer) (k : FaultKind), s.spc.part = .running ∧ s.up.waiting = none ∧
      ((0xB00000 ≤ t.addr.toNat ∧ k = .addressRefused) ∨ (0x800000 ≤ t.addr.toNat ∧ t.addr.toNat < 0xB00000 ∧
        t.be ≠ fullWord ∧ k = .partialCanvas) ∨ (t.addr.toNat < 0x800000 ∧ t.write = true ∧ s.up.protects
        (wordOfTransfer t) = true ∧ k = .protectedWrite)))
    ∧ (∃ (u : Up) (b : Bounds) (w : WordAddr), u.bounds = some b) :=
  ⟨⟨run, hostWrite 0xB00000 1, .addressRefused, by decide⟩,
    ⟨run, { hostWrite 0xAFFFFC 1 with be := 7 }, .partialCanvas, by decide⟩,
    ⟨run, hostWrite 0x100FC 1, .protectedWrite, by decide⟩,
    ⟨run.up, { bufA := 0x10000, bufB := 0x20000, slotCount := 64, status := 0x30000 }, wordAt 0x3007C, by decide⟩⟩

theorem witness_AcceptedTransferIsQueued :
    (∃ (s : State) (t : HostTransfer), s.spc.part = .running ∧ s.up.waiting = none ∧ t.addr.toNat < 0xB00000 ∧
      (0x800000 ≤ t.addr.toNat → t.be = fullWord) ∧
      (t.addr.toNat < 0x800000 → t.write = true → s.up.protects (wordOfTransfer t) = false) ∧ s.aq.queue.length < 16 ∧
      t.write = true)
    ∧ (∃ (s : State) (t : HostTransfer), s.spc.part = .running ∧ s.up.waiting = none ∧ t.addr.toNat < 0xB00000 ∧
      (0x800000 ≤ t.addr.toNat → t.be = fullWord) ∧
      (t.addr.toNat < 0x800000 → t.write = true → s.up.protects (wordOfTransfer t) = false) ∧ s.aq.queue.length < 16 ∧
      t.write = false)
    ∧ (∃ (s : State) (t : HostTransfer), s.spc.part = .running ∧ s.up.waiting = none ∧ t.addr.toNat < 0xB00000 ∧
      (0x800000 ≤ t.addr.toNat → t.be = fullWord) ∧
      (t.addr.toNat < 0x800000 → t.write = true → s.up.protects (wordOfTransfer t) = false) ∧ 16 ≤ s.aq.queue.length) :=
  ⟨⟨{ run with aq := { queue := List.replicate 15 (hostWrite 0x100 7), taken := false } }, hostWrite 0xAFFFFC 1, by decide⟩,
    ⟨run, hostRead 0x10000, by decide⟩,
    ⟨{ run with aq := { queue := List.replicate 16 (hostWrite 0x100 7), taken := false } }, hostWrite 0x100 1, by decide⟩⟩

theorem witness_ArrivalOutsideRunning :
    (∃ (s : State) (t : HostTransfer), s.up.waiting.isSome = true)
    ∧ (∃ (s : State) (t : HostTransfer), s.settled ∧ s.up.waiting = none ∧
      ((∃ sub, s.spc.part = .starting sub) ∨ (s.spc.part = .bypass ∧ 0x800000 ≤ t.addr.toNat) ∨ (s.spc.part = .passive ∧
        0x800000 ≤ t.addr.toNat)))
    ∧ (∃ (s : State) (t : HostTransfer), s.settled ∧ s.up.waiting = none ∧
      ((∃ sub, s.spc.part = .starting sub) ∨ (s.spc.part = .bypass ∧ 0x800000 ≤ t.addr.toNat) ∨ (s.spc.part = .passive ∧
        0x800000 ≤ t.addr.toNat)))
    ∧ (∃ (s : State) (t : HostTransfer), s.settled ∧ s.up.waiting = none ∧
      ((∃ sub, s.spc.part = .starting sub) ∨ (s.spc.part = .bypass ∧ 0x800000 ≤ t.addr.toNat) ∨ (s.spc.part = .passive ∧
        0x800000 ≤ t.addr.toNat)))
    ∧ (∃ (s : State) (t : HostTransfer), s.up.waiting = none ∧ s.spc.part = .bypass ∧ t.addr.toNat < 0x800000)
    ∧ (∃ (s : State) (t : HostTransfer), s.up.waiting = none ∧ s.spc.part = .passive ∧ t.addr.toNat < 0x800000 ∧
      s.aq.queue = [] ∧
      s.aq.taken = false)
    ∧ (∃ (s : State) (t : HostTransfer), s.settled ∧ s.up.waiting = none ∧ s.spc.part = .passive ∧ t.addr.toNat < 0x800000 ∧
      (s.aq.queue ≠ [] ∨ s.aq.taken = true))
    ∧ (∃ (s : State) (t : HostTransfer), s.settled ∧ s.up.waiting = none ∧ s.spc.part = .passive ∧ t.addr.toNat < 0x800000 ∧
      (s.aq.queue ≠ [] ∨ s.aq.taken = true))
    ∧ (∃ (s : State) (t : HostTransfer), s.up.waiting = none ∧ s.spc.part = .standby) :=
  ⟨⟨{ run with up := { run.up with waiting := some ⟨hostRead 0, .queued⟩ } }, hostRead 0, by decide⟩,
    ⟨inPart (.starting .blanking), hostRead 0x100, by decide, by decide, Or.inl ⟨_, rfl⟩⟩,
    ⟨State.reset, hostWrite 0x800000 1, by decide, by decide, Or.inr (by decide)⟩,
    ⟨inPart .passive, hostRead 0x800000, by decide, by decide, Or.inr (by decide)⟩,
    ⟨State.reset, hostRead 0x7FFFFC, by decide⟩,
    ⟨inPart .passive, hostWrite 0x7FFFFC 3, by decide⟩,
    ⟨{ inPart .passive with aq := { queue := [hostWrite 0x7FFFFC 1], taken := false } }, hostRead 0, by decide⟩,
    ⟨{ inPart .passive with aq := { queue := [hostWrite 0x98 1], taken := true } }, hostRead 0, by decide⟩,
    ⟨inPart .standby, hostRead 0x7FFFFC, by decide⟩⟩

theorem witness_HoldExpiryDropsTheWaitingTransfer :
    (∃ (s : State), (s.up.holdTimer = none ∨ s.up.waiting = none))
    ∧ (∃ (s : State) (d : Nat) (w : Waiting), s.up.holdTimer = some d ∧ s.up.waiting = some w ∧ s.spc.part ≠ .passive) :=
  ⟨⟨run, by decide⟩,
    ⟨{ run
        with up := { run.up with waiting := some ⟨hostRead 0x100, .queued⟩, holdTimer := some 200 }, aq := { queue := [hostWrite 0x104 1, hostRead 0x100], taken := true } },
      200, ⟨hostRead 0x100, .queued⟩, by decide⟩⟩

theorem witness_CarriedTransfersAreAnswered :
    (∃ (s : State) (f : InFlight) (w : Waiting), s.settled ∧ s.inFlightFor f .passive ∧ s.up.waiting = some w ∧
      ((s.spc.part = .passive ∧ controlOf w.xfer ≠ some .restart) ∨ ∃ sub, s.spc.part = .starting sub))
    ∧ (∃ (s : State) (f : InFlight) (w : Waiting), s.settled ∧ s.inFlightFor f .passive ∧ s.up.waiting = some w ∧
      ((s.spc.part = .passive ∧ controlOf w.xfer ≠ some .restart) ∨ ∃ sub, s.spc.part = .starting sub))
    ∧ (∃ (s : State) (f : InFlight) (w : Waiting), s.settled ∧ s.inFlightFor f .passive ∧ s.up.waiting = some w ∧
      ((s.spc.part = .passive ∧ controlOf w.xfer ≠ some .restart) ∨ ∃ sub, s.spc.part = .starting sub))
    ∧ (∃ (s : State) (f : InFlight), s.spc.part ≠ .passive ∧ s.inFlightFor f .direct ∧ f.check = false)
    ∧ (∃ (s : State) (f : InFlight) (t : HostTransfer), s.spc.part = .bypass ∧ s.mp.inFlight = some f ∧ f.discard = true ∧
      f.check = false ∧ s.up.waiting = some ⟨t, .direct⟩ ∧ region t = .plain)
    ∧ (∃ (s : State) (f : InFlight) (t : HostTransfer), s.spc.part = .bypass ∧ s.mp.inFlight = some f ∧ f.discard = true ∧
      f.check = false ∧ s.up.waiting = some ⟨t, .direct⟩ ∧ region t ≠ .plain) :=
  ⟨⟨{ inPart .passive
        with mp := { run.mp with inFlight := some ({ flight { owner := .passive, op := .read, word := wordAt 0x100 } with check := false }), check := false }, up := { run.up with waiting := some ⟨hostRead 0x100, .atPort⟩ } },
      { flight { owner := .passive, op := .read, word := wordAt 0x100 } with check := false }, ⟨hostRead 0x100, .atPort⟩,
      by decide, by decide, by decide, Or.inl (by decide)⟩,
    ⟨{ inPart .passive
        with mp := { run.mp with inFlight := some ({ flight { owner := .passive, op := .read, word := wordAt 0x100 } with check := false }), check := false }, up := { run.up with waiting := some ⟨hostRead 0x100, .atPort⟩ }, aq := { queue := [hostWrite 4 1], taken := false } },
      { flight { owner := .passive, op := .read, word := wordAt 0x100 } with check := false }, ⟨hostRead 0x100, .atPort⟩,
      by decide, by decide, by decide, Or.inl (by decide)⟩,
    ⟨{ inPart (.starting .readRoot)
        with mp := { run.mp with inFlight := some ({ flight { owner := .passive, op := .read, word := wordAt 0x100 } with check := false }) }, up := { run.up with waiting := some ⟨hostRead 0x100, .atPort⟩ } },
      { flight { owner := .passive, op := .read, word := wordAt 0x100 } with check := false }, ⟨hostRead 0x100, .atPort⟩,
      by decide, by decide, by decide, Or.inr ⟨_, rfl⟩⟩,
    ⟨{ State.reset
        with mp := { Mp.reset with inFlight := some ({ flight { owner := .direct, op := .write 15 5, word := wordAt 0x100 } with check := false }) }, up := { Up.reset with waiting := some ⟨hostWrite 0x100 5, .direct⟩ } },
      { flight { owner := .direct, op := .write 15 5, word := wordAt 0x100 } with check := false }, by decide⟩,
    ⟨{ State.reset
        with mp := { Mp.reset with inFlight := some ({ flight (readOf .dirRead 5) with check := false, discard := true }) }, up := { Up.reset with waiting := some ⟨hostWrite 0x100 5, .direct⟩ } },
      { flight (readOf .dirRead 5) with check := false, discard := true }, hostWrite 0x100 5, by decide⟩,
    ⟨{ State.reset
        with mp := { Mp.reset with inFlight := some ({ flight (readOf .dirRead 5) with check := false, discard := true }) }, up := { Up.reset with waiting := some ⟨hostRead 0x800000, .direct⟩ } },
      { flight (readOf .dirRead 5) with check := false, discard := true }, hostRead 0x800000, by decide⟩⟩

theorem witness_GrantFollowsOrderAndAge :
    (∃ (s : State), (s.mp.inFlight.isSome = true ∨ s.mp.path = .direct ∨ (∀ p, tget s.mp.requests p = none)))
    ∧ (∃ (s : State), (s.mp.inFlight.isSome = true ∨ s.mp.path = .direct ∨ (∀ p, tget s.mp.requests p = none)))
    ∧ (∃ (s : State) (mine : Place → Bool),
      (s.mp.inFlight.isSome = true ∨ s.mp.path = .direct ∨ (∀ p, tget s.mp.requests p = none)))
    ∧ (∃ (s : State) (p : Place) (r : Request) (n : Nat) (takes : Place → Prop), s.settled ∧ s.mp.path = .arbitrated ∧
      s.mp.inFlight = none ∧ tget s.mp.requests p = some r ∧ s.mp.takesPart s.freeCount takes n ∧ s.mp.isFirst takes p)
    ∧ (∃ (s : State) (p : Place) (r : Request) (n : Nat) (takes : Place → Prop), s.settled ∧ s.mp.path = .arbitrated ∧
      s.mp.inFlight = none ∧ tget s.mp.requests p = some r ∧ s.mp.takesPart s.freeCount takes n ∧ s.mp.isFirst takes p)
    ∧ (∃ (s : State) (p : Place) (r : Request) (n : Nat) (takes : Place → Prop), s.settled ∧ s.mp.path = .arbitrated ∧
      s.mp.inFlight = none ∧ tget s.mp.requests p = some r ∧ s.mp.takesPart s.freeCount takes n ∧ s.mp.isFirst takes p)
    ∧ (∃ (s : State) (p : Place) (r : Request) (n : Nat) (takes : Place → Prop), s.settled ∧ s.mp.path = .arbitrated ∧
      s.mp.inFlight = none ∧ tget s.mp.requests p = some r ∧ s.mp.takesPart s.freeCount takes n ∧ s.mp.isFirst takes p)
    ∧ (∃ (s : State) (p : Place) (r : Request), s.mp.path = .arbitrated ∧ s.mp.inFlight = none ∧ tget s.mp.requests p = some r ∧
      s.mp.isFirst (fun q => tget s.mp.requests q ≠ none) p)
    ∧ (∃ (s : State) (p : Place) (r : Request), s.mp.path = .arbitrated ∧ s.mp.inFlight = none ∧ tget s.mp.requests p = some r ∧
      s.mp.isFirst (fun q => tget s.mp.requests q ≠ none) p) :=
  ⟨⟨run, Or.inr (Or.inr (by decide))⟩,
    ⟨State.reset, Or.inr (Or.inl (by decide))⟩,
    ⟨run, (fun _ => true), Or.inr (Or.inr (by decide))⟩,
    ⟨awaiting [(2, readOf .dirRead 5), (5, readOf .status 9)] true [(5, 8)], 5, readOf .status 9, _,
      (fun q => tget (awaiting [(2, readOf .dirRead 5), (5, readOf .status 9)] true [(5, 8)]).mp.requests q ≠ none),
      by decide, by decide, by decide, by decide, Or.inl ⟨rfl, fun _ => Iff.rfl, Or.inl (by decide)⟩, by decide⟩,
    ⟨awaiting [(2, readOf .dirRead 5), (5, readOf .status 9)] true [(5, 7)], 2, readOf .dirRead 5, _,
      (fun q => tget (awaiting [(2, readOf .dirRead 5), (5, readOf .status 9)] true [(5, 7)]).mp.requests q ≠ none),
      by decide, by decide, by decide, by decide, Or.inl ⟨rfl, fun _ => Iff.rfl, Or.inl (by decide)⟩, by decide⟩,
    ⟨awaiting [(5, readOf .status 9)] false [], 5, readOf .status 9, _,
      (fun q => tget (awaiting [(5, readOf .status 9)] false []).mp.requests q ≠ none), by decide, by decide, by decide,
      by decide, Or.inl ⟨rfl, fun _ => Iff.rfl, Or.inr ⟨5, by decide⟩⟩, by decide⟩,
    ⟨awaiting (places.map (fun p => (p, readOf .header 7))) false [], (Config.takenFirst 0), readOf .header 7, _,
      (fun q => q = Config.takenFirst 0), by decide, by decide, by decide,
      (by decide : ∀ p, tget (awaiting (places.map (fun p => (p, readOf .header 7))) false []).mp.requests p = some
        (readOf .header 7)) _,
      Or.inr ⟨rfl, by decide, ⟨0, 1, by decide⟩, (by decide : ∀ p, tget (awaiting (places.map (fun p =>
        (p, readOf .header 7))) false []).mp.requests p ≠ none) _, fun _ => Iff.rfl⟩,
      ⟨rfl, Or.inr ⟨fun q _ => (by decide : ∀ q, tget (awaiting (places.map (fun p =>
        (p, readOf .header 7))) false []).mp.passed q ≠ 8) q, fun q hq h => absurd (h ▸ hq) (lt_irrefl _)⟩⟩⟩,
    ⟨awaiting [(2, readOf .dirRead 5), (5, readOf .status 9)] true [(5, 8)], 5, readOf .status 9, by decide⟩,
    ⟨awaiting [(2, readOf .dirRead 5), (5, readOf .status 9)] true [(5, 7)], 2, readOf .dirRead 5, by decide⟩⟩

theorem witness_WriteChangesEnabledBytesOnly :
    (∃ (m : Memory) (f : InFlight), f.req.op = .read)
    ∧ (∃ (m : Memory) (f : InFlight) (be : BitVec 4) (x : Word) (a : Nat) (k : Nat), f.req.op = .write be x ∧ k < 4 ∧
      a = 4 * f.req.word.toNat + k ∧ be.getLsbD k = true)
    ∧ (∃ (m : Memory) (f : InFlight) (be : BitVec 4) (x : Word) (a : Nat), f.req.op = .write be x ∧
      (∀ k, k < 4 → a = 4 * f.req.word.toNat + k → be.getLsbD k = false))
    ∧ (∃ (m : Memory) (f : InFlight) (be : BitVec 4) (x : Word) (a : Nat), f.req.op = .write be x ∧
      (∀ k, k < 4 → a = 4 * f.req.word.toNat + k → be.getLsbD k = false)) :=
  ⟨⟨Memory.empty, flight (readOf .header 0), by decide⟩,
    ⟨Memory.empty, flight { owner := .plainWrite, op := .write 5 0x04030201, word := 3 }, 5, 0x04030201, 14, 2, by decide⟩,
    ⟨Memory.empty, flight { owner := .plainWrite, op := .write 5 0x04030201, word := 3 }, 5, 0x04030201, 15, by decide⟩,
    ⟨Memory.empty, flight { owner := .plainWrite, op := .write 5 0x04030201, word := 3 }, 5, 0x04030201, 16, by decide⟩⟩

theorem witness_PlainWriteTakenAsksItsWrite :
    ∃ (s : State) (t : HostTransfer), s.settled ∧ s.headReady t ∧ t.write = true ∧ t.addr.toNat < 0x800000 ∧ s.ct.walk = none ∧
      s.ct.hit = none :=
  ⟨{ run with aq := { queue := [hostWrite 0x7FFFFC 5], taken := false } }, hostWrite 0x7FFFFC 5, by decide⟩

theorem witness_PlainWriteTakenLeavesNoStaleTranslation :
    (∃ (s : State) (s1 : State) (t : HostTransfer) (r : Request) (cache : List CacheEntry), s.settled ∧ s.headReady t ∧
      s.spc.part = .running ∧ t.write = true ∧ t.addr.toNat < 0x800000 ∧
      r = { owner := .plainWrite, op := .write t.be t.data, word := wordOfTransfer t } ∧
      cache = s.ct.cache.filter (fun e => !e.sources.contains (wordOfTransfer t)) ∧
      s1 = { s with aq := { s.aq with taken := true }, ct := { s.ct with cache := cache } } ∧ s.walkServes)
    ∧ (∃ (s : State) (s1 : State) (t : HostTransfer) (r : Request) (cache : List CacheEntry) (q : CtReq) (k : Walk) (k2 : Walk),
      s.settled ∧ s.headReady t ∧ s.spc.part = .running ∧ t.write = true ∧ t.addr.toNat < 0x800000 ∧
      r = { owner := .plainWrite, op := .write t.be t.data, word := wordOfTransfer t } ∧
      cache = s.ct.cache.filter (fun e => !e.sources.contains (wordOfTransfer t)) ∧
      s1 = { s with aq := { s.aq with taken := true }, ct := { s.ct with cache := cache } } ∧ s.ct.current = some q ∧
      s.ct.walk = some k ∧ k2 = { k with stale := true } ∧ wordOfTransfer t ∉ k.sources)
    ∧ (∃ (s : State) (s1 : State) (t : HostTransfer) (r : Request) (cache : List CacheEntry) (q : CtReq) (k : Walk) (k2 : Walk),
      s.settled ∧ s.headReady t ∧ s.spc.part = .running ∧ t.write = true ∧ t.addr.toNat < 0x800000 ∧
      r = { owner := .plainWrite, op := .write t.be t.data, word := wordOfTransfer t } ∧
      cache = s.ct.cache.filter (fun e => !e.sources.contains (wordOfTransfer t)) ∧
      s1 = { s with aq := { s.aq with taken := true }, ct := { s.ct with cache := cache } } ∧ s.ct.current = some q ∧
      s.ct.walk = some k ∧ k2 = { k with stale := true } ∧ wordOfTransfer t ∈ k.sources ∧
      ((k.step ≠ .dirFlag ∧ k.step ≠ .segFlag) ∨ tget s.mp.requests placeCt = none))
    ∧ (∃ (s : State) (s1 : State) (t : HostTransfer) (r : Request) (cache : List CacheEntry) (q : CtReq) (k : Walk) (k2 : Walk),
      s.settled ∧ s.headReady t ∧ s.spc.part = .running ∧ t.write = true ∧ t.addr.toNat < 0x800000 ∧
      r = { owner := .plainWrite, op := .write t.be t.data, word := wordOfTransfer t } ∧
      cache = s.ct.cache.filter (fun e => !e.sources.contains (wordOfTransfer t)) ∧
      s1 = { s with aq := { s.aq with taken := true }, ct := { s.ct with cache := cache } } ∧ s.ct.current = some q ∧
      s.ct.walk = some k ∧ k2 = { k with stale := true } ∧ wordOfTransfer t ∈ k.sources ∧
      ((k.step ≠ .dirFlag ∧ k.step ≠ .segFlag) ∨ tget s.mp.requests placeCt = none))
    ∧ (∃ (s : State) (s1 : State) (t : HostTransfer) (r : Request) (cache : List CacheEntry) (q : CtReq) (k : Walk)
      (k2 : Walk) (s2 : State) (u : State),
      s.settled ∧ s.headReady t ∧ s.spc.part = .running ∧ t.write = true ∧ t.addr.toNat < 0x800000 ∧
      r = { owner := .plainWrite, op := .write t.be t.data, word := wordOfTransfer t } ∧
      cache = s.ct.cache.filter (fun e => !e.sources.contains (wordOfTransfer t)) ∧
      s1 = { s with aq := { s.aq with taken := true }, ct := { s.ct with cache := cache } } ∧ s.ct.current = some q ∧
      s.ct.walk = some k ∧ k2 = { k with stale := true } ∧ wordOfTransfer t ∈ k.sources ∧
      tget s.mp.requests placeCt ≠ none ∧
      s2 = { s1 with ct := { s1.ct with walk := some k2 }, mp := s.mp.withdrawn placeCt } ∧
      ((k.step = .dirFlag ∧ s2.segmentSought q k2 u) ∨ (k.step = .segFlag ∧ ∃ x, k.result = some x ∧ u = s2.ctFinish q x)))
    ∧ (∃ (s : State) (s1 : State) (t : HostTransfer) (r : Request) (cache : List CacheEntry) (q : CtReq) (k : Walk)
      (k2 : Walk) (s2 : State) (u : State),
      s.settled ∧ s.headReady t ∧ s.spc.part = .running ∧ t.write = true ∧ t.addr.toNat < 0x800000 ∧
      r = { owner := .plainWrite, op := .write t.be t.data, word := wordOfTransfer t } ∧
      cache = s.ct.cache.filter (fun e => !e.sources.contains (wordOfTransfer t)) ∧
      s1 = { s with aq := { s.aq with taken := true }, ct := { s.ct with cache := cache } } ∧ s.ct.current = some q ∧
      s.ct.walk = some k ∧ k2 = { k with stale := true } ∧ wordOfTransfer t ∈ k.sources ∧
      tget s.mp.requests placeCt ≠ none ∧
      s2 = { s1 with ct := { s1.ct with walk := some k2 }, mp := s.mp.withdrawn placeCt } ∧
      ((k.step = .dirFlag ∧ s2.segmentSought q k2 u) ∨ (k.step = .segFlag ∧ ∃ x, k.result = some x ∧ u = s2.ctFinish q x)))
    ∧ (∃ (s : State) (s1 : State) (t : HostTransfer) (r : Request) (cache : List CacheEntry) (q : CtReq) (h : Hit), s.settled ∧
      s.headReady t ∧ s.spc.part = .running ∧ t.write = true ∧ t.addr.toNat < 0x800000 ∧
      r = { owner := .plainWrite, op := .write t.be t.data, word := wordOfTransfer t } ∧
      cache = s.ct.cache.filter (fun e => !e.sources.contains (wordOfTransfer t)) ∧
      s1 = { s with aq := { s.aq with taken := true }, ct := { s.ct with cache := cache } } ∧ s.ct.current = some q ∧
      s.ct.walk = none ∧ s.ct.hit = some h ∧
      (h.flagWord ≠ wordOfTransfer t ∨ (h.result ≠ none ∧ tget s.mp.requests placeCt = none)))
    ∧ (∃ (s : State) (s1 : State) (t : HostTransfer) (r : Request) (cache : List CacheEntry) (q : CtReq) (h : Hit), s.settled ∧
      s.headReady t ∧ s.spc.part = .running ∧ t.write = true ∧ t.addr.toNat < 0x800000 ∧
      r = { owner := .plainWrite, op := .write t.be t.data, word := wordOfTransfer t } ∧
      cache = s.ct.cache.filter (fun e => !e.sources.contains (wordOfTransfer t)) ∧
      s1 = { s with aq := { s.aq with taken := true }, ct := { s.ct with cache := cache } } ∧ s.ct.current = some q ∧
      s.ct.walk = none ∧ s.ct.hit = some h ∧
      (h.flagWord ≠ wordOfTransfer t ∨ (h.result ≠ none ∧ tget s.mp.requests placeCt = none)))
    ∧ (∃ (s : State) (s1 : State) (t : HostTransfer) (r : Request) (cache : List CacheEntry) (q : CtReq) (h : Hit), s.settled ∧
      s.headReady t ∧ s.spc.part = .running ∧ t.write = true ∧ t.addr.toNat < 0x800000 ∧
      r = { owner := .plainWrite, op := .write t.be t.data, word := wordOfTransfer t } ∧
      cache = s.ct.cache.filter (fun e => !e.sources.contains (wordOfTransfer t)) ∧
      s1 = { s with aq := { s.aq with taken := true }, ct := { s.ct with cache := cache } } ∧ s.ct.current = some q ∧
      s.ct.walk = none ∧ s.ct.hit = some h ∧ h.flagWord = wordOfTransfer t ∧ h.result = none)
    ∧ (∃ (s : State) (s1 : State) (t : HostTransfer) (r : Request) (cache : List CacheEntry) (q : CtReq) (h : Hit)
      (x : Translation) (u : State),
      s.settled ∧ s.headReady t ∧ s.spc.part = .running ∧ t.write = true ∧ t.addr.toNat < 0x800000 ∧
      r = { owner := .plainWrite, op := .write t.be t.data, word := wordOfTransfer t } ∧
      cache = s.ct.cache.filter (fun e => !e.sources.contains (wordOfTransfer t)) ∧
      s1 = { s with aq := { s.aq with taken := true }, ct := { s.ct with cache := cache } } ∧ s.ct.current = some q ∧
      s.ct.walk = none ∧ s.ct.hit = some h ∧ h.flagWord = wordOfTransfer t ∧ h.result = some x ∧
      tget s.mp.requests placeCt ≠ none ∧ u = State.ctHand { s1 with mp := s.mp.withdrawn placeCt } q x) :=
  ⟨⟨{ walking .reelUpdate ({ walkAt .dirSecond with sources := [wordAt 0x1000] }) (readOf .dirRead 5)
        with aq := { queue := [hostWrite 0x1000 5], taken := false } }, _, hostWrite 0x1000 5, _, _, by decide, by decide,
      by decide, by decide, by decide, rfl, rfl, rfl, by decide⟩,
    ⟨{ walking .reelUpdate (walkAt .dirSecond) (readOf .dirRead 5)
        with aq := { queue := [hostWrite 0x1000 5], taken := false } }, _, hostWrite 0x1000 5, _, _, request .reelUpdate,
      walkAt .dirSecond, _, by decide, by decide, by decide, by decide, by decide, rfl, rfl, rfl, by decide, by decide, rfl,
      by decide⟩,
    ⟨{ walking .reelUpdate ({ walkAt .dirSecond with sources := [wordAt 0x1000] }) (readOf .dirRead 5)
        with aq := { queue := [hostWrite 0x1000 5], taken := false } }, _, hostWrite 0x1000 5, _, _, request .reelUpdate,
      { walkAt .dirSecond with sources := [wordAt 0x1000] }, _, by decide, by decide, by decide, by decide, by decide, rfl,
      rfl, rfl, by decide, by decide, rfl, by decide, Or.inl (by decide)⟩,
    ⟨{ walking .reelUpdate ({ walkAt .dirFlag with sources := [wordAt 0x1000] }) (readOf .dirRead 5)
        with aq := { queue := [hostWrite 0x1000 5], taken := false } }, _, hostWrite 0x1000 5, _, _, request .reelUpdate,
      { walkAt .dirFlag with sources := [wordAt 0x1000] }, _, by decide, by decide, by decide, by decide, by decide, rfl,
      rfl, rfl, by decide, by decide, rfl, by decide, Or.inr (by decide)⟩,
    ⟨ctWaiting (writeOf .walkFlag (wordAt 0x1000) 0x103) (hostWrite 0x1000 5) (fun c => { c
        with walk := some { walkAt .dirFlag with sources := [wordAt 0x1000] } }), _, hostWrite 0x1000 5, _, _,
      request .reelUpdate, { walkAt .dirFlag with sources := [wordAt 0x1000] }, _, _, _, by decide, by decide, by decide,
      by decide, by decide, rfl, rfl, rfl, by decide, by decide, rfl, by decide, by decide, rfl,
      Or.inl ⟨by decide, Or.inr ⟨by decide, _, _, rfl, rfl, Or.inr ⟨by decide, rfl⟩⟩⟩⟩,
    ⟨ctWaiting (writeOf .walkFlag (wordAt 0x1000) 0x103) (hostWrite 0x1000 5) (fun c => { c
        with walk := some { walkAt .segFlag with sources := [wordAt 0x1000], seg1 := 1, seg2 := 0x000A0000, result := some (.bad .pixelBeyond) } }),
      _, hostWrite 0x1000 5, _, _, request .reelUpdate,
      { walkAt .segFlag
        with sources := [wordAt 0x1000], seg1 := 1, seg2 := 0x000A0000, result := some (.bad .pixelBeyond) }, _, _, _,
      by decide, by decide, by decide, by decide, by decide, rfl, rfl, rfl, by decide, by decide, rfl, by decide, by decide,
      rfl, Or.inr ⟨by decide, .bad .pixelBeyond, by decide, rfl⟩⟩,
    ⟨ctWaiting (writeOf .hitFlag (wordAt 0x2000) 7) (hostWrite 0x1000 5) (fun c => { c with hit := some hit3 }), _,
      hostWrite 0x1000 5, _, _, request .reelUpdate, hit3, by decide, by decide, by decide, by decide, by decide, rfl, rfl,
      rfl, by decide, by decide, by decide, Or.inl (by decide)⟩,
    ⟨{ flying (ctWaiting (writeOf .hitFlag (wordAt 0x2000) 7) (hostWrite 0x2000 5) (fun c => { c with hit := some hit3 })) (writeOf .hitFlag (wordAt 0x2000) 7)
        with mp := (flying run (writeOf .hitFlag (wordAt 0x2000) 7)).mp }, _, hostWrite 0x2000 5, _, _, request .reelUpdate,
      hit3, by decide, by decide, by decide, by decide, by decide, rfl, rfl, rfl, by decide, by decide, by decide,
      Or.inr (by decide)⟩,
    ⟨ctWaiting (writeOf .hitFlag (wordAt 0x2000) 7) (hostWrite 0x2000 5) (fun c => { c
        with hit := some { hit3 with result := none } }), _, hostWrite 0x2000 5, _, _, request .reelUpdate,
      { hit3 with result := none }, by decide, by decide, by decide, by decide, by decide, rfl, rfl, rfl, by decide,
      by decide, by decide, by decide, by decide⟩,
    ⟨ctWaiting (writeOf .hitFlag (wordAt 0x2000) 7) (hostWrite 0x2000 5) (fun c => { c with hit := some hit3 }), _,
      hostWrite 0x2000 5, _, _, request .reelUpdate, hit3, slot3, _, by decide, by decide, by decide, by decide, by decide,
      rfl, rfl, rfl, by decide, by decide, by decide, by decide, by decide, by decide, rfl⟩⟩

theorem witness_ReadsAndCanvasTransfersTaken :
    (∃ (s : State) (t : HostTransfer), s.settled ∧ s.headReady t ∧ t.write = false ∧ t.addr.toNat < 0x800000)
    ∧ (∃ (s : State) (t : HostTransfer), s.settled ∧ s.headReady t ∧ t.write = true ∧ 0x800000 ≤ t.addr.toNat ∧
      t.addr.toNat < 0xB00000)
    ∧ (∃ (s : State) (t : HostTransfer), s.settled ∧ s.headReady t ∧ t.write = false ∧ 0x800000 ≤ t.addr.toNat ∧
      t.addr.toNat < 0xB00000)
    ∧ (∃ (s : State) (c : Instr), c ∈ [Instr.plainWriteTaken, .plainReadTaken, .canvasWriteTaken, .canvasReadTaken] ∧
      (∃ w ∈ s.up.waiting, w.place = .atPort))
    ∧ (∃ (s : State) (c : Instr), c ∈ [Instr.plainWriteTaken, .plainReadTaken, .canvasWriteTaken, .canvasReadTaken] ∧
      (∃ w ∈ s.up.waiting, w.place = .atPort))
    ∧ (∃ (s : State) (c : Instr), c ∈ [Instr.plainWriteTaken, .plainReadTaken, .canvasWriteTaken, .canvasReadTaken] ∧
      (∃ w ∈ s.up.waiting, w.place = .atPort))
    ∧ (∃ (s : State) (c : Instr), c ∈ [Instr.plainWriteTaken, .plainReadTaken, .canvasWriteTaken, .canvasReadTaken] ∧
      (∃ w ∈ s.up.waiting, w.place = .atPort)) :=
  ⟨⟨{ run with aq := { queue := [hostRead 0x7FFFFC], taken := false } }, hostRead 0x7FFFFC, by decide⟩,
    ⟨{ run with aq := { queue := [hostWrite 0x800000 5], taken := false } }, hostWrite 0x800000 5, by decide⟩,
    ⟨{ run with aq := { queue := [hostRead 0xAFFFFC], taken := false } }, hostRead 0xAFFFFC, by decide⟩,
    ⟨{ inPart .passive
        with aq := { queue := [hostWrite 0x100 1], taken := false }, up := { run.up with waiting := some ⟨hostRead 0x100, .atPort⟩ } },
      .plainWriteTaken, by decide, ⟨_, rfl, rfl⟩⟩,
    ⟨{ inPart .passive
        with aq := { queue := [hostWrite 0x100 1], taken := false }, up := { run.up with waiting := some ⟨hostRead 0x100, .atPort⟩ } },
      .plainReadTaken, by decide, ⟨_, rfl, rfl⟩⟩,
    ⟨{ inPart .passive
        with aq := { queue := [hostWrite 0x100 1], taken := false }, up := { run.up with waiting := some ⟨hostRead 0x100, .atPort⟩ } },
      .canvasWriteTaken, by decide, ⟨_, rfl, rfl⟩⟩,
    ⟨{ inPart .passive
        with aq := { queue := [hostWrite 0x100 1], taken := false }, up := { run.up with waiting := some ⟨hostRead 0x100, .atPort⟩ } },
      .canvasReadTaken, by decide, ⟨_, rfl, rfl⟩⟩⟩

theorem witness_PlainTransfersComplete :
    (∃ (s : State) (f : InFlight) (t : HostTransfer), s.settled ∧ s.spc.part ≠ .passive ∧ s.headWriting f t ∧
      (controlOf t = none ∨ s.spc.part ≠ .running))
    ∧ (∃ (s : State) (v : State) (f : InFlight) (t : HostTransfer) (held : List HostTransfer) (rest : List HostTransfer),
      s.settled ∧ s.spc.part = .passive ∧ s.headWriting f t ∧ controlOf t ≠ some .restart ∧
      s.nextQueue.queue = held ++ rest ∧ (∀ x ∈ held, region x ≠ .plain) ∧ (∀ x ∈ rest.head?, region x = .plain) ∧
      v = { s with
        memory := s.memory.after f, mp := s.mp.freed, aq := { queue := rest, taken := false }
        up := if held.all (fun x => x.write) then s.nextUp
              else { s.nextUp with waiting := none, answer := some { ready := false, data := some 0 } } } ∧
      (rest ≠ [] ∨ ∀ w ∈ v.up.waiting, w.place ≠ .forPort))
    ∧ (∃ (s : State) (v : State) (f : InFlight) (t : HostTransfer) (held : List HostTransfer) (rest : List HostTransfer),
      s.settled ∧ s.spc.part = .passive ∧ s.headWriting f t ∧ controlOf t ≠ some .restart ∧
      s.nextQueue.queue = held ++ rest ∧ (∀ x ∈ held, region x ≠ .plain) ∧ (∀ x ∈ rest.head?, region x = .plain) ∧
      v = { s with
        memory := s.memory.after f, mp := s.mp.freed, aq := { queue := rest, taken := false }
        up := if held.all (fun x => x.write) then s.nextUp
              else { s.nextUp with waiting := none, answer := some { ready := false, data := some 0 } } } ∧
      (rest ≠ [] ∨ ∀ w ∈ v.up.waiting, w.place ≠ .forPort))
    ∧ (∃ (s : State) (v : State) (f : InFlight) (t : HostTransfer) (held : List HostTransfer) (rest : List HostTransfer),
      s.settled ∧ s.spc.part = .passive ∧ s.headWriting f t ∧ controlOf t ≠ some .restart ∧
      s.nextQueue.queue = held ++ rest ∧ (∀ x ∈ held, region x ≠ .plain) ∧ (∀ x ∈ rest.head?, region x = .plain) ∧
      v = { s with
        memory := s.memory.after f, mp := s.mp.freed, aq := { queue := rest, taken := false }
        up := if held.all (fun x => x.write) then s.nextUp
              else { s.nextUp with waiting := none, answer := some { ready := false, data := some 0 } } } ∧
      (rest ≠ [] ∨ ∀ w ∈ v.up.waiting, w.place ≠ .forPort))
    ∧ (∃ (s : State) (v : State) (f : InFlight) (t : HostTransfer) (held : List HostTransfer) (rest : List HostTransfer)
      (x : HostTransfer),
      s.settled ∧ s.spc.part = .passive ∧ s.headWriting f t ∧ controlOf t ≠ some .restart ∧
      s.nextQueue.queue = held ++ rest ∧ (∀ x ∈ held, region x ≠ .plain) ∧ (∀ x ∈ rest.head?, region x = .plain) ∧
      v = { s with
        memory := s.memory.after f, mp := s.mp.freed, aq := { queue := rest, taken := false }
        up := if held.all (fun x => x.write) then s.nextUp
              else { s.nextUp with waiting := none, answer := some { ready := false, data := some 0 } } } ∧ rest = [] ∧
      v.up.waiting = some ⟨x, .forPort⟩)
    ∧ (∃ (s : State) (f : InFlight) (t : HostTransfer) (rest : List HostTransfer), s.settled ∧ s.inFlightFor f .plainRead ∧
      f.req.op = .read ∧ s.aq.queue = t :: rest ∧ (s.spc.part = .passive → ∀ u ∈ rest.head?, region u = .plain))
    ∧ (∃ (s : State) (f : InFlight) (t : HostTransfer) (held : List HostTransfer) (rest : List HostTransfer), s.settled ∧
      s.spc.part = .passive ∧ s.inFlightFor f .plainRead ∧ f.req.op = .read ∧ s.aq.queue = t :: (held ++ rest) ∧
      (∀ x ∈ held, region x ≠ .plain) ∧ (∀ x ∈ rest.head?, region x = .plain))
    ∧ (∃ (s : State) (f : InFlight) (t : HostTransfer) (held : List HostTransfer) (rest : List HostTransfer), s.settled ∧
      s.spc.part = .passive ∧ s.inFlightFor f .plainRead ∧ f.req.op = .read ∧ s.aq.queue = t :: (held ++ rest) ∧
      (∀ x ∈ held, region x ≠ .plain) ∧ (∀ x ∈ rest.head?, region x = .plain)) :=
  ⟨⟨writing run (hostWrite 0x100 7), flight (headWrite (hostWrite 0x100 7)), hostWrite 0x100 7, by decide⟩,
    ⟨{ writing (inPart .passive) (hostWrite 0x94 7) with aq := { queue := [hostWrite 0x94 7, hostWrite 4 1], taken := true } },
      _, flight (headWrite (hostWrite 0x94 7)), hostWrite 0x94 7, [], [hostWrite 4 1], by decide, by decide, by decide,
      by decide, by decide, by decide, by decide, rfl, Or.inl (by decide)⟩,
    ⟨{ writing (inPart .passive) (hostWrite 0x94 7)
        with aq := { queue := [hostWrite 0x94 7, hostWrite 0x800000 1, hostWrite 4 1], taken := true } }, _,
      flight (headWrite (hostWrite 0x94 7)), hostWrite 0x94 7, [hostWrite 0x800000 1], [hostWrite 4 1], by decide,
      by decide, by decide, by decide, by decide, by decide, by decide, rfl, Or.inl (by decide)⟩,
    ⟨{ writing (inPart .passive) (hostWrite 0x94 7)
        with aq := { queue := [hostWrite 0x94 7, hostRead 0x800000], taken := true }, up := { run.up with waiting := some ⟨hostRead 0x800000, .queued⟩ } },
      _, flight (headWrite (hostWrite 0x94 7)), hostWrite 0x94 7, [hostRead 0x800000], [], by decide, by decide, by decide,
      by decide, by decide, by decide, by decide, rfl, Or.inr (by decide)⟩,
    ⟨{ writing (inPart .passive) (hostWrite 0x94 7)
        with aq := { queue := [hostWrite 0x94 7, hostWrite 0x800000 1], taken := true }, up := { run.up with waiting := some ⟨hostRead 4, .forPort⟩ } },
      _, flight (headWrite (hostWrite 0x94 7)), hostWrite 0x94 7, [hostWrite 0x800000 1], [], hostRead 4, by decide,
      by decide, by decide, by decide, by decide, by decide, by decide, rfl, by decide, by decide⟩,
    ⟨badAt 0x103 { flying run (readOf .plainRead (wordAt 0x100)) with aq := { queue := [hostRead 0x100], taken := true } },
      flight (readOf .plainRead (wordAt 0x100)), hostRead 0x100, [], by decide⟩,
    ⟨{ flying (inPart .passive) (readOf .plainRead (wordAt 0x100))
        with aq := { queue := [hostRead 0x100, hostWrite 0x800000 1], taken := true }, up := { run.up with waiting := some ⟨hostRead 0x100, .queued⟩ } },
      flight (readOf .plainRead (wordAt 0x100)), hostRead 0x100, [hostWrite 0x800000 1], [], by decide⟩,
    ⟨{ flying (inPart .passive) (readOf .plainRead (wordAt 0x100))
        with aq := { queue := [hostRead 0x100, hostRead 0x800000, hostWrite 4 1], taken := true }, up := { run.up with waiting := some ⟨hostRead 0x100, .queued⟩ } },
      flight (readOf .plainRead (wordAt 0x100)), hostRead 0x100, [hostRead 0x800000], [hostWrite 4 1], by decide⟩⟩

theorem witness_SealWordSealsOrSealsNothing :
    (∃ (s : State) (f : InFlight) (t : HostTransfer) (i : Fin 8) (b : Batch), s.settled ∧ s.spc.part = .running ∧
      s.headWriting f t ∧ controlOf t = some .seal ∧ (t.data.getLsbD 31 = false ∨ s.rp.state = .idle) ∧
      s.jc.openDrawn = some i ∧ s.jc.at i = some b ∧ b.entries ≠ [])
    ∧ (∃ (s : State) (f : InFlight) (t : HostTransfer), s.settled ∧ s.spc.part = .running ∧ s.headWriting f t ∧
      controlOf t = some .seal ∧ (t.data.getLsbD 31 = false ∨ s.rp.state = .idle) ∧
      (s.jc.openDrawn = none ∨ ∃ i b, s.jc.openDrawn = some i ∧ s.jc.at i = some b ∧ b.entries = []))
    ∧ (∃ (s : State) (f : InFlight) (t : HostTransfer), s.settled ∧ s.spc.part = .running ∧ s.headWriting f t ∧
      controlOf t = some .seal ∧ (t.data.getLsbD 31 = false ∨ s.rp.state = .idle) ∧
      (s.jc.openDrawn = none ∨ ∃ i b, s.jc.openDrawn = some i ∧ s.jc.at i = some b ∧ b.entries = [])) :=
  ⟨⟨writing (withBatch run 3 (batch .opened .drawn [entry5])) (hostWrite 0x80 0xBEEF),
      flight (headWrite (hostWrite 0x80 0xBEEF)), hostWrite 0x80 0xBEEF, 3, batch .opened .drawn [entry5], by decide⟩,
    ⟨writing run (hostWrite 0x80 0xBEEF), flight (headWrite (hostWrite 0x80 0xBEEF)), hostWrite 0x80 0xBEEF, by decide,
      by decide, by decide, by decide, by decide, Or.inl (by decide)⟩,
    ⟨writing (withBatch run 0 (batch .opened .drawn [])) (hostWrite 0x80 0xBEEF), flight (headWrite (hostWrite 0x80 0xBEEF)),
      hostWrite 0x80 0xBEEF, by decide, by decide, by decide, by decide, by decide,
      Or.inr ⟨0, batch .opened .drawn [], by decide⟩⟩⟩

theorem witness_TakeoverSealsAndStopsTheReel :
    (∃ (s : State) (s1 : State) (f : InFlight) (t : HostTransfer) (j : Jc), s.settled ∧ s.spc.part = .running ∧
      s.headWriting f t ∧ controlOf t = some .seal ∧ t.data.getLsbD 31 = true ∧
      ((∃ i b, s.jc.openDrawn = some i ∧ s.jc.at i = some b ∧ b.entries ≠ [] ∧
        j = { s.jc with
          slots := tset s.jc.slots i (some { b with
            phase := .sealed, sealOrder := some s.jc.sealCounter
            tag := some (t.data.setWidth 16), takeover := some true })
          sealCounter := s.jc.sealCounter + 1 })
      ∨ ((s.jc.openDrawn = none ∨ ∃ i b, s.jc.openDrawn = some i ∧ s.jc.at i = some b ∧ b.entries = []) ∧ j = s.jc)) ∧
      s1 = { s with
      memory := s.memory.after f, mp := s.mp.freed, aq := s.nextQueue, up := s.nextUp
      spc := s.spcCancelled, ru := s.ruCancelled, jc := j } ∧ s.rp.state = .idle)
    ∧ (∃ (s : State) (s1 : State) (f : InFlight) (t : HostTransfer) (j : Jc), s.settled ∧ s.spc.part = .running ∧
      s.headWriting f t ∧ controlOf t = some .seal ∧ t.data.getLsbD 31 = true ∧
      ((∃ i b, s.jc.openDrawn = some i ∧ s.jc.at i = some b ∧ b.entries ≠ [] ∧
        j = { s.jc with
          slots := tset s.jc.slots i (some { b with
            phase := .sealed, sealOrder := some s.jc.sealCounter
            tag := some (t.data.setWidth 16), takeover := some true })
          sealCounter := s.jc.sealCounter + 1 })
      ∨ ((s.jc.openDrawn = none ∨ ∃ i b, s.jc.openDrawn = some i ∧ s.jc.at i = some b ∧ b.entries = []) ∧ j = s.jc)) ∧
      s1 = { s with
      memory := s.memory.after f, mp := s.mp.freed, aq := s.nextQueue, up := s.nextUp
      spc := s.spcCancelled, ru := s.ruCancelled, jc := j } ∧ s.rp.state ≠ .idle)
    ∧ (∃ (s : State) (s1 : State) (f : InFlight) (t : HostTransfer) (j : Jc), s.settled ∧ s.spc.part = .running ∧
      s.headWriting f t ∧ controlOf t = some .seal ∧ t.data.getLsbD 31 = true ∧
      ((∃ i b, s.jc.openDrawn = some i ∧ s.jc.at i = some b ∧ b.entries ≠ [] ∧
        j = { s.jc with
          slots := tset s.jc.slots i (some { b with
            phase := .sealed, sealOrder := some s.jc.sealCounter
            tag := some (t.data.setWidth 16), takeover := some true })
          sealCounter := s.jc.sealCounter + 1 })
      ∨ ((s.jc.openDrawn = none ∨ ∃ i b, s.jc.openDrawn = some i ∧ s.jc.at i = some b ∧ b.entries = []) ∧ j = s.jc)) ∧
      s1 = { s with
      memory := s.memory.after f, mp := s.mp.freed, aq := s.nextQueue, up := s.nextUp
      spc := s.spcCancelled, ru := s.ruCancelled, jc := j } ∧ s.rp.state ≠ .idle)
    ∧ (∃ (s : State) (s1 : State) (f : InFlight) (t : HostTransfer) (j : Jc), s.settled ∧ s.spc.part = .running ∧
      s.headWriting f t ∧ controlOf t = some .seal ∧ t.data.getLsbD 31 = true ∧
      ((∃ i b, s.jc.openDrawn = some i ∧ s.jc.at i = some b ∧ b.entries ≠ [] ∧
        j = { s.jc with
          slots := tset s.jc.slots i (some { b with
            phase := .sealed, sealOrder := some s.jc.sealCounter
            tag := some (t.data.setWidth 16), takeover := some true })
          sealCounter := s.jc.sealCounter + 1 })
      ∨ ((s.jc.openDrawn = none ∨ ∃ i b, s.jc.openDrawn = some i ∧ s.jc.at i = some b ∧ b.entries = []) ∧ j = s.jc)) ∧
      s1 = { s with
      memory := s.memory.after f, mp := s.mp.freed, aq := s.nextQueue, up := s.nextUp
      spc := s.spcCancelled, ru := s.ruCancelled, jc := j }) :=
  ⟨⟨writing (withBatch (run) 3 (batch .opened .drawn [entry5])) (hostWrite 0x80 0x8000BEEF), _,
      flight (headWrite (hostWrite 0x80 0x8000BEEF)), hostWrite 0x80 0x8000BEEF, _, by decide, by decide, by decide,
      by decide, by decide, Or.inl ⟨3, batch .opened .drawn [entry5], by decide, by decide, by decide, rfl⟩, rfl, by decide⟩,
    ⟨writing (withBatch (playing .waiting .none none run) 3 (batch .opened .drawn [entry5])) (hostWrite 0x80 0x8000BEEF), _,
      flight (headWrite (hostWrite 0x80 0x8000BEEF)), hostWrite 0x80 0x8000BEEF, _, by decide, by decide, by decide,
      by decide, by decide, Or.inl ⟨3, batch .opened .drawn [entry5], by decide, by decide, by decide, rfl⟩, rfl, by decide⟩,
    ⟨writing (playing .ending .none none run) (hostWrite 0x80 0x8000BEEF), _, flight (headWrite (hostWrite 0x80 0x8000BEEF)),
      hostWrite 0x80 0x8000BEEF, _, by decide, by decide, by decide, by decide, by decide, Or.inr ⟨Or.inl (by decide), rfl⟩,
      rfl, by decide⟩,
    ⟨writing (playing .ending .none none run) (hostWrite 0x80 0x8000BEEF), _, flight (headWrite (hostWrite 0x80 0x8000BEEF)),
      hostWrite 0x80 0x8000BEEF, _, by decide, by decide, by decide, by decide, by decide, Or.inr ⟨Or.inl (by decide), rfl⟩,
      rfl⟩⟩

theorem witness_ReportAndAcknowledgeWords :
    (∃ (s : State) (f : InFlight) (t : HostTransfer), s.settled ∧ s.spc.part = .running ∧ s.headWriting f t ∧
      controlOf t = some .report)
    ∧ (∃ (s : State) (f : InFlight) (t : HostTransfer), s.settled ∧ s.spc.part = .running ∧ s.headWriting f t ∧
      controlOf t = some .acknowledge) :=
  ⟨⟨writing run (hostWrite 0x84 0), flight (headWrite (hostWrite 0x84 0)), hostWrite 0x84 0, by decide⟩,
    ⟨writing run (hostWrite 0x88 3), flight (headWrite (hostWrite 0x88 3)), hostWrite 0x88 3, by decide⟩⟩

theorem witness_StandbyWordEntersOrPends :
    (∃ (s : State) (f : InFlight) (t : HostTransfer), s.settled ∧ s.spc.part = .running ∧ s.headWriting f t ∧
      controlOf t = some .standby ∧ s.partQuiet ∧ s.nextQueue.queue = [])
    ∧ (∃ (s : State) (f : InFlight) (t : HostTransfer), s.settled ∧ s.spc.part = .running ∧ s.headWriting f t ∧
      controlOf t = some .standby ∧ s.partQuiet ∧ s.nextQueue.queue ≠ [])
    ∧ (∃ (s : State) (f : InFlight) (t : HostTransfer), s.settled ∧ s.spc.part = .running ∧ s.headWriting f t ∧
      controlOf t = some .standby ∧ ¬ s.partQuiet) :=
  ⟨⟨writing run (hostWrite 0x8C 0), flight (headWrite (hostWrite 0x8C 0)), hostWrite 0x8C 0, by decide⟩,
    ⟨{ writing run (hostWrite 0x8C 0) with aq := { queue := [hostWrite 0x8C 0, hostRead 4], taken := true } },
      flight (headWrite (hostWrite 0x8C 0)), hostWrite 0x8C 0, by decide⟩,
    ⟨writing (withBatch run 0 (batch .opened .drawn [entry5])) (hostWrite 0x8C 0), flight (headWrite (hostWrite 0x8C 0)),
      hostWrite 0x8C 0, by decide⟩⟩

theorem witness_ReloadWordMakesProfilesDue :
    (∃ (s : State) (f : InFlight) (t : HostTransfer) (p : Fin 16), s.settled ∧ s.spc.part = .running ∧ s.headWriting f t ∧
      controlOf t = some .profileReload ∧ s.questionHeld s.pu ∧ t.data.toNat = p.val ∧ s.pu.load = none ∧
      (∀ q, tget s.pu.pending q = false) ∧ s.pu.base + 8 * p.val + 4 ≤ 0x7FFFFF)
    ∧ (∃ (s : State) (f : InFlight) (t : HostTransfer), s.settled ∧ s.spc.part = .running ∧ s.headWriting f t ∧
      controlOf t = some .profileReload ∧ s.questionHeld s.pu ∧ 16 ≤ t.data.toNat ∧ s.pu.load = none ∧
      s.pu.base + 4 ≤ 0x7FFFFF)
    ∧ (∃ (s : State) (f : InFlight) (t : HostTransfer) (p : Fin 16) (l : Load), s.settled ∧ s.spc.part = .running ∧
      s.headWriting f t ∧ controlOf t = some .profileReload ∧ s.questionHeld s.pu ∧ t.data.toNat = p.val ∧
      s.pu.load = some l ∧ l.profile = p)
    ∧ (∃ (s : State) (f : InFlight) (t : HostTransfer) (p : Fin 16) (l : Load), s.settled ∧ s.spc.part = .running ∧
      s.headWriting f t ∧ controlOf t = some .profileReload ∧ s.questionHeld s.pu ∧ t.data.toNat = p.val ∧
      s.pu.load = some l ∧ l.profile ≠ p)
    ∧ (∃ (s : State) (f : InFlight) (t : HostTransfer) (l : Load), s.settled ∧ s.spc.part = .running ∧ s.headWriting f t ∧
      controlOf t = some .profileReload ∧ s.questionHeld s.pu ∧ 16 ≤ t.data.toNat ∧ s.pu.load = some l)
    ∧ (∃ (s : State) (f : InFlight) (t : HostTransfer) (s1 : State) (u : Pu) (v : Pu), s.settled ∧ s.spc.part = .running ∧
      s.headWriting f t ∧ controlOf t = some .profileReload ∧ s.questionHeld s.pu ∧ s.pu.load = none ∧
      ((∃ p : Fin 16, t.data.toNat = p.val ∧ u = { s.pu with pending := tset s.pu.pending p true })
        ∨ (16 ≤ t.data.toNat ∧ u = { s.pu with pending := Vector.replicate 16 true })) ∧ u.restDone v ∧
      s1 = { s with memory := s.memory.after f, mp := s.mp.freed, aq := s.nextQueue, up := s.nextUp, pu := v } ∧
      s.questionHeld v)
    ∧ (∃ (s : State) (f : InFlight) (t : HostTransfer) (s1 : State) (u : Pu) (v : Pu), s.settled ∧ s.spc.part = .running ∧
      s.headWriting f t ∧ controlOf t = some .profileReload ∧ s.questionHeld s.pu ∧ s.pu.load = none ∧
      ((∃ p : Fin 16, t.data.toNat = p.val ∧ u = { s.pu with pending := tset s.pu.pending p true })
        ∨ (16 ≤ t.data.toNat ∧ u = { s.pu with pending := Vector.replicate 16 true })) ∧ u.restDone v ∧
      s1 = { s with memory := s.memory.after f, mp := s.mp.freed, aq := s.nextQueue, up := s.nextUp, pu := v } ∧
      s.questionHeld v)
    ∧ (∃ (s : State) (f : InFlight) (t : HostTransfer) (s1 : State) (u : Pu) (v : Pu) (w : State), s.settled ∧
      s.spc.part = .running ∧ s.headWriting f t ∧ controlOf t = some .profileReload ∧ s.questionHeld s.pu ∧
      s.pu.load = none ∧
      ((∃ p : Fin 16, t.data.toNat = p.val ∧ u = { s.pu with pending := tset s.pu.pending p true })
        ∨ (16 ≤ t.data.toNat ∧ u = { s.pu with pending := Vector.replicate 16 true })) ∧ u.restDone v ∧
      s1 = { s with memory := s.memory.after f, mp := s.mp.freed, aq := s.nextQueue, up := s.nextUp, pu := v } ∧
      s1.profileAnswered w) :=
  ⟨⟨writing run (hostWrite 0x90 15), flight (headWrite (hostWrite 0x90 15)), hostWrite 0x90 15, 15, by decide, by decide,
      by decide, by decide, by decide, by decide, by decide, by decide, by decide⟩,
    ⟨writing run (hostWrite 0x90 16), flight (headWrite (hostWrite 0x90 16)), hostWrite 0x90 16, by decide, by decide,
      by decide, by decide, by decide, by decide, by decide, by decide⟩,
    ⟨{ writing run (hostWrite 0x90 15)
        with pu := { Pu.reset with load := some { profile := 15, first := none, bad := false, again := false, asked := 0 } } },
      flight (headWrite (hostWrite 0x90 15)), hostWrite 0x90 15, 15,
      { profile := 15, first := none, bad := false, again := false, asked := 0 }, by decide, by decide, by decide,
      by decide, by decide, by decide, by decide, by decide⟩,
    ⟨{ writing run (hostWrite 0x90 15)
        with pu := { Pu.reset with load := some { profile := 14, first := none, bad := false, again := false, asked := 0 } } },
      flight (headWrite (hostWrite 0x90 15)), hostWrite 0x90 15, 15,
      { profile := 14, first := none, bad := false, again := false, asked := 0 }, by decide, by decide, by decide,
      by decide, by decide, by decide, by decide, by decide⟩,
    ⟨{ writing run (hostWrite 0x90 16)
        with pu := { Pu.reset with load := some { profile := 15, first := none, bad := false, again := false, asked := 0 } } },
      flight (headWrite (hostWrite 0x90 16)), hostWrite 0x90 16,
      { profile := 15, first := none, bad := false, again := false, asked := 0 }, by decide, by decide, by decide,
      by decide, by decide, by decide, by decide⟩,
    ⟨{ writing run (hostWrite 0x90 16) with pu := { Pu.reset with base := 0x7FFFFC } }, flight (headWrite (hostWrite 0x90 16)),
      hostWrite 0x90 16, _, _, _, by decide, by decide, by decide, by decide, by decide, by decide, Or.inr ⟨by decide, rfl⟩,
      Or.inr ⟨⟨0, by decide⟩, rfl⟩, rfl, by decide⟩,
    ⟨{ writing run (hostWrite 0x90 15) with pu := { Pu.reset with base := 0x7FFF84 } }, flight (headWrite (hostWrite 0x90 15)),
      hostWrite 0x90 15, _, _, _, by decide, by decide, by decide, by decide, by decide, by decide,
      Or.inl ⟨15, by decide, rfl⟩, Or.inr ⟨⟨15, by decide⟩, rfl⟩, rfl, by decide⟩,
    ⟨{ writing run (hostWrite 0x90 16)
        with pu := { Pu.reset with base := 0x7FFFFC, pending := Vector.replicate 16 true }, ct := { Ct.reset with slotCount := 64, current := some (request .reelUpdate), hit := some { hit3 with result := none } } },
      flight (headWrite (hostWrite 0x90 16)), hostWrite 0x90 16, _, _, _, _, by decide, by decide, by decide, by decide,
      by decide, by decide, Or.inr ⟨by decide, rfl⟩, Or.inr ⟨⟨0, by decide⟩, rfl⟩, rfl,
      ⟨request .reelUpdate, by decide, Or.inr ⟨by decide, { hit3
        with result := none }, by decide, by decide, Or.inl ⟨.profileVoid, by decide, rfl⟩⟩⟩⟩⟩

theorem witness_ReelStopWordStopsTheReel :
    (∃ (s : State) (s1 : State) (f : InFlight) (t : HostTransfer), s.settled ∧ s.spc.part = .running ∧ s.headWriting f t ∧
      controlOf t = some .reelStop ∧
      s1 = { s with memory := s.memory.after f, mp := s.mp.freed, aq := s.nextQueue, up := s.nextUp } ∧ s.rp.state = .idle)
    ∧ (∃ (s : State) (s1 : State) (f : InFlight) (t : HostTransfer), s.settled ∧ s.spc.part = .running ∧ s.headWriting f t ∧
      controlOf t = some .reelStop ∧
      s1 = { s with memory := s.memory.after f, mp := s.mp.freed, aq := s.nextQueue, up := s.nextUp } ∧ s.rp.state ≠ .idle) :=
  ⟨⟨writing run (hostWrite 0x94 0), _, flight (headWrite (hostWrite 0x94 0)), hostWrite 0x94 0, by decide, by decide,
      by decide, by decide, rfl, by decide⟩,
    ⟨writing (playing .loading .header none run) (hostWrite 0x94 0), _, flight (headWrite (hostWrite 0x94 0)), hostWrite 0x94 0,
      by decide, by decide, by decide, by decide, rfl, by decide⟩⟩

theorem witness_RestartWordIsAcceptedOrRefused :
    (∃ (s : State) (f : InFlight) (t : HostTransfer), s.settled ∧ s.spc.part = .running ∧ s.headWriting f t ∧
      controlOf t = some .restart ∧ s.partQuiet ∧ (∀ w ∈ s.up.waiting, w.place ≠ .forPort))
    ∧ (∃ (s : State) (f : InFlight) (t : HostTransfer), s.settled ∧ s.spc.part = .running ∧ s.headWriting f t ∧
      controlOf t = some .restart ∧ ¬ s.partQuiet)
    ∧ (∃ (s : State) (f : InFlight) (w : Waiting), s.settled ∧ s.spc.part = .passive ∧ s.inFlightFor f .passive ∧
      f.req.op ≠ .read ∧ s.up.waiting = some w ∧ controlOf w.xfer = some .restart)
    ∧ (∃ (s : State) (f : InFlight) (t : HostTransfer), s.settled ∧ s.spc.part = .passive ∧ s.headWriting f t ∧
      controlOf t = some .restart ∧ (∀ w ∈ s.up.waiting, w.place ≠ .forPort))
    ∧ (∃ (s : State) (s1 : State) (f : InFlight) (t : HostTransfer) (x : HostTransfer), s.settled ∧ s.spc.part = .passive ∧
      s.headWriting f t ∧ controlOf t = some .restart ∧ s.up.waiting = some ⟨x, .forPort⟩ ∧
      s1 = State.restarted (State.grantFirst { s with
        memory := s.memory.after f, mp := s.mp.freed, aq := s.nextQueue
        up := { s.up with waiting := some ⟨x, .atPort⟩ } } (fun _ => true))) :=
  ⟨⟨writing (withBatch run 0 (batch .opened .drawn [])) (hostWrite 0x98 0), flight (headWrite (hostWrite 0x98 0)),
      hostWrite 0x98 0, by decide⟩,
    ⟨writing (withBatch run 0 (batch .opened .drawn [entry5])) (hostWrite 0x98 0), flight (headWrite (hostWrite 0x98 0)),
      hostWrite 0x98 0, by decide⟩,
    ⟨{ flying (inPart .passive) { owner := .passive, op := .write 15 0, word := wordAt 0x98 }
        with up := { run.up with waiting := some ⟨hostWrite 0x98 0, .atPort⟩ } },
      flight { owner := .passive, op := .write 15 0, word := wordAt 0x98 }, ⟨hostWrite 0x98 0, .atPort⟩, by decide⟩,
    ⟨writing (inPart .passive) (hostWrite 0x98 0), flight (headWrite (hostWrite 0x98 0)), hostWrite 0x98 0, by decide⟩,
    ⟨{ writing (inPart .passive) (hostWrite 0x98 0) with up := { run.up with waiting := some ⟨hostRead 4, .forPort⟩ } }, _,
      flight (headWrite (hostWrite 0x98 0)), hostWrite 0x98 0, hostRead 4, by decide, by decide, by decide, by decide,
      by decide, rfl⟩⟩

theorem witness_PlayWordIsACue :
    (∃ (s : State) (f : InFlight) (t : HostTransfer) (n : Fin 4), s.settled ∧ s.spc.part = .running ∧ s.headWriting f t ∧
      controlOf t = some .play ∧ t.data.toNat = n.val ∧ (tget s.rp.directory n).enabled = true ∧ s.rp.state = .idle)
    ∧ (∃ (s : State) (f : InFlight) (t : HostTransfer) (n : Fin 4), s.settled ∧ s.spc.part = .running ∧ s.headWriting f t ∧
      controlOf t = some .play ∧ t.data.toNat = n.val ∧ (tget s.rp.directory n).enabled = true ∧ s.rp.state ≠ .idle)
    ∧ (∃ (s : State) (f : InFlight) (t : HostTransfer) (n : Fin 4), s.settled ∧ s.spc.part = .running ∧ s.headWriting f t ∧
      controlOf t = some .play ∧ t.data.toNat = n.val ∧ (tget s.rp.directory n).enabled = false)
    ∧ (∃ (s : State) (f : InFlight) (t : HostTransfer), s.settled ∧ s.spc.part = .running ∧ s.headWriting f t ∧
      controlOf t = some .play ∧ 4 ≤ t.data.toNat) :=
  ⟨⟨writing (playing .idle .none none run) (hostWrite 0xA0 0), flight (headWrite (hostWrite 0xA0 0)), hostWrite 0xA0 0, 0,
      by decide⟩,
    ⟨writing (playing .ending .none none run) (hostWrite 0xA0 0), flight (headWrite (hostWrite 0xA0 0)), hostWrite 0xA0 0, 0,
      by decide⟩,
    ⟨writing run (hostWrite 0xA0 3), flight (headWrite (hostWrite 0xA0 3)), hostWrite 0xA0 3, 3, by decide⟩,
    ⟨writing run (hostWrite 0xA0 4), flight (headWrite (hostWrite 0xA0 4)), hostWrite 0xA0 4, by decide⟩⟩

theorem witness_CueLineEdgeByPartState :
    (∃ (s : State) (n : Fin 4), s.settled ∧ s.rp.watching = false)
    ∧ (∃ (s : State) (n : Fin 4), s.settled ∧ s.rp.watching = true ∧ s.spc.part = .running ∧
      (tget s.rp.directory n).enabled = true ∧ s.rp.state = .idle)
    ∧ (∃ (s : State) (n : Fin 4), s.settled ∧ s.rp.watching = true ∧ s.spc.part = .running ∧
      (tget s.rp.directory n).enabled = true ∧ s.rp.state ≠ .idle)
    ∧ (∃ (s : State) (n : Fin 4), s.settled ∧ s.rp.watching = true ∧ (s.spc.part = .running ∨ s.spc.part = .standby) ∧
      (tget s.rp.directory n).enabled = false)
    ∧ (∃ (s : State) (n : Fin 4), s.settled ∧ s.rp.watching = true ∧ (s.spc.part = .running ∨ s.spc.part = .standby) ∧
      (tget s.rp.directory n).enabled = false)
    ∧ (∃ (s : State) (n : Fin 4) (sub : SubState), s.settled ∧ s.rp.watching = true ∧ s.spc.part = .starting sub)
    ∧ (∃ (s : State) (n : Fin 4), s.settled ∧ s.rp.watching = true ∧ s.spc.part = .standby ∧
      (tget s.rp.directory n).enabled = true ∧ s.rp.state = .idle ∧ s.spc.standbyPending = false) :=
  ⟨⟨State.reset, 0, by decide⟩,
    ⟨playing .idle .none none run, 0, by decide⟩,
    ⟨playing .stopping .none none run, 0, by decide⟩,
    ⟨run, 3, by decide⟩,
    ⟨inPart .standby, 3, by decide⟩,
    ⟨inPart (.starting .readRoot), 3, .readRoot, by decide⟩,
    ⟨playing .idle .none none (inPart .standby), 0, by decide⟩⟩

theorem witness_CtMissBeginsAWalk :
    (∃ (s : State), (s.ct.current.isSome = true ∨ (s.ct.offerAq = none ∧ s.ct.offerRp = none)))
    ∧ (∃ (s : State), (s.ct.current.isSome = true ∨ (s.ct.offerAq = none ∧ s.ct.offerRp = none)))
    ∧ (∃ (s : State) (q : CtReq) (c : Ct) (w : WordAddr), s.settled ∧ s.ct.current = none ∧ s.ct.picked = some (q, c) ∧
      s.ct.lookup (zoneOf q.canvas) (segmentOf q.canvas) = none ∧ w = wordAt (s.ct.dirBase + 8 * zoneOf q.canvas) ∧
      s.ct.dirBase + 8 * zoneOf q.canvas + 7 ≤ 0x7FFFFF)
    ∧ (∃ (s : State) (q : CtReq) (c : Ct), s.settled ∧ s.ct.current = none ∧ s.ct.picked = some (q, c) ∧
      s.ct.lookup (zoneOf q.canvas) (segmentOf q.canvas) = none ∧ 0x7FFFFF < s.ct.dirBase + 8 * zoneOf q.canvas + 7 ∧
      q.kind = .drawnWrite ∧ q.discard = false ∧ s.spc.part = .running)
    ∧ (∃ (s : State) (q : CtReq) (c : Ct), s.settled ∧ s.ct.current = none ∧ s.ct.picked = some (q, c) ∧
      s.ct.lookup (zoneOf q.canvas) (segmentOf q.canvas) = none ∧ 0x7FFFFF < s.ct.dirBase + 8 * zoneOf q.canvas + 7 ∧
      s.spc.part = .running)
    ∧ (∃ (s : State) (q : CtReq) (c : Ct), s.settled ∧ s.ct.current = none ∧ s.ct.picked = some (q, c) ∧
      s.ct.lookup (zoneOf q.canvas) (segmentOf q.canvas) = none ∧ 0x7FFFFF < s.ct.dirBase + 8 * zoneOf q.canvas + 7 ∧
      s.spc.part = .running)
    ∧ (∃ (a : Addr) (first : Nat) (offset : Nat) (v : View),
      (first, v) ∈ [(0x800000, View.replace), (0x900000, .level), (0xA00000, .add)] ∧ offset < 0x100000 ∧
      a.toNat = first + offset)
    ∧ (∃ (a : Addr) (first : Nat) (offset : Nat) (v : View),
      (first, v) ∈ [(0x800000, View.replace), (0x900000, .level), (0xA00000, .add)] ∧ offset < 0x100000 ∧
      a.toNat = first + offset)
    ∧ (∃ (a : Addr) (first : Nat) (offset : Nat) (v : View),
      (first, v) ∈ [(0x800000, View.replace), (0x900000, .level), (0xA00000, .add)] ∧ offset < 0x100000 ∧
      a.toNat = first + offset) :=
  ⟨⟨run, by decide⟩,
    ⟨asked .canvasRead run, by decide⟩,
    ⟨{ profiled run
        with ct := { (profiled run).ct with dirBase := 0x7FFFF8, offerAq := some (request .drawnWrite), offerRp := some (request .reelUpdate) } },
      request .drawnWrite, _, _, by decide, by decide, rfl, by decide, rfl, by decide⟩,
    ⟨{ profiled run
        with ct := { (profiled run).ct with dirBase := 0x7FFFFC, offerAq := some (request .drawnWrite), offerRp := none } },
      request .drawnWrite, _, by decide, by decide, rfl, by decide, by decide, by decide, by decide, by decide⟩,
    ⟨{ profiled run
        with ct := { (profiled run).ct with dirBase := 0x7FFFFC, offerAq := none, offerRp := some (request .reelUpdate) } },
      request .reelUpdate, _, by decide, by decide, rfl, by decide, by decide, by decide⟩,
    ⟨{ profiled run
        with ct := { (profiled run).ct with dirBase := 0x7FFFFC, offerAq := some (request .canvasRead), offerRp := none } },
      request .canvasRead, _, by decide, by decide, rfl, by decide, by decide, by decide⟩,
    ⟨0x8FFFFF, 0x800000, 0xFFFFF, .replace, by decide⟩,
    ⟨0x900000, 0x900000, 0, .level, by decide⟩,
    ⟨0xAFFFFC, 0xA00000, 0xFFFFC, .add, by decide⟩⟩

theorem witness_CtHitUsesTheCachedEntry :
    (∃ (s : State) (q : CtReq) (c : Ct) (e : CacheEntry) (t : Translation), s.settled ∧ s.ct.current = none ∧
      s.ct.picked = some (q, c) ∧ s.ct.lookup (zoneOf q.canvas) (segmentOf q.canvas) = some e ∧
      s.translates e.fields (pixelOf q.canvas) t ∧ (q.kind = .drawnWrite ∨ q.kind = .reelUpdate) ∧ e.known = false ∧
      s.up.protects (e.sources.getD 2 0) = false)
    ∧ (∃ (s : State) (q : CtReq) (c : Ct) (e : CacheEntry) (t : Translation) (v : Stored), s.settled ∧ s.ct.current = none ∧
      s.ct.picked = some (q, c) ∧ s.ct.lookup (zoneOf q.canvas) (segmentOf q.canvas) = some e ∧
      s.translates e.fields (pixelOf q.canvas) t ∧ q.kind = .canvasRead ∧ q.discard = false ∧ s.spc.part = .running ∧
      s.jc.drawnLookup t.frameSlot = some v)
    ∧ (∃ (s : State) (q : CtReq) (c : Ct) (e : CacheEntry) (t : Translation), s.settled ∧ s.ct.current = none ∧
      s.ct.picked = some (q, c) ∧ s.ct.lookup (zoneOf q.canvas) (segmentOf q.canvas) = some e ∧
      s.translates e.fields (pixelOf q.canvas) t ∧ q.kind = .canvasRead ∧ q.discard = false ∧
      s.jc.drawnLookup t.frameSlot = none)
    ∧ (∃ (s : State) (q : CtReq) (c : Ct) (e : CacheEntry) (k : FaultKind), s.settled ∧ s.ct.current = none ∧
      s.ct.picked = some (q, c) ∧ s.ct.lookup (zoneOf q.canvas) (segmentOf q.canvas) = some e ∧
      s.translationFails e.fields (pixelOf q.canvas) k ∧ q.kind = .drawnWrite ∧ q.discard = false ∧ s.spc.part = .running)
    ∧ (∃ (s : State) (q : CtReq) (c : Ct) (e : CacheEntry) (k : FaultKind), s.settled ∧ s.ct.current = none ∧
      s.ct.picked = some (q, c) ∧ s.ct.lookup (zoneOf q.canvas) (segmentOf q.canvas) = some e ∧
      s.translationFails e.fields (pixelOf q.canvas) k ∧ q.kind = .drawnWrite ∧ q.discard = false ∧ s.spc.part = .running)
    ∧ (∃ (s : State) (q : CtReq) (c : Ct) (e : CacheEntry) (k : FaultKind), s.settled ∧ s.ct.current = none ∧
      s.ct.picked = some (q, c) ∧ s.ct.lookup (zoneOf q.canvas) (segmentOf q.canvas) = some e ∧
      s.translationFails e.fields (pixelOf q.canvas) k ∧ q.kind = .drawnWrite ∧ q.discard = false ∧ s.spc.part = .running)
    ∧ (∃ (s : State) (q : CtReq) (c : Ct) (e : CacheEntry), s.settled ∧ s.ct.current = none ∧ s.ct.picked = some (q, c) ∧
      s.ct.lookup (zoneOf q.canvas) (segmentOf q.canvas) = some e ∧ s.asksProfile e.fields (pixelOf q.canvas))
    ∧ (∃ (s : State) (t : State) (q : CtReq) (c : Ct) (e : CacheEntry), s.settled ∧ s.spc.part = .running ∧
      s.ct.current = none ∧
      s.ct.picked = some (q, c) ∧ s.ct.lookup (zoneOf q.canvas) (segmentOf q.canvas) = some e ∧
      State.hitDecided { s with ct := { c with cache := State.cacheWith s.ct.cache e, current := some q } } q
        { fields := e.fields, flagWord := e.sources.getD 2 0, known := e.known, overtaken := false, result := none } t)
    ∧ (∃ (s : State) (t : State) (q : CtReq) (c : Ct) (e : CacheEntry), s.settled ∧ s.spc.part = .running ∧
      s.ct.current = none ∧
      s.ct.picked = some (q, c) ∧ s.ct.lookup (zoneOf q.canvas) (segmentOf q.canvas) = some e ∧
      State.hitDecided { s with ct := { c with cache := State.cacheWith s.ct.cache e, current := some q } } q
        { fields := e.fields, flagWord := e.sources.getD 2 0, known := e.known, overtaken := false, result := none } t)
    ∧ (∃ (s : State) (t : State) (q : CtReq) (c : Ct) (e : CacheEntry), s.settled ∧ s.spc.part = .running ∧
      s.ct.current = none ∧
      s.ct.picked = some (q, c) ∧ s.ct.lookup (zoneOf q.canvas) (segmentOf q.canvas) = some e ∧
      State.hitDecided { s with ct := { c with cache := State.cacheWith s.ct.cache e, current := some q } } q
        { fields := e.fields, flagWord := e.sources.getD 2 0, known := e.known, overtaken := false, result := none } t)
    ∧ (∃ (s : State) (t : State) (q : CtReq) (c : Ct) (e : CacheEntry), s.settled ∧ s.spc.part = .running ∧
      s.ct.current = none ∧
      s.ct.picked = some (q, c) ∧ s.ct.lookup (zoneOf q.canvas) (segmentOf q.canvas) = some e ∧
      State.hitDecided { s with ct := { c with cache := State.cacheWith s.ct.cache e, current := some q } } q
        { fields := e.fields, flagWord := e.sources.getD 2 0, known := e.known, overtaken := false, result := none } t)
    ∧ (∃ (f : SegFields) (x : Word) (n : Nat), (n ∈ [5, 6, 7] ∨ 12 ≤ n))
    ∧ (∃ (f : SegFields) (x : Word) (n : Nat), (n ∈ [5, 6, 7] ∨ 12 ≤ n)) :=
  ⟨⟨hitting .drawnWrite (cached false) (run), request .drawnWrite, _, cached false, slot3, by decide, by decide, rfl,
      by decide, ⟨by decide, by decide, by decide, by decide, by decide, by decide, by decide, by decide, by decide⟩,
      by decide, by decide, by decide⟩,
    ⟨hitting .canvasRead (cached true) (withBatch run 0 (batch .opened .drawn [{ entry5 with frameSlot := 3 }])),
      request .canvasRead, _, cached true, slot3, half, by decide, by decide, rfl, by decide,
      ⟨by decide, by decide, by decide, by decide, by decide, by decide, by decide, by decide, by decide⟩, by decide,
      by decide, by decide, by decide⟩,
    ⟨hitting .canvasRead (cached false) (run), request .canvasRead, _, cached false, slot3, by decide, by decide, rfl,
      by decide, ⟨by decide, by decide, by decide, by decide, by decide, by decide, by decide, by decide, by decide⟩,
      by decide, by decide, by decide⟩,
    ⟨hitting .drawnWrite ({ cached true with fields := { seg with length := 65 } }) run, request .drawnWrite, _,
      { cached true with fields := { seg with length := 65 } }, .segmentBad, by decide, by decide, rfl, by decide,
      by decide, by decide, by decide, by decide⟩,
    ⟨hitting .drawnWrite ({ cached true with fields := { seg with length := 3 } }) run, request .drawnWrite, _,
      { cached true with fields := { seg with length := 3 } }, .pixelBeyond, by decide, by decide, rfl, by decide,
      by decide, by decide, by decide, by decide⟩,
    ⟨{ hitting .drawnWrite (cached true) run with pu := Pu.reset }, request .drawnWrite, _, cached true, .profileVoid,
      by decide, by decide, rfl, by decide, by decide, by decide, by decide, by decide⟩,
    ⟨{ hitting .drawnWrite (cached true) run with pu := { Pu.reset with pending := Vector.replicate 16 true } },
      request .drawnWrite, _, cached true, by decide, by decide, rfl, by decide, by decide⟩,
    ⟨hitting .drawnWrite ({ cached true with fields := { seg with length := 3 } }) run, _, request .drawnWrite, _,
      { cached true with fields := { seg with length := 3 } }, by decide, by decide, by decide, rfl, by decide,
      Or.inl ⟨.pixelBeyond, by decide, rfl⟩⟩,
    ⟨hitting .drawnWrite (cached true) run, _, request .drawnWrite, _, cached true, by decide, by decide, by decide, rfl,
      by decide,
      Or.inr ⟨slot3, ⟨by decide, by decide, by decide, by decide, by decide, by decide, by decide, by decide, by decide⟩,
        Or.inl ⟨by decide, rfl⟩⟩⟩,
    ⟨hitting .drawnWrite ({ cached false with sources := [0, 0, wordAt 0x10000, 0] }) run, _, request .drawnWrite, _,
      { cached false with sources := [0, 0, wordAt 0x10000, 0] }, by decide, by decide, by decide, rfl, by decide,
      Or.inr ⟨slot3, ⟨by decide, by decide, by decide, by decide, by decide, by decide, by decide, by decide, by decide⟩,
        Or.inr ⟨by decide, by decide, by decide, _, rfl, Or.inl ⟨by decide, rfl⟩⟩⟩⟩,
    ⟨hitting .drawnWrite (cached false) run, _, request .drawnWrite, _, cached false, by decide, by decide, by decide, rfl,
      by decide,
      Or.inr ⟨slot3, ⟨by decide, by decide, by decide, by decide, by decide, by decide, by decide, by decide, by decide⟩,
        Or.inr ⟨by decide, by decide, by decide, _, rfl, Or.inr ⟨by decide, rfl⟩⟩⟩⟩,
    ⟨seg, 0, 5, by decide⟩,
    ⟨seg, 0, 12, by decide⟩⟩

theorem witness_DirectoryReadGoesOnOrFaults :
    (∃ (s : State) (f : InFlight) (q : CtReq) (k : Walk) (w : WordAddr), s.settled ∧ s.inFlightFor f .dirRead ∧
      f.req.op = .read ∧ s.ct.current = some q ∧ s.ct.walk = some k ∧ k.step = .dirFirst ∧
      w = wordAt (s.ct.dirBase + 8 * zoneOf q.canvas + 4))
    ∧ (∃ (s : State) (f : InFlight) (q : CtReq) (k : Walk) (x : FaultKind), s.settled ∧ s.spc.part = .running ∧
      s.inFlightFor f .dirRead ∧ f.req.op = .read ∧ s.ct.current = some q ∧ s.ct.walk = some k ∧ k.step = .dirSecond ∧
      q.kind = .drawnWrite ∧ q.discard = false ∧ k.bad = false ∧ s.readError f = false ∧
      ((k.dir1.getLsbD 0 = false ∧ x = .zoneAbsent) ∨ (k.dir1.getLsbD 0 = true ∧ k.dir1.getLsbD 1 = true ∧
        dirCount k.dir1 ≤ segmentOf q.canvas ∧ x = .segmentBeyond)))
    ∧ (∃ (s : State) (f : InFlight) (q : CtReq) (k : Walk) (x : FaultKind), s.settled ∧ s.spc.part = .running ∧
      s.inFlightFor f .dirRead ∧ f.req.op = .read ∧ s.ct.current = some q ∧ s.ct.walk = some k ∧ k.step = .dirSecond ∧
      q.kind = .drawnWrite ∧ q.discard = false ∧ k.bad = false ∧ s.readError f = false ∧
      ((k.dir1.getLsbD 0 = false ∧ x = .zoneAbsent) ∨ (k.dir1.getLsbD 0 = true ∧ k.dir1.getLsbD 1 = true ∧
        dirCount k.dir1 ≤ segmentOf q.canvas ∧ x = .segmentBeyond)))
    ∧ (∃ (s : State) (f : InFlight) (q : CtReq) (k : Walk), s.settled ∧ s.spc.part = .running ∧
      s.inFlightFor f .dirRead ∧ f.req.op = .read ∧ s.ct.current = some q ∧ s.ct.walk = some k ∧ k.step = .dirSecond ∧
      q.kind = .drawnWrite ∧ q.discard = false ∧ (k.bad = true ∨ s.readError f = true))
    ∧ (∃ (s : State) (f : InFlight) (q : CtReq) (k : Walk), s.settled ∧ s.spc.part = .running ∧
      s.inFlightFor f .dirRead ∧ f.req.op = .read ∧ s.ct.current = some q ∧ s.ct.walk = some k ∧ k.step = .dirSecond ∧
      q.kind = .drawnWrite ∧ q.discard = false ∧ (k.bad = true ∨ s.readError f = true))
    ∧ (∃ (s : State) (f : InFlight) (q : CtReq) (k : Walk), s.settled ∧ s.spc.part = .running ∧
      s.inFlightFor f .dirRead ∧ f.req.op = .read ∧ s.ct.current = some q ∧ s.ct.walk = some k ∧ k.step = .dirSecond ∧
      q.kind = .drawnWrite ∧ q.discard = false ∧ (k.bad = true ∨ s.readError f = true))
    ∧ (∃ (s : State) (f : InFlight) (q : CtReq) (k : Walk) (w : WordAddr), s.settled ∧ s.inFlightFor f .dirRead ∧
      f.req.op = .read ∧ s.ct.current = some q ∧ s.ct.walk = some k ∧ k.step = .dirSecond ∧ k.bad = false ∧
      s.readError f = false ∧ k.dir1.getLsbD 0 = true ∧ k.dir1.getLsbD 1 = false ∧ k.stale = false ∧
      w = wordAt (s.ct.dirBase + 8 * zoneOf q.canvas) ∧ s.up.protects w = false)
    ∧ (∃ (s : State) (f : InFlight) (q : CtReq) (k : Walk) (w : WordAddr), s.settled ∧ s.inFlightFor f .dirRead ∧
      f.req.op = .read ∧ s.ct.current = some q ∧ s.ct.walk = some k ∧ k.step = .dirSecond ∧ k.bad = false ∧
      s.readError f = false ∧ k.dir1.getLsbD 0 = true ∧
      (k.dir1.getLsbD 1 = true ∨ k.stale = true ∨ s.up.protects (wordAt (s.ct.dirBase + 8 * zoneOf q.canvas)) = true) ∧
      segmentOf q.canvas < dirCount k.dir1 ∧ segTableBase (s.dataOf f) + 8 * segmentOf q.canvas + 7 ≤ 0x7FFFFF ∧
      w = wordAt (segTableBase (s.dataOf f) + 8 * segmentOf q.canvas))
    ∧ (∃ (s : State) (s1 : State) (f : InFlight) (q : CtReq) (k : Walk), s.settled ∧ s.spc.part = .running ∧
      s.inFlightFor f .dirRead ∧ f.req.op = .read ∧ s.ct.current = some q ∧ s.ct.walk = some k ∧ k.step = .dirSecond ∧
      s1 = { s with mp := s.mp.freed, ru := s.ruAfterRead f } ∧ k.bad = false ∧ s.readError f = false ∧ k.dir1.getLsbD 0 = false)
    ∧ (∃ (s : State) (s1 : State) (f : InFlight) (q : CtReq) (k : Walk), s.settled ∧ s.spc.part = .running ∧
      s.inFlightFor f .dirRead ∧ f.req.op = .read ∧ s.ct.current = some q ∧ s.ct.walk = some k ∧ k.step = .dirSecond ∧
      s1 = { s with mp := s.mp.freed, ru := s.ruAfterRead f } ∧ (k.bad = true ∨ s.readError f = true) ∧
      q.discard = true)
    ∧ (∃ (s : State) (s1 : State) (f : InFlight) (q : CtReq) (k : Walk), s.settled ∧ s.spc.part = .running ∧
      s.inFlightFor f .dirRead ∧ f.req.op = .read ∧ s.ct.current = some q ∧ s.ct.walk = some k ∧ k.step = .dirSecond ∧
      s1 = { s with mp := s.mp.freed, ru := s.ruAfterRead f } ∧ (k.bad = true ∨ s.readError f = true) ∧
      q.discard = false)
    ∧ (∃ (s : State) (t : State) (f : InFlight) (q : CtReq) (k : Walk) (k2 : Walk), s.settled ∧ s.spc.part = .running ∧
      s.inFlightFor f .dirRead ∧ f.req.op = .read ∧ s.ct.current = some q ∧ s.ct.walk = some k ∧ k.step = .dirSecond ∧
      k.bad = false ∧ s.readError f = false ∧ k.dir1.getLsbD 0 = true ∧
      (k.dir1.getLsbD 1 = true ∨ k.stale = true ∨ s.up.protects (wordAt (s.ct.dirBase + 8 * zoneOf q.canvas)) = true) ∧
      k2 = { k with dir2 := s.dataOf f } ∧ State.segmentSought { s with mp := s.mp.freed } q k2 t)
    ∧ (∃ (s : State) (t : State) (f : InFlight) (q : CtReq) (k : Walk) (k2 : Walk), s.settled ∧ s.spc.part = .running ∧
      s.inFlightFor f .dirRead ∧ f.req.op = .read ∧ s.ct.current = some q ∧ s.ct.walk = some k ∧ k.step = .dirSecond ∧
      k.bad = false ∧ s.readError f = false ∧ k.dir1.getLsbD 0 = true ∧
      (k.dir1.getLsbD 1 = true ∨ k.stale = true ∨ s.up.protects (wordAt (s.ct.dirBase + 8 * zoneOf q.canvas)) = true) ∧
      k2 = { k with dir2 := s.dataOf f } ∧ State.segmentSought { s with mp := s.mp.freed } q k2 t)
    ∧ (∃ (s : State) (t : State) (f : InFlight) (q : CtReq) (k : Walk) (k2 : Walk), s.settled ∧ s.spc.part = .running ∧
      s.inFlightFor f .dirRead ∧ f.req.op = .read ∧ s.ct.current = some q ∧ s.ct.walk = some k ∧ k.step = .dirSecond ∧
      k.bad = false ∧ s.readError f = false ∧ k.dir1.getLsbD 0 = true ∧
      (k.dir1.getLsbD 1 = true ∨ k.stale = true ∨ s.up.protects (wordAt (s.ct.dirBase + 8 * zoneOf q.canvas)) = true) ∧
      k2 = { k with dir2 := s.dataOf f } ∧ State.segmentSought { s with mp := s.mp.freed } q k2 t)
    ∧ (∃ (s : State) (q : CtReq) (x : FaultKind), q.discard = true)
    ∧ (∃ (s : State) (q : CtReq) (x : FaultKind), q.discard = true)
    ∧ (∃ (s : State) (q : CtReq) (x : FaultKind) (o : FaultOrigin) (u : Ru), q.discard = false ∧
      (q.kind, o) ∈ [(ReqKind.drawnWrite, FaultOrigin.drawnWrite), (.canvasRead, .canvasRead), (.reelUpdate, .reelUpdate)] ∧
      u = (if x = .walkParity then s.ru.report x o q.canvas else (s.ru.report x o q.canvas).count .translate) ∧
      q.kind = .drawnWrite)
    ∧ (∃ (s : State) (q : CtReq) (x : FaultKind) (o : FaultOrigin) (u : Ru), q.discard = false ∧
      (q.kind, o) ∈ [(ReqKind.drawnWrite, FaultOrigin.drawnWrite), (.canvasRead, .canvasRead), (.reelUpdate, .reelUpdate)] ∧
      u = (if x = .walkParity then s.ru.report x o q.canvas else (s.ru.report x o q.canvas).count .translate) ∧
      q.kind = .canvasRead)
    ∧ (∃ (s : State) (q : CtReq) (x : FaultKind) (o : FaultOrigin) (u : Ru) (n : Nat), q.discard = false ∧
      (q.kind, o) ∈ [(ReqKind.drawnWrite, FaultOrigin.drawnWrite), (.canvasRead, .canvasRead), (.reelUpdate, .reelUpdate)] ∧
      u = (if x = .walkParity then s.ru.report x o q.canvas else (s.ru.report x o q.canvas).count .translate) ∧
      q.kind = .reelUpdate ∧ s.rp.step = .update n) :=
  ⟨⟨walking .canvasRead (walkAt .dirFirst) (readOf .dirRead (wordAt 0x1004)), flight (readOf .dirRead (wordAt 0x1004)),
      request .canvasRead, walkAt .dirFirst, _, by decide, by decide, by decide, by decide, by decide, by decide, rfl⟩,
    ⟨walking .drawnWrite ({ walkAt .dirSecond with dir1 := 0x100 }) (readOf .dirRead (wordAt 0x1004)),
      flight (readOf .dirRead (wordAt 0x1004)), request .drawnWrite, { walkAt .dirSecond with dir1 := 0x100 }, .zoneAbsent,
      by decide⟩,
    ⟨walking .drawnWrite ({ walkAt .dirSecond with dir1 := 0x003 }) (readOf .dirRead (wordAt 0x1004)),
      flight (readOf .dirRead (wordAt 0x1004)), request .drawnWrite, { walkAt .dirSecond with dir1 := 0x003 },
      .segmentBeyond, by decide⟩,
    ⟨badAt 0x1005 (walking .drawnWrite (walkAt .dirSecond) (readOf .dirRead (wordAt 0x1004))),
      flight (readOf .dirRead (wordAt 0x1004)), request .drawnWrite, walkAt .dirSecond, by decide⟩,
    ⟨walking .drawnWrite ({ walkAt .dirSecond with bad := true }) (readOf .dirRead (wordAt 0x1004)),
      flight (readOf .dirRead (wordAt 0x1004)), request .drawnWrite, { walkAt .dirSecond with bad := true }, by decide⟩,
    ⟨badAt 0x1005 (walking .drawnWrite ({ walkAt .dirSecond with bad := true }) (readOf .dirRead (wordAt 0x1004))),
      flight (readOf .dirRead (wordAt 0x1004)), request .drawnWrite, { walkAt .dirSecond with bad := true }, by decide⟩,
    ⟨walking .drawnWrite ({ walkAt .dirSecond with dir1 := 0x101 }) (readOf .dirRead (wordAt 0x1004)),
      flight (readOf .dirRead (wordAt 0x1004)), request .drawnWrite, { walkAt .dirSecond with dir1 := 0x101 }, _, by decide,
      by decide, by decide, by decide, by decide, by decide, by decide, by decide, by decide, by decide, by decide, rfl,
      by decide⟩,
    ⟨walking .drawnWrite (walkAt .dirSecond) (readOf .dirRead (wordAt 0x1004)), flight (readOf .dirRead (wordAt 0x1004)),
      request .drawnWrite, walkAt .dirSecond, _, by decide, by decide, by decide, by decide, by decide, by decide,
      by decide, by decide, by decide, by decide, by decide, by decide, rfl⟩,
    ⟨{ walking .reelUpdate ({ walkAt .dirSecond with dir1 := 0x100 }) (readOf .dirRead (wordAt 0x1004))
        with rp := (playing .loading (.update 0) (some header2) run).rp }, _, flight (readOf .dirRead (wordAt 0x1004)),
      request .reelUpdate, { walkAt .dirSecond with dir1 := 0x100 }, by decide, by decide, by decide, by decide, by decide,
      by decide, by decide, rfl, by decide, by decide, by decide⟩,
    ⟨(let s := walking .reelUpdate ({ walkAt .dirSecond with bad := true }) (readOf .dirRead (wordAt 0x1004));
        { s with ct := { s.ct with current := some { request .reelUpdate with discard := true } } }), _,
      flight (readOf .dirRead (wordAt 0x1004)), { request .reelUpdate with discard := true },
      { walkAt .dirSecond with bad := true }, by decide, by decide, by decide, by decide, by decide, by decide, by decide,
      rfl, by decide, by decide⟩,
    ⟨badAt 0x1005 (walking .canvasRead (walkAt .dirSecond) (readOf .dirRead (wordAt 0x1004))), _,
      flight (readOf .dirRead (wordAt 0x1004)), request .canvasRead, walkAt .dirSecond, by decide, by decide, by decide,
      by decide, by decide, by decide, by decide, rfl, by decide, by decide⟩,
    ⟨walking .canvasRead ({ walkAt .dirSecond with dir1 := 0x003 }) (readOf .dirRead (wordAt 0x1004)), _,
      flight (readOf .dirRead (wordAt 0x1004)), request .canvasRead, { walkAt .dirSecond with dir1 := 0x003 }, _, by decide,
      by decide, by decide, by decide, by decide, by decide, by decide, by decide, by decide, by decide, by decide, rfl,
      Or.inl ⟨by decide, rfl⟩⟩,
    ⟨wordsAt 0x1004 0x7FFFFC (walking .reelUpdate (walkAt .dirSecond) (readOf .dirRead (wordAt 0x1004))), _,
      flight (readOf .dirRead (wordAt 0x1004)), request .reelUpdate, walkAt .dirSecond, _, by decide, by decide, by decide,
      by decide, by decide, by decide, by decide, by decide, by decide, by decide, by decide, rfl,
      Or.inr ⟨by decide, _, _, rfl, rfl, Or.inl ⟨by decide, rfl⟩⟩⟩,
    ⟨walking .drawnWrite ({ walkAt .dirSecond with dir1 := 0x101, stale := true }) (readOf .dirRead (wordAt 0x1004)), _,
      flight (readOf .dirRead (wordAt 0x1004)), request .drawnWrite,
      { walkAt .dirSecond with dir1 := 0x101, stale := true }, _, by decide, by decide, by decide, by decide, by decide,
      by decide, by decide, by decide, by decide, by decide, by decide, rfl,
      Or.inr ⟨by decide, _, _, rfl, rfl, Or.inr ⟨by decide, rfl⟩⟩⟩,
    ⟨run, { request .reelUpdate with discard := true }, .zoneAbsent, by decide⟩,
    ⟨playing .loading (.held 1 0x800000 5) (some header2) run, { request .reelUpdate with discard := true }, .walkParity,
      by decide⟩,
    ⟨run, request .drawnWrite, .walkParity, .drawnWrite, _, by decide, by decide, rfl, by decide⟩,
    ⟨run, request .canvasRead, .segmentBad, .canvasRead, _, by decide, by decide, rfl, by decide⟩,
    ⟨playing .loading (.update 1) (some header2) run, request .reelUpdate, .profileVoid, .reelUpdate, _, 1, by decide,
      by decide, rfl, by decide, by decide⟩⟩

theorem witness_SegmentReadDecidesTheTranslation :
    (∃ (s : State) (f : InFlight) (q : CtReq) (k : Walk) (w : WordAddr), s.settled ∧ s.inFlightFor f .segRead ∧
      f.req.op = .read ∧ s.ct.current = some q ∧ s.ct.walk = some k ∧ k.step = .segFirst ∧
      w = wordAt (segTableBase k.dir2 + 8 * segmentOf q.canvas + 4))
    ∧ (∃ (s : State) (f : InFlight) (q : CtReq) (k : Walk), s.settled ∧ s.spc.part = .running ∧
      s.inFlightFor f .segRead ∧ f.req.op = .read ∧ s.ct.current = some q ∧ s.ct.walk = some k ∧ k.step = .segSecond ∧
      q.kind = .drawnWrite ∧ q.discard = false ∧ k.bad = false ∧ s.readError f = false ∧ k.seg1.getLsbD 0 = false)
    ∧ (∃ (s : State) (f : InFlight) (q : CtReq) (k : Walk), s.settled ∧ s.spc.part = .running ∧
      s.inFlightFor f .segRead ∧ f.req.op = .read ∧ s.ct.current = some q ∧ s.ct.walk = some k ∧ k.step = .segSecond ∧
      q.kind = .drawnWrite ∧ q.discard = false ∧ (k.bad = true ∨ s.readError f = true))
    ∧ (∃ (s : State) (f : InFlight) (q : CtReq) (k : Walk), s.settled ∧ s.spc.part = .running ∧
      s.inFlightFor f .segRead ∧ f.req.op = .read ∧ s.ct.current = some q ∧ s.ct.walk = some k ∧ k.step = .segSecond ∧
      q.kind = .drawnWrite ∧ q.discard = false ∧ (k.bad = true ∨ s.readError f = true))
    ∧ (∃ (s : State) (f : InFlight) (q : CtReq) (k : Walk), s.settled ∧ s.spc.part = .running ∧
      s.inFlightFor f .segRead ∧ f.req.op = .read ∧ s.ct.current = some q ∧ s.ct.walk = some k ∧ k.step = .segSecond ∧
      q.kind = .drawnWrite ∧ q.discard = false ∧ (k.bad = true ∨ s.readError f = true))
    ∧ (∃ (s : State) (s1 : State) (f : InFlight) (q : CtReq) (k : Walk), s.settled ∧ s.spc.part = .running ∧
      s.inFlightFor f .segRead ∧ f.req.op = .read ∧ s.ct.current = some q ∧ s.ct.walk = some k ∧ k.step = .segSecond ∧
      s1 = { s with mp := s.mp.freed, ru := s.ruAfterRead f } ∧ k.bad = false ∧ s.readError f = false ∧ k.seg1.getLsbD 0 = false)
    ∧ (∃ (s : State) (s1 : State) (f : InFlight) (q : CtReq) (k : Walk), s.settled ∧ s.spc.part = .running ∧
      s.inFlightFor f .segRead ∧ f.req.op = .read ∧ s.ct.current = some q ∧ s.ct.walk = some k ∧ k.step = .segSecond ∧
      s1 = { s with mp := s.mp.freed, ru := s.ruAfterRead f } ∧ (k.bad = true ∨ s.readError f = true) ∧
      q.discard = true)
    ∧ (∃ (s : State) (s1 : State) (f : InFlight) (q : CtReq) (k : Walk), s.settled ∧ s.spc.part = .running ∧
      s.inFlightFor f .segRead ∧ f.req.op = .read ∧ s.ct.current = some q ∧ s.ct.walk = some k ∧ k.step = .segSecond ∧
      s1 = { s with mp := s.mp.freed, ru := s.ruAfterRead f } ∧ (k.bad = true ∨ s.readError f = true) ∧
      q.discard = false)
    ∧ (∃ (s : State) (f : InFlight) (q : CtReq) (k : Walk) (g : SegFields) (t : Translation) (changes : Bool), s.settled ∧
      s.inFlightFor f .segRead ∧ f.req.op = .read ∧ s.ct.current = some q ∧ s.ct.walk = some k ∧ k.step = .segSecond ∧
      k.bad = false ∧ s.readError f = false ∧ g = SegFields.ofWords k.seg1 (s.dataOf f) ∧ g.present = true ∧
      s.translates g (pixelOf q.canvas) t ∧ changes = (!g.changed && decide (q.kind ≠ .canvasRead)) ∧
      (g.touched = false ∨ changes = true) ∧ k.stale = false ∧ s.up.protects k.segWord = false)
    ∧ (∃ (s : State) (f : InFlight) (q : CtReq) (k : Walk) (g : SegFields) (t : Translation) (changes : Bool), s.settled ∧
      s.inFlightFor f .segRead ∧ f.req.op = .read ∧ s.ct.current = some q ∧ s.ct.walk = some k ∧ k.step = .segSecond ∧
      k.bad = false ∧ s.readError f = false ∧ g = SegFields.ofWords k.seg1 (s.dataOf f) ∧ g.present = true ∧
      s.translates g (pixelOf q.canvas) t ∧ changes = (!g.changed && decide (q.kind ≠ .canvasRead)) ∧
      (g.touched = false ∨ changes = true) ∧ k.stale = false ∧ s.up.protects k.segWord = false)
    ∧ (∃ (s : State) (f : InFlight) (q : CtReq) (k : Walk) (k2 : Walk) (t : Translation) (v : Stored), s.settled ∧
      s.spc.part = .running ∧ s.inFlightFor f .segRead ∧ f.req.op = .read ∧ s.ct.current = some q ∧ s.ct.walk = some k ∧
      k.step = .segSecond ∧ k.bad = false ∧ s.readError f = false ∧
      k2 = { k with seg2 := s.dataOf f, wroteChanged := false } ∧ k.seg1.getLsbD 0 = true ∧ k.seg1.getLsbD 1 = true ∧
      s.translates (SegFields.ofWords k.seg1 (s.dataOf f)) (pixelOf q.canvas) t ∧ q.kind = .canvasRead ∧ q.discard = false ∧
      s.jc.drawnLookup t.frameSlot = some v)
    ∧ (∃ (s : State) (f : InFlight) (q : CtReq) (k : Walk) (k2 : Walk) (x : FaultKind), s.settled ∧ s.spc.part = .running ∧
      s.inFlightFor f .segRead ∧ f.req.op = .read ∧ s.ct.current = some q ∧ s.ct.walk = some k ∧ k.step = .segSecond ∧
      k.bad = false ∧ s.readError f = false ∧ k2 = { k with seg2 := s.dataOf f, wroteChanged := false } ∧
      k.seg1.getLsbD 0 = true ∧ k.seg1.getLsbD 1 = true ∧
      s.translationFails (SegFields.ofWords k.seg1 (s.dataOf f)) (pixelOf q.canvas) x ∧ q.kind = .drawnWrite ∧
      q.discard = false)
    ∧ (∃ (s : State) (f : InFlight) (q : CtReq) (k : Walk), s.settled ∧ s.inFlightFor f .segRead ∧ f.req.op = .read ∧
      s.ct.current = some q ∧ s.ct.walk = some k ∧ k.step = .segSecond ∧ k.bad = false ∧ s.readError f = false ∧
      k.seg1.getLsbD 0 = true ∧ s.asksProfile (SegFields.ofWords k.seg1 (s.dataOf f)) (pixelOf q.canvas))
    ∧ (∃ (s : State) (t : State) (f : InFlight) (q : CtReq) (k : Walk) (k2 : Walk) (g : SegFields), s.settled ∧
      s.spc.part = .running ∧ s.inFlightFor f .segRead ∧ f.req.op = .read ∧ s.ct.current = some q ∧ s.ct.walk = some k ∧
      k.step = .segSecond ∧ k.bad = false ∧ s.readError f = false ∧ k.seg1.getLsbD 0 = true ∧
      k2 = { k with seg2 := s.dataOf f } ∧ State.segmentDecided { s with mp := s.mp.freed } q k2 g t)
    ∧ (∃ (s : State) (t : State) (f : InFlight) (q : CtReq) (k : Walk) (k2 : Walk) (g : SegFields), s.settled ∧
      s.spc.part = .running ∧ s.inFlightFor f .segRead ∧ f.req.op = .read ∧ s.ct.current = some q ∧ s.ct.walk = some k ∧
      k.step = .segSecond ∧ k.bad = false ∧ s.readError f = false ∧ k.seg1.getLsbD 0 = true ∧
      k2 = { k with seg2 := s.dataOf f } ∧ State.segmentDecided { s with mp := s.mp.freed } q k2 g t)
    ∧ (∃ (s : State) (t : State) (f : InFlight) (q : CtReq) (k : Walk) (k2 : Walk) (g : SegFields), s.settled ∧
      s.spc.part = .running ∧ s.inFlightFor f .segRead ∧ f.req.op = .read ∧ s.ct.current = some q ∧ s.ct.walk = some k ∧
      k.step = .segSecond ∧ k.bad = false ∧ s.readError f = false ∧ k.seg1.getLsbD 0 = true ∧
      k2 = { k with seg2 := s.dataOf f } ∧ State.segmentDecided { s with mp := s.mp.freed } q k2 g t)
    ∧ (∃ (s : State) (t : State) (f : InFlight) (q : CtReq) (k : Walk) (k2 : Walk) (g : SegFields), s.settled ∧
      s.spc.part = .running ∧ s.inFlightFor f .segRead ∧ f.req.op = .read ∧ s.ct.current = some q ∧ s.ct.walk = some k ∧
      k.step = .segSecond ∧ k.bad = false ∧ s.readError f = false ∧ k.seg1.getLsbD 0 = true ∧
      k2 = { k with seg2 := s.dataOf f } ∧ State.segmentDecided { s with mp := s.mp.freed } q k2 g t)
    ∧ (∃ (x : Word) (y : Word) (g : SegFields), g = SegFields.ofWords x y) :=
  ⟨⟨walking .canvasRead (walkAt .segFirst) (readOf .segRead (wordAt 0x2004)), flight (readOf .segRead (wordAt 0x2004)),
      request .canvasRead, walkAt .segFirst, _, by decide, by decide, by decide, by decide, by decide, by decide, rfl⟩,
    ⟨walking .drawnWrite ({ walkAt .segSecond with seg1 := 0x0 }) (readOf .segRead (wordAt 0x2004)),
      flight (readOf .segRead (wordAt 0x2004)), request .drawnWrite, { walkAt .segSecond with seg1 := 0x0 }, by decide⟩,
    ⟨badAt 0x2004 (walking .drawnWrite ({ walkAt .segSecond with seg1 := 0x1 }) (readOf .segRead (wordAt 0x2004))),
      flight (readOf .segRead (wordAt 0x2004)), request .drawnWrite, { walkAt .segSecond with seg1 := 0x1 }, by decide⟩,
    ⟨walking .drawnWrite ({ walkAt .segSecond with bad := true }) (readOf .segRead (wordAt 0x2004)),
      flight (readOf .segRead (wordAt 0x2004)), request .drawnWrite, { walkAt .segSecond with bad := true }, by decide⟩,
    ⟨badAt 0x2004 (walking .drawnWrite ({ walkAt .segSecond with bad := true }) (readOf .segRead (wordAt 0x2004))),
      flight (readOf .segRead (wordAt 0x2004)), request .drawnWrite, { walkAt .segSecond with bad := true }, by decide⟩,
    ⟨{ walking .reelUpdate ({ walkAt .segSecond with seg1 := 0x0 }) (readOf .segRead (wordAt 0x2004))
        with rp := (playing .loading (.update 0) (some header2) run).rp }, _, flight (readOf .segRead (wordAt 0x2004)),
      request .reelUpdate, { walkAt .segSecond with seg1 := 0x0 }, by decide, by decide, by decide, by decide, by decide,
      by decide, by decide, rfl, by decide, by decide, by decide⟩,
    ⟨(let s := walking .reelUpdate ({ walkAt .segSecond with bad := true }) (readOf .segRead (wordAt 0x2004));
        { s with ct := { s.ct with current := some { request .reelUpdate with discard := true } } }), _,
      flight (readOf .segRead (wordAt 0x2004)), { request .reelUpdate with discard := true },
      { walkAt .segSecond with bad := true }, by decide, by decide, by decide, by decide, by decide, by decide, by decide,
      rfl, by decide, by decide⟩,
    ⟨badAt 0x2004 (walking .canvasRead ({ walkAt .segSecond with seg1 := 0x1 }) (readOf .segRead (wordAt 0x2004))), _,
      flight (readOf .segRead (wordAt 0x2004)), request .canvasRead, { walkAt .segSecond with seg1 := 0x1 }, by decide,
      by decide, by decide, by decide, by decide, by decide, by decide, rfl, by decide, by decide⟩,
    ⟨wordsAt 0x2004 0x000A0000 (walking .drawnWrite ({ walkAt .segSecond with seg1 := 0x3 }) (readOf .segRead
        (wordAt 0x2004))), flight (readOf .segRead (wordAt 0x2004)), request .drawnWrite,
      { walkAt .segSecond with seg1 := 0x3 }, _, slot3, _, by decide, by decide, by decide, by decide, by decide, by decide,
      by decide, by decide, rfl, by decide,
      ⟨by decide, by decide, by decide, by decide, by decide, by decide, by decide, by decide, by decide⟩, rfl, by decide,
      by decide, by decide⟩,
    ⟨wordsAt 0x2004 0x000A0000 (walking .canvasRead ({ walkAt .segSecond with seg1 := 0x1 }) (readOf .segRead
        (wordAt 0x2004))), flight (readOf .segRead (wordAt 0x2004)), request .canvasRead,
      { walkAt .segSecond with seg1 := 0x1 }, _, slot3, _, by decide, by decide, by decide, by decide, by decide, by decide,
      by decide, by decide, rfl, by decide,
      ⟨by decide, by decide, by decide, by decide, by decide, by decide, by decide, by decide, by decide⟩, rfl, by decide,
      by decide, by decide⟩,
    ⟨wordsAt 0x2004 0x000A0000
        ({ walking .canvasRead ({ walkAt .segSecond with seg1 := 0x3 }) (readOf .segRead (wordAt 0x2004))
        with jc := (withBatch run 0 (batch .opened .drawn [{ entry5 with frameSlot := 3 }])).jc }),
      flight (readOf .segRead (wordAt 0x2004)), request .canvasRead, { walkAt .segSecond with seg1 := 0x3 }, _, slot3, half,
      by decide, by decide, by decide, by decide, by decide, by decide, by decide, by decide, by decide, rfl, by decide,
      by decide, ⟨by decide, by decide, by decide, by decide, by decide, by decide, by decide, by decide, by decide⟩,
      by decide, by decide, by decide⟩,
    ⟨wordsAt 0x2004 0x00030000 (walking .drawnWrite ({ walkAt .segSecond with seg1 := 0x3 }) (readOf .segRead
        (wordAt 0x2004))), flight (readOf .segRead (wordAt 0x2004)), request .drawnWrite,
      { walkAt .segSecond with seg1 := 0x3 }, _, .pixelBeyond, by decide, by decide, by decide, by decide, by decide,
      by decide, by decide, by decide, by decide, rfl, by decide, by decide, by decide, by decide, by decide⟩,
    ⟨wordsAt 0x2004 0x000A0000
        ({ walking .drawnWrite ({ walkAt .segSecond with seg1 := 0x3 }) (readOf .segRead (wordAt 0x2004))
        with pu := { Pu.reset with pending := Vector.replicate 16 true } }), flight (readOf .segRead (wordAt 0x2004)),
      request .drawnWrite, { walkAt .segSecond with seg1 := 0x3 }, by decide⟩,
    ⟨wordsAt 0x2004 0x000A0000 (walking .reelUpdate ({ walkAt .segSecond with seg1 := 0x1 }) (readOf .segRead
        (wordAt 0x2004))), _, flight (readOf .segRead (wordAt 0x2004)), request .reelUpdate,
      { walkAt .segSecond with seg1 := 0x1 }, _, _, by decide, by decide, by decide, by decide, by decide, by decide,
      by decide, by decide, by decide, by decide, rfl,
      ⟨rfl, .ok
        (slot3), Or.inl ⟨slot3, ⟨by decide, by decide, by decide, by decide, by decide, by decide, by decide, by decide,
          by decide⟩, rfl⟩, true, ⟨fun _ => ⟨by decide, by decide, _, rfl⟩, fun _ => rfl⟩, Or.inl ⟨by decide, by decide,
          by decide, rfl⟩⟩⟩,
    ⟨wordsAt 0x2004 0x000A0000 (walking .canvasRead ({ walkAt .segSecond with seg1 := 0x3 }) (readOf .segRead
        (wordAt 0x2004))), _, flight (readOf .segRead (wordAt 0x2004)), request .canvasRead,
      { walkAt .segSecond with seg1 := 0x3 }, _, _, by decide, by decide, by decide, by decide, by decide, by decide,
      by decide, by decide, by decide, by decide, rfl,
      ⟨rfl, .ok
        (slot3), Or.inl ⟨slot3, ⟨by decide, by decide, by decide, by decide, by decide, by decide, by decide, by decide,
          by decide⟩, rfl⟩, false, ⟨fun h => absurd h
        (by decide), fun h => absurd h.2.1 (by decide)⟩, Or.inr ⟨by decide, rfl⟩⟩⟩,
    ⟨wordsAt 0x2004 0x000A0000 (walking .drawnWrite ({ walkAt .segSecond with seg1 := 1, segWord := wordAt 0x10000 })
        (readOf .segRead (wordAt 0x2004))), _, flight (readOf .segRead (wordAt 0x2004)), request .drawnWrite,
      { walkAt .segSecond with seg1 := 1, segWord := wordAt 0x10000 }, _, _, by decide, by decide, by decide, by decide,
      by decide, by decide, by decide, by decide, by decide, by decide, rfl,
      ⟨rfl, .ok
        (slot3), Or.inl ⟨slot3, ⟨by decide, by decide, by decide, by decide, by decide, by decide, by decide, by decide,
          by decide⟩, rfl⟩, true, ⟨fun _ => ⟨by decide, by decide, _, rfl⟩, fun _ => rfl⟩, Or.inr ⟨Or.inr
        (Or.inr (by decide)), rfl⟩⟩⟩,
    ⟨wordsAt 0x2004 0x00030000 (walking .drawnWrite ({ walkAt .segSecond with seg1 := 0x1 }) (readOf .segRead
        (wordAt 0x2004))), _, flight (readOf .segRead (wordAt 0x2004)), request .drawnWrite,
      { walkAt .segSecond with seg1 := 0x1 }, _, _, by decide, by decide, by decide, by decide, by decide, by decide,
      by decide, by decide, by decide, by decide, rfl,
      ⟨rfl, .bad .pixelBeyond, Or.inr ⟨.pixelBeyond, by decide, rfl⟩, false, ⟨fun h => absurd h
        (by decide), fun h => absurd h.2.2 (fun ⟨_, e⟩ => nomatch e)⟩, Or.inl ⟨by decide, by decide, by decide, rfl⟩⟩⟩,
    ⟨0x0000050B, 0x000A00C8, _, rfl⟩⟩

theorem witness_FlagWordWriteContinuesTheWalk :
    (∃ (s : State) (f : InFlight) (q : CtReq) (k : Walk) (w : WordAddr), s.settled ∧ s.inFlightFor f .walkFlag ∧
      f.req.op ≠ .read ∧ s.ct.current = some q ∧ s.ct.walk = some k ∧ k.step = .dirFlag ∧
      segmentOf q.canvas < dirCount k.dir1 ∧ segTableBase k.dir2 + 8 * segmentOf q.canvas + 7 ≤ 0x7FFFFF ∧
      w = wordAt (segTableBase k.dir2 + 8 * segmentOf q.canvas))
    ∧ (∃ (s : State) (t : State) (f : InFlight) (q : CtReq) (k : Walk), s.settled ∧ s.spc.part = .running ∧
      s.inFlightFor f .walkFlag ∧ f.req.op ≠ .read ∧ s.ct.current = some q ∧ s.ct.walk = some k ∧ k.step = .dirFlag ∧
      State.segmentSought { s with memory := s.memory.after f, pu := s.pu.after f, mp := s.mp.freed } q k t)
    ∧ (∃ (s : State) (t : State) (f : InFlight) (q : CtReq) (k : Walk), s.settled ∧ s.spc.part = .running ∧
      s.inFlightFor f .walkFlag ∧ f.req.op ≠ .read ∧ s.ct.current = some q ∧ s.ct.walk = some k ∧ k.step = .dirFlag ∧
      State.segmentSought { s with memory := s.memory.after f, pu := s.pu.after f, mp := s.mp.freed } q k t)
    ∧ (∃ (s : State) (t : State) (f : InFlight) (q : CtReq) (k : Walk), s.settled ∧ s.spc.part = .running ∧
      s.inFlightFor f .walkFlag ∧ f.req.op ≠ .read ∧ s.ct.current = some q ∧ s.ct.walk = some k ∧ k.step = .dirFlag ∧
      State.segmentSought { s with memory := s.memory.after f, pu := s.pu.after f, mp := s.mp.freed } q k t)
    ∧ (∃ (s : State) (f : InFlight) (q : CtReq) (k : Walk) (t : Translation) (i : Fin 8) (b : Batch) (v : Stored), s.settled ∧
      s.spc.part = .running ∧ s.inFlightFor f .walkFlag ∧ f.req.op ≠ .read ∧ s.ct.current = some q ∧ s.ct.walk = some k ∧
      k.step = .segFlag ∧ k.result = some (.ok t) ∧ q.kind = .drawnWrite ∧ q.discard = false ∧
      t.profile.finished (viewOf q.canvas) (Pixel.ofWord q.value) = some v ∧ s.jc.openDrawn = some i ∧ s.jc.at i = some b ∧
      (∃ e ∈ b.entries, e.frameSlot = t.frameSlot))
    ∧ (∃ (s : State) (f : InFlight) (q : CtReq) (k : Walk) (x : FaultKind), s.settled ∧ s.spc.part = .running ∧
      s.inFlightFor f .walkFlag ∧ f.req.op ≠ .read ∧ s.ct.current = some q ∧ s.ct.walk = some k ∧ k.step = .segFlag ∧
      k.result = some (.bad x) ∧ x ≠ .walkParity ∧ q.kind = .drawnWrite ∧ q.discard = false)
    ∧ (∃ (s : State) (f : InFlight) (q : CtReq) (k : Walk) (r : TrResult), s.settled ∧ s.spc.part = .running ∧
      s.inFlightFor f .walkFlag ∧ f.req.op ≠ .read ∧ s.ct.current = some q ∧ s.ct.walk = some k ∧ k.step = .segFlag ∧
      k.result = some r)
    ∧ (∃ (s : State) (f : InFlight) (q : CtReq) (k : Walk) (r : TrResult), s.settled ∧ s.spc.part = .running ∧
      s.inFlightFor f .walkFlag ∧ f.req.op ≠ .read ∧ s.ct.current = some q ∧ s.ct.walk = some k ∧ k.step = .segFlag ∧
      k.result = some r) :=
  ⟨⟨walking .drawnWrite (walkAt .dirFlag) (writeOf .walkFlag (wordAt 0x1000) 0x103),
      flight (writeOf .walkFlag (wordAt 0x1000) 0x103), request .drawnWrite, walkAt .dirFlag, _, by decide, by decide,
      by decide, by decide, by decide, by decide, by decide, by decide, rfl⟩,
    ⟨walking .canvasRead ({ walkAt .dirFlag with dir1 := 0x003 }) (writeOf .walkFlag (wordAt 0x1000) 0x103), _,
      flight (writeOf .walkFlag (wordAt 0x1000) 0x103), request .canvasRead, { walkAt .dirFlag with dir1 := 0x003 },
      by decide, by decide, by decide, by decide, by decide, by decide, by decide, Or.inl ⟨by decide, rfl⟩⟩,
    ⟨walking .reelUpdate ({ walkAt .dirFlag with dir2 := 0x7FFFFC }) (writeOf .walkFlag (wordAt 0x1000) 0x103), _,
      flight (writeOf .walkFlag (wordAt 0x1000) 0x103), request .reelUpdate, { walkAt .dirFlag with dir2 := 0x7FFFFC },
      by decide, by decide, by decide, by decide, by decide, by decide, by decide,
      Or.inr ⟨by decide, _, _, rfl, rfl, Or.inl ⟨by decide, rfl⟩⟩⟩,
    ⟨walking .drawnWrite (walkAt .dirFlag) (writeOf .walkFlag (wordAt 0x1000) 0x103), _,
      flight (writeOf .walkFlag (wordAt 0x1000) 0x103), request .drawnWrite, walkAt .dirFlag, by decide, by decide,
      by decide, by decide, by decide, by decide, by decide, Or.inr ⟨by decide, _, _, rfl, rfl, Or.inr ⟨by decide, rfl⟩⟩⟩,
    ⟨{ walking .drawnWrite ({ walkAt .segFlag with seg1 := 1, seg2 := 0x000A0000, result := some (.ok slot3) }) (writeOf .walkFlag (wordAt 0x1000) 0x103)
        with jc := (withBatch run 0 (batch .opened .drawn [{ entry5 with frameSlot := 3 }])).jc },
      flight (writeOf .walkFlag (wordAt 0x1000) 0x103), request .drawnWrite,
      { walkAt .segFlag with seg1 := 1, seg2 := 0x000A0000, result := some (.ok slot3) }, slot3, 0,
      batch .opened .drawn [{ entry5 with frameSlot := 3 }], { c1 := 0, c2 := 128, c3 := 255, level := 128 }, by decide,
      by decide, by decide, by decide, by decide, by decide, by decide, by decide, by decide, by decide, by decide,
      by decide, by decide, ⟨{ entry5 with frameSlot := 3 }, by decide⟩⟩,
    ⟨walking .drawnWrite ({ walkAt .segFlag with seg1 := 1, seg2 := 0x000A0000, result := some (.bad .pixelBeyond) })
        (writeOf .walkFlag (wordAt 0x1000) 0x103), flight (writeOf .walkFlag (wordAt 0x1000) 0x103), request .drawnWrite,
      { walkAt .segFlag with seg1 := 1, seg2 := 0x000A0000, result := some (.bad .pixelBeyond) }, .pixelBeyond, by decide⟩,
    ⟨walking .reelUpdate ({ walkAt .segFlag with seg1 := 1, seg2 := 0x000A0000, result := some (.bad .segmentBad) })
        (writeOf .walkFlag (wordAt 0x1000) 0x103), flight (writeOf .walkFlag (wordAt 0x1000) 0x103), request .reelUpdate,
      { walkAt .segFlag with seg1 := 1, seg2 := 0x000A0000, result := some (.bad .segmentBad) }, .bad .segmentBad, by decide⟩,
    ⟨walking .canvasRead ({ walkAt .segFlag with seg1 := 1, seg2 := 0x000A0000, result := some (.ok slot3) })
        (writeOf .walkFlag (wordAt 0x1000) 0x103), flight (writeOf .walkFlag (wordAt 0x1000) 0x103), request .canvasRead,
      { walkAt .segFlag with seg1 := 1, seg2 := 0x000A0000, result := some (.ok slot3) }, .ok slot3, by decide⟩⟩

theorem witness_HitWriteBackHandsTheRequestOn :
    (∃ (s : State) (f : InFlight) (q : CtReq) (h : Hit) (t : Translation) (i : Fin 8) (b : Batch) (v : Stored), s.settled ∧
      s.spc.part = .running ∧ s.inFlightFor f .hitFlag ∧ f.req.op ≠ .read ∧ s.ct.current = some q ∧ s.ct.hit = some h ∧
      h.result = some t ∧ q.kind = .drawnWrite ∧ q.discard = false ∧
      t.profile.finished (viewOf q.canvas) (Pixel.ofWord q.value) = some v ∧ s.jc.openDrawn = some i ∧ s.jc.at i = some b ∧
      (∃ e ∈ b.entries, e.frameSlot = t.frameSlot))
    ∧ (∃ (s : State) (f : InFlight) (q : CtReq) (h : Hit) (t : Translation), s.settled ∧ s.inFlightFor f .hitFlag ∧
      f.req.op ≠ .read ∧ s.ct.current = some q ∧ s.ct.hit = some h ∧ h.result = some t ∧ q.discard = true)
    ∧ (∃ (s : State) (f : InFlight) (q : CtReq) (h : Hit) (t : Translation), s.settled ∧ s.spc.part = .running ∧
      s.inFlightFor f .hitFlag ∧ f.req.op ≠ .read ∧ s.ct.current = some q ∧ s.ct.hit = some h ∧ h.result = some t)
    ∧ (∃ (s : State) (q : CtReq) (t : Translation), q.discard = true)
    ∧ (∃ (s : State) (q : CtReq) (t : Translation) (i : Fin 8), q.discard = false ∧ q.kind = .drawnWrite ∧
      s.jc.openDrawn = some i)
    ∧ (∃ (s : State) (q : CtReq) (t : Translation) (i : Fin 8), q.discard = false ∧ q.kind = .drawnWrite ∧
      s.jc.openDrawn = none ∧
      s.jc.drawnCount < 6 ∧ s.jc.at i = none ∧ (∀ k, k < i → (s.jc.at k).isSome = true))
    ∧ (∃ (s : State) (q : CtReq) (t : Translation), q.discard = false ∧ q.kind = .drawnWrite ∧ s.jc.openDrawn = none ∧
      6 ≤ s.jc.drawnCount ∧ s.jc.mayFree s.rp.state)
    ∧ (∃ (s : State) (q : CtReq) (t : Translation), q.discard = false ∧ q.kind = .drawnWrite ∧ s.jc.openDrawn = none ∧
      6 ≤ s.jc.drawnCount ∧ ¬s.jc.mayFree s.rp.state)
    ∧ (∃ (s : State) (q : CtReq) (t : Translation), q.discard = false ∧ q.kind = .reelUpdate)
    ∧ (∃ (s : State) (q : CtReq) (t : Translation) (v : Stored), q.discard = false ∧ q.kind = .canvasRead ∧
      s.jc.drawnLookup t.frameSlot = some v)
    ∧ (∃ (s : State) (q : CtReq) (t : Translation), q.discard = false ∧ q.kind = .canvasRead ∧
      s.jc.drawnLookup t.frameSlot = none) :=
  ⟨⟨(let s := flying (asked .drawnWrite (withBatch run 0 (batch .opened .drawn [{ entry5 with frameSlot := 3 }])))
        (writeOf .hitFlag (wordAt 0x2000) 7); { s with ct := { s.ct with hit := some hit3 } }),
      flight (writeOf .hitFlag (wordAt 0x2000) 7), request .drawnWrite, hit3, slot3, 0,
      batch .opened .drawn [{ entry5 with frameSlot := 3 }], { c1 := 0, c2 := 128, c3 := 255, level := 128 }, by decide,
      by decide, by decide, by decide, by decide, by decide, by decide, by decide, by decide, by decide, by decide,
      by decide, ⟨{ entry5 with frameSlot := 3 }, by decide⟩⟩,
    ⟨{ flying run (writeOf .hitFlag (wordAt 0x2000) 7)
        with ct := { Ct.reset with current := some { request .reelUpdate with discard := true }, hit := some hit3 } },
      flight (writeOf .hitFlag (wordAt 0x2000) 7), { request .reelUpdate with discard := true }, hit3, slot3, by decide⟩,
    ⟨{ flying (asked .drawnWrite run) (writeOf .hitFlag (wordAt 0x2000) 7)
        with ct := { Ct.reset with current := some (request .drawnWrite), hit := some hit3 } },
      flight (writeOf .hitFlag (wordAt 0x2000) 7), request .drawnWrite, hit3, slot3, by decide⟩,
    ⟨run, { request .reelUpdate with discard := true }, slot3, by decide⟩,
    ⟨withBatch run 3 (batch .opened .drawn [{ entry5 with frameSlot := 3 }]), request .drawnWrite, slot3, 3, by decide⟩,
    ⟨withBatch run 0 (batch .opened reelFrame []), request .drawnWrite, slot3, 1, by decide⟩,
    ⟨sixDrawn .secondPass, request .drawnWrite, slot3, by decide⟩,
    ⟨playing .loading .header none (sixDrawn .sealed), request .drawnWrite, slot3, by decide⟩,
    ⟨playing .loading (.update 0) (some header2) run, request .reelUpdate, slot3, by decide⟩,
    ⟨withBatch run 0 (batch .opened .drawn [{ entry5 with frameSlot := 3 }]), request .canvasRead, slot3, half, by decide⟩,
    ⟨run, request .canvasRead, slot3, by decide⟩⟩

theorem witness_EntryGrantServesTheLongestWaiting :
    (∃ (s : State) (w : Staged) (rest : List Requester) (i : Fin 8) (b : Batch) (v : Stored), s.settled ∧
      s.spc.part = .running ∧ s.jc.waiters = .aq :: rest ∧ s.jc.drawn = some w ∧ w.payload = .finished v ∧
      s.jc.openDrawn = some i ∧ s.jc.at i = some b ∧ (∀ e ∈ b.entries, e.frameSlot ≠ w.frameSlot) ∧ s.jc.inUse < 512)
    ∧ (∃ (s : State) (w : Staged) (rest : List Requester) (i : Fin 8) (b : Batch) (v : Stored) (h : Header) (n : Nat),
      s.settled ∧
      s.jc.waiters = .rp :: rest ∧ s.jc.reel = some w ∧ w.payload = .finished v ∧ s.jc.openReel = some i ∧
      s.jc.at i = some b ∧ (∀ e ∈ b.entries, e.frameSlot ≠ w.frameSlot) ∧ s.jc.inUse < 512 ∧ s.rp.header = some h ∧
      s.rp.step = .update n ∧ n + 1 < h.count)
    ∧ (∃ (s : State) (r : Requester) (w : Staged) (rest : List Requester) (i : Fin 8) (b : Batch), s.settled ∧
      s.spc.part = .running ∧ s.jc.waiters = r :: rest ∧ (match r with | .aq => s.jc.drawn | .rp => s.jc.reel) = some w ∧
      s.stagesInto r i b ∧ s.jc.inUse < 512)
    ∧ (∃ (s : State) (r : Requester) (w : Staged) (rest : List Requester) (i : Fin 8) (b : Batch), s.settled ∧
      s.spc.part = .running ∧ s.jc.waiters = r :: rest ∧ (match r with | .aq => s.jc.drawn | .rp => s.jc.reel) = some w ∧
      s.stagesInto r i b ∧ s.jc.inUse < 512)
    ∧ (∃ (s : State) (r : Requester) (w : Staged) (i : Fin 8) (b : Batch), s.stagesInto r i b ∧
      (∃ e ∈ b.entries, e.frameSlot = w.frameSlot))
    ∧ (∃ (s : State) (r : Requester) (w : Staged) (i : Fin 8) (b : Batch), s.stagesInto r i b ∧
      (∀ e ∈ b.entries, e.frameSlot ≠ w.frameSlot) ∧ s.jc.waiters.length + s.jc.inUse < 512)
    ∧ (∃ (s : State) (r : Requester) (w : Staged) (i : Fin 8) (b : Batch), s.stagesInto r i b ∧
      (∀ e ∈ b.entries, e.frameSlot ≠ w.frameSlot) ∧ s.jc.waiters.length + s.jc.inUse < 512)
    ∧ (∃ (s : State) (r : Requester) (w : Staged) (i : Fin 8) (b : Batch), s.stagesInto r i b ∧
      (∀ e ∈ b.entries, e.frameSlot ≠ w.frameSlot) ∧ 512 ≤ s.jc.waiters.length + s.jc.inUse ∧ s.jc.mayFree s.rp.state)
    ∧ (∃ (s : State) (r : Requester) (w : Staged) (i : Fin 8) (b : Batch), s.stagesInto r i b ∧
      (∀ e ∈ b.entries, e.frameSlot ≠ w.frameSlot) ∧ 512 ≤ s.jc.waiters.length + s.jc.inUse ∧ ¬s.jc.mayFree s.rp.state ∧
      r = .aq)
    ∧ (∃ (s : State) (r : Requester) (w : Staged) (i : Fin 8) (b : Batch) (h : Header) (n : Nat), s.stagesInto r i b ∧
      (∀ e ∈ b.entries, e.frameSlot ≠ w.frameSlot) ∧ 512 ≤ s.jc.waiters.length + s.jc.inUse ∧ ¬s.jc.mayFree s.rp.state ∧
      r = .rp ∧ s.rp.header = some h ∧ s.rp.step = .update n)
    ∧ (∃ (j : Jc) (i : Fin 8), j.openDrawn = some i)
    ∧ (∃ (j : Jc) (i : Fin 8), j.openReel = some i)
    ∧ (∃ (j : Jc) (i : Fin 8), j.openDrawn = none)
    ∧ (∃ (j : Jc) (i : Fin 8), j.openReel = none) :=
  ⟨⟨{ run
        with jc := { (withBatch run 0 (batch .opened .drawn [entry5])).jc with drawn := some (staged (.finished half) .entry), waiters := [.aq, .rp] } },
      staged (.finished half) .entry, [.rp], 0, batch .opened .drawn [entry5], half, by decide⟩,
    ⟨{ playing .loading (.update 0) (some header2) run
        with jc := { (withBatch run 0 (batch .opened reelFrame [entry5])).jc with reel := some (staged (.finished half) .entry), waiters := [.rp] } },
      staged (.finished half) .entry, [], 0, batch .opened reelFrame [entry5], half, header2, 0, by decide⟩,
    ⟨{ run
        with jc := { (withBatch run 0 (batch .opened .drawn [entry5])).jc with drawn := some (staged (.finished half) .entry), waiters := [.aq, .rp] } },
      .aq, staged (.finished half) .entry, [.rp], 0, batch .opened .drawn [entry5], by decide, by decide, by decide,
      by decide, ⟨by decide, by decide⟩, by decide⟩,
    ⟨{ playing .loading (.update 0) (some header2) run
        with jc := { (withBatch run 0 (batch .opened reelFrame [entry5])).jc with reel := some (staged .combine .entry), waiters := [.rp] } },
      .rp, staged .combine .entry, [], 0, batch .opened reelFrame [entry5], by decide, by decide, by decide, by decide,
      ⟨by decide, by decide⟩, by decide⟩,
    ⟨withBatch run 0 (batch .opened .drawn [{ entry5 with frameSlot := 3 }]), .aq, staged (.finished half) .entry, 0,
      batch .opened .drawn [{ entry5 with frameSlot := 3 }], ⟨by decide, by decide⟩, by decide⟩,
    ⟨withBatch run 0 (batch .opened .drawn [entry5]), .aq, staged (.finished half) .entry, 0, batch .opened .drawn [entry5],
      ⟨by decide, by decide⟩, by decide, by decide⟩,
    ⟨withBatch run 0 (batch .opened .drawn (entries 511)), .aq, { staged (.finished half) .entry with frameSlot := 600 }, 0,
      batch .opened .drawn (entries 511), ⟨by decide +kernel, by decide +kernel⟩, by decide +kernel, by decide +kernel⟩,
    ⟨withBatch (withBatch run 0 (batch .opened .drawn (entries 512))) 1 (batch .secondPass .drawn []), .aq,
      { staged (.finished half) .entry with frameSlot := 600 }, 0, batch .opened .drawn (entries 512),
      ⟨by decide +kernel, by decide +kernel⟩, by decide +kernel, by decide +kernel, by decide +kernel⟩,
    ⟨withBatch run 0 (batch .opened .drawn (entries 512)), .aq, { staged (.finished half) .entry with frameSlot := 600 }, 0,
      batch .opened .drawn (entries 512), ⟨by decide +kernel, by decide +kernel⟩, by decide +kernel, by decide +kernel,
      by decide +kernel, by decide +kernel⟩,
    ⟨playing .loading (.update 0) (some header2) (withBatch run 0 (batch .opened reelFrame (entries 512))), .rp,
      { staged (.finished half) .entry with frameSlot := 600 }, 0, batch .opened reelFrame (entries 512), header2, 0,
      ⟨by decide +kernel, by decide +kernel⟩, by decide +kernel, by decide +kernel, by decide +kernel, by decide +kernel,
      by decide +kernel, by decide +kernel⟩,
    ⟨(withBatch run 0 (batch .opened .drawn [entry5])).jc, 0, by decide⟩,
    ⟨(withBatch run 0 (batch .opened reelFrame [entry5])).jc, 0, by decide⟩,
    ⟨(withBatch run 0 (batch .opened reelFrame [entry5])).jc, 0, by decide⟩,
    ⟨(withBatch run 0 (batch .opened .drawn [entry5])).jc, 0, by decide⟩⟩

theorem witness_SlotGrantOpensABatch :
    (∃ (s : State) (w : Staged) (i : Fin 8) (v : Stored), s.settled ∧ s.spc.part = .running ∧ s.jc.drawn = some w ∧
      w.wait = .slot ∧ w.payload = .finished v ∧ s.jc.drawnCount < 6 ∧ s.jc.openDrawn = none ∧ s.jc.at i = none ∧
      (∀ k, k < i → (s.jc.at k).isSome = true) ∧ s.jc.waiters.length + s.jc.inUse < 512)
    ∧ (∃ (s : State) (o : ReelOpen) (i : Fin 8) (h : Header), s.settled ∧
      (∀ w ∈ s.jc.drawn, w.wait ≠ .slot ∨ 6 ≤ s.jc.drawnCount) ∧ s.jc.reelOpen = some o ∧ s.jc.reelCount < 2 ∧
      s.jc.at i = none ∧ (∀ k, k < i → (s.jc.at k).isSome = true) ∧ s.rp.header = some h ∧ 0 < h.count)
    ∧ (∃ (s : State) (o : ReelOpen) (i : Fin 8) (h : Header), s.settled ∧
      (∀ w ∈ s.jc.drawn, w.wait ≠ .slot ∨ 6 ≤ s.jc.drawnCount) ∧ s.jc.reelOpen = some o ∧ s.jc.reelCount < 2 ∧
      s.jc.at i = none ∧ (∀ k, k < i → (s.jc.at k).isSome = true) ∧ s.rp.header = some h ∧ 0 < h.count)
    ∧ (∃ (s : State) (o : ReelOpen) (i : Fin 8) (h : Header), s.settled ∧
      (∀ w ∈ s.jc.drawn, w.wait ≠ .slot ∨ 6 ≤ s.jc.drawnCount) ∧ s.jc.reelOpen = some o ∧ s.jc.reelCount < 2 ∧
      s.jc.at i = none ∧ (∀ k, k < i → (s.jc.at k).isSome = true) ∧ s.rp.header = some h ∧ 0 < h.count)
    ∧ (∃ (s : State) (w : Staged) (i : Fin 8), s.settled ∧ s.spc.part = .running ∧ s.jc.drawn = some w ∧ w.wait = .slot ∧
      s.jc.drawnCount < 6 ∧ s.jc.at i = none ∧ (∀ k, k < i → (s.jc.at k).isSome = true))
    ∧ (∃ (s : State) (o : ReelOpen) (i : Fin 8) (h : Header), s.settled ∧ s.spc.part = .running ∧
      (∀ w ∈ s.jc.drawn, w.wait ≠ .slot ∨ 6 ≤ s.jc.drawnCount) ∧ s.jc.reelOpen = some o ∧ s.jc.reelCount < 2 ∧
      s.jc.at i = none ∧ (∀ k, k < i → (s.jc.at k).isSome = true) ∧ s.rp.header = some h ∧ h.count = 0) :=
  ⟨⟨{ run
        with jc := { (withBatch run 0 (batch .sealed .drawn [entry5])).jc with drawn := some (staged (.finished half) .slot) } },
      staged (.finished half) .slot, 1, half, by decide⟩,
    ⟨{ playing .loading .slot (some header2) run
        with jc := { (withBatch run 0 (batch .secondPass reelFrame [])).jc with reelOpen := some { reel := 0, frame := 0, hold := 1 } } },
      { reel := 0, frame := 0, hold := 1 }, 1, header2, by decide⟩,
    ⟨{ playing .loading .slot (some header2) run
        with jc := { (withBatch run 0 (batch .secondPass reelFrame [])).jc with reelOpen := some { reel := 0, frame := 0, hold := 1 }, drawn := some (staged .combine .base) } },
      { reel := 0, frame := 0, hold := 1 }, 1, header2, by decide⟩,
    ⟨{ playing .loading .slot (some header2) run
        with jc := { (sixDrawn .sealed).jc with reelOpen := some { reel := 0, frame := 0, hold := 1 }, drawn := some (staged .combine .slot) } },
      { reel := 0, frame := 0, hold := 1 }, 6, header2, by decide⟩,
    ⟨{ run
        with jc := { (withBatch run 0 (batch .sealed .drawn [entry5])).jc with drawn := some (staged (.finished half) .slot) } },
      staged (.finished half) .slot, 1, by decide⟩,
    ⟨{ playing .loading .slot (some { header2 with count := 0 }) run
        with jc := { (withBatch run 0 (batch .secondPass reelFrame [])).jc with reelOpen := some { reel := 0, frame := 0, hold := 1 } } },
      { reel := 0, frame := 0, hold := 1 }, 1, { header2 with count := 0 }, by decide⟩⟩

theorem witness_BaseReadPlacesTheHeldWrite :
    (∃ (s : State) (f : InFlight) (w : Staged) (h : HeldWrite) (i : Fin 8) (b : Batch), s.settled ∧ s.spc.part = .running ∧
      s.inFlightFor f .baseDrawn ∧ f.req.op = .read ∧ s.jc.drawn = some w ∧ s.pu.heldDrawn = some h ∧
      s.jc.openDrawn = some i ∧ s.jc.at i = some b)
    ∧ (∃ (s : State) (f : InFlight) (w : Staged) (h : HeldWrite) (i : Fin 8) (b : Batch) (hd : Header) (n : Nat), s.settled ∧
      s.inFlightFor f .baseReel ∧ f.req.op = .read ∧ s.jc.reel = some w ∧ s.pu.heldReel = some h ∧ s.jc.openReel = some i ∧
      s.jc.at i = some b ∧ s.rp.header = some hd ∧ s.rp.step = .update n ∧ n + 1 < hd.count)
    ∧ (∃ (s : State) (f : InFlight) (w : Staged) (h : HeldWrite) (i : Fin 8) (b : Batch) (n : Nat), s.settled ∧
      s.spc.part = .running ∧ s.inFlightFor f .baseReel ∧ f.req.op = .read ∧ s.jc.reel = some w ∧ s.pu.heldReel = some h ∧
      s.stagesInto .rp i b ∧ s.rp.step = .update n)
    ∧ (∃ (s : State) (w : Staged) (i : Fin 8) (b : Batch) (v : Stored), s.stagesInto .aq i b ∧ w.payload = .finished v)
    ∧ (∃ (s : State) (w : Staged) (i : Fin 8) (b : Batch) (v : Stored) (h : HeldWrite), s.stagesInto .aq i b ∧
      w.payload = .combine ∧ s.jc.drawnLookup w.frameSlot = some v ∧ s.pu.heldDrawn = some h)
    ∧ (∃ (s : State) (w : Staged) (i : Fin 8) (b : Batch), s.stagesInto .aq i b ∧ w.payload = .combine ∧
      s.jc.drawnLookup w.frameSlot = none)
    ∧ (∃ (s : State) (w : Staged) (i : Fin 8) (b : Batch) (n : Nat) (v : Stored), s.stagesInto .rp i b ∧ s.rp.step = .update n ∧
      w.payload = .finished v)
    ∧ (∃ (s : State) (w : Staged) (i : Fin 8) (b : Batch) (n : Nat) (v : Stored) (h : HeldWrite), s.stagesInto .rp i b ∧
      s.rp.step = .update n ∧ w.payload = .combine ∧ s.jc.reelLookup w.frameSlot = some v ∧ s.pu.heldReel = some h)
    ∧ (∃ (s : State) (w : Staged) (i : Fin 8) (b : Batch) (n : Nat), s.stagesInto .rp i b ∧ s.rp.step = .update n ∧
      w.payload = .combine ∧ s.jc.reelLookup w.frameSlot = none)
    ∧ (∃ (j : Jc) (n : Nat) (mine : Batch → Bool) (l : Option (Fin 8)) (x : Option Stored) (i : Fin 8) (b : Batch) (v : Stored),
      ((mine = Batch.isDrawn ∧ l = j.openDrawn ∧ x = j.drawnLookup n) ∨ (mine = Batch.isCurrentPlay ∧ l = j.openReel ∧
        x = j.reelLookup n)) ∧ l = some i ∧ j.at i = some b ∧ b.answers n v)
    ∧ (∃ (j : Jc) (n : Nat) (mine : Batch → Bool) (l : Option (Fin 8)) (x : Option Stored) (i : Fin 8) (b : Batch) (v : Stored),
      ((mine = Batch.isDrawn ∧ l = j.openDrawn ∧ x = j.drawnLookup n) ∨ (mine = Batch.isCurrentPlay ∧ l = j.openReel ∧
        x = j.reelLookup n)) ∧ (∀ k ∈ l, ∀ c ∈ j.at k, c.silent n) ∧ j.at i = some b ∧ mine b = true ∧ b.phase ≠ .opened ∧
      b.answers n v ∧
      (∀ k c, k ≠ i → j.at k = some c → mine c = true → c.phase ≠ .opened → c.silent n ∨
        c.sealOrder.getD 0 < b.sealOrder.getD 0))
    ∧ (∃ (j : Jc) (n : Nat) (mine : Batch → Bool) (l : Option (Fin 8)) (x : Option Stored),
      ((mine = Batch.isDrawn ∧ l = j.openDrawn ∧ x = j.drawnLookup n) ∨ (mine = Batch.isCurrentPlay ∧ l = j.openReel ∧
        x = j.reelLookup n)) ∧ (∀ k ∈ l, ∀ c ∈ j.at k, c.silent n) ∧
      (∀ k c, j.at k = some c → mine c = true → c.phase ≠ .opened → c.silent n))
    ∧ (∃ (j : Jc) (n : Nat) (mine : Batch → Bool) (l : Option (Fin 8)) (x : Option Stored),
      ((mine = Batch.isDrawn ∧ l = j.openDrawn ∧ x = j.drawnLookup n) ∨ (mine = Batch.isCurrentPlay ∧ l = j.openReel ∧
        x = j.reelLookup n)) ∧ (∀ k ∈ l, ∀ c ∈ j.at k, c.silent n) ∧
      (∀ k c, j.at k = some c → mine c = true → c.phase ≠ .opened → c.silent n)) :=
  ⟨⟨badAt 0x1000C
        { flying (withBatch run 0 (batch .opened .drawn [{ entry5 with frameSlot := 3 }])) (readOf .baseDrawn (wordAt 0x1000C))
        with jc := { (withBatch run 0 (batch .opened .drawn [{ entry5 with frameSlot := 3 }])).jc with drawn := some (staged .combine .base) }, pu := { Pu.reset with heldDrawn := some held } },
      flight (readOf .baseDrawn (wordAt 0x1000C)), staged .combine .base, held, 0,
      batch .opened .drawn [{ entry5 with frameSlot := 3 }], by decide⟩,
    ⟨{ flying (playing .loading (.update 0) (some header2) run) (readOf .baseReel (wordAt 0x1000C))
        with jc := { (withBatch run 0 (batch .opened reelFrame [{ entry5 with frameSlot := 3 }])).jc with reel := some (staged .combine .base) }, pu := { Pu.reset with heldReel := some held } },
      flight (readOf .baseReel (wordAt 0x1000C)), staged .combine .base, held, 0,
      batch .opened reelFrame [{ entry5 with frameSlot := 3 }], header2, 0, by decide⟩,
    ⟨flying ({ playing .loading (.update 0) (some { header2 with count := 1 }) run
        with jc := { (withBatch run 0 (batch .opened reelFrame [{ entry5 with frameSlot := 3 }])).jc with reel := some (staged .combine .base) }, pu := { Pu.reset with heldReel := some held } })
        (readOf .baseReel (wordAt 0x1000C)), flight (readOf .baseReel (wordAt 0x1000C)), staged .combine .base, held, 0,
      batch .opened reelFrame [{ entry5 with frameSlot := 3 }], 0, by decide, by decide, by decide, by decide, by decide,
      by decide, ⟨by decide, by decide⟩, by decide⟩,
    ⟨withBatch run 0 (batch .opened .drawn [{ entry5 with frameSlot := 3 }]), staged (.finished half) .entry, 0,
      batch .opened .drawn [{ entry5 with frameSlot := 3 }], half, ⟨by decide, by decide⟩, by decide⟩,
    ⟨{ withBatch run 0 (batch .opened .drawn [{ entry5 with frameSlot := 3 }])
        with pu := { Pu.reset with heldDrawn := some held } }, staged .combine .entry, 0,
      batch .opened .drawn [{ entry5 with frameSlot := 3 }], half, held, ⟨by decide, by decide⟩, by decide, by decide,
      by decide⟩,
    ⟨withBatch run 0 (batch .opened .drawn [{ entry5 with frameSlot := 3, value := none }]), staged .combine .entry, 0,
      batch .opened .drawn [{ entry5 with frameSlot := 3, value := none }], ⟨by decide, by decide⟩, by decide, by decide⟩,
    ⟨{ playing .loading (.update 0) (some header2) run
        with jc := { (withBatch run 0 (batch .opened reelFrame [{ entry5 with frameSlot := 3 }])).jc with reel := some (staged .combine .entry) }, pu := { Pu.reset with heldReel := some held } },
      staged (.finished half) .entry, 0, batch .opened reelFrame [{ entry5 with frameSlot := 3 }], 0, half,
      ⟨by decide, by decide⟩, by decide, by decide⟩,
    ⟨{ playing .loading (.update 0) (some header2) run
        with jc := { (withBatch run 0 (batch .opened reelFrame [{ entry5 with frameSlot := 3 }])).jc with reel := some (staged .combine .entry) }, pu := { Pu.reset with heldReel := some held } },
      staged .combine .entry, 0, batch .opened reelFrame [{ entry5 with frameSlot := 3 }], 0, half, held,
      ⟨by decide, by decide⟩, by decide, by decide, by decide, by decide⟩,
    ⟨{ playing .loading (.update 0) (some header2) run
        with jc := { (withBatch run 0 (batch .opened reelFrame [{ entry5 with frameSlot := 3, value := none }])).jc with reel := some (staged .combine .entry) }, pu := { Pu.reset with heldReel := some held } },
      staged .combine .entry, 0, batch .opened reelFrame [{ entry5 with frameSlot := 3, value := none }], 0,
      ⟨by decide, by decide⟩, by decide, by decide, by decide⟩,
    ⟨(withBatch run 0 (batch .opened .drawn [{ entry5 with frameSlot := 3 }])).jc, 3, Batch.isDrawn, _, _, 0,
      batch .opened .drawn [{ entry5 with frameSlot := 3 }], half, Or.inl ⟨rfl, rfl, rfl⟩, by decide, by decide,
      ⟨{ entry5 with frameSlot := 3 }, by decide⟩⟩,
    ⟨(withBatch (withBatch run 4 ({ batch .sealed reelFrame [{ entry5 with frameSlot := 3 }]
        with sealOrder := some 2 })) 0 ({ batch .secondPass reelFrame [{ shown5 with frameSlot := 3 }]
        with sealOrder := some 1 })).jc, 3, Batch.isCurrentPlay, _, _, 4,
      { batch .sealed reelFrame [{ entry5 with frameSlot := 3 }] with sealOrder := some 2 }, half, Or.inr ⟨rfl, rfl, rfl⟩,
      by decide, by decide, by decide, by decide, ⟨{ entry5 with frameSlot := 3 }, by decide⟩,
      fun k c hk hc => (show ∀ k : Fin 8, k ≠ 4 → ∀ c ∈ Jc.at (withBatch (withBatch run 4
        ({ batch .sealed reelFrame [{ entry5 with frameSlot := 3 }] with sealOrder := some 2 })) 0
        ({ batch .secondPass reelFrame [{ shown5 with frameSlot := 3 }]
        with sealOrder := some 1 })).jc k, Batch.isCurrentPlay c = true → c.phase ≠ .opened → c.silent 3 ∨
        c.sealOrder.getD 0 < 2 by decide) k hk c hc⟩,
    ⟨(withBatch run 0 (batch .sealed (.reel 0 0 true) [{ entry5 with frameSlot := 3 }])).jc, 3, Batch.isCurrentPlay, _, _,
      Or.inr ⟨rfl, rfl, rfl⟩, by decide,
      fun k c hc => (show ∀ k : Fin 8, ∀ c ∈ Jc.at (withBatch run 0 (batch .sealed (.reel 0 0 true) [{ entry5
        with frameSlot := 3 }])).jc k, Batch.isCurrentPlay c = true → c.phase ≠ .opened → c.silent 3 by decide) k c hc⟩,
    ⟨(withBatch run 0 (batch .sealed reelFrame [{ entry5 with frameSlot := 3 }])).jc, 3, Batch.isDrawn, _, _,
      Or.inl ⟨rfl, rfl, rfl⟩, by decide,
      fun k c hc => (show ∀ k : Fin 8, ∀ c ∈ Jc.at (withBatch run 0 (batch .sealed reelFrame [{ entry5
        with frameSlot := 3 }])).jc k, Batch.isDrawn c = true → c.phase ≠ .opened → c.silent 3 by decide) k c hc⟩⟩

theorem witness_CanvasReadAnsweredFromTheShownBuffer :
    (∃ (s : State) (f : InFlight) (q : ReadBack), s.settled ∧ s.spc.part = .running ∧ s.inFlightFor f .canvasRead ∧
      f.req.op = .read ∧ s.jc.readBack = some q ∧ s.readError f = false)
    ∧ (∃ (s : State) (f : InFlight) (q : ReadBack), s.settled ∧ s.spc.part = .running ∧ s.inFlightFor f .canvasRead ∧
      f.req.op = .read ∧ s.jc.readBack = some q ∧ s.readError f = true) :=
  ⟨⟨{ flying run (readOf .canvasRead (wordAt 0x1000C))
        with jc := { run.jc with readBack := some { order := 5, canvas := 0x80000C } } },
      flight (readOf .canvasRead (wordAt 0x1000C)), { order := 5, canvas := 0x80000C }, by decide⟩,
    ⟨{ badAt 0x1000C (flying run (readOf .canvasRead (wordAt 0x1000C)))
        with jc := { run.jc with readBack := some { order := 5, canvas := 0x80000C } } },
      flight (readOf .canvasRead (wordAt 0x1000C)), { order := 5, canvas := 0x80000C }, by decide⟩⟩

theorem witness_BatchTakenBySealOrder :
    (∃ (s : State), (s.re.state ≠ .idle ∨ s.spc.part ≠ .running ∨ s.eligibleExists = false))
    ∧ (∃ (s : State) (i : Fin 8) (b : Batch), s.settled ∧ s.re.state = .idle ∧ s.spc.part = .running ∧ s.takesNext i b ∧
      b.entries ≠ [])
    ∧ (∃ (s : State) (i : Fin 8) (b : Batch), s.settled ∧ s.re.state = .idle ∧ s.spc.part = .running ∧ s.takesNext i b ∧
      b.entries = []) :=
  ⟨⟨run, by decide⟩,
    ⟨withBatch (withBatch run 0 ({ batch .sealed .drawn [entry5] with sealOrder := some 9 })) 5
        ({ batch .sealed reelFrame [entry5] with sealOrder := some 4 }), 5,
      { batch .sealed reelFrame [entry5] with sealOrder := some 4 }, by decide, by decide, by decide,
      ⟨by decide, by decide, by decide, by decide⟩, by decide⟩,
    ⟨withBatch run 7 ({ batch .sealed reelFrame [] with sealOrder := some 0 }), 7,
      { batch .sealed reelFrame [] with sealOrder := some 0 }, by decide, by decide, by decide,
      ⟨by decide, by decide, by decide, by decide⟩, by decide⟩⟩

theorem witness_MeasureEndStoresItsResults :
    (∃ (s : State), s.re.state ≠ .measure)
    ∧ (∃ (s : State) (i : Fin 8) (b : Batch) (e : Entry) (rest : List Entry) (v : Stored) (d : Vector Nat 8), s.settled ∧
      s.re.state = .measure ∧ s.re.current = some i ∧ s.jc.at i = some b ∧ b.entries = e :: rest ∧ e.value = some v ∧
      s.levelsFit b d)
    ∧ (∃ (s : State) (i : Fin 8) (b : Batch) (e : Entry) (rest : List Entry) (v : Stored) (d : Vector Nat 8), s.settled ∧
      s.re.state = .measure ∧ s.re.current = some i ∧ s.jc.at i = some b ∧ b.entries = e :: rest ∧ e.value = some v ∧
      s.levelsFit b d)
    ∧ (∃ (e : Entry) (v : Stored) (d : Nat), e.value = some v) :=
  ⟨⟨run, by decide⟩,
    ⟨engine .measure (batch .measure .drawn [entry5]) run, 0, batch .measure .drawn [entry5], entry5, [], half,
      Vector.replicate 8 0, by decide⟩,
    ⟨{ engine .measure (batch .measure .drawn [entry5]) run with ll := { Ll.reset with limits := Vector.replicate 8 0 } }, 0,
      batch .measure .drawn [entry5], entry5, [], half, tset (Vector.replicate 8 0) 0 8, by decide⟩,
    ⟨entry5, half, 8, by decide⟩⟩

theorem witness_FirstPassRecordsShownValues :
    (∃ (s : State) (f : InFlight) (i : Fin 8) (b : Batch) (b2 : Batch) (e : Entry) (v : Stored) (d : Vector Nat 8)
      (x : Entry) (w : Stored),
      s.settled ∧ s.inFlightFor f .firstPassWrite ∧ f.req.op ≠ .read ∧ s.re.current = some i ∧ s.jc.at i = some b ∧
      b.entries[s.re.position]? = some e ∧ e.value = some v ∧ b.derate = some d ∧
      b2 = { b with entries := b.entries.set s.re.position { e with shown := some (v.derated (tget d e.rail)) } } ∧
      b.entries[s.re.position + 1]? = some x ∧ x.value = some w)
    ∧ (∃ (s : State) (f : InFlight) (i : Fin 8) (b : Batch) (b2 : Batch) (e : Entry) (v : Stored) (d : Vector Nat 8),
      s.settled ∧
      s.inFlightFor f .firstPassWrite ∧ f.req.op ≠ .read ∧ s.re.current = some i ∧ s.jc.at i = some b ∧
      b.entries[s.re.position]? = some e ∧ e.value = some v ∧ b.derate = some d ∧
      b2 = { b with entries := b.entries.set s.re.position { e with shown := some (v.derated (tget d e.rail)) } } ∧
      b.entries.length = s.re.position + 1) :=
  ⟨⟨flying (engine .firstPass ({ batch .firstPass .drawn [entry5, { entry5 with frameSlot := 6 }]
        with derate := some (Vector.replicate 8 1) }) run) (writeOf .firstPassWrite (wordAt 0x20014) half.toWord),
      flight (writeOf .firstPassWrite (wordAt 0x20014) half.toWord), 0,
      { batch .firstPass .drawn [entry5, { entry5 with frameSlot := 6 }] with derate := some (Vector.replicate 8 1) }, _,
      entry5, half, Vector.replicate 8 1, { entry5 with frameSlot := 6 }, half, by decide, by decide, by decide, by decide,
      by decide, by decide, by decide, by decide, rfl, by decide, by decide⟩,
    ⟨flying (engine .firstPass ({ batch .firstPass .drawn [entry5] with derate := some (Vector.replicate 8 1) }) run)
        (writeOf .firstPassWrite (wordAt 0x20014) half.toWord),
      flight (writeOf .firstPassWrite (wordAt 0x20014) half.toWord), 0,
      { batch .firstPass .drawn [entry5] with derate := some (Vector.replicate 8 1) }, _, entry5, half,
      Vector.replicate 8 1, by decide, by decide, by decide, by decide, by decide, by decide, by decide, by decide, rfl,
      by decide⟩⟩

theorem witness_SecondPassRetiresTheBatch :
    (∃ (s : State) (f : InFlight) (i : Fin 8) (b : Batch) (x : Entry) (w : Stored), s.settled ∧ s.spc.part = .running ∧
      s.inFlightFor f .secondPassWrite ∧ f.req.op ≠ .read ∧ s.re.current = some i ∧ s.jc.at i = some b ∧
      b.entries[s.re.position + 1]? = some x ∧ x.shown = some w)
    ∧ (∃ (s : State) (f : InFlight) (i : Fin 8) (b : Batch), s.settled ∧ s.spc.part = .running ∧
      s.inFlightFor f .secondPassWrite ∧ f.req.op ≠ .read ∧ s.re.current = some i ∧ s.jc.at i = some b ∧
      b.entries.length = s.re.position + 1)
    ∧ (∃ (s : State) (s1 : State) (s2 : State) (i : Fin 8) (b : Batch), s.spc.part = .running ∧
      s1 = { s with jc := s.jcRetired i, re := { s.re with state := .idle, current := none, position := 0 } } ∧
      ((s1.drawnStays s1.jc.waiters s1.jc ∧ s2 = s1) ∨ ∃ w, s.jc.drawn = some w ∧ ¬s1.drawnStays s1.jc.waiters s1.jc ∧
        s2 = s1.drawnDropped w.canvas) ∧ s2.reelStays s2.jc.waiters s2.jc ∧ (b.isDrawn = true ∨ s.rp.state ≠ .stopping) ∧
      s.spc.standbyPending = true ∧ s2.partQuiet)
    ∧ (∃ (s : State) (s1 : State) (s2 : State) (i : Fin 8) (b : Batch), s.spc.part = .running ∧
      s1 = { s with jc := s.jcRetired i, re := { s.re with state := .idle, current := none, position := 0 } } ∧
      ((s1.drawnStays s1.jc.waiters s1.jc ∧ s2 = s1) ∨ ∃ w, s.jc.drawn = some w ∧ ¬s1.drawnStays s1.jc.waiters s1.jc ∧
        s2 = s1.drawnDropped w.canvas) ∧ s2.reelStays s2.jc.waiters s2.jc ∧ (b.isDrawn = true ∨ s.rp.state ≠ .stopping) ∧
      (s.spc.standbyPending = false ∨ ¬s2.partQuiet))
    ∧ (∃ (s : State) (s1 : State) (s2 : State) (i : Fin 8) (b : Batch), s.spc.part = .running ∧
      s1 = { s with jc := s.jcRetired i, re := { s.re with state := .idle, current := none, position := 0 } } ∧
      ((s1.drawnStays s1.jc.waiters s1.jc ∧ s2 = s1) ∨ ∃ w, s.jc.drawn = some w ∧ ¬s1.drawnStays s1.jc.waiters s1.jc ∧
        s2 = s1.drawnDropped w.canvas) ∧ s2.reelStays s2.jc.waiters s2.jc ∧ (b.isDrawn = true ∨ s.rp.state ≠ .stopping) ∧
      (s.spc.standbyPending = false ∨ ¬s2.partQuiet))
    ∧ (∃ (s : State) (s1 : State) (s2 : State) (i : Fin 8) (b : Batch), s.spc.part = .running ∧
      s1 = { s with jc := s.jcRetired i, re := { s.re with state := .idle, current := none, position := 0 } } ∧
      ((s1.drawnStays s1.jc.waiters s1.jc ∧ s2 = s1) ∨ ∃ w, s.jc.drawn = some w ∧ ¬s1.drawnStays s1.jc.waiters s1.jc ∧
        s2 = s1.drawnDropped w.canvas) ∧ s2.reelStays s2.jc.waiters s2.jc ∧ (b.isDrawn = true ∨ s.rp.state ≠ .stopping) ∧
      (s.spc.standbyPending = false ∨ ¬s2.partQuiet))
    ∧ (∃ (s : State) (s1 : State) (s2 : State) (i : Fin 8) (b : Batch), s.spc.part = .running ∧
      s1 = { s with jc := s.jcRetired i, re := { s.re with state := .idle, current := none, position := 0 } } ∧
      ((s1.drawnStays s1.jc.waiters s1.jc ∧ s2 = s1) ∨ ∃ w, s.jc.drawn = some w ∧ ¬s1.drawnStays s1.jc.waiters s1.jc ∧
        s2 = s1.drawnDropped w.canvas) ∧ s2.reelStays s2.jc.waiters s2.jc ∧ b.isReel = true ∧ s.rp.state = .stopping ∧
      s.rp.endedDue = true)
    ∧ (∃ (s : State) (s1 : State) (s2 : State) (i : Fin 8) (b : Batch), s.spc.part = .running ∧
      s1 = { s with jc := s.jcRetired i, re := { s.re with state := .idle, current := none, position := 0 } } ∧
      ((s1.drawnStays s1.jc.waiters s1.jc ∧ s2 = s1) ∨ ∃ w, s.jc.drawn = some w ∧ ¬s1.drawnStays s1.jc.waiters s1.jc ∧
        s2 = s1.drawnDropped w.canvas) ∧ s2.reelStays s2.jc.waiters s2.jc ∧ b.isReel = true ∧ s.rp.state = .stopping ∧
      s.rp.endedDue = false)
    ∧ (∃ (s : State) (s1 : State) (s2 : State) (i : Fin 8) (b : Batch) (h : Header) (n : Nat) (t : State),
      s.spc.part = .running ∧
      s1 = { s with jc := s.jcRetired i, re := { s.re with state := .idle, current := none, position := 0 } } ∧
      ((s1.drawnStays s1.jc.waiters s1.jc ∧ s2 = s1) ∨ ∃ w, s.jc.drawn = some w ∧ ¬s1.drawnStays s1.jc.waiters s1.jc ∧
        s2 = s1.drawnDropped w.canvas) ∧ ¬s2.reelStays s2.jc.waiters s2.jc ∧ s.rp.header = some h ∧ s.rp.step = .update n ∧
      t = State.endFrame (s2.reelFailed h n) ∧ (b.isDrawn = true ∨ s.rp.state ≠ .stopping) ∧ t.spc.standbyPending = true ∧
      t.spc.part = .running ∧ t.partQuiet)
    ∧ (∃ (s : State) (s1 : State) (s2 : State) (i : Fin 8) (b : Batch) (h : Header) (n : Nat) (t : State),
      s.spc.part = .running ∧
      s1 = { s with jc := s.jcRetired i, re := { s.re with state := .idle, current := none, position := 0 } } ∧
      ((s1.drawnStays s1.jc.waiters s1.jc ∧ s2 = s1) ∨ ∃ w, s.jc.drawn = some w ∧ ¬s1.drawnStays s1.jc.waiters s1.jc ∧
        s2 = s1.drawnDropped w.canvas) ∧ ¬s2.reelStays s2.jc.waiters s2.jc ∧ s.rp.header = some h ∧ s.rp.step = .update n ∧
      t = State.endFrame (s2.reelFailed h n) ∧ (b.isDrawn = true ∨ s.rp.state ≠ .stopping) ∧
      (t.spc.standbyPending = false ∨ t.spc.part ≠ .running ∨ ¬t.partQuiet))
    ∧ (∃ (s : State) (s1 : State) (s2 : State) (i : Fin 8) (b : Batch) (h : Header) (n : Nat) (t : State),
      s.spc.part = .running ∧
      s1 = { s with jc := s.jcRetired i, re := { s.re with state := .idle, current := none, position := 0 } } ∧
      ((s1.drawnStays s1.jc.waiters s1.jc ∧ s2 = s1) ∨ ∃ w, s.jc.drawn = some w ∧ ¬s1.drawnStays s1.jc.waiters s1.jc ∧
        s2 = s1.drawnDropped w.canvas) ∧ ¬s2.reelStays s2.jc.waiters s2.jc ∧ s.rp.header = some h ∧ s.rp.step = .update n ∧
      t = State.endFrame (s2.reelFailed h n) ∧ (b.isDrawn = true ∨ s.rp.state ≠ .stopping) ∧
      (t.spc.standbyPending = false ∨ t.spc.part ≠ .running ∨ ¬t.partQuiet)) :=
  ⟨⟨flying (engine .secondPass (batch .secondPass .drawn [shown5, { shown5 with frameSlot := 6 }]) run)
        (writeOf .secondPassWrite (wordAt 0x20014) half.toWord),
      flight (writeOf .secondPassWrite (wordAt 0x20014) half.toWord), 0,
      batch .secondPass .drawn [shown5, { shown5 with frameSlot := 6 }], { shown5 with frameSlot := 6 }, half, by decide⟩,
    ⟨flying (engine .secondPass (batch .secondPass .drawn [shown5]) run) (writeOf .secondPassWrite
        (wordAt 0x20014) half.toWord), flight (writeOf .secondPassWrite (wordAt 0x20014) half.toWord), 0,
      batch .secondPass .drawn [shown5], by decide⟩,
    ⟨{ engine .secondPass (batch .secondPass .drawn [shown5]) run with spc := { run.spc with standbyPending := true } }, _, _,
      0, batch .secondPass .drawn [shown5], by decide, rfl, Or.inl ⟨by decide, rfl⟩, by decide, by decide, by decide,
      by decide⟩,
    ⟨engine .secondPass (batch .secondPass .drawn [shown5]) run, _, _, 0, batch .secondPass .drawn [shown5], by decide, rfl,
      Or.inl ⟨by decide, rfl⟩, by decide, by decide, by decide⟩,
    ⟨{ withBatch (engine .secondPass (batch .secondPass .drawn [shown5]) run) 1 (batch .sealed .drawn [entry5])
        with spc := { run.spc with standbyPending := true } }, _, _, 0, batch .secondPass .drawn [shown5], by decide, rfl,
      Or.inl ⟨by decide, rfl⟩, by decide, by decide, by decide⟩,
    ⟨(let s := engine .secondPass (batch .secondPass reelFrame []) (playing .loading .slot none run); { s
        with jc := { (withBatch s 1 (batch .opened .drawn (entries 512))).jc with drawn := some ({ staged (.finished half) .entry with frameSlot := 600 }), waiters := [.aq] } }),
      _, _, 0, batch .secondPass reelFrame [], by decide +kernel, rfl,
      Or.inr ⟨{ staged (.finished half) .entry with frameSlot := 600 }, by decide +kernel, by decide +kernel, rfl⟩,
      by decide +kernel, by decide +kernel, by decide +kernel⟩,
    ⟨{ engine .secondPass (batch .secondPass reelFrame [shown5]) (playing .stopping .none none run)
        with rp := { (playing .stopping .none none run).rp with endedDue := true } }, _, _, 0,
      batch .secondPass reelFrame [shown5], by decide, rfl, Or.inl ⟨by decide, rfl⟩, by decide, by decide, by decide,
      by decide⟩,
    ⟨engine .secondPass (batch .secondPass reelFrame [shown5]) (playing .stopping .none none run), _, _, 0,
      batch .secondPass reelFrame [shown5], by decide, rfl, Or.inl ⟨by decide, rfl⟩, by decide, by decide, by decide,
      by decide⟩,
    ⟨(let s := engine .secondPass (batch .secondPass .drawn []) run; { s
        with spc := { run.spc with standbyPending := true }, rp := { s.rp with header := some header2, step := .update 1 }, jc := { s.jc with reel := some (staged (.finished half) .entry) } }),
      _, _, 0, batch .secondPass .drawn [], header2, 1, _, by decide, rfl, Or.inl ⟨by decide, rfl⟩, by decide, by decide,
      by decide, rfl, by decide, by decide, by decide, by decide⟩,
    ⟨(let s := engine .secondPass (batch .secondPass .drawn []) (playing .loading (.update 1) (some header2) run); { s
        with jc := { (withBatch s 1 (batch .opened reelFrame (entries 512))).jc with reel := some ({ staged (.finished half) .entry with frameSlot := 600 }), waiters := [.rp] } }),
      _, _, 0, batch .secondPass .drawn [], header2, 1, _, by decide +kernel, rfl, Or.inl ⟨by decide, rfl⟩,
      by decide +kernel, by decide +kernel, by decide +kernel, rfl, by decide +kernel, Or.inl (by decide +kernel)⟩,
    ⟨(let s := engine .secondPass (batch .secondPass .drawn []) (playing .loading (.update 1) (some header2) run); { s
        with spc := { run.spc with standbyPending := true }, jc := { (withBatch s 1 (batch .opened reelFrame (entries 512))).jc with reel := some ({ staged (.finished half) .entry with frameSlot := 600 }), waiters := [.rp] } }),
      _, _, 0, batch .secondPass .drawn [], header2, 1, _, by decide +kernel, rfl, Or.inl ⟨by decide, rfl⟩,
      by decide +kernel, by decide +kernel, by decide +kernel, rfl, by decide +kernel, Or.inr (Or.inr (by decide +kernel))⟩⟩

theorem witness_MarksAreCountedOrDelivered :
    (∃ (s : State), s.mm.watching = false)
    ∧ (∃ (s : State), s.mm.paceTimer = none)
    ∧ (∃ (s : State), s.settled ∧ s.mm.watching = true ∧ s.mm.state = .lost ∧ (s.mm.lossTimer = none ∨ s.mm.good ≠ 2))
    ∧ (∃ (s : State), s.settled ∧ s.mm.watching = true ∧ s.mm.state = .lost ∧ (s.mm.lossTimer = none ∨ s.mm.good ≠ 2))
    ∧ (∃ (s : State) (u : State) (c : Instr), s.settled ∧ s.spc.part = .running ∧ s.re.state ≠ .blanking ∧
      ¬(s.re.state = .armed ∧ s.re.hold = 0) ∧ s.delivers c u ∧
      ¬(s.re.hold = 1 ∧ s.lastFlipIsReel = true ∧ s.rp.state = .ending ∧ s.rp.finalFlipped = true))
    ∧ (∃ (s : State) (u : State) (c : Instr), s.settled ∧ s.spc.part = .running ∧ s.re.state ≠ .blanking ∧
      ¬(s.re.state = .armed ∧ s.re.hold = 0) ∧ s.delivers c u ∧
      ¬(s.re.hold = 1 ∧ s.lastFlipIsReel = true ∧ s.rp.state = .ending ∧ s.rp.finalFlipped = true))
    ∧ (∃ (s : State) (u : State) (c : Instr), s.settled ∧ s.spc.part = .running ∧ s.re.state ≠ .blanking ∧
      ¬(s.re.state = .armed ∧ s.re.hold = 0) ∧ s.delivers c u ∧
      ¬(s.re.hold = 1 ∧ s.lastFlipIsReel = true ∧ s.rp.state = .ending ∧ s.rp.finalFlipped = true))
    ∧ (∃ (s : State) (u : State) (c : Instr), s.settled ∧ s.spc.part = .running ∧ s.re.state ≠ .blanking ∧
      ¬(s.re.state = .armed ∧ s.re.hold = 0) ∧ s.delivers c u ∧
      ¬(s.re.hold = 1 ∧ s.lastFlipIsReel = true ∧ s.rp.state = .ending ∧ s.rp.finalFlipped = true))
    ∧ (∃ (s : State) (u : State) (c : Instr) (r : State), s.settled ∧ s.spc.part = .running ∧ s.re.state ≠ .blanking ∧
      ¬(s.re.state = .armed ∧ s.re.hold = 0) ∧ s.delivers c u ∧ s.re.hold = 1 ∧ s.lastFlipIsReel = true ∧
      s.rp.state = .ending ∧ s.rp.finalFlipped = true ∧
      r = State.atIdle (State.reelEnded { u with
          re := { s.re with hold := 0 }, rp := { s.rp with finalFlipped := false }
          ru := if s.slips then u.ru.count .slip else u.ru }))
    ∧ (∃ (s : State) (u : State) (c : Instr) (sub : SubState), s.settled ∧ s.spc.part = .starting sub ∧ s.delivers c u) :=
  ⟨⟨State.reset, by decide⟩,
    ⟨State.reset, by decide⟩,
    ⟨run, by decide⟩,
    ⟨{ run with mm := { run.mm with lossTimer := some 50, good := 1 } }, by decide⟩,
    ⟨{ run with mm := { run.mm with state := .ok, lossTimer := some 50 } }, _, .frameMark, by decide, by decide, by decide,
      by decide, Or.inl ⟨rfl, by decide, by decide, rfl⟩, by decide⟩,
    ⟨{ engine .firstPass (batch .measure .drawn [entry5]) run with mm := { run.mm with state := .ok, lossTimer := some 50 } },
      _, .frameMark, by decide, by decide, by decide, by decide, Or.inl ⟨rfl, by decide, by decide, rfl⟩, by decide⟩,
    ⟨{ run
        with mm := { run.mm with lossTimer := some 50, good := 2 }, ru := { run.ru with interval := 1 }, re := { run.re with hold := 3 } },
      _, .frameMark, by decide, by decide, by decide, by decide,
      Or.inr (Or.inl ⟨rfl, by decide, by decide, by decide, by decide, rfl⟩), by decide⟩,
    ⟨{ run
        with mm := { run.mm with paceTimer := some 16 }, ru := { run.ru with interval := 2, markCount := 1, dueCounters := some .manual } },
      _, .paceTimerExpiry, by decide, by decide, by decide, by decide, Or.inr (Or.inr ⟨rfl, by decide, rfl⟩), by decide⟩,
    ⟨(let s := playing .ending .none none run; { s
        with re := { s.re with hold := 1, lastFlipped := some { release := 7, origin := .reel 0 1 } }, rp := { s.rp with finalFlipped := true }, mm := { s.mm with paceTimer := some 16 } }),
      _, .paceTimerExpiry, _, by decide, by decide, by decide, by decide, Or.inr (Or.inr ⟨rfl, by decide, rfl⟩), by decide,
      by decide, by decide, by decide, rfl⟩,
    ⟨{ inPart (.starting .blanking) with mm := { run.mm with state := .ok, lossTimer := some 50 } }, _, .frameMark, .blanking,
      by decide, by decide, Or.inl ⟨rfl, by decide, by decide, rfl⟩⟩⟩

theorem witness_FlipAtAMark :
    (∃ (s : State) (u : State) (t : State) (v : State) (c : Instr) (i : Fin 8) (b : Batch) (e : Entry) (rest : List Entry)
      (x : Stored),
      s.settled ∧ s.spc.part = .running ∧ s.delivers c u ∧ s.re.state = .armed ∧ s.re.hold = 0 ∧ s.re.current = some i ∧
      s.jc.at i = some b ∧ t = { u.flipped i b with ru := { u.ru with dueStatus := true } } ∧ t.noticed b v ∧
      b.entries = e :: rest ∧ e.shown = some x)
    ∧ (∃ (s : State) (u : State) (t : State) (v : State) (c : Instr) (i : Fin 8) (b : Batch) (e : Entry) (rest : List Entry)
      (x : Stored),
      s.settled ∧ s.spc.part = .running ∧ s.delivers c u ∧ s.re.state = .armed ∧ s.re.hold = 0 ∧ s.re.current = some i ∧
      s.jc.at i = some b ∧ t = { u.flipped i b with ru := { u.ru with dueStatus := true } } ∧ t.noticed b v ∧
      b.entries = e :: rest ∧ e.shown = some x)
    ∧ (∃ (s : State) (u : State) (t : State) (v : State) (c : Instr) (i : Fin 8) (b : Batch) (e : Entry) (rest : List Entry)
      (x : Stored),
      s.settled ∧ s.spc.part = .running ∧ s.delivers c u ∧ s.re.state = .armed ∧ s.re.hold = 0 ∧ s.re.current = some i ∧
      s.jc.at i = some b ∧ t = { u.flipped i b with ru := { u.ru with dueStatus := true } } ∧ t.noticed b v ∧
      b.entries = e :: rest ∧ e.shown = some x)
    ∧ (∃ (s : State) (u : State) (t : State) (v : State) (c : Instr) (i : Fin 8) (b : Batch) (e : Entry) (rest : List Entry)
      (x : Stored),
      s.settled ∧ s.spc.part = .running ∧ s.delivers c u ∧ s.re.state = .armed ∧ s.re.hold = 0 ∧ s.re.current = some i ∧
      s.jc.at i = some b ∧ t = { u.flipped i b with ru := { u.ru with dueStatus := true } } ∧ t.noticed b v ∧
      b.entries = e :: rest ∧ e.shown = some x)
    ∧ (∃ (s : State) (u : State) (t : State) (v : State) (c : Instr) (i : Fin 8) (b : Batch) (e : Entry) (rest : List Entry)
      (x : Stored),
      s.settled ∧ s.spc.part = .running ∧ s.delivers c u ∧ s.re.state = .armed ∧ s.re.hold = 0 ∧ s.re.current = some i ∧
      s.jc.at i = some b ∧ t = { u.flipped i b with ru := { u.ru with dueStatus := true } } ∧ t.noticed b v ∧
      b.entries = e :: rest ∧ e.shown = some x)
    ∧ (∃ (s : State) (u : State) (t : State) (v : State) (c : Instr) (i : Fin 8) (b : Batch) (e : Entry) (rest : List Entry)
      (x : Stored),
      s.settled ∧ s.spc.part = .running ∧ s.delivers c u ∧ s.re.state = .armed ∧ s.re.hold = 0 ∧ s.re.current = some i ∧
      s.jc.at i = some b ∧ t = { u.flipped i b with ru := { u.ru with dueStatus := true } } ∧ t.noticed b v ∧
      b.entries = e :: rest ∧ e.shown = some x)
    ∧ (∃ (s : State) (u : State) (t : State) (v : State) (c : Instr) (i : Fin 8) (b : Batch) (e : Entry) (rest : List Entry)
      (x : Stored),
      s.settled ∧ s.spc.part = .running ∧ s.delivers c u ∧ s.re.state = .armed ∧ s.re.hold = 0 ∧ s.re.current = some i ∧
      s.jc.at i = some b ∧ t = { u.flipped i b with ru := { u.ru with dueStatus := true } } ∧ t.noticed b v ∧
      b.entries = e :: rest ∧ e.shown = some x)
    ∧ (∃ (s : State) (u : State) (t : State) (v : State) (c : Instr) (i : Fin 8) (b : Batch) (e : Entry) (rest : List Entry)
      (x : Stored),
      s.settled ∧ s.spc.part = .running ∧ s.delivers c u ∧ s.re.state = .armed ∧ s.re.hold = 0 ∧ s.re.current = some i ∧
      s.jc.at i = some b ∧ t = { u.flipped i b with ru := { u.ru with dueStatus := true } } ∧ t.noticed b v ∧
      b.entries = e :: rest ∧ e.shown = some x)
    ∧ (∃ (s : State) (u : State) (t : State) (v : State) (c : Instr) (i : Fin 8) (b : Batch) (r : State), s.settled ∧
      s.spc.part = .running ∧ s.delivers c u ∧ s.re.state = .armed ∧ s.re.hold = 0 ∧ s.re.current = some i ∧
      s.jc.at i = some b ∧ t = { u.flipped i b with ru := { u.ru with dueStatus := true } } ∧ t.noticed b v ∧
      b.entries = [] ∧ r = v.retire i { b with phase := .secondPass })
    ∧ (∃ (s : State) (u : State) (t : State) (v : State) (c : Instr) (i : Fin 8) (b : Batch) (r : State), s.settled ∧
      s.spc.part = .running ∧ s.delivers c u ∧ s.re.state = .armed ∧ s.re.hold = 0 ∧ s.re.current = some i ∧
      s.jc.at i = some b ∧ t = { u.flipped i b with ru := { u.ru with dueStatus := true } } ∧ t.noticed b v ∧
      b.entries = [] ∧ r = v.retire i { b with phase := .secondPass })
    ∧ (∃ (l : Ll) (b : Batch) (x : Vector Nat 8) (y : Vector Nat 8) (e : Entry) (n : Nat),
      b.entries.Pairwise (fun e g => e.frameSlot ≠ g.frameSlot) ∧ b.removed = some x ∧ b.added = some y ∧ e ∈ b.entries ∧
      e.newLoad = some n)
    ∧ (∃ (l : Ll) (b : Batch) (x : Vector Nat 8) (y : Vector Nat 8) (f : Nat),
      b.entries.Pairwise (fun e g => e.frameSlot ≠ g.frameSlot) ∧ b.removed = some x ∧ b.added = some y ∧
      (∀ e ∈ b.entries, e.frameSlot ≠ f))
    ∧ (∃ (l : Ll) (b : Batch) (x : Vector Nat 8) (y : Vector Nat 8) (g : Fin 8),
      b.entries.Pairwise (fun e g => e.frameSlot ≠ g.frameSlot) ∧ b.removed = some x ∧ b.added = some y)
    ∧ (∃ (l : Ll) (b : Batch) (x : Vector Nat 8) (y : Vector Nat 8), b.entries.Pairwise (fun e g => e.frameSlot ≠ g.frameSlot) ∧
      b.removed = some x ∧ b.added = some y) :=
  ⟨⟨{ engine .armed (measured .armed .drawn 1) (run) with mm := { run.mm with state := .ok } }, _, _, _, .frameMark, 0,
      measured .armed .drawn 1, shown5, [], half, by decide, by decide, Or.inl ⟨rfl, by decide, by decide, rfl⟩, by decide,
      by decide, by decide, by decide, rfl, Or.inl ⟨by decide, rfl⟩, by decide, by decide⟩,
    ⟨{ engine .armed (measured .armed reelFrame 1) (run) with mm := { run.mm with lossTimer := some 50, good := 2 } }, _, _, _,
      .frameMark, 0, measured .armed reelFrame 1, shown5, [], half, by decide, by decide,
      Or.inr (Or.inl ⟨rfl, by decide, by decide, by decide, by decide, rfl⟩), by decide, by decide, by decide, by decide,
      rfl, Or.inr (Or.inl ⟨by decide, by decide, rfl⟩), by decide, by decide⟩,
    ⟨{ engine .armed (measured .armed reelFrame 1) (playing .stopping .none none run)
        with mm := { run.mm with paceTimer := some 16 } }, _, _, _, .paceTimerExpiry, 0, measured .armed reelFrame 1,
      shown5, [], half, by decide, by decide, Or.inr (Or.inr ⟨rfl, by decide, rfl⟩), by decide, by decide, by decide,
      by decide, rfl, Or.inr (Or.inr (Or.inl ⟨by decide, by decide, by decide, rfl⟩)), by decide, by decide⟩,
    ⟨{ engine .armed (measured .armed reelFrame 1) (let s := playing .stopping .none none run; { s with mp := { s.mp with cut := some 0x7FFFFE } })
        with mm := { run.mm with state := .ok } }, _, _, _, .frameMark, 0, measured .armed reelFrame 1, shown5, [], half,
      by decide, by decide, Or.inl ⟨rfl, by decide, by decide, rfl⟩, by decide, by decide, by decide, by decide, rfl,
      Or.inr (Or.inr (Or.inr (Or.inl ⟨by decide, by decide, 0x7FFFFE, by decide, by decide, rfl⟩))), by decide, by decide⟩,
    ⟨{ engine .armed (measured .armed reelFrame 3) (playing .loading .header none run)
        with mm := { run.mm with lossTimer := some 50, good := 2 } }, _, _, _, .frameMark, 0, measured .armed reelFrame 3,
      shown5, [], half, by decide, by decide, Or.inr (Or.inl ⟨rfl, by decide, by decide, by decide, by decide, rfl⟩),
      by decide, by decide, by decide, by decide, rfl,
      Or.inr (Or.inr (Or.inr (Or.inr (Or.inl ⟨by decide, by decide, rfl⟩)))), by decide, by decide⟩,
    ⟨{ engine .armed (measured .armed reelFrame 1) (let s := playing .waiting .none none run; { s with rp := { s.rp with unflipped := 2, readAddr := 0x7FFFFC } })
        with mm := { run.mm with paceTimer := some 16 } }, _, _, _, .paceTimerExpiry, 0, measured .armed reelFrame 1,
      shown5, [], half, by decide, by decide, Or.inr (Or.inr ⟨rfl, by decide, rfl⟩), by decide, by decide, by decide,
      by decide, rfl, Or.inr (Or.inr (Or.inr (Or.inr (Or.inr (Or.inl ⟨by decide, by decide, rfl⟩))))), by decide, by decide⟩,
    ⟨{ engine .armed (measured .armed reelFrame 2) (let s := playing .ending .none none run; { s with rp := { s.rp with unflipped := 1 } })
        with mm := { run.mm with state := .ok } }, _, _, _, .frameMark, 0, measured .armed reelFrame 2, shown5, [], half,
      by decide, by decide, Or.inl ⟨rfl, by decide, by decide, rfl⟩, by decide, by decide, by decide, by decide, rfl,
      Or.inr (Or.inr (Or.inr (Or.inr (Or.inr (Or.inr
        (⟨by decide, by decide, true, by decide, Or.inl ⟨by decide, rfl⟩⟩)))))), by decide, by decide⟩,
    ⟨{ engine .armed (measured .armed reelFrame 1) (let s := playing .ending .none none run; { s with rp := { s.rp with unflipped := 1 } })
        with mm := { run.mm with paceTimer := some 16 } }, _, _, _, .paceTimerExpiry, 0, measured .armed reelFrame 1,
      shown5, [], half, by decide, by decide, Or.inr (Or.inr ⟨rfl, by decide, rfl⟩), by decide, by decide, by decide,
      by decide, rfl,
      Or.inr (Or.inr (Or.inr (Or.inr (Or.inr (Or.inr
        (⟨by decide, by decide, true, by decide, Or.inr ⟨by decide, by decide, rfl⟩⟩)))))), by decide, by decide⟩,
    ⟨{ engine .armed ({ measured .armed .drawn 1 with entries := [] }) (run) with mm := { run.mm with state := .ok } }, _, _, _,
      .frameMark, 0, { measured .armed .drawn 1 with entries := [] }, _, by decide, by decide,
      Or.inl ⟨rfl, by decide, by decide, rfl⟩, by decide, by decide, by decide, by decide, rfl, Or.inl ⟨by decide, rfl⟩,
      by decide, rfl⟩,
    ⟨{ engine .armed ({ measured .armed reelFrame 1 with entries := [] }) (let s := playing .ending .none none run; { s with rp := { s.rp with unflipped := 1 } })
        with mm := { run.mm with paceTimer := some 16 } }, _, _, _, .paceTimerExpiry, 0,
      { measured .armed reelFrame 1 with entries := [] }, _, by decide, by decide, Or.inr (Or.inr ⟨rfl, by decide, rfl⟩),
      by decide, by decide, by decide, by decide, rfl,
      Or.inr (Or.inr (Or.inr (Or.inr (Or.inr (Or.inr
        (⟨by decide, by decide, true, by decide, Or.inr ⟨by decide, by decide, rfl⟩⟩)))))), by decide, rfl⟩,
    ⟨Ll.reset, measured .armed .drawn 1, Vector.replicate 8 0, Vector.replicate 8 0, shown5, 192, by decide⟩,
    ⟨Ll.reset, measured .armed .drawn 1, Vector.replicate 8 0, Vector.replicate 8 0, 6, by decide⟩,
    ⟨Ll.reset, measured .armed .drawn 1, Vector.replicate 8 0, Vector.replicate 8 0, 7, by decide⟩,
    ⟨Ll.reset, measured .armed .drawn 1, Vector.replicate 8 0, Vector.replicate 8 0, by decide⟩⟩

theorem witness_LossWindowExpiryDeclaresTheLoss :
    (∃ (s : State), s.mm.lossTimer = none)
    ∧ (∃ (s : State), s.settled ∧ s.mm.lossTimer ≠ none ∧ s.mm.state = .ok)
    ∧ (∃ (s : State), s.settled ∧ s.mm.lossTimer ≠ none ∧ s.mm.state = .lost)
    ∧ (∃ (s : State), s.settled ∧ s.mm.watching = true ∧ s.mm.lossTimer = none ∧ s.mm.state = .lost) :=
  ⟨⟨run, by decide⟩,
    ⟨{ run with mm := { run.mm with state := .ok, lossTimer := some 50 } }, by decide⟩,
    ⟨{ run with mm := { run.mm with lossTimer := some 50, good := 2 } }, by decide⟩,
    ⟨run, by decide⟩⟩

theorem witness_HeaderReadOpensABatchOrAborts :
    (∃ (s : State) (f : InFlight) (x : Word) (h : Header) (n : Fin 4) (i : Fin 8), s.settled ∧ s.inFlightFor f .header ∧
      f.req.op = .read ∧ x = s.dataOf f ∧
      h = { count := bits x 7 0, hold := if bits x 15 8 = 0 then 1 else bits x 15 8, addr := s.rp.readAddr } ∧
      s.readError f = false ∧ s.rp.readAddr + 8 * h.count ≤ 0x7FFFFF ∧ s.rp.reel = some n ∧ s.jc.reelCount < 2 ∧
      s.jc.at i = none ∧ (∀ k, k < i → (s.jc.at k).isSome = true) ∧ 0 < h.count)
    ∧ (∃ (s : State) (f : InFlight) (x : Word) (h : Header) (n : Fin 4), s.settled ∧ s.inFlightFor f .header ∧
      f.req.op = .read ∧
      x = s.dataOf f ∧
      h = { count := bits x 7 0, hold := if bits x 15 8 = 0 then 1 else bits x 15 8, addr := s.rp.readAddr } ∧
      s.readError f = false ∧ s.rp.readAddr + 8 * h.count ≤ 0x7FFFFF ∧ s.rp.reel = some n ∧ 2 ≤ s.jc.reelCount)
    ∧ (∃ (s : State) (f : InFlight) (x : Word) (h : Header) (n : Fin 4) (i : Fin 8), s.settled ∧ s.inFlightFor f .header ∧
      f.req.op = .read ∧ x = s.dataOf f ∧
      h = { count := bits x 7 0, hold := if bits x 15 8 = 0 then 1 else bits x 15 8, addr := s.rp.readAddr } ∧
      s.readError f = false ∧ h.count = 0 ∧ s.rp.readAddr + 4 ≤ 0x7FFFFC ∧ s.rp.reel = some n ∧ s.jc.reelCount < 2 ∧
      s.jc.openReel = none ∧ s.jc.at i = none ∧ (∀ k, k < i → (s.jc.at k).isSome = true) ∧ s.rp.state = .loading ∧
      s.rp.frame + 1 < (tget s.rp.directory n).frames ∧ s.rp.unflipped = 0)
    ∧ (∃ (s : State) (f : InFlight) (x : Word) (h : Header), s.settled ∧ s.inFlightFor f .header ∧ f.req.op = .read ∧
      x = s.dataOf f ∧
      h = { count := bits x 7 0, hold := if bits x 15 8 = 0 then 1 else bits x 15 8, addr := s.rp.readAddr } ∧
      (s.readError f = true ∨ 0x7FFFFF < s.rp.readAddr + 8 * h.count) ∧ s.rp.state = .loading ∧ s.jc.reelCount = 0 ∧
      s.jc.drawn = none ∧ s.jc.reel = none ∧ s.jc.reelOpen = none ∧ s.jc.waiters = [] ∧ s.ct.offerRp = none ∧
      (∀ q ∈ s.ct.current, q.kind ≠ .reelUpdate) ∧ s.pu.heldReel = none ∧ s.rp.pendingCue = none ∧
      s.spc.standbyPending = false)
    ∧ (∃ (s : State) (f : InFlight) (x : Word) (h : Header), s.settled ∧ s.inFlightFor f .header ∧ f.req.op = .read ∧
      x = s.dataOf f ∧
      h = { count := bits x 7 0, hold := if bits x 15 8 = 0 then 1 else bits x 15 8, addr := s.rp.readAddr } ∧
      (s.readError f = true ∨ 0x7FFFFF < s.rp.readAddr + 8 * h.count) ∧ s.rp.state = .loading ∧ s.jc.reelCount = 0 ∧
      s.jc.drawn = none ∧ s.jc.reel = none ∧ s.jc.reelOpen = none ∧ s.jc.waiters = [] ∧ s.ct.offerRp = none ∧
      (∀ q ∈ s.ct.current, q.kind ≠ .reelUpdate) ∧ s.pu.heldReel = none ∧ s.rp.pendingCue = none ∧
      s.spc.standbyPending = false)
    ∧ (∃ (s : State) (f : InFlight) (x : Word) (h : Header), s.settled ∧ s.inFlightFor f .header ∧ f.req.op = .read ∧
      x = s.dataOf f ∧
      h = { count := bits x 7 0, hold := if bits x 15 8 = 0 then 1 else bits x 15 8, addr := s.rp.readAddr } ∧
      (s.readError f = true ∨ 0x7FFFFF < s.rp.readAddr + 8 * h.count) ∧ s.spc.part = .running)
    ∧ (∃ (s : State) (f : InFlight) (x : Word) (h : Header), s.settled ∧ s.inFlightFor f .header ∧ f.req.op = .read ∧
      x = s.dataOf f ∧
      h = { count := bits x 7 0, hold := if bits x 15 8 = 0 then 1 else bits x 15 8, addr := s.rp.readAddr } ∧
      (s.readError f = true ∨ 0x7FFFFF < s.rp.readAddr + 8 * h.count) ∧ s.spc.part = .running)
    ∧ (∃ (s : State) (f : InFlight) (x : Word) (h : Header) (n : Fin 4) (i : Fin 8), s.settled ∧ s.inFlightFor f .header ∧
      f.req.op = .read ∧ x = s.dataOf f ∧
      h = { count := bits x 7 0, hold := if bits x 15 8 = 0 then 1 else bits x 15 8, addr := s.rp.readAddr } ∧
      s.readError f = false ∧ h.count = 0 ∧ s.rp.readAddr ≤ 0x7FFFFF ∧ s.spc.part = .running ∧ s.rp.reel = some n ∧
      s.jc.reelCount < 2 ∧ s.jc.at i = none ∧ (∀ k, k < i → (s.jc.at k).isSome = true))
    ∧ (∃ (s : State), s.spc.part = .running ∧ s.rp.state ≠ .idle)
    ∧ (∃ (s : State) (u : State) (f : InFlight) (a : Nat) (count : Nat), s.settled ∧ s.spc.part = .running ∧
      s.mp.inFlight = some f ∧ f.req.owner = .header ∧ f.req.op = .read ∧ f.discard = true ∧ s.mp.cut = some a ∧
      count = field (s.dataOf f) 7 0 ∧ u = { s with mp := s.mp.freed, ru := s.ruAfterRead f } ∧ s.readError f = false ∧
      a + 8 * count ≤ 0x7FFFFF)
    ∧ (∃ (s : State) (u : State) (f : InFlight) (a : Nat) (count : Nat), s.settled ∧ s.spc.part = .running ∧
      s.mp.inFlight = some f ∧ f.req.owner = .header ∧ f.req.op = .read ∧ f.discard = true ∧ s.mp.cut = some a ∧
      count = field (s.dataOf f) 7 0 ∧ u = { s with mp := s.mp.freed, ru := s.ruAfterRead f } ∧
      (s.readError f = true ∨ 0x7FFFFF < a + 8 * count)) :=
  ⟨⟨flying (wordsAt 0x4000 0x0002 (playing .loading .header none run)) (readOf .header (wordAt 0x4000)),
      flight (readOf .header (wordAt 0x4000)), _, _, 0, 0, by decide, by decide, by decide, rfl, rfl, by decide, by decide,
      by decide, by decide, by decide, by decide, by decide⟩,
    ⟨flying (wordsAt 0x4000 0x0302 (playing .loading .header none (withBatch (withBatch run 0
        (batch .sealed reelFrame [])) 1 (batch .secondPass reelFrame [])))) (readOf .header (wordAt 0x4000)),
      flight (readOf .header (wordAt 0x4000)), _, _, 0, by decide, by decide, by decide, rfl, rfl, by decide, by decide,
      by decide, by decide⟩,
    ⟨flying (wordsAt 0x4000 0x0100 (playing .loading .header none run)) (readOf .header (wordAt 0x4000)),
      flight (readOf .header (wordAt 0x4000)), _, _, 0, 0, by decide, by decide, by decide, rfl, rfl, by decide, by decide,
      by decide, by decide, by decide, by decide, by decide, by decide, by decide, by decide, by decide⟩,
    ⟨badAt 0x4001 (flying (playing .loading .header none run) (readOf .header (wordAt 0x4000))),
      flight (readOf .header (wordAt 0x4000)), _, _, by decide, by decide, by decide, rfl, rfl, by decide, by decide,
      by decide, by decide, by decide, by decide, by decide, by decide, by decide, by decide, by decide, by decide⟩,
    ⟨(let s := flying (wordsAt 0x4000 0xFF (playing .loading .header none run)) (readOf .header (wordAt 0x4000)); { s
        with rp := { s.rp with readAddr := 0x7FF80C } }), flight (readOf .header (wordAt 0x4000)), _, _, by decide,
      by decide, by decide, rfl, rfl, by decide, by decide, by decide, by decide, by decide, by decide, by decide,
      by decide, by decide, by decide, by decide, by decide⟩,
    ⟨badAt 0x4001 (flying (playing .loading .header none run) (readOf .header (wordAt 0x4000))),
      flight (readOf .header (wordAt 0x4000)), _, _, by decide, by decide, by decide, rfl, rfl, by decide, by decide⟩,
    ⟨(let s := flying (wordsAt 0x4000 0xFF (playing .loading .header none run)) (readOf .header (wordAt 0x4000)); { s
        with rp := { s.rp with readAddr := 0x7FF80C } }), flight (readOf .header (wordAt 0x4000)), _, _, by decide,
      by decide, by decide, rfl, rfl, by decide, by decide⟩,
    ⟨flying (wordsAt 0x4000 0x0100 (playing .loading .header none run)) (readOf .header (wordAt 0x4000)),
      flight (readOf .header (wordAt 0x4000)), _, _, 0, 0, by decide, by decide, by decide, rfl, rfl, by decide, by decide,
      by decide, by decide, by decide, by decide, by decide, by decide⟩,
    ⟨playing .waiting .none none run, by decide⟩,
    ⟨{ wordsAt 0x4000 0xFF run
        with mp := { run.mp with inFlight := some { flight (readOf .header (wordAt 0x4000)) with discard := true }, cut := some 0x4000 }, rp := (playing .stopping .header none run).rp },
      _, { flight (readOf .header (wordAt 0x4000)) with discard := true }, 0x4000, 255, by decide, by decide, by decide,
      by decide, by decide, by decide, by decide, by decide, rfl, by decide, by decide⟩,
    ⟨{ badAt 0x4001 run
        with mp := { run.mp with inFlight := some { flight (readOf .header (wordAt 0x4000)) with discard := true }, cut := some 0x4000 }, rp := (playing .stopping .header none run).rp },
      _, { flight (readOf .header (wordAt 0x4000)) with discard := true }, 0x4000, 0, by decide, by decide, by decide,
      by decide, by decide, by decide, by decide, by decide, rfl, by decide⟩⟩

theorem witness_PairReadsGoToTheTranslator :
    (∃ (s : State) (f : InFlight) (h : Header) (i : Nat) (u : Ru), s.settled ∧ s.spc.part = .running ∧
      s.inFlightFor f .pairRead ∧ f.req.op = .read ∧ s.rp.header = some h ∧ s.rp.step = .pairAddr i ∧
      u = (if s.readError f then (s.ru.count .parity).report .readParity .reelUpdate (BitVec.ofNat 24
        (h.addr + 4 + 8 * i)) else s.ru))
    ∧ (∃ (s : State) (f : InFlight) (h : Header) (i : Nat) (u : Ru) (a : Word), s.settled ∧ s.spc.part = .running ∧
      s.inFlightFor f .pairRead ∧ f.req.op = .read ∧ s.rp.header = some h ∧ s.rp.step = .pairValue i a false ∧
      s.readError f = false ∧ 0x800000 ≤ a.toNat ∧ a.toNat ≤ 0xAFFFFF ∧ a.toNat % 4 = 0 ∧
      (∃ q ∈ s.ct.current, q.kind = .reelUpdate))
    ∧ (∃ (s : State) (f : InFlight) (h : Header) (i : Nat) (u : Ru) (a : Word), s.settled ∧ s.spc.part = .running ∧
      s.inFlightFor f .pairRead ∧ f.req.op = .read ∧ s.rp.header = some h ∧ s.rp.step = .pairValue i a false ∧
      s.readError f = false ∧ 0x800000 ≤ a.toNat ∧ a.toNat ≤ 0xAFFFFF ∧ a.toNat % 4 = 0 ∧
      (∀ q ∈ s.ct.current, q.kind ≠ .reelUpdate))
    ∧ (∃ (s : State) (f : InFlight) (h : Header) (i : Nat) (u : Ru) (a : Word), s.settled ∧ s.spc.part = .running ∧
      s.inFlightFor f .pairRead ∧ f.req.op = .read ∧ s.rp.header = some h ∧ s.rp.step = .pairValue i a false ∧
      s.readError f = false ∧ 0x800000 ≤ a.toNat ∧ a.toNat ≤ 0xAFFFFF ∧ a.toNat % 4 = 0 ∧
      (∀ q ∈ s.ct.current, q.kind ≠ .reelUpdate))
    ∧ (∃ (s : State) (f : InFlight) (h : Header) (i : Nat) (u : Ru) (a : Word), s.settled ∧ s.spc.part = .running ∧
      s.inFlightFor f .pairRead ∧ f.req.op = .read ∧ s.rp.header = some h ∧ s.rp.step = .pairValue i a false ∧
      s.readError f = false ∧ ¬(0x800000 ≤ a.toNat ∧ a.toNat ≤ 0xAFFFFF ∧ a.toNat % 4 = 0))
    ∧ (∃ (s : State) (f : InFlight) (h : Header) (i : Nat) (u : Ru) (a : Word), s.settled ∧ s.spc.part = .running ∧
      s.inFlightFor f .pairRead ∧ f.req.op = .read ∧ s.rp.header = some h ∧ s.rp.step = .pairValue i a false ∧
      s.readError f = false ∧ ¬(0x800000 ≤ a.toNat ∧ a.toNat ≤ 0xAFFFFF ∧ a.toNat % 4 = 0))
    ∧ (∃ (s : State) (f : InFlight) (h : Header) (i : Nat) (u : Ru) (a : Word), s.settled ∧ s.spc.part = .running ∧
      s.inFlightFor f .pairRead ∧ f.req.op = .read ∧ s.rp.header = some h ∧ s.rp.step = .pairValue i a false ∧
      s.readError f = false ∧ ¬(0x800000 ≤ a.toNat ∧ a.toNat ≤ 0xAFFFFF ∧ a.toNat % 4 = 0))
    ∧ (∃ (s : State) (f : InFlight) (h : Header) (i : Nat) (u : Ru) (a : Word) (bad : Bool), s.settled ∧ s.spc.part = .running ∧
      s.inFlightFor f .pairRead ∧ f.req.op = .read ∧ s.rp.header = some h ∧ s.rp.step = .pairValue i a bad ∧
      (bad = true ∨ s.readError f = true) ∧
      u = (if s.readError f then (s.ru.count .parity).report .readParity .reelUpdate (BitVec.ofNat 24
        (h.addr + 4 + 8 * i + 4)) else s.ru))
    ∧ (∃ (s : State) (h : Header) (n : Nat), s.rp.header = some h ∧ n < h.count)
    ∧ (∃ (s : State) (h : Header) (n : Nat), s.rp.header = some h ∧ h.count ≤ n)
    ∧ (∃ (s : State) (t : State) (n : Fin 4) (h : Header) (i : Fin 8) (b : Batch) (e : DirEntry), s.rp.reel = some n ∧
      s.rp.header = some h ∧ s.jc.openReel = some i ∧ s.jc.at i = some b ∧ e = tget s.rp.directory n ∧
      t = s.frameSealed i b ∧ s.rp.frame + 1 < e.frames)
    ∧ (∃ (s : State) (t : State) (n : Fin 4) (h : Header) (i : Fin 8) (b : Batch) (e : DirEntry), s.rp.reel = some n ∧
      s.rp.header = some h ∧ s.jc.openReel = some i ∧ s.jc.at i = some b ∧ e = tget s.rp.directory n ∧
      t = s.frameSealed i b ∧ e.frames ≤ s.rp.frame + 1 ∧ e.loops < 15 ∧ s.rp.plays.toNat = e.loops ∧ s.rp.state ≠ .ending)
    ∧ (∃ (s : State) (t : State) (n : Fin 4) (h : Header) (i : Fin 8) (b : Batch) (e : DirEntry), s.rp.reel = some n ∧
      s.rp.header = some h ∧ s.jc.openReel = some i ∧ s.jc.at i = some b ∧ e = tget s.rp.directory n ∧
      t = s.frameSealed i b ∧ e.frames ≤ s.rp.frame + 1 ∧ (15 ≤ e.loops ∨ s.rp.plays.toNat ≠ e.loops))
    ∧ (∃ (s : State) (t : State) (n : Fin 4) (h : Header) (i : Fin 8) (b : Batch) (e : DirEntry), s.rp.reel = some n ∧
      s.rp.header = some h ∧ s.jc.openReel = some i ∧ s.jc.at i = some b ∧ e = tget s.rp.directory n ∧
      t = s.frameSealed i b ∧ e.frames ≤ s.rp.frame + 1 ∧ (15 ≤ e.loops ∨ s.rp.plays.toNat ≠ e.loops))
    ∧ (∃ (s : State), (s.rp.state = .loading ∨ s.rp.state = .waiting) ∧ s.rp.unflipped < 2 ∧ s.rp.readAddr ≤ 0x7FFFFC)
    ∧ (∃ (s : State), (s.rp.state = .loading ∨ s.rp.state = .waiting) ∧ s.rp.unflipped < 2 ∧ s.rp.readAddr ≤ 0x7FFFFC)
    ∧ (∃ (s : State) (t : State), (s.rp.state = .loading ∨ s.rp.state = .waiting) ∧ s.rp.unflipped < 2 ∧
      0x7FFFFC < s.rp.readAddr ∧
      t = { s with
          rp := { s.rp with state := .loading }
          ru := if s.rp.state = .waiting then { s.ru with dueStatus := true } else s.ru } ∧
      (s.re.state ≠ .idle ∨ s.spc.part ≠ .running ∨ s.eligibleExists = false))
    ∧ (∃ (s : State) (t : State), (s.rp.state = .loading ∨ s.rp.state = .waiting) ∧ s.rp.unflipped < 2 ∧
      0x7FFFFC < s.rp.readAddr ∧
      t = { s with
          rp := { s.rp with state := .loading }
          ru := if s.rp.state = .waiting then { s.ru with dueStatus := true } else s.ru } ∧
      (s.re.state ≠ .idle ∨ s.spc.part ≠ .running ∨ s.eligibleExists = false))
    ∧ (∃ (s : State) (t : State) (i : Fin 8) (b : Batch), (s.rp.state = .loading ∨ s.rp.state = .waiting) ∧ s.rp.unflipped < 2 ∧
      0x7FFFFC < s.rp.readAddr ∧
      t = { s with
          rp := { s.rp with state := .loading }
          ru := if s.rp.state = .waiting then { s.ru with dueStatus := true } else s.ru } ∧ s.re.state = .idle ∧
      s.spc.part = .running ∧ s.takesNext i b)
    ∧ (∃ (s : State) (t : State) (i : Fin 8) (b : Batch), (s.rp.state = .loading ∨ s.rp.state = .waiting) ∧ s.rp.unflipped < 2 ∧
      0x7FFFFC < s.rp.readAddr ∧
      t = { s with
          rp := { s.rp with state := .loading }
          ru := if s.rp.state = .waiting then { s.ru with dueStatus := true } else s.ru } ∧ s.re.state = .idle ∧
      s.spc.part = .running ∧ s.takesNext i b)
    ∧ (∃ (s : State), (s.rp.state = .loading ∨ s.rp.state = .waiting) ∧ 2 ≤ s.rp.unflipped)
    ∧ (∃ (s : State), (s.rp.state = .loading ∨ s.rp.state = .waiting) ∧ 2 ≤ s.rp.unflipped)
    ∧ (∃ (b : Batch), b.origin = .drawn)
    ∧ (∃ (b : Batch) (n : Fin 4) (k : Nat) (x : Bool), b.origin = .reel n k x) :=
  ⟨⟨badAt 0x4004 (flying (playing .loading (.pairAddr 0) (some header2) run) (readOf .pairRead (wordAt 0x4004))),
      flight (readOf .pairRead (wordAt 0x4004)), header2, 0, _, by decide, by decide, by decide, by decide, by decide,
      by decide, rfl⟩,
    ⟨{ flying (playing .loading (.pairValue 0 0x800000 false) (some header2) run) (readOf .pairRead (wordAt 0x4004))
        with ct := { Ct.reset with current := some { request .reelUpdate with discard := true } } },
      flight (readOf .pairRead (wordAt 0x4004)), header2, 0, Ru.reset, 0x800000, by decide⟩,
    ⟨flying (playing .loading (.pairValue 0 0xAFFFFC false) (some header2) run) (readOf .pairRead (wordAt 0x4004)),
      flight (readOf .pairRead (wordAt 0x4004)), header2, 0, Ru.reset, 0xAFFFFC, by decide⟩,
    ⟨flying (playing .loading (.pairValue 0 0x800000 false) (some header2) run) (readOf .pairRead (wordAt 0x4004)),
      flight (readOf .pairRead (wordAt 0x4004)), header2, 0, Ru.reset, 0x800000, by decide⟩,
    ⟨flying (playing .loading (.pairValue 0 0xB00000 false) (some header2) run) (readOf .pairRead (wordAt 0x4004)),
      flight (readOf .pairRead (wordAt 0x4004)), header2, 0, Ru.reset, 0xB00000, by decide⟩,
    ⟨flying (playing .loading (.pairValue 0 0x7FFFFC false) (some header2) run) (readOf .pairRead (wordAt 0x4004)),
      flight (readOf .pairRead (wordAt 0x4004)), header2, 0, Ru.reset, 0x7FFFFC, by decide⟩,
    ⟨flying (playing .loading (.pairValue 0 0x800002 false) (some header2) run) (readOf .pairRead (wordAt 0x4004)),
      flight (readOf .pairRead (wordAt 0x4004)), header2, 0, Ru.reset, 0x800002, by decide⟩,
    ⟨flying (playing .loading (.pairValue 0 0x800000 true) (some header2) run) (readOf .pairRead (wordAt 0x4004)),
      flight (readOf .pairRead (wordAt 0x4004)), header2, 0, _, 0x800000, true, by decide, by decide, by decide, by decide,
      by decide, by decide, by decide, rfl⟩,
    ⟨playing .loading (.update 0) (some header2) run, header2, 1, by decide⟩,
    ⟨playing .loading (.update 1) (some header2) run, header2, 2, by decide⟩,
    ⟨(let s := playing .loading (.update 1) (some header2) (withBatch run 3 (batch .opened reelFrame [entry5])); { s
        with rp := { s.rp with frame := 0, plays := 0, directory := tset s.rp.directory 0 { reel0 with loops := 0 } } }), _,
      0, header2, 3, batch .opened reelFrame [entry5], _, by decide, by decide, by decide, by decide, rfl, rfl, by decide⟩,
    ⟨(let s := playing .loading (.update 1) (some header2) (withBatch run 3 (batch .opened reelFrame [entry5])); { s
        with rp := { s.rp with frame := 1, plays := 14, directory := tset s.rp.directory 0 { reel0 with loops := 14 } } }),
      _, 0, header2, 3, batch .opened reelFrame [entry5], _, by decide, by decide, by decide, by decide, rfl, rfl,
      by decide, by decide, by decide, by decide⟩,
    ⟨(let s := playing .loading (.update 1) (some header2) (withBatch run 3 (batch .opened reelFrame [entry5])); { s
        with rp := { s.rp with frame := 1, plays := 15, directory := tset s.rp.directory 0 { reel0 with loops := 15 } } }),
      _, 0, header2, 3, batch .opened reelFrame [entry5], _, by decide, by decide, by decide, by decide, rfl, rfl,
      by decide, by decide⟩,
    ⟨(let s := playing .loading (.update 1) (some header2) (withBatch run 3 (batch .opened reelFrame [entry5])); { s
        with rp := { s.rp with frame := 1, plays := 255, directory := tset s.rp.directory 0 { reel0 with loops := 0 } } }),
      _, 0, header2, 3, batch .opened reelFrame [entry5], _, by decide, by decide, by decide, by decide, rfl, rfl,
      by decide, by decide⟩,
    ⟨(let s := playing .loading .none none run; { s with rp := { s.rp with readAddr := 0x7FFFFC, unflipped := 1 } }),
      by decide⟩,
    ⟨(let s := playing .waiting .none none run; { s with rp := { s.rp with readAddr := 0x4000, unflipped := 0 } }), by decide⟩,
    ⟨(let s := playing .loading .none none (run); { s with rp := { s.rp with readAddr := 0x800000, unflipped := 1 } }), _,
      by decide, by decide, by decide, rfl, by decide⟩,
    ⟨(let s := playing .loading .none none (let r := withBatch run 0 (batch .sealed reelFrame []); { r
        with re := { r.re with state := .firstPass } }); { s
        with rp := { s.rp with readAddr := 0x800000, unflipped := 1 } }), _, by decide, by decide, by decide, rfl, by decide⟩,
    ⟨(let s := playing .loading .none none (withBatch run 7 (batch .sealed reelFrame [])); { s
        with rp := { s.rp with readAddr := 0x800000, unflipped := 1 } }), _, 7, batch .sealed reelFrame [], by decide,
      by decide, by decide, rfl, by decide, by decide, by decide⟩,
    ⟨(let s := playing .loading .none none (withBatch run 7 (batch .sealed reelFrame [entry5])); { s
        with rp := { s.rp with readAddr := 0x800000, unflipped := 1 } }), _, 7, batch .sealed reelFrame [entry5], by decide,
      by decide, by decide, rfl, by decide, by decide, by decide⟩,
    ⟨(let s := playing .loading .none none run; { s with rp := { s.rp with readAddr := 0x4000, unflipped := 2 } }), by decide⟩,
    ⟨(let s := playing .waiting .none none run; { s with rp := { s.rp with readAddr := 0x4000, unflipped := 2 } }), by decide⟩,
    ⟨batch .opened .drawn [entry5], by decide⟩,
    ⟨batch .opened reelFrame [entry5], 0, 0, false, by decide⟩⟩

theorem witness_RecordsAreWrittenWordByWord :
    (∃ (s : State) (f : InFlight) (w : RuWrite), s.settled ∧ s.inFlightFor f .status ∧ f.req.op ≠ .read ∧
      s.ru.writing = some w ∧ w.written + 1 < w.words.length)
    ∧ (∃ (s : State) (f : InFlight) (w : RuWrite), s.settled ∧ s.inFlightFor f .status ∧ f.req.op ≠ .read ∧
      s.ru.writing = some w ∧ w.words.length ≤ w.written + 1)
    ∧ (∃ (s : State),
      (s.ru.writing ≠ none ∨ s.ru.base = none ∨ (s.ru.dueFault = false ∧ s.ru.dueStatus = false ∧ s.ru.dueCounters = none)))
    ∧ (∃ (s : State),
      (s.ru.writing ≠ none ∨ s.ru.base = none ∨ (s.ru.dueFault = false ∧ s.ru.dueStatus = false ∧ s.ru.dueCounters = none)))
    ∧ (∃ (s : State) (base : Nat), s.ru.writing = none ∧ s.ru.base = some base ∧ s.ru.dueFault = true)
    ∧ (∃ (s : State) (base : Nat), s.ru.writing = none ∧ s.ru.base = some base ∧ s.ru.dueFault = false ∧ s.ru.dueStatus = true)
    ∧ (∃ (s : State) (base : Nat) (kind : CaptureKind), s.ru.writing = none ∧ s.ru.base = some base ∧ s.ru.dueFault = false ∧
      s.ru.dueStatus = false ∧ s.ru.dueCounters = some kind)
    ∧ (∃ (s : State) (n : BitVec 16) (w : Nat → Word), (∀ a, w a = (s.statusWords n).getD (a / 4) 0))
    ∧ (∃ (s : State) (n : BitVec 16) (w : Nat → Word), (∀ a, w a = (s.statusWords n).getD (a / 4) 0) ∧ s.re.lastFlipped = none)
    ∧ (∃ (s : State) (n : BitVec 16) (w : Nat → Word) (r : BitVec 8) (tag : BitVec 16) (o : Bool),
      (∀ a, w a = (s.statusWords n).getD (a / 4) 0) ∧ s.re.lastFlipped = some { release := r, origin := .drawn tag o })
    ∧ (∃ (s : State) (n : BitVec 16) (w : Nat → Word) (r : BitVec 8) (k : Fin 4) (i : Nat),
      (∀ a, w a = (s.statusWords n).getD (a / 4) 0) ∧ s.re.lastFlipped = some { release := r, origin := .reel k i })
    ∧ (∃ (u : Ru), u.fault = none)
    ∧ (∃ (u : Ru) (f : FaultCopy), u.fault = some f)
    ∧ (∃ (u : Ru) (n : BitVec 16) (kind : CaptureKind) (w : Nat → Word), (∀ a, w a = (u.counterWords n kind).getD (a / 4) 0))
    ∧ (∃ (u : Ru) (n : BitVec 16) (kind : CaptureKind) (w : Nat → Word) (i : Fin 8),
      (∀ a, w a = (u.counterWords n kind).getD (a / 4) 0))
    ∧ (∃ (u : Ru) (n : BitVec 16) (kind : CaptureKind) (w : Nat → Word) (k : Nat),
      (∀ a, w a = (u.counterWords n kind).getD (a / 4) 0) ∧ ((1 ≤ k ∧ k < 8) ∨ 16 ≤ k))
    ∧ (∃ (u : Ru) (n : BitVec 16) (kind : CaptureKind) (w : Nat → Word) (k : Nat),
      (∀ a, w a = (u.counterWords n kind).getD (a / 4) 0) ∧ ((1 ≤ k ∧ k < 8) ∨ 16 ≤ k))
    ∧ (∃ (s : State) (t : State), t = s.beginDueRecord ∧
      (t.mp.completing = false ∨ (∃ p, tget t.mp.requests p ≠ none) ∨ t.canFollow))
    ∧ (∃ (s : State) (t : State), t = s.beginDueRecord ∧
      (t.mp.completing = false ∨ (∃ p, tget t.mp.requests p ≠ none) ∨ t.canFollow))
    ∧ (∃ (s : State) (t : State), t = s.beginDueRecord ∧
      (t.mp.completing = false ∨ (∃ p, tget t.mp.requests p ≠ none) ∨ t.canFollow))
    ∧ (∃ (s : State) (t : State), t = s.beginDueRecord ∧
      (t.mp.completing = false ∨ (∃ p, tget t.mp.requests p ≠ none) ∨ t.canFollow))
    ∧ (∃ (s : State) (t : State), t = s.beginDueRecord ∧ (∀ p, tget t.mp.requests p = none) ∧ ¬t.canFollow) :=
  ⟨⟨{ flying run (writeOf .status (wordAt 0x30030) 0)
        with ru := { run.ru with writing := some { record := .fault, words := [0, 0, 0, 0], base := 0x30000, written := 2 }, dueStatus := true } },
      flight (writeOf .status (wordAt 0x30030) 0),
      { record := .fault, words := [0, 0, 0, 0], base := 0x30000, written := 2 }, by decide⟩,
    ⟨{ flying run (writeOf .status (wordAt 0x30030) 0)
        with ru := { run.ru with writing := some { record := .fault, words := [0, 0, 0, 0], base := 0x30000, written := 3 }, dueStatus := true } },
      flight (writeOf .status (wordAt 0x30030) 0),
      { record := .fault, words := [0, 0, 0, 0], base := 0x30000, written := 3 }, by decide⟩,
    ⟨run, Or.inr (Or.inr (by decide))⟩,
    ⟨State.reset, Or.inr (Or.inl (by decide))⟩,
    ⟨{ run with ru := { run.ru with dueFault := true, dueStatus := true } }, 0x30000, by decide⟩,
    ⟨{ run with ru := { run.ru with dueStatus := true, dueCounters := some .manual } }, 0x30000, by decide⟩,
    ⟨{ run with ru := { run.ru with dueCounters := some .automatic, captureNo := 65535 } }, 0x30000, .automatic, by decide⟩,
    ⟨run, 7, (fun a => (run.statusWords 7).getD (a / 4) 0), fun _ => rfl⟩,
    ⟨run, 7, (fun a => (run.statusWords 7).getD (a / 4) 0), fun _ => rfl, by decide⟩,
    ⟨{ run with re := { run.re with lastFlipped := some { release := 255, origin := .drawn 0xBEEF true } } }, 7,
      (fun a => (State.statusWords ({ run
        with re := { run.re with lastFlipped := some { release := 255, origin := .drawn 0xBEEF true } } }) 7).getD
        (a / 4) 0), 255, 0xBEEF, true, fun _ => rfl, by decide⟩,
    ⟨{ run with re := { run.re with lastFlipped := some { release := 255, origin := .reel 3 1023 } } }, 7,
      (fun a => (State.statusWords ({ run
        with re := { run.re with lastFlipped := some { release := 255, origin := .reel 3 1023 } } }) 7).getD (a / 4) 0),
      255, 3, 1023, fun _ => rfl, by decide⟩,
    ⟨Ru.reset, by decide⟩,
    ⟨{ Ru.reset with fault := some { kind := .startFailed, origin := .start, addr := 0x9C, more := 255 } },
      { kind := .startFailed, origin := .start, addr := 0x9C, more := 255 }, by decide⟩,
    ⟨Ru.reset, 7, .automatic, (fun a => (Ru.reset.counterWords 7 .automatic).getD (a / 4) 0), fun _ => rfl⟩,
    ⟨Ru.reset, 7, .automatic, (fun a => (Ru.reset.counterWords 7 .automatic).getD (a / 4) 0), 7, fun _ => rfl⟩,
    ⟨Ru.reset, 7, .automatic, (fun a => (Ru.reset.counterWords 7 .automatic).getD (a / 4) 0), 1, fun _ => rfl, by decide⟩,
    ⟨Ru.reset, 7, .automatic, (fun a => (Ru.reset.counterWords 7 .automatic).getD (a / 4) 0), 16, fun _ => rfl, by decide⟩,
    ⟨run, _, rfl, by decide⟩,
    ⟨{ awaiting [(2, readOf .dirRead 5)] true [] with ru := Ru.reset }, _, rfl, by decide⟩,
    ⟨{ awaiting [] true [] with aq := { queue := [hostRead 0x100], taken := false } }, _, rfl, by decide⟩,
    ⟨{ awaiting [] true [] with ct := { Ct.reset with offerRp := some (request .reelUpdate) } }, _, rfl, by decide⟩,
    ⟨awaiting [] true [], _, rfl, by decide, by decide⟩⟩

theorem witness_ReportsCountersAndCauses :
    (∃ (u : Ru) (k : FaultKind) (o : FaultOrigin) (a : Addr), u.fault = none)
    ∧ (∃ (u : Ru) (k : FaultKind) (o : FaultOrigin) (a : Addr) (c : FaultCopy), u.fault = some c)
    ∧ (∃ (u : Ru) (k : CounterKind) (c : Counter), tget u.counters k.index = c ∧ c.count.toNat < 65535)
    ∧ (∃ (u : Ru) (k : CounterKind) (c : Counter), tget u.counters k.index = c ∧ c.count.toNat = 65535 ∧ c.flag = true)
    ∧ (∃ (u : Ru) (k : CounterKind) (c : Counter), tget u.counters k.index = c ∧ c.count.toNat = 65535 ∧ c.flag = false)
    ∧ (∃ (u : Ru) (c : Cause), u.causes.getLsbD c.bit = true)
    ∧ (∃ (u : Ru) (c : Cause), u.causes.getLsbD c.bit = false)
    ∧ (∃ (s : State), s.spc.part = .bypass)
    ∧ (∃ (s : State), s.spc.part = .passive)
    ∧ (∃ (s : State), s.spc.part ≠ .bypass ∧ s.spc.part ≠ .passive) :=
  ⟨⟨Ru.reset, .readParity, .canvasRead, 0x800000, by decide⟩,
    ⟨{ Ru.reset with fault := some { kind := .zoneAbsent, origin := .drawnWrite, addr := 0, more := 255 } }, .readParity,
      .canvasRead, 0x800000, { kind := .zoneAbsent, origin := .drawnWrite, addr := 0, more := 255 }, by decide⟩,
    ⟨Ru.reset, .loss, { count := 0, flag := false }, by decide⟩,
    ⟨{ Ru.reset with counters := Vector.replicate 8 { count := 65535, flag := true } }, .slip, { count := 65535, flag := true },
      by decide⟩,
    ⟨{ Ru.reset with counters := Vector.replicate 8 { count := 65535, flag := false } }, .slip,
      { count := 65535, flag := false }, by decide⟩,
    ⟨{ Ru.reset with causes := 127 }, .restartRefused, by decide⟩,
    ⟨Ru.reset, .restartRefused, by decide⟩,
    ⟨State.reset, by decide⟩,
    ⟨inPart .passive, by decide⟩,
    ⟨run, by decide⟩⟩

theorem witness_TransformAndChannelOrder :
    (∃ (order : BitVec 3) (r : Byte) (g : Byte) (b : Byte) (l : Byte), order.toNat ≤ 5)
    ∧ (∃ (p : Profile) (x : Pixel), p.mode = 0)
    ∧ (∃ (p : Profile) (w : View) (x : Pixel), p.mode = 1)
    ∧ (∃ (p : Profile) (w : View) (x : Pixel), 2 ≤ p.mode.toNat)
    ∧ (∃ (h : HeldWrite) (base : Stored), h.view = .add)
    ∧ (∃ (h : HeldWrite) (base : Stored), h.view = .level) :=
  ⟨⟨5, 1, 2, 3, 4, by decide⟩,
    ⟨plainProfile, { red := 1, green := 2, blue := 3, level := 4 }, by decide⟩,
    ⟨{ plainProfile with mode := 1 }, .add, { red := 1, green := 2, blue := 3, level := 4 }, by decide⟩,
    ⟨{ plainProfile with mode := 3 }, .level, { red := 1, green := 2, blue := 3, level := 4 }, by decide⟩,
    ⟨held, half, by decide⟩,
    ⟨{ held with view := .level }, half, by decide⟩⟩

theorem witness_FrameSlotOfAPixel :
    ∃ (s : State) (f : SegFields) (p : Nat) (n : Nat), 1 ≤ f.length ∧ f.length ≤ 64 ∧ f.slotBase + f.length ≤ s.ct.slotCount ∧
      (p < f.length ∨ f.ring = true) ∧ tget s.pu.pending f.profile = false ∧ (tget s.pu.store f.profile).valid = true ∧
      n = (if p < f.length then p else p % f.length) :=
  ⟨profiled run, { seg with ring := true, reverse := true }, 63, _, by decide, by decide, by decide, by decide, by decide,
      by decide, rfl⟩

end Sys2Proof.Tests
end

