-- ==== Sys2Proof/Proofs/FrameSlot.lean ====
section
/-!
PROOF. The frame slot and the rail group of a pixel (R129, R58): what checks 4 and 5 and the profile question answer, and where the
frame slot of a pixel lies.
-/
namespace Sys2Proof.Machine

/-! ### Checks 4 and 5 and the frame slot -/

theorem SegFields.fits_iff (f : SegFields) (slotCount : Nat) :
    f.fits slotCount = true ↔ 1 ≤ f.length ∧ f.length ≤ 64 ∧ f.slotBase + f.length ≤ slotCount := by
  simp [SegFields.fits, and_assoc]

theorem SegFields.reaches_iff (f : SegFields) (pixel : Nat) :
    f.reaches pixel = true ↔ pixel < f.length ∨ f.ring = true := by
  simp [SegFields.reaches]

theorem SegFields.check_eq_slot {f : SegFields} {slotCount pixel : Nat} (hfits : f.fits slotCount = true)
    (hreaches : f.reaches pixel = true) : f.check slotCount pixel = .slot (f.frameSlot pixel) := by
  simp [SegFields.check, hfits, hreaches]

theorem SegFields.frameSlot_of_forward {f : SegFields} (pixel : Nat) (hreverse : f.reverse = false) :
    f.frameSlot pixel = f.slotBase + pixel % f.length := by
  simp [SegFields.frameSlot, hreverse]

theorem SegFields.frameSlot_of_reversed {f : SegFields} (pixel : Nat) (hreverse : f.reverse = true) :
    f.frameSlot pixel = f.slotBase + f.length - 1 - pixel % f.length := by
  simp [SegFields.frameSlot, hreverse]

/-- Without truncation: a reversed segment counts its pixels down from its last slot. -/
theorem SegFields.frameSlot_add_of_reversed {f : SegFields} (pixel : Nat) (hreverse : f.reverse = true)
    (hlength : 1 ≤ f.length) : f.frameSlot pixel + pixel % f.length + 1 = f.slotBase + f.length := by
  have hpixel : pixel % f.length < f.length := Nat.mod_lt _ hlength
  rw [f.frameSlot_of_reversed pixel hreverse]
  omega

/-- The range that R129 states: a frame slot lies within its segment. -/
theorem SegFields.frameSlot_mem_segment {f : SegFields} (pixel : Nat) (hlength : 1 ≤ f.length) :
    f.slotBase ≤ f.frameSlot pixel ∧ f.frameSlot pixel < f.slotBase + f.length := by
  have hpixel : pixel % f.length < f.length := Nat.mod_lt _ hlength
  cases hreverse : f.reverse with
  | false =>
    rw [f.frameSlot_of_forward pixel hreverse]
    omega
  | true =>
    have hsum := f.frameSlot_add_of_reversed pixel hreverse hlength
    omega

/-- R129's first step is the remainder for every pixel: one below the length is its own remainder. -/
theorem wrappedPixel_eq_mod (pixel length : Nat) :
    (if pixel < length then pixel else pixel % length) = pixel % length := by
  split
  next hlt => exact (Nat.mod_eq_of_lt hlt).symm
  next => rfl

/-! ### The profile question and the translation -/

theorem Pu.answer_eq_valid {u : Pu} {p : Fin 16} (hpending : tget u.pending p = false)
    (hvalid : (tget u.store p).valid = true) : u.answer p = .valid (tget u.store p).fields := by
  simp [Pu.answer, hpending, hvalid]

theorem State.translate_eq_ok {s : State} {f : SegFields} {pixel : Nat} (hfits : f.fits s.ct.slotCount = true)
    (hreaches : f.reaches pixel = true) (hpending : tget s.pu.pending f.profile = false)
    (hvalid : (tget s.pu.store f.profile).valid = true) :
    s.translate f pixel = .done (.ok
      { frameSlot := f.frameSlot pixel, rail := s.ll.railGroup (f.frameSlot pixel)
        profile := (tget s.pu.store f.profile).fields }) := by
  simp [State.translate, SegFields.check_eq_slot hfits hreaches, Pu.answer_eq_valid hpending hvalid]

theorem Ll.railGroup_val (l : Ll) (slot : Nat) :
    (l.railGroup slot).val = ((List.finRange 7).filter (fun i => decide (tget l.bounds i ≤ slot))).length := rfl

end Sys2Proof.Machine

namespace Sys2Proof.Proofs
open Sys2Proof.Machine

/-- Settles O60: the translation is the one of `State.translate_eq_ok`, and the cases of reverse are the two forms of the frame
slot, at the wrapped pixel. -/
theorem frameSlotOfAPixel : Obligations.FrameSlotOfAPixel := by
  intro s f p n hpos hle hsegment hreach hpending hvalid hn
  have hn : n = p % f.length := hn.trans (wrappedPixel_eq_mod p f.length)
  have hfits : f.fits s.ct.slotCount = true := (f.fits_iff _).mpr ⟨hpos, hle, hsegment⟩
  have hreaches : f.reaches p = true := (f.reaches_iff p).mpr hreach
  obtain ⟨hlow, hhigh⟩ := f.frameSlot_mem_segment p hpos
  refine ⟨_, State.translate_eq_ok hfits hreaches hpending hvalid, ?forward, ?reversed, hlow, hhigh,
    hhigh.trans_le hsegment, s.ll.railGroup_val _, rfl⟩
  case forward =>
    intro hreverse
    rw [hn]
    exact f.frameSlot_of_forward p hreverse
  case reversed =>
    intro hreverse
    rw [hn]
    exact f.frameSlot_add_of_reversed p hreverse hpos

end Sys2Proof.Proofs
end

