-- ==== Sys2Proof/Proofs/PixelTransform.lean ====
section
/-!
PROOF. The Profile Unit's transform: the wiring order and its inverse (R158, R166), the arithmetic of gains, caps and sums
(R159, R161), the value that each mode and view gives (R160 to R164), and the bytes of a canvas pixel word and of a frame slot
word (R213, R220).
-/
namespace Sys2Proof.Machine

/-! ### Channel orders -/

/-- R159: the level goes to the fourth channel in every order. -/
@[simp] theorem inWiringOrder_level (order : BitVec 3) (r g b l : Byte) : (inWiringOrder order r g b l).level = l := by
  unfold inWiringOrder
  split_ifs <;> rfl

/-- The two permutations cancel in each case of the order. No bound on the order is needed: above 5 both take the last case. -/
theorem readBackPixel_inWiringOrder (order : BitVec 3) (r g b l : Byte) :
    readBackPixel order (inWiringOrder order r g b l) = { red := r, green := g, blue := b, level := l } := by
  unfold readBackPixel inWiringOrder
  split_ifs <;> rfl

/-! ### Gains, caps and saturated sums -/

/-- R159: a gained channel is never greater than its gain, because a channel is at most 255. -/
theorem mul_div_255_le (v gain : Byte) : v.toNat * gain.toNat / 255 ≤ gain.toNat :=
  Nat.div_le_of_le_mul (Nat.mul_le_mul_right _ (Nat.le_of_lt_succ v.isLt))

theorem gained_toNat (v gain : Byte) : (gained v gain).toNat = v.toNat * gain.toNat / 255 :=
  Nat.mod_eq_of_lt ((mul_div_255_le v gain).trans_lt gain.isLt)

theorem gained_toNat_le (v gain : Byte) : (gained v gain).toNat ≤ gain.toNat :=
  (gained_toNat v gain).trans_le (mul_div_255_le v gain)

theorem gained_of_gain_full (v : Byte) {gain : Byte} (hgain : gain = 255) : gained v gain = v := by
  subst hgain
  exact BitVec.eq_of_toNat_eq ((gained_toNat v 255).trans (Nat.mul_div_cancel _ (by decide)))

theorem gained_of_gain_zero (v : Byte) {gain : Byte} (hgain : gain = 0) : gained v gain = 0 := by
  subst hgain
  exact BitVec.eq_of_toNat_eq (Nat.le_zero.mp (gained_toNat_le v 0))

theorem lesser_toNat (x y : Byte) : (lesser x y).toNat = min x.toNat y.toNat := by
  unfold lesser
  split
  next hle => exact (Nat.min_eq_left hle).symm
  next hgt => exact (Nat.min_eq_right (Nat.le_of_not_le hgt)).symm

theorem satAdd_toNat (x y : Byte) : (satAdd x y).toNat = min 255 (x.toNat + y.toNat) :=
  Nat.mod_eq_of_lt (Nat.lt_succ_of_le (Nat.min_le_left ..))

/-! ### The finished values -/

theorem Profile.modeOf_eq_none {p : Profile} (hmode : p.mode = 0) : p.modeOf = .none :=
  if_pos hmode

theorem Profile.modeOf_eq_substitute {p : Profile} (hmode : p.mode = 1) : p.modeOf = .substitute := by
  simp [Profile.modeOf, hmode]

/-- R219: code 3 is read as DARK, as code 2 is. -/
theorem Profile.modeOf_eq_dark {p : Profile} (hmode : 2 ≤ p.mode.toNat) : p.modeOf = .dark := by
  have hzero : p.mode ≠ 0 := fun h => absurd hmode (by rw [h]; decide)
  have hone : p.mode ≠ 1 := fun h => absurd hmode (by rw [h]; decide)
  rw [Profile.modeOf, if_neg hzero, if_neg hone]

theorem Profile.finished_of_substitute {p : Profile} (view : View) (x : Pixel) (hmode : p.modeOf = .substitute) :
    p.finished view x = some p.substitute := by
  simp [Profile.finished, hmode]

theorem Profile.finished_of_dark {p : Profile} (view : View) (x : Pixel) (hmode : p.modeOf = .dark) :
    p.finished view x = some Stored.zero := by
  simp [Profile.finished, hmode]

/-- R165: in NONE mode the replace view alone has its value at once; the other two wait for a base. -/
theorem Profile.finished_of_none {p : Profile} (view : View) (x : Pixel) (hmode : p.modeOf = .none) :
    p.finished view x = if view = .replace then some (p.gainedValue x) else none := by
  cases view <;> simp [Profile.finished, hmode]

/-! ### The value of a held write over its base -/

theorem HeldWrite.combined_of_add {h : HeldWrite} (base : Stored) (hview : h.view = .add) :
    h.combined base = h.profile.added h.value base := by
  simp [HeldWrite.combined, hview]

theorem HeldWrite.combined_of_level {h : HeldWrite} (base : Stored) (hview : h.view = .level) :
    h.combined base = { base with level := lesser h.value.level h.profile.cap } := by
  simp [HeldWrite.combined, hview, Profile.levelled]

/-- R161: the level sum is saturated first and capped after. -/
theorem Profile.added_level_toNat (p : Profile) (x : Pixel) (base : Stored) :
    (p.added x base).level.toNat = min (min 255 (base.level.toNat + (p.gainedValue x).level.toNat)) p.cap.toNat :=
  (lesser_toNat _ _).trans (congrArg (min · p.cap.toNat) (satAdd_toNat _ _))

theorem Profile.gainedValue_level (p : Profile) (x : Pixel) : (p.gainedValue x).level = lesser x.level p.cap :=
  inWiringOrder_level ..

/-! ### The bytes of a word -/

theorem byteOf_toNat (x : Word) (k : Nat) : (byteOf x k).toNat = field x (8 * k + 7) (8 * k) := by
  have hwidth : 8 * k + 7 - 8 * k + 1 = 8 := by omega
  rw [field, hwidth, byteOf]

/-- Two neighbouring pieces of a word make up the piece that spans both, three times over. -/
theorem wordOfBytes_byteOf (x : Word) : wordOfBytes (byteOf x 0) (byteOf x 1) (byteOf x 2) (byteOf x 3) = x := by
  have hupper : byteOf x 3 ++ byteOf x 2 = x.extractLsb' 16 16 := BitVec.extractLsb'_append_extractLsb'_eq_extractLsb' rfl
  have hthree : x.extractLsb' 16 16 ++ byteOf x 1 = x.extractLsb' 8 24 :=
    BitVec.extractLsb'_append_extractLsb'_eq_extractLsb' rfl
  have hfour : x.extractLsb' 8 24 ++ byteOf x 0 = x.extractLsb' 0 32 :=
    BitVec.extractLsb'_append_extractLsb'_eq_extractLsb' rfl
  rw [wordOfBytes, hupper, hthree, hfour, BitVec.extractLsb'_eq_self]

section
variable (b0 b1 b2 b3 : Byte)

theorem byteOf_wordOfBytes_zero : byteOf (wordOfBytes b0 b1 b2 b3) 0 = b0 :=
  BitVec.extractLsb'_append_eq_right

theorem byteOf_wordOfBytes_one : byteOf (wordOfBytes b0 b1 b2 b3) 1 = b1 :=
  (BitVec.extractLsb'_append_eq_of_le (by decide)).trans BitVec.extractLsb'_append_eq_right

theorem byteOf_wordOfBytes_two : byteOf (wordOfBytes b0 b1 b2 b3) 2 = b2 :=
  (BitVec.extractLsb'_append_eq_of_le (by decide)).trans
    ((BitVec.extractLsb'_append_eq_of_le (by decide)).trans BitVec.extractLsb'_append_eq_right)

theorem byteOf_wordOfBytes_three : byteOf (wordOfBytes b0 b1 b2 b3) 3 = b3 :=
  (BitVec.extractLsb'_append_eq_of_le (by decide)).trans
    ((BitVec.extractLsb'_append_eq_of_le (by decide)).trans BitVec.extractLsb'_append_eq_left)

end

theorem Pixel.toWord_ofWord (x : Word) : (Pixel.ofWord x).toWord = x := wordOfBytes_byteOf x

theorem Stored.toWord_ofWord (x : Word) : (Stored.ofWord x).toWord = x := wordOfBytes_byteOf x

theorem Pixel.ofWord_toWord (p : Pixel) : Pixel.ofWord p.toWord = p := by
  simp only [Pixel.ofWord, Pixel.toWord, byteOf_wordOfBytes_zero, byteOf_wordOfBytes_one, byteOf_wordOfBytes_two,
    byteOf_wordOfBytes_three]

theorem Stored.ofWord_toWord (v : Stored) : Stored.ofWord v.toWord = v := by
  simp only [Stored.ofWord, Stored.toWord, byteOf_wordOfBytes_zero, byteOf_wordOfBytes_one, byteOf_wordOfBytes_two,
    byteOf_wordOfBytes_three]

end Sys2Proof.Machine

namespace Sys2Proof.Proofs
open Sys2Proof.Machine

/-- Settles O59, clause by clause: the tables of the channel orders, the arithmetic of one channel, the modes, the two held views
and the bytes of a word are each a lemma above. -/
theorem transformAndChannelOrder : Obligations.TransformAndChannelOrder := by
  refine ⟨?channelOrders, ?readBack, ?gainedValue, ?noneMode, ?substituteMode, ?darkMode, ?addView, ?levelView, ?bytes,
    ?words⟩
  case channelOrders => exact fun _ _ _ _ => ⟨rfl, rfl, rfl, rfl, rfl, rfl⟩
  case readBack => exact fun order r g b l _ => readBackPixel_inWiringOrder order r g b l
  case gainedValue =>
    exact fun p x => ⟨gained x.red p.red, gained x.green p.green, gained x.blue p.blue, lesser x.level p.cap, rfl,
      gained_toNat _ _, gained_toNat _ _, gained_toNat _ _, lesser_toNat _ _,
      gained_of_gain_full _, gained_of_gain_full _, gained_of_gain_full _,
      gained_of_gain_zero _, gained_of_gain_zero _, gained_of_gain_zero _,
      gained_toNat_le _ _, gained_toNat_le _ _, gained_toNat_le _ _⟩
  case noneMode =>
    intro p x hmode
    have hfinished := fun view => Profile.finished_of_none view x (Profile.modeOf_eq_none hmode)
    exact ⟨hfinished .replace, hfinished .add, hfinished .level⟩
  case substituteMode =>
    exact fun p w x hmode => ⟨lesser p.subLevel p.cap, lesser_toNat _ _,
      Profile.finished_of_substitute w x (Profile.modeOf_eq_substitute hmode)⟩
  case darkMode => exact fun p w x hmode => Profile.finished_of_dark w x (Profile.modeOf_eq_dark hmode)
  case addView =>
    exact fun h base hview => ⟨_, HeldWrite.combined_of_add base hview, satAdd_toNat _ _, satAdd_toNat _ _,
      satAdd_toNat _ _, Profile.added_level_toNat _ _ _⟩
  case levelView =>
    exact fun h base hview => ⟨lesser h.value.level h.profile.cap, lesser_toNat _ _,
      HeldWrite.combined_of_level base hview, (Profile.gainedValue_level _ _).symm⟩
  case bytes =>
    intro x
    have hbyte := byteOf_toNat x
    exact ⟨hbyte 0, hbyte 1, hbyte 2, hbyte 3, hbyte 0, hbyte 1, hbyte 2, hbyte 3, Pixel.toWord_ofWord x,
      Stored.toWord_ofWord x⟩
  case words => exact fun p v => ⟨Pixel.ofWord_toWord p, Stored.ofWord_toWord v⟩

end Sys2Proof.Proofs
end

