-- ==== Sys2Proof/Proofs/Keeps.lean ====
section
set_option Elab.async false
/-!
SUPPORT. One relation for the invariants that every operation keeps, so that each operation is walked through once: the lighting
memory's canonical form, the bounds of the queue, of the passed-over counts, of the cache and of the journal, and the direct path.

`Elab.async` is off in these files: the threads of the asynchronous elaboration, each with a stack of its own, would together take
more memory than the check allows the whole text.
-/
namespace Sys2Proof.Machine

/-! ### The bounds of the blocks, each a predicate of its own block -/

/-- The bound of the cache as a predicate of the CT alone. -/
def Ct.bounded (c : Ct) : Prop :=
  c.cache.length ≤ 16 ∧ c.cache.Pairwise (fun a b => ¬(a.zone = b.zone ∧ a.segment = b.segment))

/-- A walk only for a current request, as a predicate of the CT alone. -/
def Ct.walkServes (c : Ct) : Prop := c.walk.isSome = true → c.current.isSome = true

/-- The bounds of the journal as a predicate of the JC alone. -/
def Jc.bounded (j : Jc) : Prop := j.inUse ≤ 512 ∧ j.drawnCount ≤ 6 ∧ j.reelCount ≤ 2

/-- The bound of the passed-over counts as a predicate of the MP alone. -/
def Mp.bounded (m : Mp) : Prop := ∀ p : Place, tget m.passed p ≤ 8

/-- A transfer that a waiting direct transfer may wait for: a direct one, or one whose result is discarded. -/
def InFlight.carried (f : InFlight) : Prop := f.discard = true ∨ f.req.owner = .direct

/-- No transfer waits for the direct path. -/
def State.noDirect (s : State) : Prop := ∀ w ∈ s.up.waiting, w.place ≠ .direct

/-- From `s` to `t` every invariant that needs no settling is kept. -/
structure State.KeepsInvariants (s t : State) : Prop where
  memory : s.memoryCanonical → t.memoryCanonical
  queue : s.queueBounded → t.queueBounded
  counts : s.mp.bounded → t.mp.bounded
  cache : s.ct.bounded → t.ct.bounded
  walk : s.ct.walkServes → t.ct.walkServes
  journal : s.jc.bounded → t.jc.bounded
  direct : s.directServed → t.directServed

/-- From `s` to `t` every invariant that needs no settling is kept, and PASSIVE is not entered. -/
structure State.Keeps (s t : State) : Prop extends s.KeepsInvariants t where
  awake : s.spc.part ≠ .passive → t.spc.part ≠ .passive

namespace State

theorem KeepsInvariants.trans {s t u : State} (h : s.KeepsInvariants t) (k : t.KeepsInvariants u) : s.KeepsInvariants u :=
  ⟨k.memory ∘ h.memory, k.queue ∘ h.queue, k.counts ∘ h.counts, k.cache ∘ h.cache, k.walk ∘ h.walk,
    k.journal ∘ h.journal, k.direct ∘ h.direct⟩

theorem Keeps.refl (s : State) : s.Keeps s :=
  ⟨⟨id, id, id, id, id, id, id⟩, id⟩

theorem Keeps.trans {s t u : State} (h : s.Keeps t) (k : t.Keeps u) : s.Keeps u :=
  ⟨h.toKeepsInvariants.trans k.toKeepsInvariants, k.awake ∘ h.awake⟩

theorem Keeps.ite {s t u : State} {c : Prop} [Decidable c] (ht : s.Keeps t) (hu : s.Keeps u) : s.Keeps (if c then t else u) := by
  split
  · exact ht
  · exact hu

/-- The direct path stays served where the part state and the path stay, no further transfer waits for it, and the one in flight
stays or goes on discarded. -/
theorem directServed_of_stays {s t : State} (hpart : t.spc.part = s.spc.part) (hpath : t.mp.path = s.mp.path)
    (hflight : t.mp.inFlight = s.mp.inFlight ∨ ∃ f ∈ s.mp.inFlight, t.mp.inFlight = some { f with discard := true })
    (hwait : ∀ w ∈ t.up.waiting, w.place = .direct → w ∈ s.up.waiting) (h : s.directServed) : t.directServed := by
  obtain ⟨hbypass, hwaiting⟩ := h
  refine ⟨fun hp => ?_, fun w hw hd => ?_⟩
  · obtain ⟨h1, h2⟩ := hbypass (hpart ▸ hp)
    refine ⟨hpath.trans h1, fun f hf => ?_⟩
    rcases hflight with he | ⟨g, _, he⟩
    · exact h2 f (he ▸ hf)
    · rw [he, Option.mem_some_iff] at hf
      exact .inl (hf ▸ rfl)
  · obtain ⟨h1, f, hf, hc⟩ := hwaiting w (hwait w hw hd) hd
    refine ⟨hpart ▸ h1, ?_⟩
    rcases hflight with he | ⟨g, _, he⟩
    · exact ⟨f, he ▸ hf, hc⟩
    · exact ⟨_, he, .inl rfl⟩

/-- Where none waits for the direct path and reset is not asserted, the direct path is served. -/
theorem directServed_of_noDirect {s : State} (hpart : s.spc.part ≠ .bypass) (h : s.noDirect) : s.directServed :=
  ⟨fun hp => absurd hp hpart, fun w hw hd => absurd hd (h w hw)⟩

/-- The blocks that no invariant of `Keeps` reads may change at will. -/
theorem Keeps.of_frame {s t : State} (hmemory : t.memory = s.memory := by simp) (haq : t.aq = s.aq := by simp)
    (hmp : t.mp = s.mp := by simp) (hct : t.ct = s.ct := by simp) (hjc : t.jc = s.jc := by simp)
    (hup : t.up = s.up := by simp) (hpart : t.spc.part = s.spc.part := by simp) : s.Keeps t where
  memory := by unfold memoryCanonical; rw [hmemory]; exact id
  queue := by unfold queueBounded; rw [haq]; exact id
  counts := hmp ▸ id
  cache := hct ▸ id
  walk := hct ▸ id
  journal := hjc ▸ id
  direct := directServed_of_stays hpart (by rw [hmp]) (.inl (by rw [hmp])) (fun w hw _ => hup ▸ hw)
  awake := hpart ▸ id

section
variable (s : State)

theorem setAq_keeps (x : Aq) (h : x.queue.length ≤ 16 ∨ x.queue.length ≤ s.aq.queue.length) : s.Keeps (s.setAq x) where
  memory := id
  queue hs := h.elim id (fun h => h.trans hs)
  counts := id
  cache := id
  walk := id
  journal := id
  direct := directServed_of_stays rfl rfl (.inl rfl) (fun _ hw _ => hw)
  awake := id

theorem setUp_keeps (x : Up) (h : ∀ w ∈ x.waiting, w.place = .direct → w ∈ s.up.waiting) : s.Keeps (s.setUp x) where
  memory := id
  queue := id
  counts := id
  cache := id
  walk := id
  journal := id
  direct := directServed_of_stays rfl rfl (.inl rfl) h
  awake := id

theorem setCt_keeps (x : Ct) (hcache : s.ct.bounded → x.bounded) (hwalk : s.ct.walkServes → x.walkServes) :
    s.Keeps (s.setCt x) where
  memory := id
  queue := id
  counts := id
  cache := hcache
  walk := hwalk
  journal := id
  direct := directServed_of_stays rfl rfl (.inl rfl) (fun _ hw _ => hw)
  awake := id

theorem setJc_keeps (x : Jc) (h : s.jc.bounded → x.bounded) : s.Keeps (s.setJc x) where
  memory := id
  queue := id
  counts := id
  cache := id
  walk := id
  journal := h
  direct := directServed_of_stays rfl rfl (.inl rfl) (fun _ hw _ => hw)
  awake := id

theorem setMp_keeps (x : Mp) (h : s.mp.bounded → x.bounded) (hpath : x.path = s.mp.path)
    (hflight : x.inFlight = s.mp.inFlight ∨ ∃ f ∈ s.mp.inFlight, x.inFlight = some { f with discard := true }) :
    s.Keeps (s.setMp x) where
  memory := id
  queue := id
  counts := h
  cache := id
  walk := id
  journal := id
  direct := directServed_of_stays rfl hpath hflight (fun _ hw _ => hw)
  awake := id

/-- A change of the port that leaves its counts, its path and its transfer. -/
theorem setMp_same_keeps (x : Mp) (hp : x.passed = s.mp.passed := by rfl) (hpath : x.path = s.mp.path := by rfl)
    (hflight : x.inFlight = s.mp.inFlight := by rfl) : s.Keeps (s.setMp x) :=
  setMp_keeps s x (fun h p => by rw [hp]; exact h p) hpath (.inl hflight)

end

/-- A change of part state after other operations, at which no transfer waits for the direct path. -/
theorem KeepsInvariants.setSpc {s t : State} (k : s.KeepsInvariants t) (x : Spc) (h : s.directServed → t.noDirect)
    (hx : x.part ≠ .bypass) : s.KeepsInvariants (t.setSpc x) where
  memory := k.memory
  queue := k.queue
  counts := k.counts
  cache := k.cache
  walk := k.walk
  journal := k.journal
  direct hs := directServed_of_noDirect hx (h hs)

theorem Keeps.setSpc {s t : State} (k : s.Keeps t) (x : Spc) (h : s.directServed → t.noDirect) (hx : x.part ≠ .bypass)
    (hy : x.part ≠ .passive) : s.Keeps (t.setSpc x) :=
  ⟨k.toKeepsInvariants.setSpc x h hx, fun _ => hy⟩

theorem setSpc_keeps (s : State) (x : Spc) (h : s.directServed → s.noDirect) (hx : x.part ≠ .bypass)
    (hy : x.part ≠ .passive) : s.Keeps (s.setSpc x) :=
  (Keeps.refl s).setSpc x h hx hy

/-- With the memory free, a served direct path has none waiting. -/
theorem noDirect_of_free {s : State} (hfree : s.mp.inFlight = none) (h : s.directServed) : s.noDirect := by
  intro w hw hd
  obtain ⟨_, f, hf, _⟩ := h.2 w hw hd
  simp [hfree] at hf

/-- Past the start, a served direct path has none waiting. -/
theorem noDirect_of_part {s : State} (hb : s.spc.part ≠ .bypass) (hr : s.spc.part ≠ .starting .readRoot)
    (h : s.directServed) : s.noDirect :=
  directServed_running s h hb hr

/-! ### The memory port -/

section
variable (s : State)

theorem Mp.bounded_tset {m : Mp} (p : Place) (h : m.bounded) (q : Place) : tget (tset m.passed p 0) q ≤ 8 := by
  by_cases e : p = q
  · simp [← e]
  · rw [tget_tset_ne _ _ e]
    exact h q

theorem ask_keeps (p : Place) (r : Request) : s.Keeps (s.ask p r) :=
  setMp_keeps s _ (fun h => Mp.bounded_tset p h) rfl (.inl rfl)

theorem withdraw_keeps (p : Place) : s.Keeps (s.withdraw p) :=
  setMp_keeps s _ (fun h => Mp.bounded_tset p h) rfl (.inl rfl)

theorem askRead_keeps (p : Place) (o : Owner) (w : WordAddr) : s.Keeps (s.askRead p o w) := ask_keeps _ _ _

theorem askWrite_keeps (p : Place) (o : Owner) (w : WordAddr) (x : Word) : s.Keeps (s.askWrite p o w x) := ask_keeps _ _ _

theorem discardInFlight_keeps (mine : Owner → Bool) : s.Keeps (s.discardInFlight mine) := by
  unfold discardInFlight
  split
  next f hf =>
    split
    · exact setMp_keeps s _ id rfl (.inr ⟨f, hf, rfl⟩)
    · exact .refl s
  · exact .refl s

theorem Mp.bounded_grant {m : Mp} (part : List Place) (p : Place) (r : Request) (h : m.bounded) :
    (m.grant part p r).bounded := by
  intro q
  simp only [Mp.grant, tget_ofFn, Mp.passedAfter]
  split_ifs
  · omega
  · omega
  · exact h q
  · omega

/-- A grant to a free port on the arbitrated path, where none can be waiting for the direct path. -/
theorem grantAt_keeps (part : List Place) (p : Place) (hpath : s.mp.path = .arbitrated) (hfree : s.mp.inFlight = none) :
    s.Keeps (s.grantAt part p) where
  memory := by simp [memoryCanonical]
  queue := by simp [queueBounded]
  counts h := by
    unfold grantAt
    split
    · exact Mp.bounded_grant _ _ _ h
    · exact h
  cache := by simp
  walk := by simp
  journal := by simp
  direct h := by
    refine directServed_of_noDirect (fun hb => ?_) (by simpa [noDirect] using noDirect_of_free hfree h)
    have := (h.1 (by simpa using hb)).1
    simp [hpath] at this
  awake := by simp

theorem grantDue_free {part : List Place} {p : Place} (h : s.grantDue part = some p) :
    s.mp.path = .arbitrated ∧ s.mp.inFlight = none := by
  unfold grantDue at h
  split at h
  next hp hf => exact ⟨hp, hf⟩
  · cases h

theorem setFreeCount_keeps (n : Nat) : s.Keeps (s.setFreeCount n) := .of_frame

theorem grant_keeps : s.Keeps s.grant := by
  unfold grant
  dsimp only
  split
  next p hp =>
    obtain ⟨hpath, hfree⟩ := grantDue_free s hp
    split
    · exact (setFreeCount_keeps s _).trans (grantAt_keeps _ _ _ hpath hfree)
    · exact grantAt_keeps _ _ _ hpath hfree
  · exact .refl s

theorem grantFirst_keeps (mine : Place → Bool) : s.Keeps (s.grantFirst mine) := by
  unfold grantFirst
  dsimp only
  split
  next p hp =>
    obtain ⟨hpath, hfree⟩ := grantDue_free s hp
    split_ifs
    · exact (setFreeCount_keeps s _).trans (grantAt_keeps _ _ _ hpath hfree)
    · exact setFreeCount_keeps s _
    · exact .refl s
  · exact .refl s

/-- A completion keeps the direct path served where its transfer was no direct one and not to be discarded. -/
theorem complete_keeps (f : InFlight) (hf : s.mp.inFlight = some f) (hc : ¬f.carried) : s.Keeps (s.complete f) where
  memory h := by
    show (s.complete f).memory.wf = true
    rw [complete_memory]
    exact Memory.wf_after _ _ h
  queue := by simp [queueBounded]
  counts h := by
    rw [complete_mp]
    exact h
  cache := by simp
  walk := by simp
  journal := by simp
  direct h := by
    refine directServed_of_noDirect (fun hb => ?_) (fun w hw hd => ?_)
    · exact hc ((h.1 (by simpa using hb)).2 f hf)
    · obtain ⟨_, g, hg, hgc⟩ := h.2 w (by simpa using hw) hd
      rw [hf, Option.mem_some_iff] at hg
      exact hc (hg ▸ hgc)
  awake := by simp

/-! ### The Report Unit, answers and the queue -/

theorem setRu_keeps (x : Ru) : s.Keeps (s.setRu x) := .of_frame
theorem raise_keeps (c : Cause) : s.Keeps (s.raise c) := .of_frame
theorem count_keeps (k : CounterKind) : s.Keeps (s.count k) := .of_frame
theorem report_keeps (k : FaultKind) (o : FaultOrigin) (a : Addr) : s.Keeps (s.report k o a) := .of_frame
theorem snapshot_keeps : s.Keeps s.snapshot := .of_frame

theorem beginRecord_keeps (r : Record) (ws : List Word) (b : Nat) : s.Keeps (s.beginRecord r ws b) :=
  (setRu_keeps s _).trans (askWrite_keeps _ _ _ _ _)

theorem beginDueRecord_keeps : s.Keeps s.beginDueRecord := by
  unfold beginDueRecord
  split
  · split_ifs
    · exact (setRu_keeps s _).trans (beginRecord_keeps _ _ _ _)
    · exact (setRu_keeps s _).trans (beginRecord_keeps _ _ _ _)
    · split
      · exact (setRu_keeps s _).trans (beginRecord_keeps _ _ _ _)
      · exact .refl s
  · exact .refl s

theorem endStep_keeps : s.Keeps s.endStep :=
  (beginDueRecord_keeps s).trans (setMp_same_keeps _ _)

theorem answerHost_keeps (ready : Bool) (data : Option Word) : s.Keeps (s.answerHost ready data) :=
  setUp_keeps s _ (by simp)

theorem refuseHost_keeps (t : HostTransfer) : s.Keeps (s.refuseHost t) := answerHost_keeps _ _ _

theorem stopHold_keeps : s.Keeps s.stopHold := setUp_keeps s _ (fun _ hw _ => hw)

/-- The queue is not longer after the head has left, but for a transfer that takes a place in an empty one. -/
theorem nextQueue_length : s.nextQueue.queue.length ≤ 16 ∨ s.nextQueue.queue.length ≤ s.aq.queue.length := by
  unfold nextQueue
  split
  · cases s.aq.queue with
    | nil => simp
    | cons t r => simp
  · right; simp

theorem headLeaves_keeps : s.Keeps s.headLeaves := by
  have e : s.headLeaves = (s.setAq s.nextQueue).setUp s.nextUp := headLeaves_eq s
  rw [e]
  refine (setAq_keeps s _ (nextQueue_length s)).trans (setUp_keeps _ _ ?_)
  show ∀ w ∈ s.nextUp.waiting, w.place = .direct → w ∈ s.up.waiting
  unfold nextUp
  split
  · split <;> simp
  · exact fun _ hw _ => hw

theorem takeHead_keeps : s.Keeps s.takeHead := setAq_keeps s _ (.inr le_rfl)

theorem dropHeldCanvas_keeps : s.Keeps s.dropHeldCanvas := by
  have hq : s.Keeps (s.setAq { s.aq with queue := s.aq.queue.dropWhile (fun t => region t != .plain) }) :=
    setAq_keeps s _ (.inr (List.dropWhile_sublist _).length_le)
  unfold dropHeldCanvas
  dsimp only
  split
  · exact hq.trans (answerHost_keeps _ _ _)
  · exact hq

theorem handToPort_keeps : s.Keeps s.handToPort := by
  unfold handToPort
  split
  · exact (setUp_keeps s _ (by simp)).trans (ask_keeps _ _ _)
  · exact .refl s

theorem servePassive_keeps : s.Keeps s.servePassive := by
  unfold servePassive
  split
  · exact (dropHeldCanvas_keeps s).trans (handToPort_keeps _)
  · exact .refl s

/-! ### Power control -/

theorem loseMarks_keeps (watching : Bool) (pace : Option Nat) : s.Keeps (s.loseMarks watching pace) := .of_frame

theorem wake_keeps (h : s.directServed → s.noDirect) : s.Keeps s.wake :=
  (setSpc_keeps s _ h (by simp) (by simp)).trans ((snapshot_keeps _).trans (loseMarks_keeps _ _ _))

theorem enterStandby_keeps (h : s.directServed → s.noDirect) : s.Keeps s.enterStandby := by
  have hs : s.Keeps ((s.setSpc { s.spc with part := .standby, standbyPending := false }).snapshot.loseMarks false none) :=
    (setSpc_keeps s _ h (by simp) (by simp)).trans ((snapshot_keeps _).trans (loseMarks_keeps _ _ _))
  unfold enterStandby
  dsimp only
  split
  · exact hs
  · exact hs.trans (wake_keeps _ (noDirect_of_part (by simp) (by simp)))

theorem standbyCheck_keeps : s.Keeps s.standbyCheck := by
  unfold standbyCheck
  split
  next h =>
    have hp : s.spc.part = .running := by simp_all
    exact enterStandby_keeps s (noDirect_of_part (by simp [hp]) (by simp [hp]))
  · exact .refl s

theorem cancelStandby_keeps : s.Keeps s.cancelStandby := by
  rw [cancelStandby_eq]
  exact .of_frame (hpart := rfl)

end
end State
end Sys2Proof.Machine
end

