-- ==== Sys2Proof/Proofs/JournalBounds.lean ====
section
set_option Elab.async false
/-!
SUPPORT. How the journal's figures (entries in use, drawn and reel batches) move under the operations on the batch table: an
operation that keeps each slot's batch in kind and does not lengthen it keeps the bounds of R2 and R6.
-/
namespace Sys2Proof.Machine

theorem mem_slotList (i : Fin 8) : i ∈ slotList := by
  revert i
  decide

theorem slotList_nodup : slotList.Nodup := by decide

/-- What a slot may become without raising any figure: FREE, or a batch of its kind with no more entries. -/
def SlotWithin (x y : Option Batch) : Prop :=
  ∀ c ∈ y, ∃ b ∈ x, c.isDrawn = b.isDrawn ∧ c.entries.length ≤ b.entries.length

theorem SlotWithin.refl (x : Option Batch) : SlotWithin x x := fun c hc => ⟨c, hc, rfl, le_rfl⟩

theorem SlotWithin.none (x : Option Batch) : SlotWithin x none := fun _ hc => by simp at hc

/-- No slot of `k` holds more than that of `j`. -/
def Jc.Within (j k : Jc) : Prop := ∀ i, SlotWithin (j.at i) (k.at i)

namespace Jc

theorem entryCount_le {j k : Jc} (h : j.Within k) (i : Fin 8) : k.entryCount i ≤ j.entryCount i := by
  unfold entryCount
  cases hk : k.at i with
  | none => simp
  | some c =>
    obtain ⟨b, hb, _, hl⟩ := h i c hk
    rw [Option.mem_def.mp hb]
    exact hl

theorem inUse_le {j k : Jc} (h : j.Within k) : k.inUse ≤ j.inUse :=
  List.sum_le_sum (fun i _ => entryCount_le h i)

theorem countOf_le {j k : Jc} {p : Batch → Bool} (h : ∀ i, k.slotHas p i = true → j.slotHas p i = true) :
    k.countOf p ≤ j.countOf p :=
  (List.monotone_filter_right slotList h).length_le

theorem slotHas_iff (j : Jc) (p : Batch → Bool) (i : Fin 8) : j.slotHas p i = true ↔ ∃ b ∈ j.at i, p b = true := by
  unfold slotHas
  cases j.at i <;> simp

theorem slotHas_within {j k : Jc} (h : j.Within k) (p : Batch → Bool) (hp : ∀ b c : Batch, c.isDrawn = b.isDrawn → p c = p b)
    (i : Fin 8) (hi : k.slotHas p i = true) : j.slotHas p i = true := by
  obtain ⟨c, hc, hpc⟩ := (slotHas_iff k p i).mp hi
  obtain ⟨b, hb, hd, _⟩ := h i c hc
  exact (slotHas_iff j p i).mpr ⟨b, hb, by rw [← hp b c hd, hpc]⟩

theorem bounded_within {j k : Jc} (h : j.Within k) (hj : j.bounded) : k.bounded := by
  obtain ⟨hu, hd, hr⟩ := hj
  refine ⟨(inUse_le h).trans hu, (countOf_le ?_).trans hd, (countOf_le ?_).trans hr⟩
  · exact slotHas_within h _ (fun _ _ e => e)
  · exact slotHas_within h _ (fun _ _ e => by simp [Batch.isReel, e])

/-- The figures read the slots alone. -/
theorem Within.of_slots {j k : Jc} (h : k.slots = j.slots) : j.Within k := by
  intro i
  have : k.at i = j.at i := by simp [Jc.at, h]
  rw [this]
  exact .refl _

theorem within_put (j : Jc) (i : Fin 8) (x : Option Batch) (h : SlotWithin (j.at i) x) : j.Within (j.put i x) := by
  intro k
  by_cases e : i = k
  · subst e
    simpa using h
  · rw [at_put_ne _ _ e]
    exact .refl _

theorem within_modify (j : Jc) (i : Fin 8) (f : Batch → Batch)
    (h : ∀ b, (f b).isDrawn = b.isDrawn ∧ (f b).entries.length ≤ b.entries.length) : j.Within (j.modify i f) := by
  unfold modify
  split
  next b hb =>
    exact within_put j i _ (fun c hc => by
      rw [Option.mem_some_iff] at hc
      exact ⟨b, hb, hc ▸ h b⟩)
  · exact Within.of_slots rfl

theorem within_mapBatches (j : Jc) (f : Batch → Batch)
    (h : ∀ b, (f b).isDrawn = b.isDrawn ∧ (f b).entries.length ≤ b.entries.length) : j.Within (j.mapBatches f) := by
  intro i c hc
  rw [at_mapBatches, Option.mem_def, Option.map_eq_some_iff] at hc
  obtain ⟨b, hb, rfl⟩ := hc
  exact ⟨b, hb, h b⟩

theorem within_discardReels (j : Jc) : j.Within j.discardReels := by
  intro i c hc
  have : (j.discardReels).at i = (j.at i).filter (fun b => !b.discardable) := by simp [discardReels, refreshLow, Jc.at]
  rw [this, Option.mem_def, Option.filter_eq_some_iff] at hc
  exact ⟨c, hc.1, rfl, le_rfl⟩

/-! ### The two operations that raise a figure -/

/-- One slot's share of a figure that is a sum over the slots. -/
theorem sum_slots_update (f g : Fin 8 → Nat) (i : Fin 8) (h : ∀ k, k ≠ i → g k = f k) :
    (slotList.map g).sum + f i = (slotList.map f).sum + g i := by
  have hs : ∀ l : List (Fin 8), l.Nodup → i ∈ l → (l.map g).sum + f i = (l.map f).sum + g i := by
    intro l hn hi
    induction l with
    | nil => simp at hi
    | cons a l ih =>
      rw [List.nodup_cons] at hn
      by_cases ha : a = i
      · subst ha
        have : l.map g = l.map f := List.map_congr_left (fun k hk => h k (fun e => hn.1 (e ▸ hk)))
        simp only [List.map_cons, List.sum_cons, this]
        omega
      · have := ih hn.2 (by simpa [Ne.symm ha] using hi)
        simp only [List.map_cons, List.sum_cons, h a ha]
        omega
  exact hs slotList slotList_nodup (mem_slotList i)

theorem countOf_eq_sum (j : Jc) (p : Batch → Bool) : j.countOf p = (slotList.map (fun i => (j.slotHas p i).toNat)).sum := by
  unfold countOf
  induction slotList with
  | nil => rfl
  | cons a l ih =>
    cases h : j.slotHas p a
    · simp [h, ih]
    · simp [h, ih]
      omega

theorem slotHas_put_same (j : Jc) (p : Batch → Bool) (i : Fin 8) (b : Batch) : (j.put i (some b)).slotHas p i = p b := by
  simp [slotHas]

theorem slotHas_put_ne (j : Jc) (p : Batch → Bool) {i k : Fin 8} (x : Option Batch) (h : k ≠ i) :
    (j.put i x).slotHas p k = j.slotHas p k := by
  simp [slotHas, at_put_ne _ _ h.symm]

theorem entryCount_put_ne (j : Jc) {i k : Fin 8} (x : Option Batch) (h : k ≠ i) :
    (j.put i x).entryCount k = j.entryCount k := by
  simp [entryCount, at_put_ne _ _ h.symm]

theorem countOf_put (j : Jc) (p : Batch → Bool) (i : Fin 8) (b : Batch) :
    (j.put i (some b)).countOf p + (j.slotHas p i).toNat = j.countOf p + (p b).toNat := by
  rw [countOf_eq_sum, countOf_eq_sum, sum_slots_update (fun k => (j.slotHas p k).toNat) _ i
    (fun k hk => by simp [slotHas_put_ne j p _ hk])]
  simp [slotHas_put_same]

theorem inUse_put (j : Jc) (i : Fin 8) (b : Batch) :
    (j.put i (some b)).inUse + j.entryCount i = j.inUse + b.entries.length := by
  unfold inUse
  rw [sum_slots_update j.entryCount _ i (fun k hk => entryCount_put_ne j _ hk)]
  simp [entryCount]

theorem lowestFree_at {j : Jc} {i : Fin 8} (h : j.lowestFree = some i) : j.at i = none := by
  simpa using List.find?_some h

/-- A batch opened in a FREE slot is counted where it has the property. -/
theorem countOf_opened {j : Jc} {i : Fin 8} (p : Batch → Bool) (b : Batch) (hi : j.lowestFree = some i) :
    (j.put i (some b)).countOf p = j.countOf p + (p b).toNat := by
  have h := countOf_put j p i b
  have hf : (j.slotHas p i).toNat = 0 := by simp [slotHas, lowestFree_at hi]
  omega

/-- A batch opened in a FREE slot brings its entries. -/
theorem inUse_opened {j : Jc} {i : Fin 8} (b : Batch) (hi : j.lowestFree = some i) :
    (j.put i (some b)).inUse = j.inUse + b.entries.length := by
  have h := inUse_put j i b
  have hf : j.entryCount i = 0 := by simp [entryCount, lowestFree_at hi]
  omega

/-- A batch of an origin is opened where the origin still has a slot (R6). -/
theorem bounded_opened {j : Jc} {i : Fin 8} (o : Origin) (hold : Nat) (hi : j.lowestFree = some i)
    (hd : (Batch.fresh o hold).isDrawn = true → j.drawnCount < 6) (hr : (Batch.fresh o hold).isReel = true → j.reelCount < 2)
    (h : j.bounded) : (j.put i (some (Batch.fresh o hold))).bounded := by
  obtain ⟨hu, hdrawn, hreel⟩ := h
  refine ⟨?_, ?_, ?_⟩
  · rw [inUse_opened _ hi]
    exact hu
  · rw [drawnCount, countOf_opened _ _ hi]
    cases hb : (Batch.fresh o hold).isDrawn
    · exact hdrawn
    · exact hd hb
  · rw [reelCount, countOf_opened _ _ hi]
    cases hb : (Batch.fresh o hold).isReel
    · exact hreel
    · exact hr hb

/-- One more entry for a batch, while an entry is free. -/
theorem bounded_granted {j : Jc} (i : Fin 8) (e : Entry) (hf : 0 < j.free) (h : j.bounded) :
    (j.modify i (fun b => { b with entries := b.entries ++ [e] })).bounded := by
  unfold modify
  split
  next b hb =>
    obtain ⟨hu, hd, hr⟩ := h
    have hcount : ∀ p : Batch → Bool, p { b with entries := b.entries ++ [e] } = p b →
        (j.put i (some { b with entries := b.entries ++ [e] })).countOf p = j.countOf p := by
      intro p hp
      have h := countOf_put j p i { b with entries := b.entries ++ [e] }
      have hs : j.slotHas p i = p b := by simp [slotHas, hb]
      rw [hs, hp] at h
      omega
    refine ⟨?_, (hcount _ rfl).trans_le hd, (hcount _ rfl).trans_le hr⟩
    have h := inUse_put j i { b with entries := b.entries ++ [e] }
    have hc : j.entryCount i = b.entries.length := by simp [entryCount, hb]
    simp only [List.length_append, List.length_singleton] at h
    unfold free at hf
    change (j.put i (some { b with entries := b.entries ++ [e] })).inUse ≤ 512
    omega
  · exact h

end Jc
end Sys2Proof.Machine
end

