-- ==== Sys2Proof/Proofs/KeepsRelease.lean ====
section
set_option Elab.async false
/-!
SUPPORT. The operations of the Release Engine, of the Reel Player and of the Release Engine at a mark keep the invariants.
-/
namespace Sys2Proof.Machine.State

section
variable (s : State)

/-- A change of the journal that leaves every slot's batch within what it was. -/
theorem setJc_within_keeps (x : Jc) (h : s.jc.Within x) : s.Keeps (s.setJc x) :=
  setJc_keeps s x (Jc.bounded_within h)

/-- A change of the journal that leaves the slots. -/
theorem setJc_slots_keeps (x : Jc) (h : x.slots = s.jc.slots := by rfl) : s.Keeps (s.setJc x) :=
  setJc_within_keeps s x (.of_slots h)

theorem setRe_keeps (x : Re) : s.Keeps (s.setRe x) := .of_frame
theorem setLl_keeps (x : Ll) : s.Keeps (s.setLl x) := .of_frame
theorem setMm_keeps (x : Mm) : s.Keeps (s.setMm x) := .of_frame
theorem setRp_keeps (x : Rp) : s.Keeps (s.setRp x) := .of_frame
theorem setPu_keeps (x : Pu) : s.Keeps (s.setPu x) := .of_frame

/-- A change of the SPC that leaves the part state. -/
theorem setSpc_same_keeps (x : Spc) (h : x.part = s.spc.part) : s.Keeps (s.setSpc x) :=
  .of_frame (hpart := h)

/-! ### The Release Engine up to ARMED -/

theorem countDerates_keeps (b : Batch) : s.Keeps (s.countDerates b) := .of_frame

theorem setStage_keeps (i : Fin 8) (p : Phase) (e : Engine) : s.Keeps (s.setStage i p e) :=
  (setJc_within_keeps s _ (by exact s.jc.within_modify i _ (fun _ => ⟨rfl, le_rfl⟩))).trans (setRe_keeps _ _)

theorem firstPassNext_keeps : s.Keeps s.firstPassNext := by
  unfold firstPassNext
  split
  · split
    · exact askWrite_keeps _ _ _ _ _
    · exact setStage_keeps _ _ _ _
  · exact .refl s

theorem currentBatch_at {s : State} {i : Fin 8} {b : Batch} (h : s.currentBatch = some (i, b)) : s.jc.at i = some b := by
  unfold currentBatch at h
  obtain ⟨k, _, hk⟩ := Option.bind_eq_some_iff.mp h
  obtain ⟨c, hc, he⟩ := Option.map_eq_some_iff.mp hk
  cases he
  exact hc

theorem put_keeps {i : Fin 8} {b : Batch} (c : Batch) (hb : s.jc.at i = some b) (hd : c.isDrawn = b.isDrawn)
    (hl : c.entries.length ≤ b.entries.length) : s.Keeps (s.setJc (s.jc.put i (some c))) :=
  setJc_within_keeps s _ (s.jc.within_put i _ (fun x hx => by
    rw [Option.mem_some_iff] at hx
    exact ⟨b, hb, hx ▸ ⟨hd, hl⟩⟩))

theorem endMeasure_keeps : s.Keeps s.endMeasure := by
  unfold endMeasure
  split
  next i b hb =>
    dsimp only
    exact (put_keeps s _ (currentBatch_at hb) (by rfl) (by simp [Ll.measured])).trans
      ((setRe_keeps _ _).trans ((countDerates_keeps _ _).trans (firstPassNext_keeps _)))
  · exact .refl s

theorem firstPassDone_keeps : s.Keeps s.firstPassDone := by
  unfold firstPassDone
  split
  next i b hb =>
    dsimp only
    exact (put_keeps s _ (currentBatch_at hb) (by rfl) (by simp)).trans ((setRe_keeps _ _).trans (firstPassNext_keeps _))
  · exact .refl s

theorem takeBatch_keeps : s.Keeps s.takeBatch := by
  unfold takeBatch
  dsimp only
  split
  next i _ =>
    have h : s.Keeps ((s.setJc (s.jc.modify i (fun b => { b with
        phase := .measure, release := some (s.re.lastRelease + 1) }))).setRe
        { s.re with state := .measure, current := some i, lastRelease := s.re.lastRelease + 1 }) :=
      (setJc_within_keeps s _ (by exact s.jc.within_modify i _ (fun _ => ⟨rfl, le_rfl⟩))).trans (setRe_keeps _ _)
    split
    · exact h.trans (endMeasure_keeps _)
    · exact h
  · exact .refl s

theorem takeIfEligible_keeps : s.Keeps s.takeIfEligible := by
  unfold takeIfEligible
  split
  · exact takeBatch_keeps s
  · exact .refl s

theorem askSecondPass_keeps (e : Entry) : s.Keeps (s.askSecondPass e) := askWrite_keeps _ _ _ _ _

theorem askBlanking_keeps : s.Keeps s.askBlanking := askWrite_keeps _ _ _ _ _

/-! ### The start of a play, cues and the entry to IDLE -/

theorem setPlayer_keeps (p : Player) : s.Keeps (s.setPlayer p) := .of_frame

theorem markEarlier_keeps : s.Keeps s.markEarlier :=
  setJc_within_keeps s _ (s.jc.within_mapBatches _ (fun b => by
    unfold Batch.toEarlier Batch.isDrawn
    cases h : b.origin <;> simp [h]))

theorem askHeader_keeps : s.Keeps s.askHeader := (setRp_keeps s _).trans (askRead_keeps _ _ _ _)

theorem playStart_keeps (n : Fin 4) : s.Keeps (s.playStart n) :=
  (cancelStandby_keeps s).trans ((setRp_keeps _ _).trans ((markEarlier_keeps _).trans ((setPlayer_keeps _ _).trans
    (askHeader_keeps _))))

theorem ignoreCue_keeps (src : CueSource) (n : Option (Fin 4)) : s.Keeps (s.ignoreCue src n) := .of_frame

theorem cueInIdle_keeps (src : CueSource) (n : Fin 4) : s.Keeps (s.cueInIdle src n) := by
  unfold cueInIdle
  split
  · exact playStart_keeps s n
  · exact ignoreCue_keeps s _ _

theorem keepCue_keeps (n : Fin 4) : s.Keeps (s.keepCue n) := (cancelStandby_keeps s).trans (setRp_keeps _ _)

theorem takeCue_keeps (src : CueSource) (n : Fin 4) : s.Keeps (s.takeCue src n) := by
  unfold takeCue
  split_ifs
  · exact cueInIdle_keeps s src n
  · exact keepCue_keeps s n
  · exact ignoreCue_keeps s _ _

theorem servePending_keeps : s.Keeps s.servePending := by
  unfold servePending
  split
  · exact .refl s
  · exact (takeIfEligible_keeps s).trans ((setRp_keeps _ _).trans (cueInIdle_keeps _ _ _))

theorem rpIdle_keeps : s.Keeps s.rpIdle := by
  unfold rpIdle
  dsimp only
  refine (setPlayer_keeps s .idle).trans (.trans ?_ ((standbyCheck_keeps _).trans (servePending_keeps _)))
  split
  · exact (setRp_keeps _ _).trans (raise_keeps _ _)
  · exact .refl _

/-! ### The drop of a drawn write, stop and abort -/

theorem releaseDrawn_keeps : s.Keeps s.releaseDrawn := (setJc_slots_keeps s _).trans (setPu_keeps _ _)

theorem dropDrawn_keeps (canvas : Addr) : s.Keeps (s.dropDrawn canvas) :=
  (report_keeps s _ _ _).trans ((count_keeps _ _).trans ((releaseDrawn_keeps _).trans (headLeaves_keeps _)))

theorem recheckDrawn_keeps (ok : Bool) : s.Keeps (s.recheckDrawn ok) := by
  unfold recheckDrawn
  split
  next w _ =>
    split
    · split
      · exact .refl s
      · exact dropDrawn_keeps s _
    · split
      · exact .refl s
      · exact dropDrawn_keeps s _
    · exact .refl s
  · exact .refl s

theorem withdrawReel_keeps : s.Keeps s.withdrawReel :=
  (setJc_slots_keeps s _).trans ((setPu_keeps _ _).trans ((withdraw_keeps _ _).trans ((discardInFlight_keeps _ _).trans
    (setCt_keeps _ _ (by exact id) (by exact fun h hw => by simpa using h hw)))))

theorem discardReels_keeps : s.Keeps s.discardReels :=
  (setJc_within_keeps s _ s.jc.within_discardReels).trans (recheckDrawn_keeps _ _)

theorem clearHold_keeps : s.Keeps s.clearHold :=
  (setRe_keeps s _).trans (setJc_within_keeps _ _ (by exact Jc.within_mapBatches _ _ (fun b => by split <;> exact ⟨rfl, le_rfl⟩)))

theorem stopReel_keeps (aborted : Bool) : s.Keeps (s.stopReel aborted) := by
  unfold stopReel
  exact (withdrawReel_keeps s).trans ((discardReels_keeps _).trans ((clearHold_keeps _).trans ((setRp_keeps _ _).trans
    (.ite (setPlayer_keeps _ _) (rpIdle_keeps _)))))

theorem reelStop_keeps : s.Keeps s.reelStop := by
  unfold reelStop
  split
  · exact .refl s
  · exact (setMp_same_keeps s _).trans ((grantFirst_keeps _ _).trans (stopReel_keeps _ _))

theorem reelAbort_keeps : s.Keeps s.reelAbort := by
  unfold reelAbort
  exact (report_keeps s _ _ _).trans ((setMp_same_keeps _ _).trans (stopReel_keeps _ _))

/-! ### Frames -/

theorem takeFirst_keeps : s.Keeps s.takeFirst := by
  unfold takeFirst
  dsimp only
  split_ifs
  · exact (setFreeCount_keeps s _).trans (takeBatch_keeps _)
  · exact setFreeCount_keeps s _
  · exact .refl s

theorem beginFrame_keeps : s.Keeps s.beginFrame := by
  unfold beginFrame
  dsimp only
  split_ifs
  · exact (setPlayer_keeps s _).trans (askHeader_keeps _)
  · exact (setPlayer_keeps s _).trans ((takeFirst_keeps _).trans (reelAbort_keeps _))
  · exact (setRp_keeps s _).trans (setPlayer_keeps _ _)

theorem lateAbort_keeps (a : Nat) : s.Keeps (s.lateAbort a) := by
  unfold lateAbort
  dsimp only
  split
  · exact (report_keeps s _ _ _).trans (setRp_keeps _ _)
  · exact (report_keeps s _ _ _).trans (raise_keeps _ _)

theorem meetStop_keeps : s.Keeps s.meetStop := by
  unfold meetStop
  dsimp only
  split
  · split
    · exact (setFreeCount_keeps s _).trans (lateAbort_keeps _ _)
    · exact setFreeCount_keeps s _
  · exact .refl s

theorem within_sealBatch (j : Jc) (i : Fin 8) (f : Batch → Batch) (hf : ∀ b, (f b).isDrawn = b.isDrawn ∧ (f b).entries = b.entries) :
    j.Within (j.sealBatch i f) := by
  have h := j.within_modify i (fun b => { f b with phase := .sealed, sealOrder := some j.sealCounter })
    (fun b => ⟨(hf b).1, by rw [(hf b).2]⟩)
  exact h

theorem sealReel_keeps : s.Keeps s.sealReel := by
  unfold sealReel
  split
  · exact setJc_within_keeps s _ (within_sealBatch _ _ _ (fun _ => ⟨rfl, rfl⟩))
  · exact .refl s

theorem advance_keeps : s.Keeps s.advance := by
  unfold advance
  dsimp only
  split
  · split_ifs
    · exact (setRp_keeps s _).trans ((setRp_keeps _ _).trans (beginFrame_keeps _))
    · exact (setRp_keeps s _).trans (setPlayer_keeps _ _)
    · exact (setRp_keeps s _).trans ((setRp_keeps _ _).trans ((markEarlier_keeps _).trans (beginFrame_keeps _)))
  · exact .refl s

theorem endFrame_keeps : s.Keeps s.endFrame := (sealReel_keeps s).trans (advance_keeps _)

theorem loadPair_keeps (i : Nat) : s.Keeps (s.loadPair i) := by
  unfold loadPair
  split
  · exact (setRp_keeps s _).trans (askRead_keeps _ _ _ _)
  · exact endFrame_keeps s

theorem updateDone_keeps : s.Keeps s.updateDone := by
  unfold updateDone
  split
  · exact loadPair_keeps s _
  · exact .refl s

theorem releaseReel_keeps : s.Keeps s.releaseReel := (setJc_slots_keeps s _).trans (setPu_keeps _ _)

theorem truncate_keeps : s.Keeps s.truncate := by
  unfold truncate
  split
  · exact (report_keeps s _ _ _).trans (endFrame_keeps _)
  · exact .refl s

theorem failReel_keeps : s.Keeps s.failReel :=
  (count_keeps s _).trans ((releaseReel_keeps _).trans (truncate_keeps _))

theorem recheckReel_keeps (ok : Bool) : s.Keeps (s.recheckReel ok) := by
  unfold recheckReel
  split
  · split
    · exact failReel_keeps s
    · exact .refl s
  · exact .refl s

/-! ### Notices, retirement, the flip and marks -/

theorem stoppedNotice_keeps : s.Keeps s.stoppedNotice := by
  unfold stoppedNotice
  split
  · split
    · exact meetStop_keeps s
    · exact .refl s
  · exact .refl s

theorem flipNotice_keeps : s.Keeps s.flipNotice := by
  unfold flipNotice
  dsimp only
  split
  · exact .refl s
  · exact stoppedNotice_keeps s
  · exact setRp_keeps s _
  · exact (setRp_keeps s _).trans (beginFrame_keeps _)
  · exact setRp_keeps s _

theorem holdZeroNotice_keeps : s.Keeps s.holdZeroNotice := by
  unfold holdZeroNotice
  split
  · exact (setRp_keeps s _).trans (rpIdle_keeps _)
  · exact .refl s

theorem retire_keeps (i : Fin 8) (b : Batch) : s.Keeps (s.retire i b) := by
  have hs : s.Keeps ((s.setJc (s.jc.put i none).refreshLow).setRe { s.re with state := .idle, current := none, position := 0 }) :=
    (setJc_within_keeps s _ (by exact s.jc.within_put i none (.none _))).trans (setRe_keeps _ _)
  unfold retire
  dsimp only
  split
  · exact hs.trans ((recheckDrawn_keeps _ _).trans ((recheckReel_keeps _ _).trans ((standbyCheck_keeps _).trans
      (rpIdle_keeps _))))
  · exact hs.trans ((recheckDrawn_keeps _ _).trans ((recheckReel_keeps _ _).trans (standbyCheck_keeps _)))

theorem secondPassNext_keeps : s.Keeps s.secondPassNext := by
  unfold secondPassNext
  split
  · split
    · exact askSecondPass_keeps s _
    · exact retire_keeps s _ _
  · exact .refl s

theorem secondPassDone_keeps : s.Keeps s.secondPassDone := (setRe_keeps s _).trans (secondPassNext_keeps _)

theorem tellFlip_keeps (b : Batch) : s.Keeps (s.tellFlip b) := by
  unfold tellFlip
  split_ifs
  · exact (flipNotice_keeps s).trans (holdZeroNotice_keeps _)
  · exact flipNotice_keeps s
  · exact .refl s

theorem flip_keeps : s.Keeps s.flip := by
  unfold flip
  split
  next i b hb =>
    dsimp only
    exact (put_keeps s _ (currentBatch_at hb) (by rfl) (by exact le_rfl)).trans ((setLl_keeps _ _).trans ((setRe_keeps _ _).trans
      ((snapshot_keeps _).trans ((tellFlip_keeps _ _).trans (secondPassNext_keeps _)))))
  · exact .refl s

theorem holdDown_keeps : s.Keeps s.holdDown := by
  unfold holdDown
  dsimp only
  split_ifs
  · exact .refl s
  · exact (setRe_keeps s _).trans (holdZeroNotice_keeps _)
  · exact setRe_keeps s _

theorem reMark_keeps : s.Keeps s.reMark := by
  unfold reMark
  split_ifs
  · exact .refl s
  · exact flip_keeps s
  · exact .refl s
  · exact (count_keeps s _).trans (holdDown_keeps _)
  · exact holdDown_keeps s

theorem ruMark_keeps : s.Keeps s.ruMark := .of_frame

theorem deliverMark_keeps : s.Keeps s.deliverMark := (reMark_keeps s).trans (ruMark_keeps _)

end
end Sys2Proof.Machine.State
end

