-- ==== Sys2Proof/Proofs/KeepsCanvas.lean ====
section
set_option Elab.async false
/-!
SUPPORT. The operations of the Journal Controller, of the Canvas Translator, of the Profile Unit and of start and restart keep the
invariants.
-/
namespace Sys2Proof.Machine.State

section
variable (s : State)

/-! ### The Journal Controller -/

theorem placed_keeps (r : Requester) : s.Keeps (s.placed r) := by
  cases r with
  | aq => exact (releaseDrawn_keeps s).trans (headLeaves_keeps _)
  | rp => exact (releaseReel_keeps s).trans (updateDone_keeps _)

theorem placeStored_keeps (r : Requester) (w : Staged) (v : Stored) : s.Keeps (s.placeStored r w v) := by
  unfold placeStored
  split
  · exact (setJc_within_keeps s _ (by exact s.jc.within_modify _ _ (fun b => ⟨rfl, by simp [Batch.setValue]⟩))).trans
      (placed_keeps _ _)
  · exact .refl s

theorem setStaged_slots (j : Jc) (r : Requester) (w : Option Staged) : (j.setStaged r w).slots = j.slots := by
  cases r <;> rfl

theorem askBase_keeps (r : Requester) (w : Staged) : s.Keeps (s.askBase r w) :=
  (setJc_slots_keeps s _ (setStaged_slots _ _ _)).trans (askRead_keeps _ _ _ _)

theorem combineWith_keeps (r : Requester) (w : Staged) (base : Stored) : s.Keeps (s.combineWith r w base) := by
  unfold combineWith
  split
  · exact placeStored_keeps s _ _ _
  · exact .refl s

theorem place_keeps (r : Requester) (w : Staged) : s.Keeps (s.place r w) := by
  unfold place
  split
  · exact placeStored_keeps s _ _ _
  · split
    · exact combineWith_keeps s _ _ _
    · exact askBase_keeps s _ _

theorem grantEntry_keeps (i : Fin 8) (w : Staged) (h : 0 < s.jc.free) : s.Keeps (s.grantEntry i w) := by
  have hj : s.jc.bounded → (s.jc.modify i (fun b => { b with entries := b.entries ++ [w.newEntry] })).bounded :=
    Jc.bounded_granted i w.newEntry h
  unfold grantEntry
  dsimp only
  split
  · exact (setJc_keeps s _ (by exact fun hs => Jc.bounded_within (.of_slots rfl) (hj hs))).trans (raise_keeps _ _)
  · exact setJc_keeps s _ hj

theorem waitEntry_keeps (r : Requester) (w : Staged) : s.Keeps (s.waitEntry r w) :=
  setJc_slots_keeps s _ (setStaged_slots _ _ _)

theorem failEntry_keeps (r : Requester) (w : Staged) : s.Keeps (s.failEntry r w) := by
  cases r with
  | aq => exact dropDrawn_keeps s _
  | rp => exact failReel_keeps s

theorem free_of_entryFree {j : Jc} (h : j.entryFree = true) : 0 < j.free := by
  have := of_decide_eq_true h
  omega

theorem stageEntry_keeps (r : Requester) (w : Staged) : s.Keeps (s.stageEntry r w) := by
  unfold stageEntry
  split
  · split_ifs
    next => exact place_keeps s _ _
    next hfree => exact (grantEntry_keeps s _ _ (free_of_entryFree hfree)).trans (place_keeps _ _ _)
    next => exact waitEntry_keeps s _ _
    next => exact failEntry_keeps s _ _
  · exact .refl s

theorem openBatch_keeps (o : Origin) (hold : Nat) (hd : (Batch.fresh o hold).isDrawn = true → s.jc.drawnCount < 6)
    (hr : (Batch.fresh o hold).isReel = true → s.jc.reelCount < 2) : s.Keeps (s.openBatch o hold) := by
  unfold openBatch
  split
  next i hi => exact setJc_keeps s _ (Jc.bounded_opened o hold hi hd hr)
  · exact .refl s

theorem openDrawn_keeps (hold : Nat) (h : s.jc.drawnCount < 6) : s.Keeps (s.openBatch .drawn hold) :=
  openBatch_keeps s .drawn hold (fun _ => h) (fun hr => by simp [Batch.isReel, Batch.isDrawn, Batch.fresh] at hr)

theorem openReel_keeps (n : Fin 4) (f : Nat) (e : Bool) (hold : Nat) (h : s.jc.reelCount < 2) :
    s.Keeps (s.openBatch (.reel n f e) hold) :=
  openBatch_keeps s _ hold (fun hd => by simp [Batch.isDrawn, Batch.fresh] at hd) (fun _ => h)

theorem stageDrawn_keeps (w : Staged) : s.Keeps (s.stageDrawn w) := by
  unfold stageDrawn
  dsimp only
  split_ifs with hopen hcount hfree
  · exact (cancelStandby_keeps s).trans (stageEntry_keeps _ _ _)
  · exact (cancelStandby_keeps s).trans ((openDrawn_keeps _ _ hcount).trans (stageEntry_keeps _ _ _))
  · exact (cancelStandby_keeps s).trans (setJc_slots_keeps _ _)
  · exact (cancelStandby_keeps s).trans (dropDrawn_keeps _ _)

theorem stage_keeps (r : Requester) (w : Staged) : s.Keeps (s.stage r w) := by
  cases r with
  | aq => exact stageDrawn_keeps s w
  | rp => exact stageEntry_keeps s _ w

theorem openReelBatch_keeps (o : ReelOpen) (h : s.jc.reelCount < 2) : s.Keeps (s.openReelBatch o) := by
  have hclear : s.Keeps (s.setJc { s.jc with reelOpen := none }) := setJc_slots_keeps s _
  unfold openReelBatch
  exact hclear.trans ((openReel_keeps _ _ _ _ _ (by exact h)).trans ((setRp_keeps _ _).trans (loadPair_keeps _ _)))

theorem askReelBatch_keeps (o : ReelOpen) : s.Keeps (s.askReelBatch o) := by
  unfold askReelBatch
  split_ifs with h
  · exact openReelBatch_keeps s o h
  · exact setJc_slots_keeps s _

theorem baseDone_keeps (r : Requester) (d : Delivered) (word : WordAddr) : s.Keeps (s.baseDone r d word) := by
  unfold baseDone
  split
  · split
    · exact (report_keeps s _ _ _).trans (combineWith_keeps _ _ _ _)
    · exact combineWith_keeps s _ _ _
  · exact .refl s

theorem readBackFor_keeps (order : BitVec 3) (f : Nat) (canvas : Addr) : s.Keeps (s.readBackFor order f canvas) := by
  unfold readBackFor
  split
  · exact (answerHost_keeps s _ _).trans (headLeaves_keeps _)
  · exact (setJc_slots_keeps s _).trans (askRead_keeps _ _ _ _)

theorem readBackDone_keeps (d : Delivered) : s.Keeps (s.readBackDone d) := by
  unfold readBackDone
  dsimp only
  split
  · split
    · exact (setJc_slots_keeps s _).trans ((report_keeps _ _ _ _).trans ((answerHost_keeps _ _ _).trans (headLeaves_keeps _)))
    · exact (setJc_slots_keeps s _).trans ((answerHost_keeps _ _ _).trans (headLeaves_keeps _))
  · exact .refl s

theorem sealDrawn_keeps (x : Word) : s.Keeps (s.sealDrawn x) := by
  unfold sealDrawn
  split
  · split
    · exact .refl s
    · exact setJc_within_keeps s _ (within_sealBatch _ _ _ (fun _ => ⟨rfl, rfl⟩))
  · exact .refl s

theorem actSeal_keeps (x : Word) : s.Keeps (s.actSeal x) := by
  unfold actSeal
  dsimp only
  split
  · exact (cancelStandby_keeps s).trans ((sealDrawn_keeps _ _).trans (reelStop_keeps _))
  · exact (cancelStandby_keeps s).trans (sealDrawn_keeps _ _)

/-! ### The Canvas Translator -/

/-- A change of the CT that leaves its cache, and holds no walk without a request. -/
theorem setCt_apart_keeps (x : Ct) (hcache : x.cache = s.ct.cache := by rfl)
    (hwalk : s.ct.walkServes → x.walkServes := by exact id) : s.Keeps (s.setCt x) :=
  setCt_keeps s x (by unfold Ct.bounded; rw [hcache]; exact id) hwalk

theorem ctFree_keeps : s.Keeps s.ctFree := setCt_apart_keeps s _ rfl (fun _ h => by simp at h)

theorem answerFault_keeps (k : ReqKind) : s.Keeps (s.answerFault k) := by
  cases k with
  | drawnWrite => exact headLeaves_keeps s
  | canvasRead => exact (answerHost_keeps s _ _).trans (headLeaves_keeps _)
  | reelUpdate => exact updateDone_keeps s

theorem giveUpdate_keeps (i : Nat) (a v : Word) : s.Keeps (s.giveUpdate i a v) :=
  (setRp_keeps s _).trans (setCt_apart_keeps _ _)

theorem ctEndDiscarded_keeps : s.Keeps s.ctEndDiscarded := by
  unfold ctEndDiscarded
  split
  · exact (ctFree_keeps s).trans (giveUpdate_keeps _ _ _ _)
  all_goals exact ctFree_keeps s

theorem ctFault_keeps (q : CtReq) (k : FaultKind) : s.Keeps (s.ctFault q k) := by
  unfold ctFault
  dsimp only
  split_ifs
  · exact ctEndDiscarded_keeps s
  · exact (ctFree_keeps s).trans ((report_keeps _ _ _ _).trans (answerFault_keeps _ _))
  · exact (ctFree_keeps s).trans ((report_keeps _ _ _ _).trans ((count_keeps _ _).trans (answerFault_keeps _ _)))

theorem transform_keeps (r : Requester) (q : CtReq) (t : Translation) : s.Keeps (s.transform r q t) := by
  unfold transform
  split
  · exact stage_keeps s _ _
  · exact (setPu_keeps s _).trans (stage_keeps _ _ _)

theorem ctHand_keeps (q : CtReq) (t : Translation) : s.Keeps (s.ctHand q t) := by
  unfold ctHand
  split
  · exact ctEndDiscarded_keeps s
  · split
    · exact (ctFree_keeps s).trans (transform_keeps _ _ _ _)
    · exact (ctFree_keeps s).trans (readBackFor_keeps _ _ _ _)
    · exact (ctFree_keeps s).trans (transform_keeps _ _ _ _)

theorem ctFinish_keeps (q : CtReq) (r : TrResult) : s.Keeps (s.ctFinish q r) := by
  cases r with
  | ok t => exact ctHand_keeps s q t
  | bad k => exact ctFault_keeps s q k

/-- A walk stored for the current request. -/
theorem setWalk_keeps (k : Walk) (h : s.ct.current.isSome = true) : s.Keeps (s.setCt { s.ct with walk := some k }) :=
  setCt_apart_keeps s _ rfl (fun _ _ => h)

theorem walkRead_keeps (k : Walk) (step : WalkStep) (o : Owner) (w : WordAddr) (h : s.ct.current.isSome = true) :
    s.Keeps (s.walkRead k step o w) :=
  (setWalk_keeps s _ h).trans (askRead_keeps _ _ _ _)

theorem walkStart_keeps (q : CtReq) (h : s.ct.current.isSome = true) : s.Keeps (s.walkStart q) := by
  unfold walkStart
  dsimp only
  split
  · exact walkRead_keeps s _ _ _ _ h
  · exact ctFault_keeps s _ _

theorem walkSegment_keeps (q : CtReq) (k : Walk) (h : s.ct.current.isSome = true) : s.Keeps (s.walkSegment q k) := by
  unfold walkSegment
  dsimp only
  split_ifs
  · exact ctFault_keeps s _ _
  · exact walkRead_keeps s _ _ _ _ h
  · exact ctFault_keeps s _ _

theorem bounded_putFront {c : Ct} (e : CacheEntry) (h : c.bounded) : (c.putFront e).bounded := by
  obtain ⟨_, hkeys⟩ := h
  refine ⟨by simp [Ct.putFront], ?_⟩
  refine List.Pairwise.sublist (List.take_sublist _ _) (List.pairwise_cons.mpr ⟨?_, hkeys.filter _⟩)
  intro x hx hk
  have := (List.mem_filter.mp hx).2
  simp [CacheEntry.isFor, hk.1, hk.2] at this

theorem putFront_keeps (e : CacheEntry) : s.Keeps (s.setCt (s.ct.putFront e)) :=
  setCt_keeps s _ (bounded_putFront e) id

theorem walkFill_keeps (q : CtReq) (k : Walk) : s.Keeps (s.walkFill q k) := by
  unfold walkFill
  dsimp only
  split
  · exact .refl s
  · exact putFront_keeps s _

theorem walkComplete_keeps (q : CtReq) (k : Walk) (r : TrResult) : s.Keeps (s.walkComplete q k r) :=
  (walkFill_keeps s q k).trans (ctFinish_keeps _ _ _)

theorem walkDecide_keeps (q : CtReq) (k : Walk) (r : TrResult) (h : s.ct.current.isSome = true) :
    s.Keeps (s.walkDecide q k r) := by
  unfold walkDecide
  dsimp only
  split_ifs
  · exact walkComplete_keeps s _ _ _
  · exact walkComplete_keeps s _ _ _
  · exact (setWalk_keeps s _ h).trans (askWrite_keeps _ _ _ _ _)

theorem walkCheck_keeps (q : CtReq) (k : Walk) (h : s.ct.current.isSome = true) : s.Keeps (s.walkCheck q k) := by
  unfold walkCheck
  split
  · exact setWalk_keeps s _ h
  · exact walkDecide_keeps s _ _ _ h

theorem walkDirectory_keeps (q : CtReq) (k : Walk) (h : s.ct.current.isSome = true) : s.Keeps (s.walkDirectory q k) := by
  unfold walkDirectory
  split_ifs
  · exact ctFault_keeps s _ _
  · exact walkSegment_keeps s _ _ h
  · exact (setWalk_keeps s _ h).trans (askWrite_keeps _ _ _ _ _)

theorem walkEntry_keeps (q : CtReq) (k : Walk) (h : s.ct.current.isSome = true) : s.Keeps (s.walkEntry q k) := by
  unfold walkEntry
  split
  · exact ctFault_keeps s _ _
  · exact walkCheck_keeps s _ _ h

theorem walkReadDone_keeps (q : CtReq) (k : Walk) (d : Delivered) (h : s.ct.current.isSome = true) :
    s.Keeps (s.walkReadDone q k d) := by
  unfold walkReadDone
  split
  · exact walkRead_keeps s _ _ _ _ h
  · split
    · exact ctFault_keeps s _ _
    · exact walkDirectory_keeps s _ _ h
  · exact walkRead_keeps s _ _ _ _ h
  · split
    · exact ctFault_keeps s _ _
    · exact walkEntry_keeps s _ _ h
  all_goals exact .refl s

theorem walkFlagDone_keeps (q : CtReq) (k : Walk) (h : s.ct.current.isSome = true) : s.Keeps (s.walkFlagDone q k) := by
  unfold walkFlagDone
  split
  · exact walkSegment_keeps s _ _ h
  · exact walkComplete_keeps s _ _ _
  · exact .refl s

theorem bounded_setKnown {c : Ct} (zone segment : Nat) (h : c.bounded) : (c.setKnown zone segment).bounded := by
  refine ⟨by simpa [Ct.setKnown] using h.1, ?_⟩
  refine List.pairwise_map.mpr (h.2.imp ?_)
  intro a b hab
  split_ifs <;> exact hab

theorem hitPass_keeps (q : CtReq) (h : Hit) (t : Translation) : s.Keeps (s.hitPass q h t) := by
  have hknown : s.Keeps (s.setCt (s.ct.setKnown (zoneOf q.canvas) (segmentOf q.canvas))) :=
    setCt_keeps s _ (bounded_setKnown _ _) id
  unfold hitPass
  dsimp only
  split_ifs
  · exact ctHand_keeps s _ _
  · exact hknown.trans (ctHand_keeps _ _ _)
  · exact hknown.trans ((setCt_apart_keeps _ _).trans (askWrite_keeps _ _ _ _ _))

theorem hitCheck_keeps (q : CtReq) (h : Hit) : s.Keeps (s.hitCheck q h) := by
  unfold hitCheck
  split
  · exact setCt_apart_keeps s _
  · exact ctFault_keeps s _ _
  · exact hitPass_keeps s _ _ _

theorem hitStart_keeps (q : CtReq) (e : CacheEntry) : s.Keeps (s.hitStart q e) :=
  (putFront_keeps s e).trans (hitCheck_keeps _ _ _)

theorem ctBegin_keeps (q : CtReq) (h : s.ct.current.isSome = true) : s.Keeps (s.ctBegin q) := by
  unfold ctBegin
  split
  · exact hitStart_keeps s _ _
  · exact walkStart_keeps s _ h

theorem answerQuestion_keeps : s.Keeps s.answerQuestion := by
  unfold answerQuestion
  split
  next hq _ =>
    split
    · exact walkCheck_keeps s _ _ (by simp [hq])
    · exact .refl s
  · split
    · exact hitCheck_keeps s _ _
    · exact .refl s
  · exact .refl s

theorem hostWriteWalk_keeps (q : CtReq) (k : Walk) (w : WordAddr) (h : s.ct.current.isSome = true) :
    s.Keeps (s.hostWriteWalk q k w) := by
  unfold hostWriteWalk
  dsimp only
  split_ifs
  · exact (setWalk_keeps s _ h).trans ((withdraw_keeps _ _).trans (walkFlagDone_keeps _ _ _ (by simpa using h)))
  · exact setWalk_keeps s _ h
  · exact .refl s

theorem hostWriteHit_keeps (q : CtReq) (h : Hit) (w : WordAddr) : s.Keeps (s.hostWriteHit q h w) := by
  unfold hostWriteHit
  split
  · split
    · split
      · exact (withdraw_keeps s _).trans (ctHand_keeps _ _ _)
      · exact .refl s
    · exact setCt_apart_keeps s _
  · exact .refl s

theorem bounded_invalidate {c : Ct} (w : WordAddr) (h : c.bounded) : (c.invalidate w).bounded :=
  ⟨(List.length_filter_le _ _).trans h.1, h.2.filter _⟩

theorem ctHostWrite_keeps (w : WordAddr) : s.Keeps (s.ctHostWrite w) := by
  have hs : s.Keeps (s.setCt (s.ct.invalidate w)) := setCt_keeps s _ (bounded_invalidate w) id
  unfold ctHostWrite
  dsimp only
  split
  next hq _ => exact hs.trans (hostWriteWalk_keeps _ _ _ _ (by rw [hq]; rfl))
  · exact hs.trans (hostWriteHit_keeps _ _ _ _)
  · exact hs

theorem take_current (c : Ct) (r : Requester) (q : CtReq) : (c.take r q).current = some q := by cases r <;> rfl

theorem ctTake_keeps (r : Requester) (q : CtReq) : s.Keeps (s.ctTake r q) :=
  (setCt_keeps s _ (by cases r <;> exact id) (fun _ _ => by simp [take_current])).trans
    (ctBegin_keeps _ _ (by simp [take_current]))

/-! ### Profiles, blanking and the root -/

theorem askRecord_keeps (l : Load) (a : Nat) : s.Keeps (s.askRecord l a) := (setPu_keeps s _).trans (askRead_keeps _ _ _ _)

theorem puRun_keeps : s.Keeps s.puRun := by
  unfold puRun
  split
  · split
    · exact askRecord_keeps s _ _
    · exact setPu_keeps s _
  · exact .refl s

theorem startBlanking_keeps (h : s.directServed → s.noDirect) : s.Keeps s.startBlanking :=
  (setSpc_keeps s _ h (by simp) (by simp)).trans ((setRe_keeps _ _).trans ((setLl_keeps _ _).trans (askBlanking_keeps _)))

theorem afterLoads_keeps : s.Keeps s.afterLoads := by
  unfold afterLoads
  split
  next h => exact startBlanking_keeps s (noDirect_of_part (by simp [h.1]) (by simp [h.1]))
  · exact .refl s

theorem profileReadDone_keeps (d : Delivered) : s.Keeps (s.profileReadDone d) := by
  unfold profileReadDone
  dsimp only
  split
  · split
    · exact (setFreeCount_keeps s _).trans (askRecord_keeps _ _ _)
    · exact (setFreeCount_keeps s _).trans ((setPu_keeps _ _).trans ((answerQuestion_keeps _).trans ((puRun_keeps _).trans
        ((answerQuestion_keeps _).trans (afterLoads_keeps _)))))
  · exact .refl s

theorem actReload_keeps (x : Word) : s.Keeps (s.actReload x) :=
  (setPu_keeps s _).trans ((puRun_keeps _).trans (answerQuestion_keeps _))

theorem blankingDone_keeps : s.Keeps s.blankingDone := by
  unfold blankingDone
  dsimp only
  split
  · exact (setRe_keeps s _).trans (askBlanking_keeps _)
  · exact (setRe_keeps s _).trans ((setRe_keeps _ _).trans (askWrite_keeps _ _ _ _ _))

theorem takeRoot_keeps (r : Root) : s.Keeps (s.takeRoot r) where
  memory := id
  queue := id
  counts := id
  cache := id
  walk := id
  journal := Jc.bounded_within (.of_slots rfl)
  direct := directServed_of_stays rfl rfl (.inl rfl) (fun _ hw _ => hw)
  awake := id

theorem rootFail_keeps (code : Nat) (a : Addr) : s.Keeps (s.rootFail code a) :=
  (report_keeps s _ _ _).trans (askWrite_keeps _ _ _ _ _)

theorem rootCheck_keeps (h : s.directServed → s.noDirect) : s.Keeps s.rootCheck := by
  unfold rootCheck
  dsimp only
  split
  · exact rootFail_keeps s _ _
  · unfold loadProfiles
    exact (((grantFirst_keeps s _).trans (takeRoot_keeps _ _)).setSpc _ (fun hs => by
      simpa [noDirect, takeRoot] using h hs) (by simp) (by simp)).trans ((setPu_keeps _ _).trans ((puRun_keeps _).trans (afterLoads_keeps _)))

theorem askRoot_keeps : s.Keeps s.askRoot := askRead_keeps _ _ _ _

theorem rootReadDone_keeps (d : Delivered) (word : WordAddr) (h : s.directServed → s.noDirect) :
    s.Keeps (s.rootReadDone d word) := by
  unfold rootReadDone
  dsimp only
  split_ifs
  · exact (setSpc_same_keeps s _ (by rfl)).trans (rootFail_keeps _ _ _)
  · exact (setSpc_same_keeps s _ (by rfl)).trans (askRoot_keeps _)
  · exact (setSpc_same_keeps s _ (by rfl)).trans (rootCheck_keeps _ (fun hs => h hs))

/-! ### Entry to RUNNING and to PASSIVE, and restart -/

theorem enterRunning_keeps (h : s.directServed → s.noDirect) : s.Keeps s.enterRunning := by
  unfold enterRunning
  dsimp only
  split
  · exact (setSpc_keeps s _ h (by simp) (by simp)).trans ((snapshot_keeps _).trans ((setMm_keeps _ _).trans (servePending_keeps _)))
  · exact (setSpc_keeps s _ h (by simp) (by simp)).trans ((snapshot_keeps _).trans (servePending_keeps _))

theorem enterPassive_keeps (h : s.directServed → s.noDirect) : s.KeepsInvariants s.enterPassive := by
  unfold enterPassive
  dsimp only
  exact ((grantFirst_keeps s _).toKeepsInvariants.setSpc _ (fun hs => by simpa [noDirect] using h hs) (by simp)).trans
    ((snapshot_keeps _).trans ((loseMarks_keeps _ _ _).trans ((setRp_keeps _ _).trans ((setMp_same_keeps _ _).trans
      (stopHold_keeps _))))).toKeepsInvariants

theorem handWaiting_keeps : s.Keeps s.handWaiting := by
  unfold handWaiting
  split
  · exact (setUp_keeps s _ (by simp)).trans (ask_keeps _ _ _)
  · exact .refl s

theorem bounded_restarted {j : Jc} (h : j.bounded) : j.restarted.bounded := by
  unfold Jc.restarted
  dsimp only
  split
  · exact Jc.bounded_within (j.within_put _ none (.none _)) h
  · exact h

theorem acceptRestart_keeps (h : s.directServed → s.noDirect) : s.Keeps s.acceptRestart := by
  unfold acceptRestart
  dsimp only
  exact ((grantFirst_keeps s _).setSpc _ (fun hs => by simpa [noDirect] using h hs) (by simp) (by simp)).trans
    (((snapshot_keeps _).trans ((loseMarks_keeps _ _ _).trans ((setJc_keeps _ _ bounded_restarted).trans ((setRp_keeps _ _).trans
      ((setCt_keeps _ _ (fun _ => ⟨by simp [Ct.restarted], by simp [Ct.restarted]⟩) (fun _ hw => by simp [Ct.restarted] at hw)).trans
        ((setPu_keeps _ _).trans ((discardInFlight_keeps _ _).trans ((withdraw_keeps _ _).trans ((withdraw_keeps _ _).trans
          ((setMp_same_keeps _ _).trans ((handWaiting_keeps _).trans (askRoot_keeps _)))))))))))))

theorem actRestart_keeps (h : s.directServed → s.noDirect) : s.Keeps s.actRestart := by
  unfold actRestart
  split
  · exact acceptRestart_keeps s h
  · exact raise_keeps s _

end
end Sys2Proof.Machine.State
end

