-- ==== Sys2Proof/Proofs/Stepped.lean ====
section
set_option Elab.async false
/-!
SUPPORT. What every command does to the state: it keeps the invariants and the waiting commands, and ends by settling, unless it
leaves the state as it is. The direct path, PASSIVE and the Report Unit are served by the settling itself.
-/
namespace Sys2Proof.Machine.State

section
variable (s : State)

/-! ### What settling serves -/

/-- The direct path before settling: as `directServed`, but that a transfer may wait for it with the memory free. -/
def directPending : Prop :=
  (s.spc.part = .bypass → s.mp.path = .direct ∧ ∀ f ∈ s.mp.inFlight, f.carried)
    ∧ (∀ w ∈ s.up.waiting, w.place = .direct →
        (s.spc.part = .bypass ∨ s.spc.part = .starting .readRoot) ∧ ∀ f ∈ s.mp.inFlight, f.carried)

theorem startDirect_serves (h : s.directPending) : s.startDirect.directServed := by
  obtain ⟨hbypass, hwait⟩ := h
  unfold startDirect
  split
  next t hfree hw =>
    obtain ⟨hpart, _⟩ := hwait _ hw rfl
    split
    next =>
      refine ⟨fun hp => ⟨(hbypass hp).1, ?_⟩, fun w _ _ => ⟨hpart, _, rfl, .inr rfl⟩⟩
      intro f hf
      simp only [setMp_mp, Option.mem_some_iff] at hf
      exact .inr (hf ▸ rfl)
    next =>
      refine ⟨fun hp => ⟨(hbypass (by simpa using hp)).1, fun f hf => ?_⟩, fun w hw => ?_⟩
      · simp [hfree] at hf
      · simp [refuseHost, answerHost] at hw
  next hno =>
    refine ⟨hbypass, fun w hw hd => ?_⟩
    obtain ⟨hpart, hc⟩ := hwait w hw hd
    cases hf : s.mp.inFlight with
    | none =>
      obtain ⟨t, p⟩ := w
      obtain rfl : p = .direct := hd
      exact absurd hw (hno t hf)
    | some f => exact ⟨hpart, f, rfl, hc f hf⟩

/-- On a served direct path nothing is left to start. -/
theorem startDirect_keeps : s.Keeps s.startDirect where
  memory := by simp [memoryCanonical]
  queue := by simp [queueBounded]
  counts := by
    unfold startDirect
    split
    · split
      · exact id
      · simp
    · exact id
  cache := by simp
  walk := by simp
  journal := by simp
  direct h := by
    rw [startDirect_id s (directServed_flying s h)]
    exact h
  awake := by simp

theorem settle_keeps : s.Keeps s.settle :=
  (startDirect_keeps s).trans ((servePassive_keeps _).trans (endStep_keeps _))

/-- Settling serves the direct path. -/
theorem settle_directServed (h : s.directPending) : s.settle.directServed :=
  ((servePassive_keeps _).trans (endStep_keeps _)).direct (startDirect_serves s h)

theorem handToPort_serves (h : ∀ t ∈ s.aq.queue.head?, region t = .plain) :
    (∀ t ∈ s.handToPort.aq.queue.head?, region t = .plain)
      ∧ (s.handToPort.aq.queue = [] → ∀ w ∈ s.handToPort.up.waiting, w.place ≠ .forPort) := by
  refine ⟨by simpa using h, fun hq w hw hp => ?_⟩
  have hempty : s.aq.queue = [] := by simpa using hq
  unfold handToPort at hw
  split at hw
  · simp only [ask_frame, setUp_up, Option.mem_some_iff] at hw
    subst hw
    cases hp
  next hno =>
    obtain ⟨t, p⟩ := w
    obtain rfl : p = .forPort := hp
    exact hno t hempty hw

theorem dropHeldCanvas_head : ∀ t ∈ s.dropHeldCanvas.aq.queue.head?, region t = .plain := by
  have hq : s.dropHeldCanvas.aq.queue = s.aq.queue.dropWhile (fun t => region t != .plain) := by
    unfold dropHeldCanvas
    dsimp only
    split <;> simp
  intro t ht
  rw [hq] at ht
  have := List.head?_dropWhile_not (fun t => region t != .plain) s.aq.queue
  rw [Option.mem_def.mp ht] at this
  simpa using this

theorem servePassive_serves : s.servePassive.passiveServed := by
  unfold servePassive
  split
  · exact fun _ _ => handToPort_serves _ (dropHeldCanvas_head s)
  next h => exact fun hp ht => absurd ⟨hp, ht⟩ h

/-- Settling serves PASSIVE. -/
theorem settle_passiveServed : s.settle.passiveServed := by
  have h := servePassive_serves s.startDirect
  unfold settle passiveServed
  simp only [endStep_frame]
  exact h

/-- A record that could be begun is begun. -/
theorem beginDueRecord_begins : s.beginDueRecord.recordsBegun := by
  unfold beginDueRecord
  split
  next base hw hb =>
    split_ifs with hfault hstatus
    · intro h
      simp [beginFault, beginRecord] at h
    · intro h
      simp [beginStatus, beginRecord] at h
    · split
      · intro h
        simp [beginCounters, beginRecord] at h
      next hc => exact fun _ => .inr ⟨by simpa using hfault, by simpa using hstatus, hc⟩
  next hno =>
    intro hw
    left
    cases hb : s.ru.base with
    | none => rfl
    | some base => exact absurd hb (hno base hw)

/-- Settling begins a due record. -/
theorem settle_recordsBegun : s.settle.recordsBegun := by
  have h := beginDueRecord_begins s.startDirect.servePassive
  unfold settle recordsBegun
  simp only [endStep_frame]
  exact h

end

/-! ### The shapes of commands -/

/-- What every command does: it keeps the waiting commands and the invariants, and settles unless it leaves the state. -/
structure Stepped (s t : State) : Prop where
  pending : t.pending = s.pending
  keeps : s.KeepsInvariants t
  ended : t = s ∨ ∃ u : State, t = u.settle

section
variable (s : State)

theorem Stepped.refl : s.Stepped s := ⟨rfl, (Keeps.refl s).toKeepsInvariants, .inl rfl⟩

/-- A command that runs an operation and settles. -/
theorem Stepped.of_settled {s u : State} (hp : u.pending = s.pending) (hk : s.KeepsInvariants u) : s.Stepped u.settle :=
  ⟨by simp [hp], hk.trans (settle_keeps u).toKeepsInvariants, .inr ⟨u, rfl⟩⟩

theorem Stepped.of_settle {s u : State} (hp : u.pending = s.pending) (hk : s.Keeps u) : s.Stepped u.settle :=
  .of_settled hp hk.toKeepsInvariants

/-- With a transfer completed that was carried, settling serves the direct path anew. -/
theorem complete_directPending {s : State} {f : InFlight} (h : s.directServed) : (s.complete f).directPending := by
  refine ⟨fun hp => ⟨?_, by simp⟩, fun w hw hd => ⟨?_, by simp⟩⟩
  · simpa [complete_mp] using (h.1 (by simpa using hp)).1
  · simpa using (h.2 w (by simpa using hw) hd).1

/-- What a completion of any transfer keeps, but for the direct path. -/
theorem complete_settle_keeps (f : InFlight) : s.KeepsInvariants (s.complete f).settle where
  memory h := (settle_keeps _).memory (by
    show (s.complete f).memory.wf = true
    rw [complete_memory]
    exact Memory.wf_after _ _ h)
  queue h := (settle_keeps _).queue (by simpa [queueBounded] using h)
  counts h := (settle_keeps _).counts (by
    rw [complete_mp]
    exact h)
  cache h := (settle_keeps _).cache (by simpa using h)
  walk h := (settle_keeps _).walk (by simpa using h)
  journal h := (settle_keeps _).journal (by simpa using h)
  direct h := settle_directServed _ (complete_directPending h)

/-- A completion command whose transfer belongs to a requester: its effect runs with the memory free. -/
theorem onCompletion_keeps (mine : Owner → Bool) (k : Delivered → InFlight → State → State) (hmine : mine .direct = false)
    (hp : ∀ d f t, (k d f t).pending = t.pending)
    (hk : ∀ d f (t : State), t.mp.inFlight = none → t.KeepsInvariants (k d f t)) : s.Stepped (s.onCompletion mine k) := by
  cases hf : s.mp.inFlight with
  | none =>
    rw [onCompletion_idle s mine k (by simp [hf])]
    exact .refl s
  | some f =>
    cases hm : mine f.req.owner with
    | false =>
      rw [onCompletion_idle s mine k (by simpa [hf] using hm)]
      exact .refl s
    | true =>
      cases hd : f.discard with
      | true =>
        rw [onCompletion_discard s mine k f hf hm hd]
        exact ⟨by simp, complete_settle_keeps s f, .inr ⟨_, rfl⟩⟩
      | false =>
        rw [onCompletion_run s mine k f hf hm hd]
        have hc : ¬f.carried := by
          rintro (h | h)
          · simp [hd] at h
          · simp [h, hmine] at hm
        exact .of_settled (by simp [hp]) ((complete_keeps s f hf hc).toKeepsInvariants.trans
          (hk _ _ _ (complete_inFlight s f)))

theorem onCompletion_stepped (mine : Owner → Bool) (k : Delivered → InFlight → State → State) (hmine : mine .direct = false)
    (hp : ∀ d f t, (k d f t).pending = t.pending)
    (hk : ∀ d f (t : State), t.mp.inFlight = none → t.Keeps (k d f t)) : s.Stepped (s.onCompletion mine k) :=
  onCompletion_keeps s mine k hmine hp (fun d f t ht => (hk d f t ht).toKeepsInvariants)

theorem takeIf_stepped (kind : HostTransfer → Bool) (k : HostTransfer → State → State)
    (hp : ∀ t u, (k t u).pending = u.pending) (hk : ∀ t (u : State), u.Keeps (k t u)) : s.Stepped (s.takeIf kind k) := by
  unfold takeIf
  split
  · split
    · exact .of_settle (hp _ _) (hk _ _)
    · exact .refl s
  · exact .refl s

theorem controlDone_stepped (want : ControlWord → Word → Bool) (act : State → Word → State)
    (hp : ∀ t x, (act t x).pending = t.pending)
    (hk : ∀ (t : State) x, t.mp.inFlight = none → t.Keeps (act t x)) : s.Stepped (s.controlDone want act) := by
  unfold controlDone
  split
  · split
    · exact onCompletion_stepped s _ _ rfl (by simp [hp]) (fun _ _ t ht =>
        (headLeaves_keeps t).trans (hk _ _ (by simpa using ht)))
    · exact .refl s
  · exact .refl s

/-! ### The operations of the commands -/

theorem startResultDone_keeps (o : Owner) (h : s.mp.inFlight = none) : s.KeepsInvariants (s.startResultDone o) := by
  unfold startResultDone
  split
  · exact (enterRunning_keeps s (noDirect_of_free h)).toKeepsInvariants
  · exact enterPassive_keeps s (noDirect_of_free h)

theorem refuseArrival_keeps (t : HostTransfer) (k : FaultKind) : s.Keeps (s.refuseArrival t k) :=
  (refuseHost_keeps s t).trans ((report_keeps _ _ _ _).trans (count_keeps _ _))

theorem startHold_keeps : s.Keeps s.startHold := setUp_keeps s _ (fun _ hw _ => hw)

theorem waitAt_keeps (t : HostTransfer) (p : WaitPlace) (h : p ≠ .direct) : s.Keeps (s.waitAt t p) :=
  setUp_keeps s _ (fun w hw hd => by
    rw [Option.mem_some_iff] at hw
    subst hw
    exact absurd hd h)

theorem accept_keeps (t : HostTransfer) : s.Keeps (s.accept t) := by
  unfold accept
  split
  next hlen =>
    have henqueue : s.Keeps (s.enqueue t) := setAq_keeps s _ (.inl (by simpa using hlen))
    split
    · exact henqueue.trans (answerHost_keeps _ _ _)
    · exact henqueue.trans ((waitAt_keeps _ _ _ (by simp)).trans (startHold_keeps _))
  · exact (waitAt_keeps s _ _ (by simp)).trans (startHold_keeps _)

theorem arrive_keeps (t : HostTransfer) : s.Keeps (s.arrive t) := by
  unfold arrive
  split
  · exact refuseArrival_keeps s _ _
  · exact accept_keeps s _

theorem clearAnswer_keeps : s.Keeps s.clearAnswer := setUp_keeps s _ (fun _ hw _ => hw)

theorem arriveIn_keeps (t : HostTransfer) (h : s.spc.part ≠ .bypass) : s.Keeps (s.arriveIn t) := by
  unfold arriveIn
  split
  next hp => exact absurd hp h
  · exact refuseHost_keeps s t
  · exact arrive_keeps s t
  · split
    · exact waitAt_keeps s _ _ (by simp)
    · exact refuseHost_keeps s t
  next hp => exact (wake_keeps s (noDirect_of_part (by simp [hp]) (by simp [hp]))).trans (arrive_keeps _ _)

theorem dropWaiting_keeps (w : Waiting) : s.Keeps (s.dropWaiting w) := by
  unfold dropWaiting
  split
  · exact setAq_keeps s _ (.inr (by simp))
  · exact .refl s

theorem expireHold_keeps (w : Waiting) : s.Keeps (s.expireHold w) :=
  (dropWaiting_keeps s w).trans ((refuseHost_keeps _ _).trans ((stopHold_keeps _).trans ((report_keeps _ _ _ _).trans
    (count_keeps _ _))))

theorem passiveDone_keeps (f : InFlight) (d : Delivered) (h : s.mp.inFlight = none) : s.Keeps (s.passiveDone f d) := by
  unfold passiveDone
  dsimp only
  split
  · split
    · exact (answerHost_keeps s _ _).trans (acceptRestart_keeps _ (noDirect_of_free (by simpa using h)))
    · exact answerHost_keeps s _ _
  · exact .refl s

theorem takePlainWrite_keeps (t : HostTransfer) : s.Keeps (s.takePlainWrite t) :=
  (takeHead_keeps s).trans ((ctHostWrite_keeps _ _).trans (ask_keeps _ _ _))

theorem takePlainRead_keeps (t : HostTransfer) : s.Keeps (s.takePlainRead t) :=
  (takeHead_keeps s).trans ((stopHold_keeps _).trans (askRead_keeps _ _ _ _))

theorem offerCanvas_keeps (k : ReqKind) (t : HostTransfer) : s.Keeps (s.offerCanvas k t) := setCt_apart_keeps s _

theorem takeCanvasWrite_keeps (t : HostTransfer) : s.Keeps (s.takeCanvasWrite t) :=
  (takeHead_keeps s).trans (offerCanvas_keeps _ _ _)

theorem takeCanvasRead_keeps (t : HostTransfer) : s.Keeps (s.takeCanvasRead t) :=
  (takeHead_keeps s).trans ((stopHold_keeps _).trans (offerCanvas_keeps _ _ _))

theorem plainReadDone_keeps (d : Delivered) : s.Keeps (s.plainReadDone d) := by
  unfold plainReadDone
  dsimp only
  split
  · split
    · exact (report_keeps s _ _ _).trans ((answerHost_keeps _ _ _).trans (headLeaves_keeps _))
    · exact (answerHost_keeps s _ _).trans (headLeaves_keeps _)
  · exact .refl s

theorem actStandby_keeps (h : s.mp.inFlight = none) : s.Keeps s.actStandby := by
  unfold actStandby
  split
  · exact enterStandby_keeps s (noDirect_of_free h)
  · exact setSpc_same_keeps s _ rfl

theorem actPlay_keeps (x : Word) : s.Keeps (s.actPlay x) := by
  unfold actPlay
  split
  · exact takeCue_keeps s _ _
  · exact ignoreCue_keeps s _ _

theorem cueOnLine_keeps (n : Fin 4) : s.Keeps (s.cueOnLine n) := by
  unfold cueOnLine
  split
  · exact .refl s
  · exact .refl s
  · exact setRp_keeps s _
  · exact takeCue_keeps s _ _
  next hp =>
    split
    · exact (wake_keeps s (noDirect_of_part (by simp [hp]) (by simp [hp]))).trans (takeCue_keeps _ _ _)
    · exact ignoreCue_keeps s _ _

theorem walkOn_keeps (k : State → CtReq → Walk → State)
    (hk : ∀ (t : State) q w, t.ct.current.isSome = true → t.Keeps (k t q w)) : s.Keeps (s.walkOn k) := by
  unfold walkOn
  split
  next hq _ => exact hk s _ _ (by simp [hq])
  · exact .refl s

theorem hitDone_keeps : s.Keeps s.hitDone := by
  unfold hitDone
  split
  · split
    · exact ctHand_keeps s _ _
    · exact .refl s
  · exact .refl s

theorem clearLoss_keeps : s.Keeps s.clearLoss :=
  (setMm_keeps s _).trans ((snapshot_keeps _).trans (deliverMark_keeps _))

theorem frameMark_keeps : s.Keeps s.frameMark := by
  unfold frameMark lostFrameMark
  split
  · exact (setMm_keeps s _).trans (deliverMark_keeps _)
  · split
    · exact clearLoss_keeps s
    · exact setMm_keeps s _

theorem lossExpiry_keeps : s.Keeps s.lossExpiry := .of_frame

theorem paceExpiry_keeps : s.Keeps s.paceExpiry := (setMm_keeps s _).trans (deliverMark_keeps _)

theorem headerDone_keeps (d : Delivered) : s.Keeps (s.headerDone d) := by
  unfold headerDone
  dsimp only
  split
  · exact reelAbort_keeps s
  · exact (setRp_keeps s _).trans (askReelBatch_keeps _ _)

theorem meetHeader_keeps : s.Keeps s.meetHeader := by
  unfold meetHeader
  split
  · split
    · exact meetStop_keeps s
    · exact .refl s
  · exact .refl s

theorem reportPair_keeps (d : Delivered) (a : Nat) : s.Keeps (s.reportPair d a) := .of_frame

theorem badUpdate_keeps (i : Nat) : s.Keeps (s.badUpdate i) :=
  (report_keeps s _ _ _).trans ((count_keeps _ _).trans (loadPair_keeps _ _))

theorem offerUpdate_keeps (i : Nat) (a v : Word) : s.Keeps (s.offerUpdate i a v) := by
  unfold offerUpdate
  split
  · exact setRp_keeps s _
  · exact giveUpdate_keeps s _ _ _

theorem pairDone_keeps (i : Nat) (a v : Word) (bad : Bool) : s.Keeps (s.pairDone i a v bad) := by
  unfold pairDone
  split_ifs
  · exact loadPair_keeps s _
  · exact offerUpdate_keeps s _ _ _
  · exact badUpdate_keeps s _

theorem pairReadDone_keeps (d : Delivered) : s.Keeps (s.pairReadDone d) := by
  unfold pairReadDone
  split
  · exact (reportPair_keeps s _ _).trans ((setRp_keeps _ _).trans (askRead_keeps _ _ _ _))
  · exact (reportPair_keeps s _ _).trans (pairDone_keeps _ _ _ _ _)
  all_goals exact .refl s

theorem askRecordWord_keeps (w : RuWrite) : s.Keeps (s.askRecordWord w) := askWrite_keeps _ _ _ _ _

theorem statusDone_keeps : s.Keeps s.statusDone := by
  unfold statusDone
  dsimp only
  split
  · split
    · exact (setRu_keeps s _).trans (askRecordWord_keeps _ _)
    · exact setRu_keeps s _
  · exact .refl s

/-! ### The commands of more than one shape -/

/-- Reset: every block at its reset values, and the direct path to be served by settling. -/
theorem assertReset_directPending : s.assertReset.directPending := by
  have hflight : ∀ f ∈ s.assertReset.mp.inFlight, f.carried := by
    intro f hf
    obtain ⟨g, _, rfl⟩ := Option.map_eq_some_iff.mp (show s.mp.inFlight.map _ = some f from hf)
    unfold InFlight.atReset InFlight.carried
    split_ifs with hdirect
    · exact .inr hdirect
    all_goals exact .inl rfl
  exact ⟨fun _ => ⟨rfl, hflight⟩, fun _ _ _ => ⟨.inl rfl, hflight⟩⟩

theorem bounded_reset : Jc.reset.bounded :=
  show Jc.reset.inUse ≤ 512 ∧ Jc.reset.drawnCount ≤ 6 ∧ Jc.reset.reelCount ≤ 2 by decide

theorem assertReset_stepped : s.Stepped s.assertReset.settle where
  pending := by simp [assertReset]
  ended := .inr ⟨_, rfl⟩
  keeps := {
    memory := fun h => (settle_keeps s.assertReset).memory h
    queue := fun _ => (settle_keeps s.assertReset).queue (Nat.zero_le _)
    counts := fun _ => (settle_keeps s.assertReset).counts (fun p => by simp [assertReset, Mp.reset])
    cache := fun _ => (settle_keeps s.assertReset).cache ⟨Nat.zero_le _, .nil⟩
    walk := fun _ => (settle_keeps s.assertReset).walk (fun h => by simp [assertReset, State.reset, Ct.reset] at h)
    journal := fun _ => (settle_keeps s.assertReset).journal bounded_reset
    direct := fun _ => settle_directServed _ (assertReset_directPending s) }

theorem releaseReset_directServed (h : s.directServed) : s.releaseReset.directServed := by
  refine ⟨fun hp => ?_, fun w hw hd => ⟨.inr ?_, ?_⟩⟩
  · simp [releaseReset, askRoot] at hp
  · simp [releaseReset, askRoot]
  · exact (h.2 w (by simpa [releaseReset, askRoot] using hw) hd).2

theorem releaseReset_keeps : s.Keeps s.releaseReset where
  memory := by simp [memoryCanonical]
  queue := by simp [queueBounded]
  counts h := (askRoot_keeps _).counts h
  cache := by simp
  walk := by simp
  journal := by simp
  direct := releaseReset_directServed s
  awake _ := by simp [releaseReset, askRoot]

/-- An arrival in BYPASS waits for the direct path, which settling serves. -/
theorem arriveIn_settle_keeps (t : HostTransfer) : s.KeepsInvariants (s.arriveIn t).settle := by
  by_cases hp : s.spc.part = .bypass
  · have hwait : ∀ p, s.KeepsInvariants (s.waitAt t p).settle := fun p => {
      memory := (settle_keeps (s.waitAt t p)).memory
      queue := (settle_keeps (s.waitAt t p)).queue
      counts := (settle_keeps (s.waitAt t p)).counts
      cache := (settle_keeps (s.waitAt t p)).cache
      walk := (settle_keeps (s.waitAt t p)).walk
      journal := (settle_keeps (s.waitAt t p)).journal
      direct := fun h => settle_directServed _ ⟨fun _ => h.1 hp, fun _ _ _ => ⟨.inl hp, (h.1 hp).2⟩⟩ }
    unfold arriveIn
    rw [hp]
    dsimp only
    split
    · exact hwait _
    · exact ((refuseHost_keeps s t).trans (settle_keeps _)).toKeepsInvariants
  · exact ((arriveIn_keeps s t hp).trans (settle_keeps _)).toKeepsInvariants

/-- The end of a direct transfer answers the host, whatever waits. -/
theorem answerCarried_directPending {f : InFlight} (d : Delivered) (h : s.directServed) :
    ((s.complete f).answerCarried f d).directPending := by
  refine ⟨fun hp => ⟨?_, by simp⟩, fun w hw => ?_⟩
  · simpa [complete_mp] using (h.1 (by simpa using hp)).1
  · simp [answerCarried, answerHost] at hw

theorem directCompletion_stepped : s.Stepped (s.onCompletion s.endsDirect (fun d f t => t.answerCarried f d)) := by
  cases hf : s.mp.inFlight with
  | none =>
    rw [onCompletion_idle s _ _ (by simp [hf])]
    exact .refl s
  | some f =>
    cases hm : s.endsDirect f.req.owner with
    | false =>
      rw [onCompletion_idle s _ _ (by simpa [hf] using hm)]
      exact .refl s
    | true =>
      cases hd : f.discard with
      | true =>
        rw [onCompletion_discard s _ _ f hf hm hd]
        exact ⟨by simp, complete_settle_keeps s f, .inr ⟨_, rfl⟩⟩
      | false =>
        rw [onCompletion_run s _ _ f hf hm hd]
        have hk := (answerHost_keeps (s.complete f) true (if f.req.op.isRead then some (s.delivered f).data else none)).trans
          (settle_keeps _)
        exact ⟨by simp, {
          memory := fun h => hk.memory (by
            show (s.complete f).memory.wf = true
            rw [complete_memory]
            exact Memory.wf_after _ _ h)
          queue := fun h => hk.queue (by simpa [queueBounded] using h)
          counts := fun h => hk.counts (by
            rw [complete_mp]
            exact h)
          cache := fun h => hk.cache (by simpa using h)
          walk := fun h => hk.walk (by simpa using h)
          journal := fun h => hk.journal (by simpa using h)
          direct := fun h => settle_directServed _ (answerCarried_directPending s _ h) }, .inr ⟨_, rfl⟩⟩

theorem takeRequest_stepped : s.Stepped s.takeRequest := by
  unfold takeRequest
  split
  · split
    · exact .of_settle (by simp) (ctTake_keeps s _ _)
    · exact .refl s
  · exact .refl s

theorem grantWaiting_stepped : s.Stepped s.grantWaiting := by
  unfold grantWaiting
  split
  · split
    · split
      next hfree =>
        exact .of_settle (by simp) ((setJc_slots_keeps s _).trans ((grantEntry_keeps _ _ _ (by exact hfree)).trans
          (place_keeps _ _ _)))
      · exact .refl s
    · exact .refl s
  · exact .refl s

theorem grantDrawnSlot_keeps (h : s.jc.drawnCount < 6) : s.Keeps s.grantDrawnSlot := by
  have hclear : s.Keeps (s.setJc { s.jc with drawn := none }) := setJc_slots_keeps s _
  unfold grantDrawnSlot
  split
  · exact hclear.trans ((openDrawn_keeps _ _ (by exact h)).trans (stageEntry_keeps _ _ _))
  · exact .refl s

theorem grantSlot_stepped : s.Stepped s.grantSlot := by
  unfold grantSlot
  split
  next h =>
    rw [Bool.and_eq_true, decide_eq_true_eq] at h
    exact .of_settle (by simp) (grantDrawnSlot_keeps s h.2)
  · split
    · split
      next h => exact .of_settle (by simp) (openReelBatch_keeps s _ h)
      · exact .refl s
    · exact .refl s

/-- A header met after a stop is of the completion that follows. -/
theorem headerCompletion_stepped :
    s.Stepped (s.meetHeader.onCompletion (fun o => o == .header) (fun d _ t => t.headerDone d)) := by
  have h := onCompletion_stepped s.meetHeader (fun o => o == .header) (fun d _ t => t.headerDone d) rfl (by simp)
    (fun d _ t _ => headerDone_keeps t d)
  refine ⟨h.pending.trans (by simp), (meetHeader_keeps s).toKeepsInvariants.trans h.keeps, ?_⟩
  rcases h.ended with he | hu
  · unfold meetHeader at he ⊢
    split at he
    next f a hf _ =>
      split at he
      next hc =>
        right
        rw [if_pos hc]
        exact ⟨_, onCompletion_discard _ _ _ f (by simpa using hf) (by simp [hc.1]) hc.2.1⟩
      next hc =>
        left
        rw [if_neg hc]
        exact he
    · exact .inl he
  · exact .inr hu

end
end Sys2Proof.Machine.State
end

