-- ==== Sys2Proof/Proofs/Invariants.lean ====
section
set_option Elab.async false
/-!
PROOF. What every command does, command by command, and from it the statements about every step: that it has a next state, and the
invariants.
-/
namespace Sys2Proof.Machine.State

/-- Every command has a next state, which it reaches as `Stepped` says. -/
theorem exec_stepped (c : Instr) (s : State) : ∃ t, exec c s = .next t ∧ s.Stepped t := by
  cases c with
  | resetAsserted =>
    by_cases hp : s.spc.part = .bypass
    · exact ⟨s, if_pos hp, .refl s⟩
    · exact ⟨_, if_neg hp, assertReset_stepped s⟩
  | resetReleased =>
    by_cases hp : s.spc.part = .bypass
    · exact ⟨_, if_pos hp, .of_settle (by simp) (releaseReset_keeps s)⟩
    · exact ⟨s, if_neg hp, .refl s⟩
  | rootReadCompletion =>
    exact ⟨_, rfl, onCompletion_stepped s _ _ rfl (by simp)
      (fun d f t ht => rootReadDone_keeps t d f.req.word (noDirect_of_free ht))⟩
  | startResultWriteCompletion =>
    exact ⟨_, rfl, onCompletion_keeps s _ _ rfl (by simp) (fun _ _ t ht => startResultDone_keeps t _ ht)⟩
  | profileReadCompletion =>
    exact ⟨_, rfl, onCompletion_stepped s _ _ rfl (by simp) (fun d _ t _ => profileReadDone_keeps t d)⟩
  | blankingWriteCompletion =>
    exact ⟨_, rfl, onCompletion_stepped s _ _ rfl (by simp) (fun _ _ t _ => blankingDone_keeps t)⟩
  | transferArrival t =>
    by_cases hw : s.up.waiting.isSome = true
    · exact ⟨s, if_pos hw, .refl s⟩
    · exact ⟨_, if_neg hw, by simp, (clearAnswer_keeps s).toKeepsInvariants.trans (arriveIn_settle_keeps _ t), .inr ⟨_, rfl⟩⟩
  | holdTimerExpiry =>
    show ∃ t, execHoldTimerExpiry s = .next t ∧ s.Stepped t
    unfold execHoldTimerExpiry
    split
    · exact ⟨_, rfl, .of_settle (by simp) (expireHold_keeps s _)⟩
    · exact ⟨s, rfl, .refl s⟩
  | passiveTransferCompletion =>
    exact ⟨_, rfl, onCompletion_stepped s _ _ rfl (by simp) (fun d f t ht => passiveDone_keeps t f d ht)⟩
  | directTransferCompletion => exact ⟨_, rfl, directCompletion_stepped s⟩
  | memoryGrant =>
    show ∃ t, execMemoryGrant s = .next t ∧ s.Stepped t
    unfold execMemoryGrant
    split
    · exact ⟨_, rfl, .of_settle (by simp) (grant_keeps s)⟩
    · exact ⟨s, rfl, .refl s⟩
  | plainWriteTaken => exact ⟨_, rfl, takeIf_stepped s _ _ (by simp) (fun t u => takePlainWrite_keeps u t)⟩
  | plainWriteCompletion =>
    by_cases ha : s.headAction.isSome = true
    · exact ⟨s, if_pos ha, .refl s⟩
    · exact ⟨_, if_neg ha, onCompletion_stepped s _ _ rfl (by simp) (fun _ _ t _ => headLeaves_keeps t)⟩
  | sealWord => exact ⟨_, rfl, controlDone_stepped s _ _ (by simp) (fun t x _ => actSeal_keeps t x)⟩
  | takeover =>
    exact ⟨_, rfl, controlDone_stepped s _ _ (by simp)
      (fun t x _ => (cancelStandby_keeps t).trans ((sealDrawn_keeps _ x).trans (reelStop_keeps _)))⟩
  | reportWord =>
    exact ⟨_, rfl, controlDone_stepped s _ _ (by simp) (fun t _ _ => (setRu_keeps t _).trans (snapshot_keeps _))⟩
  | acknowledgeWord =>
    exact ⟨_, rfl, controlDone_stepped s _ _ (by simp) (fun t _ _ => (setRu_keeps t _).trans (snapshot_keeps _))⟩
  | standbyWord => exact ⟨_, rfl, controlDone_stepped s _ _ (by simp) (fun t _ ht => actStandby_keeps t ht)⟩
  | profileReloadWord => exact ⟨_, rfl, controlDone_stepped s _ _ (by simp) (fun t x _ => actReload_keeps t x)⟩
  | reelStopWord => exact ⟨_, rfl, controlDone_stepped s _ _ (by simp) (fun t _ _ => reelStop_keeps t)⟩
  | restartWord =>
    exact ⟨_, rfl, controlDone_stepped s _ _ (by simp) (fun t _ ht => actRestart_keeps t (noDirect_of_free ht))⟩
  | playWord => exact ⟨_, rfl, controlDone_stepped s _ _ (by simp) (fun t x _ => actPlay_keeps t x)⟩
  | cueLineEdge line =>
    by_cases hw : s.rp.watching = true
    · exact ⟨_, if_pos hw, .of_settle (by simp) (cueOnLine_keeps s line)⟩
    · exact ⟨s, if_neg hw, .refl s⟩
  | canvasWriteTaken => exact ⟨_, rfl, takeIf_stepped s _ _ (by simp) (fun t u => takeCanvasWrite_keeps u t)⟩
  | canvasReadTaken => exact ⟨_, rfl, takeIf_stepped s _ _ (by simp) (fun t u => takeCanvasRead_keeps u t)⟩
  | plainReadTaken => exact ⟨_, rfl, takeIf_stepped s _ _ (by simp) (fun t u => takePlainRead_keeps u t)⟩
  | plainReadCompletion =>
    exact ⟨_, rfl, onCompletion_stepped s _ _ rfl (by simp) (fun d _ t _ => plainReadDone_keeps t d)⟩
  | ctRequestTaken => exact ⟨_, rfl, takeRequest_stepped s⟩
  | directoryReadCompletion =>
    exact ⟨_, rfl, onCompletion_stepped s _ _ rfl (fun _ _ _ => walkOn_pending _ _ (by simp))
      (fun d _ t _ => walkOn_keeps t _ (fun u q k h => walkReadDone_keeps u q k d h))⟩
  | segmentReadCompletion =>
    exact ⟨_, rfl, onCompletion_stepped s _ _ rfl (fun _ _ _ => walkOn_pending _ _ (by simp))
      (fun d _ t _ => walkOn_keeps t _ (fun u q k h => walkReadDone_keeps u q k d h))⟩
  | flagWordWriteCompletion =>
    exact ⟨_, rfl, onCompletion_stepped s _ _ rfl (fun _ _ _ => walkOn_pending _ _ (by simp))
      (fun _ _ t _ => walkOn_keeps t _ (fun u q k h => walkFlagDone_keeps u q k h))⟩
  | hitWriteBackCompletion =>
    exact ⟨_, rfl, onCompletion_stepped s _ _ rfl (by simp) (fun _ _ t _ => hitDone_keeps t)⟩
  | entryGrant => exact ⟨_, rfl, grantWaiting_stepped s⟩
  | slotGrant => exact ⟨_, rfl, grantSlot_stepped s⟩
  | baseReadCompletion =>
    exact ⟨_, rfl, onCompletion_stepped s _ _ rfl (by simp) (fun d f t _ => baseDone_keeps t _ d f.req.word)⟩
  | canvasReadMemoryCompletion =>
    exact ⟨_, rfl, onCompletion_stepped s _ _ rfl (by simp) (fun d _ t _ => readBackDone_keeps t d)⟩
  | batchTaken =>
    by_cases hc : s.canTake = true
    · exact ⟨_, if_pos hc, .of_settle (by simp) (takeBatch_keeps s)⟩
    · exact ⟨s, if_neg hc, .refl s⟩
  | measureEnd =>
    by_cases hm : s.re.state = .measure
    · exact ⟨_, if_pos hm, .of_settle (by simp) (endMeasure_keeps s)⟩
    · exact ⟨s, if_neg hm, .refl s⟩
  | firstPassWriteCompletion =>
    exact ⟨_, rfl, onCompletion_stepped s _ _ rfl (by simp) (fun _ _ t _ => firstPassDone_keeps t)⟩
  | secondPassWriteCompletion =>
    exact ⟨_, rfl, onCompletion_stepped s _ _ rfl (by simp) (fun _ _ t _ => secondPassDone_keeps t)⟩
  | frameMark =>
    by_cases hw : s.mm.watching = true
    · exact ⟨_, if_pos hw, .of_settle (by simp) (frameMark_keeps s)⟩
    · exact ⟨s, if_neg hw, .refl s⟩
  | lossWindowExpiry =>
    by_cases hl : s.mm.lossTimer.isSome = true
    · exact ⟨_, if_pos hl, .of_settle (by simp) (lossExpiry_keeps s)⟩
    · exact ⟨s, if_neg hl, .refl s⟩
  | paceTimerExpiry =>
    by_cases hl : s.mm.paceTimer.isSome = true
    · exact ⟨_, if_pos hl, .of_settle (by simp) (paceExpiry_keeps s)⟩
    · exact ⟨s, if_neg hl, .refl s⟩
  | headerReadCompletion => exact ⟨_, rfl, headerCompletion_stepped s⟩
  | updatePairReadCompletion =>
    exact ⟨_, rfl, onCompletion_stepped s _ _ rfl (by simp) (fun d _ t _ => pairReadDone_keeps t d)⟩
  | statusWriteCompletion =>
    exact ⟨_, rfl, onCompletion_stepped s _ _ rfl (by simp) (fun _ _ t _ => statusDone_keeps t)⟩

theorem setPending_keeps (s : State) (l : List Instr) : s.Keeps (s.setPending l) := .of_frame

/-- A step keeps the invariants of `Keeps`, and leaves the part idle on an empty queue or ends as every command does. -/
theorem step_stepped {s t : State} (h : step s = .next t) : s.KeepsInvariants t ∧ (t = s ∨ ∃ l, (s.setPending l).Stepped t) := by
  unfold step at h
  split at h
  next c l _ =>
    obtain ⟨u, hu, hk⟩ := exec_stepped c (s.setPending l)
    rw [hu] at h
    cases h
    exact ⟨(setPending_keeps s l).toKeepsInvariants.trans hk.keeps, .inr ⟨l, hk⟩⟩
  next =>
    cases h
    exact ⟨(Keeps.refl s).toKeepsInvariants, .inl rfl⟩

/-- An invariant that settling brings about, and that does not read the waiting commands, holds after every step. -/
theorem step_settles {P : State → Prop} (hsettle : ∀ u : State, P u.settle) (hpending : ∀ (u : State) l, P u → P (u.setPending l))
    {s t : State} (hs : P s) (h : step s = .next t) : P t := by
  obtain ⟨_, rfl | ⟨l, hk⟩⟩ := step_stepped h
  · exact hs
  · obtain rfl | ⟨u, rfl⟩ := hk.ended
    · exact hpending s l hs
    · exact hsettle u

end Sys2Proof.Machine.State

namespace Sys2Proof.Proofs
open Sys2Proof.Machine

/-- Settles O1, which is the definition of a step on a queue that is not empty. -/
theorem stepRunsFrontCommand : Obligations.StepRunsFrontCommand :=
  fun _ _ _ => rfl

/-- Settles O2, by what every command does. -/
theorem everyCommandHasNextState : Obligations.EveryCommandHasNextState := by
  refine ⟨fun c s => ?_, fun s hs => by simp [step, hs]⟩
  obtain ⟨t, ht, hk⟩ := State.exec_stepped c s
  exact ⟨t, ht, hk.pending⟩

/-- Settles O3: only completed transfers write, and a write keeps the canonical form. -/
theorem memoryStaysCanonical : Obligations.MemoryStaysCanonical :=
  fun _ _ hs h => (State.step_stepped h).1.memory hs

/-- Settles O4: a transfer joins the queue below 16, or where the head has left. -/
theorem queueHoldsAtMostSixteen : Obligations.QueueHoldsAtMostSixteen :=
  fun _ _ hs h => (State.step_stepped h).1.queue hs

/-- Settles O5: a grant raises a count up to 8, and a request begins at 0. -/
theorem passedOverCountsStayWithinEight : Obligations.PassedOverCountsStayWithinEight :=
  fun _ _ hs h => (State.step_stepped h).1.counts hs

/-- Settles O6: an entry enters the cache at its front alone, where its key and the 17th leave; a walk begins for the request
taken, and ends with it. -/
theorem cacheStaysBoundedAndKeyed : Obligations.CacheStaysBoundedAndKeyed :=
  ⟨fun _ _ hs h => (State.step_stepped h).1.cache hs, fun _ _ hs h => (State.step_stepped h).1.walk hs⟩

/-- Settles O7: an entry is granted while one is free, and a batch opened while its origin has a slot. -/
theorem journalStaysWithinItsPool : Obligations.JournalStaysWithinItsPool :=
  fun _ _ hs h => (State.step_stepped h).1.journal hs

/-- Settles O8: settling ends with the beginning of a due record. -/
theorem dueRecordsAreBegunByEveryStep : Obligations.DueRecordsAreBegunByEveryStep :=
  fun _ _ hs h => State.step_settles (P := State.recordsBegun) State.settle_recordsBegun (fun _ _ hu => hu) hs h

/-- Settles O9: the operations keep the direct path served, and settling serves PASSIVE. -/
theorem settlingLeavesNothingWaiting : Obligations.SettlingLeavesNothingWaiting :=
  fun _ _ hs h => ⟨(State.step_stepped h).1.direct hs.1,
    State.step_settles (P := State.passiveServed) State.settle_passiveServed (fun _ _ hu => hu) hs.2 h⟩

/-- Settles O10, by the reset values. -/
theorem invariantsHoldAtReset : Obligations.InvariantsHoldAtReset := by
  have hpart : State.reset.spc.part ≠ .passive := by decide
  have hdirect : State.reset.directServed := ⟨fun _ => ⟨rfl, by simp [State.reset, Mp.reset]⟩, by simp [State.reset, Up.reset]⟩
  exact ⟨by decide, by decide, by decide, ⟨by decide, .nil⟩, by decide, by decide, fun _ => .inl rfl,
    hdirect, fun hp => absurd hp hpart⟩

end Sys2Proof.Proofs
end

