-- ==== Sys2Proof/Proofs/Completions.lean ====
section
set_option Elab.async false
/-!
SUPPORT. Completions and other commands as statements about their next state use them: the effect on the state with the completion
made, and the side conditions under which settling comes to the end of the step alone.
-/
namespace Sys2Proof.Machine.State

/-- Where a state agrees with a settled one on what PASSIVE reads, PASSIVE is served. -/
theorem passiveServed_of_same {s x : State} (hs : s.passiveServed) (hpart : x.spc.part = s.spc.part) (haq : x.aq = s.aq)
    (hup : x.up = s.up) : x.passiveServed := by
  unfold passiveServed
  rw [hpart, haq, hup]
  exact hs

theorem passiveServed_of_ne {x : State} (hpart : x.spc.part ≠ .passive) : x.passiveServed :=
  fun hp => absurd hp hpart

/-- A settled state settles to the end of its step. -/
theorem settle_of_settled {s : State} (hs : s.settled) : s.settle = s.endStep :=
  settle_of_served s (directServed_flying s hs.1) hs.2

/-- A read of the part's own completes, with an effect that leaves the bus, the queue and the part state. -/
theorem readCompletion {s x : State} {f : InFlight} {o : Owner} {mine : Owner → Bool} {k : Delivered → InFlight → State → State}
    (hs : s.settled) (h : s.inFlightFor f o) (ho : o ≠ .direct) (hm : mine o = true) (hop : f.req.op = .read)
    (hk : k { data := s.dataOf f, error := s.readError f } f { s with mp := s.mp.freed, ru := s.ruAfterRead f } = x)
    (hup : x.up = s.up) (hp : x.passiveServed) : s.onCompletion mine k = x.endStep :=
  onCompletion_finds hs h ho hm (by rw [delivered_of_read s f hop, complete_of_read s f hop]; exact hk)
    (fun _ hw _ => hup ▸ hw) hp

/-- A read completes, with an effect that leaves the bus, the queue and the part state. -/
theorem readCompletion_apart {s x : State} {f : InFlight} {o : Owner} {mine : Owner → Bool}
    {k : Delivered → InFlight → State → State} (hs : s.settled) (h : s.inFlightFor f o) (ho : o ≠ .direct)
    (hm : mine o = true) (hop : f.req.op = .read)
    (hk : k { data := s.dataOf f, error := s.readError f } f { s with mp := s.mp.freed, ru := s.ruAfterRead f } = x)
    (hup : x.up = s.up := by rfl) (haq : x.aq = s.aq := by rfl) (hpart : x.spc.part = s.spc.part := by rfl) :
    s.onCompletion mine k = x.endStep :=
  readCompletion hs h ho hm hop hk hup (passiveServed_of_same hs.2 hpart haq hup)

/-- A write completes, with an effect that brings no transfer to the direct path. -/
theorem writeCompletion {s x : State} {f : InFlight} {o : Owner} {mine : Owner → Bool} {k : Delivered → InFlight → State → State}
    (hs : s.settled) (h : s.inFlightFor f o) (ho : o ≠ .direct) (hm : mine o = true) (hop : f.req.op ≠ .read)
    (hk : k (s.delivered f) f { s with mp := s.mp.freed, memory := s.memory.after f, pu := s.pu.after f } = x)
    (hup : x.up = s.up) (hp : x.passiveServed) : s.onCompletion mine k = x.endStep :=
  onCompletion_finds hs h ho hm (by rw [complete_of_write s f hop]; exact hk) (fun _ hw _ => hup ▸ hw) hp

/-- A write completes, with an effect that leaves the bus, the queue and the part state. -/
theorem writeCompletion_apart {s x : State} {f : InFlight} {o : Owner} {mine : Owner → Bool}
    {k : Delivered → InFlight → State → State} (hs : s.settled) (h : s.inFlightFor f o) (ho : o ≠ .direct)
    (hm : mine o = true) (hop : f.req.op ≠ .read)
    (hk : k (s.delivered f) f { s with mp := s.mp.freed, memory := s.memory.after f, pu := s.pu.after f } = x)
    (hup : x.up = s.up := by rfl) (haq : x.aq = s.aq := by rfl) (hpart : x.spc.part = s.spc.part := by rfl) :
    s.onCompletion mine k = x.endStep :=
  writeCompletion hs h ho hm hop hk hup (passiveServed_of_same hs.2 hpart haq hup)

/-- A completion whose effect keeps the invariants, where the part is not PASSIVE. -/
theorem completion_of_keeps {s x : State} {f : InFlight} {o : Owner} {mine : Owner → Bool}
    {k : Delivered → InFlight → State → State} (hs : s.settled) (h : s.inFlightFor f o) (ho : o ≠ .direct)
    (hm : mine o = true) (hpart : s.spc.part ≠ .passive) (hk : k (s.delivered f) f (s.complete f) = x)
    (hkeeps : (s.complete f).Keeps x) : s.onCompletion mine k = x.endStep := by
  obtain ⟨hflight, howner, hdiscard⟩ := h
  have hc : ¬f.carried := by
    rintro (hd | hd)
    · simp [hdiscard] at hd
    · exact ho (howner ▸ hd)
  have hall := (complete_keeps s f hflight hc).trans hkeeps
  rw [onCompletion_run s mine k f hflight (by rw [howner]; exact hm) hdiscard, hk]
  exact settle_of_served x (directServed_flying x (hall.direct hs.1)) (passiveServed_of_ne (hall.awake hpart))

/-- A command whose effect keeps the invariants, where the part is not PASSIVE. -/
theorem settle_of_keeps {s x : State} (hs : s.settled) (hpart : s.spc.part ≠ .passive) (hkeeps : s.Keeps x) :
    x.settle = x.endStep :=
  settle_of_served x (directServed_flying x (hkeeps.direct hs.1)) (passiveServed_of_ne (hkeeps.awake hpart))

/-- A command that leaves the bus, the queue, the part state and the transfer in flight. -/
theorem settle_apart {s x : State} (hs : s.settled) (hup : x.up = s.up := by rfl) (haq : x.aq = s.aq := by rfl)
    (hflight : x.mp.inFlight = s.mp.inFlight := by rfl) (hpart : x.spc.part = s.spc.part := by rfl) : x.settle = x.endStep :=
  settle_of_served x (by rw [hup, hflight]; exact directServed_flying s hs.1) (passiveServed_of_same hs.2 hpart haq hup)

end Sys2Proof.Machine.State
end

