-- ==== Sys2Proof/Proofs/Reset.lean ====
section
set_option Elab.async false
/-!
PROOF. The assertion and the release of reset (R180, R190, R194).
-/
namespace Sys2Proof.Machine.State

/-! ### The assertion -/

/-- With no status area and no completion, the end of a step changes nothing. -/
theorem endStep_of_idle {s : State} (hbase : s.ru.base = none) (hcompleting : s.mp.completing = false) : s.endStep = s := by
  have hb : s.beginDueRecord = s := by
    unfold beginDueRecord
    split
    next h => simp [hbase] at h
    · rfl
  have hc : (s.mp.completing && (!s.mp.held.isEmpty || s.followsUp)) = s.mp.completing := by
    rw [hcompleting, Bool.false_and]
  unfold endStep
  dsimp only
  rw [hb, hc]
  rfl

/-- After the assertion of reset settling starts a transfer of the direct path, and does nothing else. -/
theorem resetAsserted_eq {s : State} (hp : s.spc.part ≠ .bypass) :
    exec .resetAsserted s = .next s.assertReset.startDirect := by
  show execResetAsserted s = _
  unfold execResetAsserted
  rw [if_neg hp]
  have hserve : s.assertReset.startDirect.servePassive = s.assertReset.startDirect :=
    servePassive_of_ne _ (by simp [assertReset, State.reset, Spc.reset])
  have hcompleting : s.assertReset.startDirect.mp.completing = false := by
    unfold startDirect
    split
    · split <;> rfl
    · rfl
  unfold settle
  rw [hserve, endStep_of_idle (by simp [assertReset, State.reset, Ru.reset]) hcompleting]

theorem assertReset_flying (s : State) :
    s.assertReset.mp.inFlight = s.mp.inFlight.map (fun f => f.atReset (Config.partialWriteOnBus s.freeCount)) := rfl

theorem assertReset_free {s : State} (h : s.mp.inFlight = none) : s.assertReset.freeCount = s.freeCount := by
  simp [assertReset, asksFreeValue, h]

/-- The count of free values rises where the transfer in flight asks for one. -/
theorem assertReset_count {s : State} {f : InFlight} (h : s.mp.inFlight = some f) :
    s.assertReset.freeCount = if f.asksHalf then s.freeCount + 1 else s.freeCount := by
  simp [assertReset, asksFreeValue, h]

/-- A transfer in flight keeps the direct path waiting. -/
theorem startDirect_of_flying {s : State} {f : InFlight} (h : s.mp.inFlight = some f) : s.startDirect = s :=
  startDirect_id s (fun _ _ _ => by simp [h])

theorem assertReset_startDirect_of_flying {s : State} {f : InFlight} (h : s.mp.inFlight = some f) :
    s.assertReset.startDirect = s.assertReset :=
  startDirect_of_flying (f := f.atReset (Config.partialWriteOnBus s.freeCount)) (by simp [assertReset_flying, h])

theorem asksHalf_iff (f : InFlight) :
    f.asksHalf = true ↔ f.req.owner ≠ .direct ∧ (∃ be x, f.req.op = .write be x ∧ be ≠ fullWord) ∧ f.half = .read := by
  unfold InFlight.asksHalf
  cases hop : f.req.op <;> simp [MemOp.isPartial, and_assoc]

theorem atReset_of_direct {f : InFlight} (w : Bool) (h : f.req.owner = .direct) : f.atReset w = f := if_pos h

theorem atReset_of_settledHalf {f : InFlight} (w : Bool) (ho : f.req.owner ≠ .direct) (h : f.asksHalf = false) :
    f.atReset w = { f with check := false, discard := true } := by
  simp [InFlight.atReset, ho, h]

theorem atReset_of_asksHalf {f : InFlight} (w : Bool) (ho : f.req.owner ≠ .direct) (h : f.asksHalf = true) :
    f.atReset w = if w then { f with check := false, discard := true, half := .write }
      else { f with req := { f.req with op := .read }, check := false, discard := true } := by
  simp [InFlight.atReset, ho, h]

theorem upAtReset_of_none {s : State} (h : s.up.waiting = none) : s.upAtReset = { Up.reset with answer := s.up.answer } := by
  simp [upAtReset, h]

theorem upAtReset_of_some {s : State} {w : Waiting} (h : s.up.waiting = some w) :
    s.upAtReset = { Up.reset with waiting := some { xfer := w.xfer, place := .direct } } := by
  simp [upAtReset, h]

theorem assertReset_up (s : State) : s.assertReset.up = s.upAtReset := rfl

/-- Whatever the direct path starts, the rest is as reset leaves it. -/
theorem assertReset_startDirect_frame (s : State) : s.assertReset.startDirect = { State.reset with
    pending := s.pending, memory := s.memory, freeCount := s.assertReset.startDirect.freeCount
    up := s.assertReset.startDirect.up
    mp := { Mp.reset with inFlight := s.assertReset.startDirect.mp.inFlight } } := by
  unfold startDirect
  split
  · split <;> rfl
  · rfl

end Sys2Proof.Machine.State

namespace Sys2Proof.Proofs
open Sys2Proof.Machine Sys2Proof.Machine.State

/-- Settles O11: the next state is that of `resetAsserted_eq`; the transfer in flight and the strobe held decide what the direct
path starts. -/
theorem resetAssertedClearsThePart : Obligations.ResetAssertedClearsThePart := by
  refine ⟨fun s hp => if_pos hp, fun s hp => ⟨_, resetAsserted_eq hp, assertReset_startDirect_frame s, ?free, ?direct,
    ?settledHalf, ?asksHalf, ?noStrobe, ?plainStrobe, ?otherStrobe⟩⟩
  case free =>
    intro hfree
    have hnone : s.assertReset.mp.inFlight = none := by simp [assertReset_flying, hfree]
    refine ⟨by simp [assertReset_free hfree], fun hw => ?_⟩
    cases h : s.up.waiting with
    | none =>
      rw [startDirect_id _ (by simp [assertReset_up, upAtReset_of_none h, Up.reset])]
      exact hnone
    | some w =>
      rw [startDirect_other _ w.xfer hnone (by simp [assertReset_up, upAtReset_of_some h]) (hw w h)]
      exact hnone
  case direct =>
    intro f hf ho
    have hhalf : f.asksHalf = false := by simp [InFlight.asksHalf, ho]
    rw [assertReset_startDirect_of_flying hf, assertReset_flying, assertReset_count hf, hf, hhalf]
    exact ⟨congrArg some (atReset_of_direct _ ho), rfl⟩
  case settledHalf =>
    intro f hf ho hhalf
    have hhalf : f.asksHalf = false := by
      rw [Bool.eq_false_iff, ne_eq, asksHalf_iff]
      rintro ⟨_, ⟨be, x, hop, hbe⟩, hr⟩
      rcases hhalf with h | ⟨y, h⟩ | h
      · simp [hop] at h
      · simp [hop] at h
        exact hbe h.1
      · simp [hr] at h
    rw [assertReset_startDirect_of_flying hf, assertReset_flying, assertReset_count hf, hf, hhalf]
    exact ⟨congrArg some (atReset_of_settledHalf _ ho hhalf), rfl⟩
  case asksHalf =>
    intro f be x hf ho hop hbe hr
    have hhalf : f.asksHalf = true := (asksHalf_iff f).mpr ⟨ho, ⟨be, x, hop, hbe⟩, hr⟩
    rw [assertReset_startDirect_of_flying hf, assertReset_flying, assertReset_count hf, hf, hhalf]
    exact ⟨rfl, congrArg some (atReset_of_asksHalf _ ho hhalf)⟩
  case noStrobe =>
    intro hw
    rw [startDirect_id _ (by simp [assertReset_up, upAtReset_of_none hw, Up.reset]), assertReset_up, upAtReset_of_none hw]
  case plainStrobe =>
    intro w hw hplain
    have hup : s.assertReset.up = { Up.reset with waiting := some { xfer := w.xfer, place := .direct } } := upAtReset_of_some hw
    cases hf : s.mp.inFlight with
    | none =>
      rw [startDirect_plain _ w.xfer (by simp [assertReset_flying, hf]) (by simp [hup]) hplain]
      exact ⟨hup, fun _ => rfl⟩
    | some f =>
      rw [assertReset_startDirect_of_flying hf]
      exact ⟨hup, fun h => by simp at h⟩
  case otherStrobe =>
    intro w hw hother
    have hup : s.assertReset.up = { Up.reset with waiting := some { xfer := w.xfer, place := .direct } } := upAtReset_of_some hw
    refine ⟨fun hf => ?_, fun hf => ?_⟩
    · rw [startDirect_other _ w.xfer (by simp [assertReset_flying, hf]) (by simp [hup]) hother, hup]
      rfl
    · obtain ⟨f, hf⟩ := Option.ne_none_iff_exists'.mp hf
      rw [assertReset_startDirect_of_flying hf]
      exact hup

/-- Settles O12: the release is taken in BYPASS, and what waits for the direct path there waits on. -/
theorem resetReleasedStartsReadRoot : Obligations.ResetReleasedStartsReadRoot := by
  refine ⟨fun s hp => if_neg hp, fun s hp hs => (if_pos hp).trans ?_⟩
  exact next_settle_apart hs rfl rfl rfl (.inl (by simp)) rfl

end Sys2Proof.Proofs
end

