-- ==== Sys2Proof/Proofs/Root.lean ====
section
set_option Elab.async false
/-!
PROOF. The root read (R195 to R197): the next word, the failures, and a root found valid (R153, R214, R215).
-/
namespace Sys2Proof.Machine

/-! ### Fields of a word -/

theorem bits_eq_field (x : Word) (hi lo : Nat) : bits x hi lo = field x hi lo := by
  simp [bits, field, Nat.shiftRight_eq_div_pow]

/-- A base with its two lowest bits disregarded is four times the bits above them. -/
theorem baseField_eq (x : Word) : baseField x = 4 * field x 23 2 := by
  unfold baseField
  rw [← bits_eq_field]
  unfold bits
  omega

theorem oneIfZero_eq (n : Nat) : oneIfZero n = max 1 n := by
  unfold oneIfZero
  split <;> omega

/-! ### The checks of a root -/

/-- The boundaries of a table rise where each row is at most the next. -/
theorem boundsPass_iff (b : Vector Nat 7) (slotCount : Nat) :
    boundsPass b slotCount = true ↔ (∀ i : Fin 7, ∀ k : Fin 7, k.val = i.val + 1 → tget b i ≤ tget b k)
      ∧ tget b 6 ≤ slotCount := by
  simp only [boundsPass, Bool.and_eq_true, decide_eq_true_eq]
  constructor
  · rintro ⟨⟨⟨⟨⟨⟨h0, h1⟩, h2⟩, h3⟩, h4⟩, h5⟩, h6⟩
    refine ⟨fun i k hk => ?_, h6⟩
    obtain ⟨k, hlt⟩ := k
    obtain rfl : k = i.val + 1 := hk
    obtain rfl | rfl | rfl | rfl | rfl | rfl : i = 0 ∨ i = 1 ∨ i = 2 ∨ i = 3 ∨ i = 4 ∨ i = 5 := by omega
    exacts [h0, h1, h2, h3, h4, h5]
  · rintro ⟨h, h6⟩
    exact ⟨⟨⟨⟨⟨⟨h 0 1 rfl, h 1 2 rfl⟩, h 2 3 rfl⟩, h 3 4 rfl⟩, h 4 5 rfl⟩, h 5 6 rfl⟩, h6⟩

theorem Root.failure_eq (r : Root) : r.failure =
    if r.marker ≠ 0x1C5A then some 1
    else if ¬(64 ≤ r.slotCount ∧ r.slotCount ≤ 4096 ∧ r.slotCount % 64 = 0) then some 2
    else if ¬(r.area 0 ∧ r.area 1 ∧ r.area 2 ∧ r.apart 0 1 ∧ r.apart 0 2 ∧ r.apart 1 2) then some 3
    else if ¬((∀ i : Fin 7, ∀ k : Fin 7, k.val = i.val + 1 → tget r.bounds i ≤ tget r.bounds k)
        ∧ tget r.bounds 6 ≤ r.slotCount) then some 4
    else none := by
  unfold Root.failure
  simp only [boundsPass_iff, Span.placed, Span.apart, Bool.and_eq_true, Bool.or_eq_true, decide_eq_true_eq]
  rfl

theorem Root.slotCount_pos {r : Root} (h : r.failure = none) : 0 < r.slotCount := by
  rw [r.failure_eq] at h
  by_contra hzero
  have hcount : ¬(64 ≤ r.slotCount ∧ r.slotCount ≤ 4096 ∧ r.slotCount % 64 = 0) := by omega
  rw [if_pos hcount] at h
  split at h <;> simp at h

/-! ### The next due profile -/

theorem finRange_rising (n : Nat) : (List.finRange n).Pairwise (· < ·) := List.pairwise_lt_finRange n

/-- The due profile of the smallest number. -/
theorem Pu.firstDue_eq_some {u : Pu} {p : Fin 16} (hp : tget u.pending p = true) (hq : ∀ q, q < p → tget u.pending q = false) :
    u.firstDue = some p := by
  unfold Pu.firstDue
  rw [List.find?_eq_some_iff_getElem]
  refine ⟨hp, p.val, by simp, by simp, fun j hj => ?_⟩
  simpa using hq ⟨j, by omega⟩ hj

theorem Pu.firstDue_eq_none {u : Pu} (h : ∀ p, tget u.pending p = false) : u.firstDue = none := by
  simp [Pu.firstDue, h]

theorem Pu.inWindow_iff (u : Pu) (p : Fin 16) : u.inWindow p = true ↔ u.base + 8 * p.val + 4 ≤ 0x7FFFFF := by
  simp [Pu.inWindow, Pu.recordAddr]

namespace State

/-- No profile is due, and none is loaded. -/
theorem puRun_of_none {s : State} (h : ∀ p, tget s.pu.pending p = false) : s.puRun = s := by
  unfold puRun
  rw [Pu.firstDue_eq_none h]
  split
  next h => simp at h
  · rfl

/-- The load of the due profile with the smallest number begins. -/
theorem puRun_of_due {s : State} {p : Fin 16} (hload : s.pu.load = none) (hp : tget s.pu.pending p = true)
    (hq : ∀ q, q < p → tget s.pu.pending q = false) (hwin : s.pu.base + 8 * p.val + 4 ≤ 0x7FFFFF) :
    s.puRun = { s with
      pu := { s.pu with load := some { profile := p, first := none, bad := false, again := false,
                                       asked := s.memory.readWord (wordAt (s.pu.base + 8 * p.val)) } }
      mp := s.mp.asking placeSpc (readOf .profileRead (wordAt (s.pu.base + 8 * p.val))) } := by
  unfold puRun
  rw [hload, Pu.firstDue_eq_some hp hq]
  dsimp only
  rw [if_pos ((s.pu.inWindow_iff p).mpr hwin)]
  rfl

/-- Every due profile's record lies above the plain window where that of the smallest number does. -/
theorem puRun_of_above {s : State} {p : Fin 16} (hload : s.pu.load = none) (hp : tget s.pu.pending p = true)
    (hq : ∀ q, q < p → tget s.pu.pending q = false) (hwin : 0x7FFFFF < s.pu.base + 8 * p.val + 4) :
    s.puRun = { s with pu := s.pu.allVoid } := by
  unfold puRun
  rw [hload, Pu.firstDue_eq_some hp hq]
  dsimp only
  rw [if_neg (by rw [s.pu.inWindow_iff p]; omega)]
  rfl

theorem afterLoads_of_load {s : State} (h : s.pu.load.isSome = true) : s.afterLoads = s := by
  unfold afterLoads
  rw [if_neg]
  rintro ⟨_, hn, _⟩
  simp [Option.isSome_iff_ne_none] at h hn
  exact h hn

theorem afterLoads_of_part {s : State} (h : s.spc.part ≠ .starting .loadProfiles) : s.afterLoads = s :=
  if_neg (fun hp => h hp.1)

/-- With no load left, blanking begins at the first slot of buffer A. -/
theorem afterLoads_of_done {s : State} (hpart : s.spc.part = .starting .loadProfiles) (hload : s.pu.load = none)
    (hdue : ∀ p, tget s.pu.pending p = false) (hslots : 0 < s.re.slotCount) :
    s.afterLoads = { s with
      spc := { s.spc with part := .starting .blanking }
      re := { s.re with state := .blanking, select := .a, hold := 0, blankPos := 0 }
      ll := { s.ll with loads := [], totals := Vector.replicate 8 0 }
      mp := s.mp.asking placeRe (writeOf .blankingWrite (wordAt s.re.bufA) 0) } := by
  unfold afterLoads
  rw [if_pos ⟨hpart, by simp [hload], by simp [Pu.firstDue_eq_none hdue]⟩]
  unfold startBlanking askBlanking blankWord
  simp only [setLl_re, setRe_re, hslots, if_true]
  rfl

/-! ### The root read -/

theorem rootFail_eq (s : State) (code : Nat) (a : Addr) : s.rootFail code a = { s with
    mp := s.mp.asking placeSpc (writeOf (.startResult code) (wordAt 0x9C) (BitVec.ofNat 32 code))
    ru := s.ru.report .startFailed .start a } := rfl

theorem rootReadDone_of_error (s : State) {d : Delivered} (w : WordAddr) (h : d.error = true) :
    s.rootReadDone d w = State.rootFail { s with spc := { s.spc with rootWords := s.spc.rootWords ++ [d.data] } } 5 (byteAddr w) := by
  unfold rootReadDone
  rw [h]
  rfl

theorem rootReadDone_of_more (s : State) {d : Delivered} (w : WordAddr) (h : d.error = false)
    (hn : s.spc.rootWords.length + 1 < 30) :
    s.rootReadDone d w = State.askRoot { s with spc := { s.spc with rootWords := s.spc.rootWords ++ [d.data] } } := by
  unfold rootReadDone
  dsimp only
  rw [if_neg (by simp [h]), if_pos (by simpa using hn)]
  rfl

theorem rootReadDone_of_last (s : State) {d : Delivered} (w : WordAddr) (h : d.error = false)
    (hn : s.spc.rootWords.length = 29) :
    s.rootReadDone d w = State.rootCheck { s with spc := { s.spc with rootWords := s.spc.rootWords ++ [d.data] } } := by
  unfold rootReadDone
  dsimp only
  rw [if_neg (by simp [h]), if_neg (by simp [hn])]
  rfl

theorem rootCheck_of_failure {s : State} {code : Nat} (h : (Root.ofWords s.spc.rootWords).failure = some code) :
    s.rootCheck = s.rootFail code 0x00009C := by
  simp [rootCheck, h]

theorem rootCheck_of_valid {s : State} (h : (Root.ofWords s.spc.rootWords).failure = none) :
    s.rootCheck = ((s.grantFirst (fun _ => true)).takeRoot (Root.ofWords s.spc.rootWords)).loadProfiles := by
  simp [rootCheck, h]

/-- LOAD_PROFILES with the record of profile 0 in the plain window. -/
theorem loadProfiles_of_window {s : State} (hload : s.pu.load = none) (hwin : s.pu.base + 4 ≤ 0x7FFFFF) :
    s.loadProfiles = { s with
      spc := { s.spc with part := .starting .loadProfiles }
      pu := { s.pu with
        pending := Vector.replicate 16 true
        load := some { profile := 0, first := none, bad := false, again := false, asked := s.memory.readWord (wordAt s.pu.base) } }
      mp := s.mp.asking placeSpc (readOf .profileRead (wordAt s.pu.base)) } := by
  unfold loadProfiles
  rw [puRun_of_due (p := 0) (by simpa using hload) (by simp) (fun q hq => absurd hq (by simp)) (by simpa using hwin)]
  rw [afterLoads_of_load rfl]
  rfl

/-- LOAD_PROFILES with the profile table above the plain window: every profile is VOID at once, and blanking begins. -/
theorem loadProfiles_of_above {s : State} (hload : s.pu.load = none) (hwin : 0x7FFFFF < s.pu.base + 4)
    (hslots : 0 < s.re.slotCount) :
    s.loadProfiles = { s with
      spc := { s.spc with part := .starting .blanking }
      pu := { s.pu with
        pending := Vector.replicate 16 false
        store := Vector.ofFn (fun _ => { valid := false, fields := Profile.zero }) }
      re := { s.re with state := .blanking, select := .a, hold := 0, blankPos := 0 }
      ll := { s.ll with loads := [], totals := Vector.replicate 8 0 }
      mp := s.mp.asking placeRe (writeOf .blankingWrite (wordAt s.re.bufA) 0) } := by
  unfold loadProfiles
  rw [puRun_of_above (p := 0) (by simpa using hload) (by simp) (fun q hq => absurd hq (by simp)) (by simpa using hwin)]
  rw [afterLoads_of_done rfl (by simpa [Pu.allVoid] using hload) (by simp [Pu.allVoid]) (by simpa using hslots)]
  simp [Pu.allVoid, setSpc, setPu]

end State
end Sys2Proof.Machine

namespace Sys2Proof.Proofs
open Sys2Proof.Machine Sys2Proof.Machine.State

/-- Settles O13: the error, the count of words and the checks decide what a root read asks. -/
theorem rootReadGoesOnOrFails : Obligations.RootReadGoesOnOrFails := by
  refine ⟨?more, ?parity, ?failed, Root.failure_eq⟩
  case more =>
    intro s f hs hf hop hgood hn
    refine congrArg Host.Outcome.next (readCompletion_apart hs hf (by simp) rfl hop ?_)
    rw [ruAfterRead_of_good s f hgood]
    refine (rootReadDone_of_more _ _ (by exact hgood) (by exact hn)).trans ?_
    simp [askRoot, askRead, ask, setMp, Mp.asking, readOf]
  case parity =>
    intro s f hs hf hop hbad
    refine congrArg Host.Outcome.next (readCompletion_apart hs hf (by simp) rfl hop ?_)
    rw [ruAfterRead_of_bad s f hbad]
    exact rootReadDone_of_error _ _ hbad
  case failed =>
    intro s f code hs hf hop hgood hn hfail
    refine congrArg Host.Outcome.next (readCompletion_apart hs hf (by simp) rfl hop ?_)
    rw [ruAfterRead_of_good s f hgood]
    exact (rootReadDone_of_last _ _ (by exact hgood) (by exact hn)).trans (rootCheck_of_failure (by exact hfail))

/-- Settles O14: a root found valid takes its fields after the grant, and LOAD_PROFILES follows; the fields are the bits of the
words read. -/
theorem rootFoundValidFillsTheBlocks : Obligations.RootFoundValidFillsTheBlocks := by
  refine ⟨?fills, ?fields⟩
  case fills =>
    intro s s0 f r t hs hf hop hgood hn hr hvalid hload hs0 ht
    have htake : t = s0.takeRoot r := by
      subst ht hs0
      simp only [takeRoot, grantFirst_frame]
      rfl
    have hrun : ∀ x : State, t.loadProfiles = x → x.up.waiting = s.up.waiting → x.spc.part ≠ .passive →
        exec .rootReadCompletion s = .next x.endStep := by
      intro x hx hup hpart
      refine congrArg Host.Outcome.next (onCompletion_finds hs hf (by simp) rfl ?_ (fun w hw _ => hup ▸ hw)
        (passiveServed_of_ne hpart))
      rw [delivered_of_read s f hop, complete_of_read s f hop, ruAfterRead_of_good s f hgood, ← hx, htake, hs0, hr]
      exact (rootReadDone_of_last _ _ (by exact hgood) (by exact hn)).trans (rootCheck_of_valid (by exact hr ▸ hvalid))
    have hpu : t.pu = { s.pu with base := r.profileBase } := by rw [ht]
    have hre : t.re.slotCount = r.slotCount := by rw [ht]
    have hmemory : t.memory = s.memory := by
      rw [ht, hs0]
      simp
    have hup : t.up.waiting = s.up.waiting := by rw [ht]
    refine ⟨fun hwin => hrun _ ?_ hup (by simp), fun hwin => hrun _ ?_ hup (by simp)⟩
    · rw [loadProfiles_of_window (by rw [hpu]; exact hload) (by rw [hpu]; exact hwin), hmemory]
      simp only [hpu]
    · rw [loadProfiles_of_above (by rw [hpu]; exact hload) (by rw [hpu]; exact hwin)
        (by rw [hre]; exact Root.slotCount_pos hvalid)]
      simp only [ht]
  case fields =>
    rintro ws w r hw rfl
    simp only [Root.ofWords, ← hw, bits_eq_field, baseField_eq, oneIfZero_eq, true_and]
    refine ⟨rfl, rfl, ?bounds, ?limits, rfl, ?reels⟩
    case bounds =>
      intro i
      fin_cases i <;> rfl
    case limits =>
      intro g
      fin_cases g <;> rfl
    case reels =>
      intro n e x y he hx hy
      have he : e = reelEntry x y := by
        subst he hx hy
        fin_cases n <;> rfl
      subst he
      simp [reelEntry, bits_eq_field, flagBit, and_assoc]

end Sys2Proof.Proofs
end

