-- ==== Sys2Proof/Proofs/Engine.lean ====
section
set_option Elab.async false
/-!
PROOF. The Release Engine up to ARMED: the choice of a batch by seal order (R36), the measure (R38, R67 to R70) and the first pass
(R40, R41).
-/
namespace Sys2Proof.Machine

/-! ### The batch table -/

theorem tset_tset {α : Type} {n : Nat} (v : Vector α n) (i : Fin n) (x y : α) : tset (tset v i x) i y = tset v i y := by
  refine table_ext (fun k => ?_)
  by_cases h : i = k
  · subst h
    simp
  · simp [tget_tset_ne _ _ h]

theorem tset_tget {α : Type} {n : Nat} (v : Vector α n) (i : Fin n) : tset v i (tget v i) = v := by
  refine table_ext (fun k => ?_)
  by_cases h : i = k
  · subst h
    simp
  · simp [tget_tset_ne _ _ h]

theorem Jc.put_put (j : Jc) (i : Fin 8) (x y : Option Batch) : (j.put i x).put i y = j.put i y := by
  simp [Jc.put, tset_tset]

theorem Jc.modify_of_at {j : Jc} {i : Fin 8} {b : Batch} (f : Batch → Batch) (h : j.at i = some b) :
    j.modify i f = j.put i (some (f b)) := by
  simp [Jc.modify, h]

theorem Jc.any_iff (j : Jc) (p : Batch → Bool) : j.any p = true ↔ ∃ i, ∃ b ∈ j.at i, p b = true := by
  simp [Jc.any, mem_slotList, Jc.slotHas_iff]

theorem eligible_iff (rp : Player) (b : Batch) : eligible rp b = true ↔ b.phase = .sealed ∧ (b.isReel = true ∨ rp = .idle) := by
  simp [eligible, Batch.isSealed]

/-- One slot stays the best of a list of slots none of which holds an older batch. -/
theorem Jc.foldl_older_stays {j : Jc} {i : Fin 8} {b : Batch} (hi : j.at i = some b) (l : List (Fin 8))
    (h : ∀ k ∈ l, ∃ c, j.at k = some c ∧ b.order ≤ c.order) : l.foldl j.older (some i) = some i := by
  induction l with
  | nil => rfl
  | cons k l ih =>
    obtain ⟨c, hc, hle⟩ := h k (by simp)
    have hstep : j.older (some i) k = some i := by
      simp only [Jc.older, hc, hi]
      exact if_neg (by omega)
    rw [List.foldl_cons, hstep]
    exact ih (fun k hk => h k (by simp [hk]))

/-- The slot whose batch is older than every other one of a list comes out of it. -/
theorem Jc.foldl_older {j : Jc} {i : Fin 8} {b : Batch} (hi : j.at i = some b) (l : List (Fin 8)) (hmem : i ∈ l)
    (h : ∀ k ∈ l, k ≠ i → ∃ c, j.at k = some c ∧ b.order < c.order) (acc : Option (Fin 8))
    (hacc : ∀ k ∈ acc, k ≠ i → ∃ c, j.at k = some c ∧ b.order < c.order) : l.foldl j.older acc = some i := by
  induction l generalizing acc with
  | nil => simp at hmem
  | cons k l ih =>
    have htail : ∀ m ∈ l, ∃ c, j.at m = some c ∧ b.order ≤ c.order := by
      intro m hm
      by_cases e : m = i
      · exact ⟨b, e ▸ hi, le_rfl⟩
      · obtain ⟨c, hc, hlt⟩ := h m (by simp [hm]) e
        exact ⟨c, hc, hlt.le⟩
    rw [List.foldl_cons]
    by_cases hk : k = i
    · subst hk
      have hstep : j.older acc k = some k := by
        cases acc with
        | none => rfl
        | some m =>
          by_cases e : m = k
          · subst e
            simp [Jc.older, hi]
          · obtain ⟨c, hc, hlt⟩ := hacc m rfl e
            simp [Jc.older, hi, hc, hlt]
      rw [hstep]
      exact Jc.foldl_older_stays hi l htail
    · obtain ⟨c, hc, hlt⟩ := h k (by simp) hk
      refine ih (by simpa [Ne.symm hk] using hmem) (fun m hm => h m (by simp [hm])) _ ?_
      intro m hm hne
      cases acc with
      | none =>
        obtain rfl : k = m := by simpa [Jc.older] using hm
        exact ⟨c, hc, hlt⟩
      | some a =>
        have hor : m = k ∨ m = a := by
          simp only [Jc.older, hc] at hm
          split at hm
          · split at hm
            · exact .inl (by simpa using hm.symm)
            · exact .inr (by simpa using hm.symm)
          · exact .inl (by simpa using hm.symm)
        rcases hor with rfl | rfl
        · exact ⟨c, hc, hlt⟩
        · exact hacc m rfl hne

theorem State.oldest_of_takesNext {s : State} {i : Fin 8} {b : Batch} (h : s.takesNext i b) :
    s.jc.oldest (eligible s.rp.state) = some i := by
  obtain ⟨hi, hsealed, helig, hall⟩ := h
  refine Jc.foldl_older hi _ ?_ ?_ none (by simp)
  · rw [List.mem_filter]
    exact ⟨mem_slotList i, (Jc.slotHas_iff _ _ _).mpr ⟨b, hi, (eligible_iff _ _).mpr ⟨hsealed, helig⟩⟩⟩
  · intro k hk hne
    obtain ⟨c, hc, hp⟩ := (Jc.slotHas_iff _ _ _).mp (List.mem_filter.mp hk).2
    obtain ⟨hcs, hce⟩ := (eligible_iff _ _).mp hp
    exact ⟨c, hc, hall k hne c hc hcs hce⟩

theorem State.eligibleExists_of_takesNext {s : State} {i : Fin 8} {b : Batch} (h : s.takesNext i b) :
    s.eligibleExists = true :=
  (Jc.any_iff _ _).mpr ⟨i, b, h.1, (eligible_iff _ _).mpr ⟨h.2.1, h.2.2.1⟩⟩

theorem State.canTake_iff (s : State) :
    s.canTake = true ↔ s.re.state = .idle ∧ s.spc.part = .running ∧ s.eligibleExists = true := by
  simp [canTake, and_assoc]

/-! ### Loads and levels -/

/-- No colour sum at no level loads a slot with more than 765. -/
theorem Stored.load_le (v : Stored) : v.load ≤ 765 := by
  have h1 := v.c1.isLt
  have h2 := v.c2.isLt
  have h3 := v.c3.isLt
  have h4 := v.level.isLt
  unfold Stored.load
  have hsum : v.c1.toNat + v.c2.toNat + v.c3.toNat ≤ 765 := by omega
  have hprod := Nat.mul_le_mul hsum (show v.level.toNat ≤ 255 by omega)
  omega

theorem Stored.derated_level (v : Stored) (d : Nat) : (v.derated d).level.toNat = v.level.toNat * (8 - d) / 8 := by
  have h := v.level.isLt
  have hle : v.level.toNat * (8 - d) / 8 ≤ v.level.toNat := by
    have := Nat.mul_le_mul_left v.level.toNat (show 8 - d ≤ 8 by omega)
    omega
  simp only [Stored.derated, BitVec.toNat_ofNat]
  exact Nat.mod_eq_of_lt (by omega)

theorem Batch.inGroup_eq (b : Batch) (g : Fin 8) : b.inGroup g = b.entries.filter (fun e => decide (e.rail = g)) := rfl

theorem Batch.inGroup_isEmpty (b : Batch) (g : Fin 8) : (b.inGroup g).isEmpty = true ↔ ¬∃ e ∈ b.entries, e.rail = g := by
  simp [Batch.inGroup]

theorem Ll.fits_iff (l : Ll) (b : Batch) (g : Fin 8) (d : Nat) :
    l.fits b g d = true ↔ tget l.totals g + b.addedSum g d ≤ tget l.limits g + l.removedSum b g := by
  simp [Ll.fits]

/-- The smallest level that fits is chosen. -/
theorem Ll.chosen_of_fits {l : Ll} {b : Batch} {g : Fin 8} {d : Nat} (hg : ∃ e ∈ b.entries, e.rail = g) (hd : d ≤ 8)
    (hfit : l.fits b g d = true) (hmin : ∀ c, c < d → l.fits b g c = false) : l.chosen b g = d := by
  have hfind : (List.range 9).find? (l.fits b g) = some d := by
    rw [List.find?_eq_some_iff_getElem]
    refine ⟨hfit, d, by simp; omega, by simp, fun j hj => ?_⟩
    simpa using hmin j hj
  have hne : ¬(b.inGroup g).isEmpty = true := by
    rw [b.inGroup_isEmpty]
    exact not_not_intro hg
  rw [Ll.chosen, if_neg hne, hfind]
  rfl

theorem Ll.chosen_of_empty {l : Ll} {b : Batch} {g : Fin 8} (hg : ¬∃ e ∈ b.entries, e.rail = g) : l.chosen b g = 0 :=
  if_pos ((b.inGroup_isEmpty g).mpr hg)

/-- The measure of a batch of 0 entries: all levels and sums are 0. -/
theorem Ll.measured_of_empty (l : Ll) {b : Batch} (h : b.entries = []) : l.measured b = { b with
    derate := some (Vector.replicate 8 0), removed := some (Vector.replicate 8 0), added := some (Vector.replicate 8 0) } := by
  have hgroup : ∀ g, b.inGroup g = [] := fun g => by simp [Batch.inGroup, h]
  have hzero : ∀ x : Fin 8 → Nat, (∀ g, x g = 0) → Vector.ofFn x = Vector.replicate 8 0 := fun x hx =>
    table_ext (fun g => by rw [tget_ofFn, tget_replicate, hx])
  have hchosen := hzero (l.chosen b) (fun g => Ll.chosen_of_empty (by simp [h]))
  have hremoved := hzero (l.removedSum b) (fun g => by simp [Ll.removedSum, hgroup])
  have hadded := hzero (fun g => b.addedSum g (tget (Vector.replicate 8 0) g)) (fun g => by simp [Batch.addedSum, hgroup])
  unfold Ll.measured
  simp only [hchosen, hremoved, hadded, h, List.map_nil]

/-- The levels that fit are those of the measure. -/
theorem State.chosen_of_levelsFit {s : State} {b : Batch} {d : Vector Nat 8} (h : s.levelsFit b d) :
    Vector.ofFn (s.ll.chosen b) = d := by
  refine table_ext (fun g => ?_)
  have hg := h g
  rw [tget_ofFn]
  split at hg
  next hin =>
    obtain ⟨hle, hfit, hmin⟩ := hg
    exact Ll.chosen_of_fits hin hle ((s.ll.fits_iff b g _).mpr hfit)
      (fun c hc => by
        rw [Bool.eq_false_iff, ne_eq, Ll.fits_iff]
        exact hmin c hc)
  next hin => rw [Ll.chosen_of_empty hin, hg]

namespace State

theorem countDerates_eq (s : State) (b : Batch) : s.countDerates b = { s with
    ru := (fun u : Ru => u.count .derate)^[((List.finRange 8).filter (fun g => decide (0 < sumOf b.derate g))).length] s.ru } := by
  unfold countDerates
  generalize (List.finRange 8).filter _ = l
  induction l generalizing s with
  | nil => rfl
  | cons g l ih => exact ih (s.count .derate)

theorem currentBatch_of {s : State} {i : Fin 8} {b : Batch} (hi : s.re.current = some i) (hb : s.jc.at i = some b) :
    s.currentBatch = some (i, b) := by
  simp [currentBatch, hi, hb]

/-! ### The first pass -/

theorem hiddenWord_eq (s : State) (f : Nat) : s.re.slotWord s.re.hidden f = s.bufferWord (otherBuf s.re.select) f := by
  unfold bufferWord Re.hidden Re.slotWord
  cases s.re.select <;> rfl

theorem firstPassNext_of_entry {s : State} {i : Fin 8} {b : Batch} {e : Entry} {v : Stored} (hi : s.re.current = some i)
    (hb : s.jc.at i = some b) (he : b.entries[s.re.position]? = some e) (hv : e.value = some v) :
    s.firstPassNext = { s with mp := s.mp.asking placeRe (writeOf .firstPassWrite
      (s.bufferWord (otherBuf s.re.select) e.frameSlot) (v.derated (sumOf b.derate e.rail)).toWord) } := by
  unfold firstPassNext
  rw [currentBatch_of hi hb]
  dsimp only
  rw [he]
  dsimp only
  rw [hiddenWord_eq, Batch.shownOf, hv]
  rfl

theorem firstPassNext_of_end {s : State} {i : Fin 8} {b : Batch} (hi : s.re.current = some i)
    (hb : s.jc.at i = some b) (he : b.entries[s.re.position]? = none) :
    s.firstPassNext = { s with
      jc := s.jcWith i (some { b with phase := .armed }), re := { s.re with state := .armed } } := by
  unfold firstPassNext
  rw [currentBatch_of hi hb]
  dsimp only
  rw [he]
  dsimp only
  unfold setStage
  rw [Jc.modify_of_at _ hb]
  rfl

theorem endMeasure_eq {s : State} {i : Fin 8} {b : Batch} (hi : s.re.current = some i) (hb : s.jc.at i = some b) :
    s.endMeasure = ((({ s with
      jc := s.jcWith i (some { s.ll.measured b with phase := .firstPass })
      re := { s.re with state := .firstPass, position := 0 } } : State).countDerates (s.ll.measured b)).firstPassNext) := by
  unfold endMeasure
  rw [currentBatch_of hi hb]
  rfl

theorem jcWith_at (s : State) (i : Fin 8) (x : Option Batch) : (s.jcWith i x).at i = x := Jc.at_put_same s.jc i x

/-- The batch with the smallest seal order is taken. -/
theorem takeBatch_of_takesNext {s : State} {i : Fin 8} {b : Batch} (h : s.takesNext i b) : s.takeBatch = s.taken i b := by
  have hb : s.jc.at i = some b := h.1
  have hmodify : s.jc.modify i (fun b => { b with phase := .measure, release := some (s.re.lastRelease + 1) })
      = s.jcWith i (some { b with phase := .measure, release := some (s.re.lastRelease + 1) }) := Jc.modify_of_at _ hb
  unfold takeBatch taken
  rw [oldest_of_takesNext h]
  dsimp only
  rw [hmodify]
  have hcount : (s.jcWith i (some { b with phase := .measure, release := some (s.re.lastRelease + 1) })).entryCount i
      = b.entries.length := by
    simp [Jc.entryCount, jcWith_at]
  by_cases hempty : b.entries = []
  · rw [if_pos (by simpa [hempty] using hcount), if_pos hempty]
    rw [endMeasure_eq rfl (by exact jcWith_at s i _), Ll.measured_of_empty _ (by exact hempty), countDerates_eq]
    have hfilter : (List.finRange 8).filter (fun g => decide (0 < sumOf (some (Vector.replicate 8 0)) g)) = [] := by
      simp [sumOf]
    dsimp only
    rw [hfilter]
    refine (firstPassNext_of_end rfl (by exact jcWith_at _ i _) (by simp [hempty])).trans ?_
    simp only [jcWith, setRe_jc, setJc_jc, tset_tset]
    rfl
  · rw [if_neg (fun h => hempty (by simpa using hcount.symm.trans h)), if_neg hempty]
    rfl

end State
end Sys2Proof.Machine

namespace Sys2Proof.Proofs
open Sys2Proof.Machine Sys2Proof.Machine.State

/-- Settles O48: the batch taken is the eligible one with the smallest seal order, which is measured at once without entries. -/
theorem batchTakenBySealOrder : Obligations.BatchTakenBySealOrder := by
  have hrun : ∀ (s : State) (i : Fin 8) (b : Batch), s.settled → s.re.state = .idle → s.spc.part = .running →
      s.takesNext i b → exec .batchTaken s = .next (s.taken i b).endStep := by
    intro s i b hs hidle hpart hnext
    have hcan : s.canTake = true := s.canTake_iff.mpr ⟨hidle, hpart, eligibleExists_of_takesNext hnext⟩
    refine (if_pos hcan).trans (congrArg Host.Outcome.next ?_)
    rw [settle_of_keeps hs (by simp [hpart]) (takeBatch_keeps s), takeBatch_of_takesNext hnext]
  refine ⟨fun s h => if_neg ?_, fun s i b hs hidle hpart hnext hne => ?_, fun s i b hs hidle hpart hnext hempty => ?_⟩
  · rw [s.canTake_iff]
    rintro ⟨hidle, hpart, helig⟩
    simp [hidle, hpart, helig] at h
  · rw [hrun s i b hs hidle hpart hnext, taken, if_neg hne]
  · rw [hrun s i b hs hidle hpart hnext, taken, if_pos hempty]

/-- Settles O49: the levels that fit are those the measure chooses, and the first entry is written at its group's level. -/
theorem measureEndStoresItsResults : Obligations.MeasureEndStoresItsResults := by
  refine ⟨fun s h => if_neg h, ?measures, fun v => ⟨rfl, v.load_le⟩, fun v d => ⟨rfl, rfl, rfl, v.derated_level d⟩,
    fun e v d he => by simp [Entry.loadAt, he], fun b g d => rfl, fun l b g => rfl⟩
  intro s i b e rest v d hs hmeasure hi hb hentries hv hfit
  refine (if_pos hmeasure).trans (congrArg Host.Outcome.next ?_)
  have hlevels := chosen_of_levelsFit hfit
  rw [endMeasure_eq hi hb, countDerates_eq]
  have hmeasured : s.ll.measured b = { b with
      entries := b.entries.map (fun x => { x with newLoad := some (x.loadAt (tget d x.rail)) })
      derate := some d
      removed := some (Vector.ofFn (fun g => s.ll.removedSum b g))
      added := some (Vector.ofFn (fun g => b.addedSum g (tget d g))) } := by
    simp only [Ll.measured, hlevels]
  rw [hmeasured]
  have hnext := firstPassNext_of_entry (s := { s with
      jc := s.jcWith i (some { b with
        phase := .firstPass
        entries := b.entries.map (fun x => { x with newLoad := some (x.loadAt (tget d x.rail)) })
        derate := some d
        removed := some (Vector.ofFn (fun g => s.ll.removedSum b g))
        added := some (Vector.ofFn (fun g => b.addedSum g (tget d g))) })
      re := { s.re with state := .firstPass, position := 0 }
      ru := (fun u : Ru => u.count .derate)^[((List.finRange 8).filter (fun g => decide (0 < tget d g))).length] s.ru })
    (e := { e with newLoad := some (e.loadAt (tget d e.rail)) }) hi (jcWith_at s i _) (by simp [hentries]) hv
  exact (congrArg State.settle hnext).trans (settle_apart hs)

/-- Settles O50: the entry at the pass position records its derated value, and the entry after it decides how the pass goes on. -/
theorem firstPassRecordsShownValues : Obligations.FirstPassRecordsShownValues := by
  intro s f i b b2 e v d hs hf hop hi hb he hv hd hb2
  have hset : b.entries.modify s.re.position (fun e => { e with shown := some (b.shownOf e) })
      = b.entries.set s.re.position { e with shown := some (v.derated (tget d e.rail)) } := by
    rw [List.modify_eq_set_getElem?, he]
    simp [Batch.shownOf, hv, hd, sumOf]
  have hdone : State.firstPassDone { s with mp := s.mp.freed, memory := s.memory.after f, pu := s.pu.after f }
      = State.firstPassNext { s with
          mp := s.mp.freed, memory := s.memory.after f, pu := s.pu.after f, jc := s.jcWith i (some b2)
          re := { s.re with position := s.re.position + 1 } } := by
    unfold firstPassDone
    rw [currentBatch_of (by exact hi) (by exact hb)]
    dsimp only
    rw [hset, ← hb2]
    rfl
  have hafter : ∀ k, s.re.position < k → b2.entries[k]? = b.entries[k]? := by
    intro k hk
    rw [hb2]
    simp [List.getElem?_set_ne (Nat.ne_of_lt hk)]
  refine ⟨fun x w hx hw => congrArg Host.Outcome.next (writeCompletion_apart hs hf (by simp) rfl hop ?_),
    fun hlen => congrArg Host.Outcome.next (writeCompletion_apart hs hf (by simp) rfl hop ?_)⟩
  · rw [hdone]
    refine (firstPassNext_of_entry (b := b2) (by exact hi) (by exact jcWith_at s i _)
      (by exact (hafter _ (by simp)).trans hx) hw).trans ?_
    rw [hb2, hd]
    rfl
  · rw [hdone]
    refine (firstPassNext_of_end (b := b2) (by exact hi) (by exact jcWith_at s i _)
      (by exact (hafter _ (by simp)).trans (by simp [hlen]))).trans ?_
    simp only [jcWith, tset_tset]

end Sys2Proof.Proofs
end

