-- ==== Sys2Proof/Proofs/Entries.lean ====
section
set_option Elab.async false
/-!
RESULT. Entry to RUNNING with the pending cue served, entry to PASSIVE with its held transfers, and blanking (O15, O17).
-/
namespace Sys2Proof.Machine.State

theorem spcCancelled_of_not {s : State} (h : s.spc.standbyPending = false) : s.spcCancelled = s.spc := by
  unfold spcCancelled
  rw [← h]

theorem ruCancelled_of_not {s : State} (h : s.spc.standbyPending = false) : s.ruCancelled = s.ru :=
  if_neg (by simp [h])

/-- Outside LOADING a play is the start of a play as the statements write it. -/
theorem playStart_eq {s : State} (n : Fin 4) (h : s.rp.state ≠ .loading) : s.playStart n = s.playStarted n := by
  unfold playStart
  rw [cancelStandby_eq]
  unfold setPlayer markEarlier setRp setJc
  rw [if_neg (by exact h)]
  rfl

theorem takeIfEligible_of_none {s : State} (h : s.eligibleExists = false) : s.takeIfEligible = s := by
  refine if_neg ?_
  rw [s.canTake_iff]
  rintro ⟨-, -, he⟩
  simp [h] at he

theorem servePending_of_none {s : State} (h : s.rp.pendingCue = none) : s.servePending = s := by
  simp only [servePending, h]

theorem servePending_of_enabled {s : State} {n : Fin 4} (h : s.rp.pendingCue = some n) (hidle : s.rp.state = .idle)
    (he : (tget s.rp.directory n).enabled = true) :
    s.servePending = State.playStarted { s.takeIfEligible with rp := { s.rp with pendingCue := none } } n := by
  simp only [servePending, h]
  exact (if_pos he).trans (playStart_eq n (by simp [setRp, hidle]))

theorem servePending_of_disabled {s : State} {n : Fin 4} (h : s.rp.pendingCue = some n)
    (he : (tget s.rp.directory n).enabled = false) :
    s.servePending = { s.takeIfEligible with
      rp := { s.rp with pendingCue := none, lastIgnored := some { source := .cueLine, reel := some n } } } := by
  simp only [servePending, h]
  exact if_neg (by simp [setRp, he])

/-- What the RE takes before it serves a pending cue, as the statements say it (log entry 9). -/
theorem takeIfEligible_of_choice {s u : State}
    (h : (¬(s.re.state = .idle ∧ s.spc.part = .running ∧ s.eligibleExists = true) ∧ u = s)
      ∨ (s.re.state = .idle ∧ s.spc.part = .running ∧ ∃ i b, s.takesNext i b ∧ u = s.taken i b)) : s.takeIfEligible = u := by
  obtain ⟨hno, rfl⟩ | ⟨hidle, hpart, i, b, hnext, rfl⟩ := h
  · exact if_neg (by rwa [u.canTake_iff])
  · exact (if_pos (s.canTake_iff.mpr ⟨hidle, hpart, eligibleExists_of_takesNext hnext⟩)).trans (takeBatch_of_takesNext hnext)

/-- The state in which the part has come to RUNNING and no pending cue is served yet (R102, R86). -/
def running (s : State) : State :=
  { s with
    spc := { s.spc with part := .running }
    mm := if s.mm.state = .lost then { s.mm with paceTimer := some s.mm.pacing } else s.mm
    ru := { s.ru with dueStatus := true } }

theorem enterRunning_eq (s : State) : s.enterRunning = s.running.servePending := by
  unfold enterRunning running
  dsimp only
  by_cases h : s.mm.state = .lost
  · rw [if_pos (by exact h), if_pos h]
    rfl
  · rw [if_neg (by exact h), if_neg h]
    rfl

/-- The completion that brings the part to RUNNING. -/
theorem startResultCompletion_running {s : State} {f : InFlight} (hs : s.settled) (hf : s.inFlightFor f (.startResult 0))
    (hop : f.req.op ≠ .read) : exec .startResultWriteCompletion s = .next (State.endStep
      (servePending (running { s with memory := s.memory.after f, pu := s.pu.after f, mp := s.mp.freed }))) := by
  have hc := complete_of_write s f hop
  obtain ⟨hflight, howner, hdiscard⟩ := hf
  have hcarried : ¬f.carried := by
    rintro (hd | hd)
    · simp [hdiscard] at hd
    · simp [howner] at hd
  have hkeeps := complete_keeps s f hflight hcarried
  have hall := hkeeps.toKeepsInvariants.trans (enterRunning_keeps (s.complete f)
    (noDirect_of_free (by rw [hc]; rfl))).toKeepsInvariants
  have hpart : (s.complete f).enterRunning.spc.part ≠ .passive := by
    rw [enterRunning_eq]
    exact (servePending_keeps _).awake (by simp [running])
  refine congrArg Host.Outcome.next ?_
  rw [onCompletion_run s _ _ f hflight (by rw [howner]; rfl) hdiscard, howner]
  refine (settle_of_served _ (directServed_flying _ (hall.direct hs.1)) (passiveServed_of_ne hpart)).trans ?_
  rw [enterRunning_eq, hc]

/-- A forced entry to MARKS_LOST with a snapshot asked before it. -/
theorem snapshot_loseMarks (s : State) (watching : Bool) (pace : Option Nat) : s.snapshot.loseMarks watching pace = { s with
    mm := s.marksForced watching pace, ru := { s.ru with dueStatus := true } } := by
  unfold loseMarks
  split <;> rfl

/-- Entry to PASSIVE, the grant before it aside (R89, R178, R197). -/
theorem enterPassive_eq (s : State) : s.enterPassive = { s.grantFirst (fun _ => true) with
    spc := { s.spc with part := .passive }
    mp := { (s.grantFirst (fun _ => true)).mp with sense := .odd, check := false }
    mm := s.marksForced false none
    rp := { s.rp with pendingCue := none, watching := false }
    up := { s.up with holdTimer := none }
    ru := { s.ru with dueStatus := true } } := by
  unfold enterPassive
  dsimp only
  rw [snapshot_loseMarks]
  simp [setSpc, setRp, setMp, stopHold, setUp, marksForced]

/-- The held transfers at the head of the queue in PASSIVE, and the rest (R178). -/
theorem dropHeldCanvas_of_append {s : State} {held rest : List HostTransfer} (h : s.aq.queue = held ++ rest)
    (hheld : ∀ t ∈ held, region t ≠ .plain) (hrest : ∀ t ∈ rest.head?, region t = .plain) :
    s.dropHeldCanvas = { s with
      aq := { s.aq with queue := rest }
      up := if held.all (fun t => t.write) then s.up else { s.up with waiting := none, answer := some { ready := false, data := some 0 } } } := by
  have hall : ∀ t ∈ held, (region t != .plain) = true := fun t ht => by simpa using hheld t ht
  have htake : rest.takeWhile (fun t => region t != .plain) = [] := by
    cases rest with
    | nil => rfl
    | cons t r => simp [hrest t rfl]
  have hdrop : rest.dropWhile (fun t => region t != .plain) = rest := by
    cases rest with
    | nil => rfl
    | cons t r => simp [hrest t rfl]
  have hany : held.any (fun t => !t.write) = !held.all (fun t => t.write) := by
    simp [List.not_all_eq_any_not]
  unfold dropHeldCanvas
  dsimp only
  rw [h, List.takeWhile_append_of_pos hall, List.dropWhile_append_of_pos hall, htake, hdrop, List.append_nil, hany]
  cases held.all (fun t => t.write) <;> rfl

/-- The completion that brings the part to PASSIVE, up to what PASSIVE then serves. -/
theorem startResultCompletion_passive {s : State} {f : InFlight} {code : Nat} (hs : s.settled)
    (hf : s.inFlightFor f (.startResult code)) (hcode : code ≠ 0) (hop : f.req.op ≠ .read) :
    exec .startResultWriteCompletion s = .next (State.endStep (servePassive (enterPassive
      { s with memory := s.memory.after f, pu := s.pu.after f, mp := s.mp.freed }))) := by
  have hc := complete_of_write s f hop
  have hnone := directServed_inFlight s hs.1 f hf.1 hf.2.2 (by rw [hf.2.1]; simp)
  obtain ⟨hflight, howner, hdiscard⟩ := hf
  refine congrArg Host.Outcome.next ?_
  rw [onCompletion_run s _ _ f hflight (by rw [howner]; rfl) hdiscard, howner, hc]
  show settle (startResultDone _ _) = _
  rw [startResultDone, if_neg (by simpa using hcode), settle, startDirect_id]
  intro w hw hd
  rw [enterPassive_eq] at hw
  exact absurd hd (hnone w (by simpa using hw))

theorem askBlanking_of_first (s : State) (h : s.re.blankPos < s.re.slotCount) : s.askBlanking = { s with
    mp := s.mp.asking placeRe (writeOf .blankingWrite (wordAt (s.re.bufA + 4 * s.re.blankPos)) 0) } := by
  unfold askBlanking blankWord
  rw [if_pos h]
  rfl

theorem askBlanking_of_second (s : State) (h : ¬s.re.blankPos < s.re.slotCount) : s.askBlanking = { s with
    mp := s.mp.asking placeRe
      (writeOf .blankingWrite (wordAt (s.re.bufB + 4 * (s.re.blankPos - s.re.slotCount))) 0) } := by
  unfold askBlanking blankWord
  rw [if_neg h]
  rfl

end Sys2Proof.Machine.State

namespace Sys2Proof.Proofs
open Sys2Proof.Machine Sys2Proof.Machine.State

/-- Settles O15: RUNNING serves the pending cue as one taken in IDLE, and PASSIVE lets its held transfers go. -/
theorem startResultEntersRunningOrPassive : Obligations.StartResultEntersRunningOrPassive := by
  refine ⟨?noCue, ?enabled, ?disabled, ?plainHead, ?heldHead,
    fun s f hs hf hop => startResultCompletion_running hs hf hop, fun s h => servePending_of_none h, ?served⟩
  case noCue =>
    intro s f hs hf hop hcue
    rw [startResultCompletion_running hs hf hop, servePending_of_none (by exact hcue)]
    rfl
  case enabled =>
    intro s f n hs hf hop hcue hidle helig he hstandby
    rw [startResultCompletion_running hs hf hop, servePending_of_enabled (by exact hcue) (by exact hidle) (by exact he),
      takeIfEligible_of_none (by exact helig)]
    unfold playStarted
    rw [spcCancelled_of_not (by exact hstandby), ruCancelled_of_not (by exact hstandby)]
    rfl
  case disabled =>
    intro s f n hs hf hop hcue helig he
    rw [startResultCompletion_running hs hf hop, servePending_of_disabled (by exact hcue) (by exact he),
      takeIfEligible_of_none (by exact helig)]
    rfl
  case plainHead =>
    intro s s0 f code hs hf hcode hop hhead hwait hs0
    rw [startResultCompletion_passive hs hf hcode hop, enterPassive_eq, ← hs0]
    rw [servePassive_id _ (fun _ _ => ⟨by simpa [hs0] using hhead, fun _ w hw => hwait w (by simpa using hw)⟩)]
    rfl
  case heldHead =>
    intro s s0 f code held rest hs hf hcode hop hqueue htaken hheld hrest hwait hs0
    rw [startResultCompletion_passive hs hf hcode hop, enterPassive_eq, ← hs0]
    refine congrArg (fun x => Host.Outcome.next (endStep x)) ?_
    have haq : s0.aq = s.aq := by simp [hs0]
    unfold servePassive
    rw [if_pos ⟨rfl, by simpa [hs0] using htaken⟩,
      dropHeldCanvas_of_append (held := held) (rest := rest) (by simpa [hs0] using hqueue) hheld hrest]
    dsimp only
    rw [haq]
    cases held.all (fun t => t.write)
    · refine (handToPort_id _ ?_).trans rfl
      exact fun _ w hw => by simp at hw
    · refine (handToPort_id _ ?_).trans rfl
      exact fun _ w hw => hwait w hw
  case served =>
    intro s u n hcue hidle hu
    refine ⟨fun he => ?_, fun he => ?_⟩
    · rw [servePending_of_enabled hcue hidle he, takeIfEligible_of_choice hu]
    · rw [servePending_of_disabled hcue he, takeIfEligible_of_choice hu]

/-- Settles O17: the blanking position names the next word, in buffer A and then in buffer B, and its end leaves the RE IDLE. -/
theorem blankingGoesThroughBothBuffers : Obligations.BlankingGoesThroughBothBuffers := by
  intro s f hs hf hop
  refine ⟨fun h => congrArg Host.Outcome.next (writeCompletion_apart hs hf (by simp) rfl hop ?_),
    fun h h2 => congrArg Host.Outcome.next (writeCompletion_apart hs hf (by simp) rfl hop ?_),
    fun h => congrArg Host.Outcome.next (writeCompletion_apart hs hf (by simp) rfl hop ?_)⟩
  · exact (if_pos (by show s.re.blankPos + 1 < _; simp [setRe]; omega)).trans (askBlanking_of_first _ h)
  · exact (if_pos h2).trans (askBlanking_of_second _ (by exact Nat.not_lt.mpr h))
  · exact if_neg (Nat.not_lt.mpr h)

end Sys2Proof.Proofs
end

