-- ==== Sys2Proof/Proofs/Arrivals.lean ====
section
set_option Elab.async false
/-!
RESULT. Arrivals, the hold timer, and the transfers carried in PASSIVE and on the direct path (O18 to O22).
-/
namespace Sys2Proof.Machine

/-! ### The windows of the host address map -/

theorem region_plain_iff (t : HostTransfer) : region t = .plain ↔ t.addr.toNat < 0x800000 := by
  unfold region regionOf
  split
  next h => simpa using h
  next h => split <;> simpa using h

theorem region_canvas_iff (t : HostTransfer) :
    region t = .canvas ↔ 0x800000 ≤ t.addr.toNat ∧ t.addr.toNat < 0xB00000 := by
  unfold region regionOf
  split
  next h => simpa using fun h2 => absurd h (Nat.not_lt.mpr h2)
  next h =>
    split
    next h2 => simpa using ⟨Nat.not_lt.mp h, h2⟩
    next h2 => simpa using fun _ => Nat.not_lt.mp h2

theorem region_unassigned_iff (t : HostTransfer) : region t = .unassigned ↔ 0xB00000 ≤ t.addr.toNat := by
  unfold region regionOf
  split
  · simp
    omega
  · split
    · simp
      omega
    · simp
      omega

theorem Span.has_iff (r : Span) (a : Nat) : r.has a = true ↔ r.first ≤ a ∧ a ≤ r.last := by
  simp [Span.has]

theorem Up.protects_iff {u : Up} {b : Bounds} (w : WordAddr) (h : u.bounds = some b) : u.protects w = true ↔
    (b.bufA ≤ 4 * w.toNat ∧ 4 * w.toNat ≤ b.bufA + 4 * b.slotCount - 1)
      ∨ (b.bufB ≤ 4 * w.toNat ∧ 4 * w.toNat ≤ b.bufB + 4 * b.slotCount - 1)
      ∨ (b.status ≤ 4 * w.toNat ∧ 4 * w.toNat ≤ b.status + 127) := by
  simp only [Up.protects, h, Bool.or_eq_true, Span.has_iff, or_assoc]
  rfl

/-- An answer while no transfer is unanswered. -/
theorem Up.answered {u : Up} (h : u.waiting = none) (a : Option Answer) :
    ({ u with waiting := none, answer := a } : Up) = { u with answer := a } := by
  rw [← h]

namespace State

/-! ### The arrival checks -/

/-- The first of the three checks that a transfer fails. -/
theorem arrivalFault_eq {s : State} {t : HostTransfer} {k : FaultKind}
    (h : (0xB00000 ≤ t.addr.toNat ∧ k = .addressRefused)
      ∨ (0x800000 ≤ t.addr.toNat ∧ t.addr.toNat < 0xB00000 ∧ t.be ≠ fullWord ∧ k = .partialCanvas)
      ∨ (t.addr.toNat < 0x800000 ∧ t.write = true ∧ s.up.protects (wordOfTransfer t) = true ∧ k = .protectedWrite)) :
    s.arrivalFault t = some k := by
  unfold arrivalFault
  obtain ⟨hhigh, rfl⟩ | ⟨hlow, hhigh, hbe, rfl⟩ | ⟨hlow, hwrite, hprot, rfl⟩ := h
  · rw [if_pos ((region_unassigned_iff t).mpr hhigh)]
  · have hr : region t = .canvas := (region_canvas_iff t).mpr ⟨hlow, hhigh⟩
    rw [if_neg (by simp [hr]), if_pos ⟨hr, by simpa [isFull] using hbe⟩]
  · have hr : region t = .plain := (region_plain_iff t).mpr hlow
    rw [if_neg (by simp [hr]), if_neg (by simp [hr]), if_pos (by simp [isPlainWrite, hr, hwrite, hprot])]

/-- A transfer that passes the three checks. -/
theorem arrivalFault_eq_none {s : State} {t : HostTransfer} (hassigned : t.addr.toNat < 0xB00000)
    (hcanvas : 0x800000 ≤ t.addr.toNat → t.be = fullWord)
    (hplain : t.addr.toNat < 0x800000 → t.write = true → s.up.protects (wordOfTransfer t) = false) :
    s.arrivalFault t = none := by
  unfold arrivalFault
  rw [if_neg (by rw [region_unassigned_iff]; omega), if_neg, if_neg]
  · rw [isPlainWrite, Bool.and_eq_true, Bool.and_eq_true, beq_iff_eq, region_plain_iff]
    rintro ⟨⟨hwrite, hlow⟩, hprot⟩
    simp [hplain hlow hwrite] at hprot
  · rw [region_canvas_iff]
    rintro ⟨⟨hlow, -⟩, hfull⟩
    simp [isFull, hcanvas hlow] at hfull

/-- Outside PASSIVE, where nothing waits for the direct path, settling comes to the end of the step. -/
theorem settle_of_noDirect {x : State} (hpart : x.spc.part ≠ .passive) (h : x.noDirect) : x.settle = x.endStep :=
  settle_of_served x (fun w hw hd => absurd hd (h w hw)) (passiveServed_of_ne hpart)

/-- An arrival while no transfer is unanswered. -/
theorem arrival_eq {s : State} {x : State} (t : HostTransfer) (hwait : s.up.waiting = none) (hx : s.clearAnswer.arriveIn t = x) :
    exec (.transferArrival t) s = .next x.settle := by
  refine (if_neg (by simp [hwait])).trans ?_
  rw [hx]

theorem arriveIn_running {s : State} (t : HostTransfer) (hpart : s.spc.part = .running) :
    s.clearAnswer.arriveIn t = s.clearAnswer.arrive t := by
  simp only [arriveIn, clearAnswer, setUp, hpart]

theorem arrive_of_fault {s : State} {t : HostTransfer} {k : FaultKind} (h : s.arrivalFault t = some k) :
    s.arrive t = s.refuseArrival t k := by
  simp only [arrive, h]

theorem arrive_of_none {s : State} {t : HostTransfer} (h : s.arrivalFault t = none) : s.arrive t = s.accept t := by
  simp only [arrive, h]

/-- A wake request (R204, R90). -/
theorem wake_eq (s : State) : s.wake = { s with
    spc := { s.spc with part := .running }
    mm := s.marksForced true (some s.mm.pacing)
    ru := { s.ru with dueStatus := true } } :=
  snapshot_loseMarks _ _ _

/-! ### Completions of host transfers -/

/-- The completion of a host transfer (R156). -/
theorem complete_of_host {s : State} {f : InFlight} (h : f.req.owner.isHost = true) : s.complete f = { s with
    memory := s.memory.after f, mp := s.mp.freed, ru := if f.req.op = .read then s.ruAfterRead f else s.ru } := by
  by_cases hop : f.req.op = .read
  · rw [complete_of_read s f hop, if_pos hop]
    simp [Memory.after, hop]
  · rw [complete_of_hostWrite s f hop h, if_neg hop]

/-- The completion of an unchecked transfer. -/
theorem complete_of_unchecked {s : State} {f : InFlight} (h : f.check = false) : s.complete f = { s with
    memory := s.memory.after f, pu := s.pu.after f, mp := s.mp.freed } := by
  refine if_neg ?_
  simp [delivered, h]

/-- A transfer carried for the host is answered with ready, and with its data if it is a read. -/
theorem answerCarried_eq (s t : State) (f : InFlight) : t.answerCarried f (s.delivered f) = { t with
    up := { t.up with
      waiting := none
      answer := some { ready := true, data := if f.req.op = .read then some (s.dataOf f) else none } } } := by
  unfold answerCarried answerHost setUp delivered dataOf
  cases f.req.op <;> rfl

theorem passiveDone_of_waiting {s : State} {w : Waiting} (f : InFlight) (d : Delivered) (hw : s.up.waiting = some w)
    (h : controlOf w.xfer ≠ some .restart ∨ s.spc.part ≠ .passive) : s.passiveDone f d = s.answerCarried f d := by
  simp only [passiveDone, hw]
  refine if_neg ?_
  rw [Bool.and_eq_true, isRestartWrite, beq_iff_eq, beq_iff_eq]
  rintro ⟨hr, hp⟩
  exact h.elim (fun h => h hr) (fun h => h (by simpa using hp))

end State
end Sys2Proof.Machine

namespace Sys2Proof.Proofs
open Sys2Proof.Machine Sys2Proof.Machine.State

/-- Settles O18: the first check that fails names the fault of the refusal. -/
theorem arrivalChecksRefuse : Obligations.ArrivalChecksRefuse := by
  refine ⟨fun s t k hpart hwait h => ?_, fun u b w h => u.protects_iff w h⟩
  refine (arrival_eq t hwait ((arriveIn_running t hpart).trans (arrive_of_fault (arrivalFault_eq h)))).trans ?_
  refine congrArg Host.Outcome.next ((settle_of_noDirect ?_ ?_).trans ?_)
  · show s.spc.part ≠ .passive
    simp [hpart]
  · exact fun w hw => by cases hw
  · exact congrArg (fun u : Up => endStep { s with
      up := u, ru := (s.ru.report k .busTransfer t.addr).count .refuse }) (Up.answered hwait (some (errorAnswer t)))

/-- Settles O19: an accepted transfer takes the last place of the queue, or waits for one. -/
theorem acceptedTransferIsQueued : Obligations.AcceptedTransferIsQueued := by
  intro s t hpart hwait hassigned hcanvas hplain
  have haccept := (arriveIn_running t hpart).trans (arrive_of_none (arrivalFault_eq_none (s := s.clearAnswer) hassigned hcanvas hplain))
  have hrun : ∀ x : State, s.clearAnswer.accept t = x → x.spc.part = s.spc.part → x.noDirect →
      exec (.transferArrival t) s = .next x.endStep := by
    intro x hx hp hd
    rw [arrival_eq t hwait (haccept.trans hx), settle_of_noDirect (by simp [hp, hpart]) hd]
  refine ⟨fun hlen hw => hrun _ ?_ rfl ?_, fun hlen hw => hrun _ ?_ rfl ?_, fun hlen => hrun _ ?_ rfl ?_⟩
  · rw [accept, if_pos (by exact hlen), if_pos hw, ← Up.answered hwait]
    rfl
  · exact fun w h => by simp [hwait] at h
  · rw [accept, if_pos (by exact hlen), if_neg (by simp [hw])]
    rfl
  · exact fun w h => by simp at h; simp [← h]
  · rw [accept, if_neg (by exact Nat.not_lt.mpr hlen)]
    rfl
  · exact fun w h => by simp at h; simp [← h]

/-- Settles O20: outside RUNNING the part state alone decides on an arrival; STANDBY wakes first. -/
theorem arrivalOutsideRunning : Obligations.ArrivalOutsideRunning := by
  refine ⟨fun s t h => if_pos h, ?refused, ?bypass, ?passive, ?behind, ?standby⟩
  case refused =>
    intro s t hs hwait h
    have hrefuse : s.clearAnswer.arriveIn t = s.clearAnswer.refuseHost t := by
      obtain ⟨sub, hp⟩ | ⟨hp, hc⟩ | ⟨hp, hc⟩ := h
      · simp only [arriveIn, clearAnswer, setUp, hp]
      · simp only [arriveIn, clearAnswer, setUp, hp]
        exact if_neg (by rw [region_plain_iff]; omega)
      · simp only [arriveIn, clearAnswer, setUp, hp]
        exact if_neg (by rw [region_plain_iff]; omega)
    rw [arrival_eq t hwait hrefuse, settle_of_served]
    · rw [← Up.answered hwait]
      rfl
    · exact fun w h => by cases h
    · exact fun hp ht => ⟨(hs.2 hp ht).1, fun _ w h => by cases h⟩
  case bypass =>
    intro s t hwait hpart hplain
    have hr : region t = .plain := (region_plain_iff t).mpr hplain
    have harrive : s.clearAnswer.arriveIn t = s.clearAnswer.waitAt t .direct := by
      simp only [arriveIn, clearAnswer, setUp, hpart]
      exact if_pos hr
    rw [arrival_eq t hwait harrive, settle]
    by_cases hfree : s.mp.inFlight = none
    · rw [startDirect_plain _ t (by exact hfree) rfl hr, servePassive_of_ne _ (by show s.spc.part ≠ _; simp [hpart]), if_pos hfree]
      rfl
    · rw [startDirect_id, servePassive_of_ne _ (by show s.spc.part ≠ _; simp [hpart]), if_neg hfree]
      · rfl
      · exact fun _ _ _ => Option.isSome_iff_ne_none.mpr hfree
  case passive =>
    intro s t hwait hpart hplain hqueue htaken
    have hr : region t = .plain := (region_plain_iff t).mpr hplain
    have harrive : s.clearAnswer.arriveIn t = s.clearAnswer.waitAt t .forPort := by
      simp only [arriveIn, clearAnswer, setUp, hpart]
      exact if_pos hr
    rw [arrival_eq t hwait harrive, settle, startDirect_id]
    · rw [servePassive, if_pos ⟨hpart, htaken⟩, dropHeldCanvas_id]
      · simp only [handToPort, waitAt, clearAnswer, setUp, hqueue]
        rfl
      · exact fun u hu => by simp [waitAt, clearAnswer, setUp, hqueue] at hu
    · exact fun w hw => by simp [waitAt, setUp] at hw; simp [← hw]
  case behind =>
    intro s t hs hwait hpart hplain hbusy
    have hr : region t = .plain := (region_plain_iff t).mpr hplain
    have harrive : s.clearAnswer.arriveIn t = s.clearAnswer.waitAt t .forPort := by
      simp only [arriveIn, clearAnswer, setUp, hpart]
      exact if_pos hr
    rw [arrival_eq t hwait harrive, settle_of_served]
    · rfl
    · exact fun w hw => by simp [waitAt, setUp] at hw; simp [← hw]
    · intro hp ht
      exact ⟨(hs.2 hp ht).1, fun hq => absurd hbusy (by simpa using ⟨hq, ht⟩)⟩
  case standby =>
    intro s t hwait hpart
    rw [arrival_eq t hwait (x := s.clearAnswer.wake.arrive t) (by simp only [arriveIn, clearAnswer, setUp, hpart])]
    refine (arrival_eq t (by exact hwait) ((arriveIn_running t (by rfl)).trans ?_)).symm
    rw [wake_eq]
    rfl

/-- Settles O21: the waiting transfer is answered with error and loses its place. -/
theorem holdExpiryDropsTheWaitingTransfer : Obligations.HoldExpiryDropsTheWaitingTransfer := by
  refine ⟨fun s h => ?_, fun s d w hd hw hpart => ?_⟩
  · show execHoldTimerExpiry s = _
    unfold execHoldTimerExpiry
    split
    next h1 h2 => simp [h1, h2] at h
    next => rfl
  · show execHoldTimerExpiry s = _
    simp only [execHoldTimerExpiry, hd, hw]
    have hexpire : s.expireHold w = { s with
        up := { s.up with waiting := none, holdTimer := none, answer := some (State.errorAnswer w.xfer) }
        aq := if w.place = .queued then { s.aq with queue := s.aq.queue.dropLast } else s.aq
        ru := (s.ru.report .holdExpired .busTransfer w.xfer.addr).count .hold } := by
      unfold expireHold dropWaiting
      split <;> rfl
    rw [hexpire, settle_of_noDirect (by exact hpart) (fun w hw => by cases hw)]

/-- Settles O22: a transfer carried for the host is answered at its completion, and BYPASS then takes the one that waits. -/
theorem carriedTransfersAreAnswered : Obligations.CarriedTransfersAreAnswered := by
  refine ⟨?passive, ?direct, ?next⟩
  case passive =>
    intro s f w hs hf hw h
    refine congrArg Host.Outcome.next (onCompletion_finds hs hf (by simp) rfl ?_ (fun v hv => by cases hv) ?_)
    · rw [complete_of_host (by rw [hf.2.1]; rfl), passiveDone_of_waiting f _ (by exact hw), answerCarried_eq]
      obtain ⟨hp, hr⟩ | ⟨sub, hp⟩ := h
      · exact .inl hr
      · exact .inr (by show s.spc.part ≠ _; simp [hp])
    · exact fun hp ht => ⟨(hs.2 hp ht).1, fun _ v hv => by cases hv⟩
  case direct =>
    intro s f hpart hf hcheck
    refine congrArg Host.Outcome.next ?_
    rw [onCompletion_run s _ _ f hf.1 (by simp [endsDirect, hf.2.1]) hf.2.2, answerCarried_eq, complete_of_unchecked hcheck,
      puAfter_of_host _ _ (by rw [hf.2.1]; rfl)]
    exact settle_of_noDirect hpart (fun v hv => by cases hv)
  case next =>
    intro s f t hpart hf hdiscard hcheck hwait
    have hrun : exec .directTransferCompletion s = .next (s.complete f).settle := by
      show execDirectTransferCompletion s = _
      simp [execDirectTransferCompletion, onCompletion, hf, endsDirect, hpart, hdiscard]
    rw [hrun, complete_of_unchecked hcheck, settle]
    refine ⟨fun hr => ?_, fun hr => ?_⟩
    · rw [startDirect_plain _ t rfl (by exact hwait) hr, servePassive_of_ne _ (by show s.spc.part ≠ _; simp [hpart])]
    · rw [startDirect_other _ t rfl (by exact hwait) hr, servePassive_of_ne _ (by show s.spc.part ≠ _; simp [hpart])]

end Sys2Proof.Proofs
end

