-- ==== Sys2Proof/Proofs/Port.lean ====
section
set_option Elab.async false
/-!
RESULT. The grant of the memory port, and what a write changes of the lighting memory (O23, O24).
-/
namespace Sys2Proof.Machine

/-! ### The places that take part in a grant -/

theorem Mp.held_of_one {m : Mp} {p : Place} (h : ∀ q, q ≠ p → tget m.requests q = none) : m.held.length ≤ 1 := by
  have hall : ∀ q ∈ m.held, q = p := fun q hq => by
    by_contra hne
    exact (m.mem_held q).mp hq (h q hne)
  have hnodup : m.held.Nodup := m.held_rising.imp (fun h => Fin.ne_of_lt h)
  match hl : m.held with
  | [] => simp
  | [_] => simp
  | a :: b :: l =>
    rw [hl] at hall hnodup
    have : a ≠ b := fun hab => by simp [hab] at hnodup
    exact absurd ((hall a (by simp)).trans (hall b (by simp)).symm) this

theorem Mp.held_of_two {m : Mp} {p q : Place} (hne : p ≠ q) (hp : tget m.requests p ≠ none) (hq : tget m.requests q ≠ none) :
    2 ≤ m.held.length := by
  have hp := (m.mem_held p).mpr hp
  have hq := (m.mem_held q).mpr hq
  match hl : m.held with
  | [] => simp [hl] at hp
  | [a] =>
    rw [hl, List.mem_singleton] at hp hq
    exact absurd (hp.trans hq.symm) hne
  | _ :: _ :: _ => simp

/-- The places that take part, as the statements write them, are those of the model (R185; log entry 40). -/
theorem Mp.taking_of_takesPart {m : Mp} {count n : Nat} {takes : Place → Prop} (h : m.takesPart count takes n) :
    (∀ q, q ∈ m.taking count ↔ takes q) ∧ (m.taking count).Pairwise (· < ·) ∧ (∀ q, takes q → tget m.requests q ≠ none)
      ∧ n = if m.orderOpen then count + 1 else count := by
  obtain ⟨rfl, hall, halone⟩ | ⟨rfl, hcompleting, ⟨p, q, hne, hp, hq⟩, hfirst, hall⟩ := h
  · have hclosed : m.orderOpen = false := by
      obtain hc | ⟨p, hp⟩ := halone
      · simp [Mp.orderOpen, hc]
      · have := Mp.held_of_one hp
        simp [Mp.orderOpen]
        omega
    have htaking : m.taking n = m.held := by simp [Mp.taking, hclosed]
    rw [htaking]
    exact ⟨fun q => (m.mem_held q).trans (hall q).symm, m.held_rising, fun q hq => (hall q).mp hq, by simp [hclosed]⟩
  · have hopen : m.orderOpen = true := by simp [Mp.orderOpen, hcompleting, Mp.held_of_two hne hp hq]
    have htaking : m.taking count = [Config.takenFirst count] := by
      simp [Mp.taking, hopen, Mp.holds, Option.isSome_iff_ne_none, hfirst]
    rw [htaking]
    refine ⟨fun q => by simp [hall q], by simp, fun q hq => ?_, by simp [hopen]⟩
    rw [(hall q).mp hq]
    exact hfirst

theorem Mp.held_ne_nil {m : Mp} {p : Place} (h : tget m.requests p ≠ none) : m.held ≠ [] :=
  List.ne_nil_of_mem ((m.mem_held p).mpr h)

namespace State

theorem grantDue_of_free {s : State} (l : List Place) (hpath : s.mp.path = .arbitrated) (hfree : s.mp.inFlight = none) :
    s.grantDue l = s.mp.choice l := by
  simp only [grantDue, hpath, hfree]

/-- No grant is due with the port busy, on the direct path, or with no request. -/
theorem grantDue_of_none {s : State}
    (h : s.mp.inFlight.isSome = true ∨ s.mp.path = .direct ∨ ∀ p, tget s.mp.requests p = none) :
    s.grantDue s.mp.held = none := by
  unfold grantDue
  split
  next hpath hfree =>
    have hnone : ∀ p, tget s.mp.requests p = none := by
      obtain hf | hp | hn := h
      · simp [hfree] at hf
      · simp [hpath] at hp
      · exact hn
    have hheld : s.mp.held = [] := List.eq_nil_iff_forall_not_mem.mpr (fun q hq => (s.mp.mem_held q).mp hq (hnone q))
    simp [hheld, Mp.choice]
  next => rfl

theorem grantFirst_of_none {s : State} (mine : Place → Bool) (h : s.grantDue s.mp.held = none) : s.grantFirst mine = s := by
  simp only [grantFirst, h]

theorem grantFirst_of_some {s : State} {p : Place} {r : Request} (mine : Place → Bool) (h : s.grantDue s.mp.held = some p)
    (hr : tget s.mp.requests p = some r) : s.grantFirst mine = if mine p then { s with
      freeCount := s.freeCount + 1
      mp := if Config.grantBeforeEvent s.freeCount then s.mp.grant s.mp.held p r else s.mp } else s := by
  simp only [grantFirst, h]
  cases mine p
  · rfl
  · cases Config.grantBeforeEvent s.freeCount
    · rfl
    · simp [setFreeCount, grantAt, hr, setMp]

theorem memoryGrant_of_some {s : State} {p : Place} (h : s.grantDue s.mp.held = some p) :
    exec .memoryGrant s = .next s.grant.settle := by
  show execMemoryGrant s = _
  simp only [execMemoryGrant, h]

theorem memoryGrant_of_none {s : State} (h : s.grantDue s.mp.held = none) : exec .memoryGrant s = .next s := by
  show execMemoryGrant s = _
  simp only [execMemoryGrant, h]

theorem grantDue_held_some {s : State} {p : Place} (hpath : s.mp.path = .arbitrated) (hfree : s.mp.inFlight = none)
    (hp : tget s.mp.requests p ≠ none) : ∃ q, s.grantDue s.mp.held = some q := by
  rw [grantDue_of_free _ hpath hfree]
  obtain ⟨q, l, hl⟩ := List.exists_cons_of_ne_nil (Mp.held_ne_nil hp)
  rw [← Option.isSome_iff_exists]
  simp [Mp.choice, hl]

/-- The grant of the place chosen among those that take part. -/
theorem grant_eq {s : State} {p : Place} {r : Request} (h : s.grantDue (s.mp.taking s.freeCount) = some p)
    (hr : tget s.mp.requests p = some r) : s.grant = { s with
      mp := s.mp.grant (s.mp.taking s.freeCount) p r
      freeCount := if s.mp.orderOpen then s.freeCount + 1 else s.freeCount } := by
  simp only [grant, h]
  cases s.mp.orderOpen
  · simp [grantAt, hr, setMp]
  · simp [grantAt, setFreeCount, hr, setMp]

end State

/-! ### What a write changes of the lighting memory -/

namespace Memory

theorem writeEnabled_off (m : Memory) (w : WordAddr) {be : BitVec 4} (x : Word) (p : Sense) {k : Nat}
    (h : be.getLsbD k = false) : m.writeEnabled w be x p k = m :=
  if_neg (by simp [h])

theorem writeEnabled_on (m : Memory) (w : WordAddr) {be : BitVec 4} (x : Word) (p : Sense) {k : Nat}
    (h : be.getLsbD k = true) :
    m.writeEnabled w be x p k = m.writeByte (4 * w.toNat + k) (byteOf x k) (parityBit p (byteOf x k)) :=
  if_pos h

/-- An enabled byte of a write holds its byte of the value with the parity generated under the sense. -/
theorem writeWord_enabled (m : Memory) (w : WordAddr) {be : BitVec 4} (x : Word) (p : Sense) {k : Nat} (hk : k < 4)
    (h : be.getLsbD k = true) :
    (m.writeWord w be x p).byte (4 * w.toNat + k) = byteOf x k
      ∧ (m.writeWord w be x p).bit (4 * w.toNat + k) = parityBit p (byteOf x k) := by
  have hlater : ∀ (n : Memory) (j : Nat), k < j → (n.writeEnabled w be x p j).byte (4 * w.toNat + k) = n.byte (4 * w.toNat + k)
      ∧ (n.writeEnabled w be x p j).bit (4 * w.toNat + k) = n.bit (4 * w.toNat + k) := fun n j hj =>
    ⟨byte_writeEnabled_ne _ _ _ _ _ _ _ (by omega), bit_writeEnabled_ne _ _ _ _ _ _ _ (by omega)⟩
  have hown : ∀ n : Memory, (n.writeEnabled w be x p k).byte (4 * w.toNat + k) = byteOf x k
      ∧ (n.writeEnabled w be x p k).bit (4 * w.toNat + k) = parityBit p (byteOf x k) := fun n => by
    rw [writeEnabled_on _ _ _ _ h]
    exact ⟨byte_writeByte_same _ _ _ _, bit_writeByte_same _ _ _ _⟩
  unfold writeWord
  match k with
  | 0 => rw [(hlater _ 3 (by omega)).1, (hlater _ 2 (by omega)).1, (hlater _ 1 (by omega)).1, (hlater _ 3 (by omega)).2,
      (hlater _ 2 (by omega)).2, (hlater _ 1 (by omega)).2]; exact hown _
  | 1 => rw [(hlater _ 3 (by omega)).1, (hlater _ 2 (by omega)).1, (hlater _ 3 (by omega)).2, (hlater _ 2 (by omega)).2]
         exact hown _
  | 2 => rw [(hlater _ 3 (by omega)).1, (hlater _ 3 (by omega)).2]; exact hown _
  | 3 => exact hown _

/-- A byte that no enabled byte of the write addresses stays as it was. -/
theorem writeWord_disabled (m : Memory) (w : WordAddr) {be : BitVec 4} (x : Word) (p : Sense) {a : Nat}
    (h : ∀ k, k < 4 → a = 4 * w.toNat + k → be.getLsbD k = false) :
    (m.writeWord w be x p).byte a = m.byte a ∧ (m.writeWord w be x p).bit a = m.bit a := by
  have hone : ∀ (n : Memory) (k : Nat), k < 4 →
      (n.writeEnabled w be x p k).byte a = n.byte a ∧ (n.writeEnabled w be x p k).bit a = n.bit a := by
    intro n k hk
    by_cases ha : 4 * w.toNat + k = a
    · rw [writeEnabled_off _ _ _ _ (h k hk ha.symm)]
      exact ⟨rfl, rfl⟩
    · exact ⟨byte_writeEnabled_ne _ _ _ _ _ _ _ ha, bit_writeEnabled_ne _ _ _ _ _ _ _ ha⟩
  unfold writeWord
  rw [(hone _ 3 (by omega)).1, (hone _ 2 (by omega)).1, (hone _ 1 (by omega)).1, (hone _ 0 (by omega)).1,
    (hone _ 3 (by omega)).2, (hone _ 2 (by omega)).2, (hone _ 1 (by omega)).2, (hone _ 0 (by omega)).2]
  exact ⟨rfl, rfl⟩

end Memory

/-- Whether the number of ones of a byte is odd. -/
theorem ones_mod_two (b : Byte) : ((List.range 8).filter (fun k => b.getLsbD k)).length % 2 = (oddOnes b).toNat := by
  unfold oddOnes
  have hrange : List.range 8 = [0, 1, 2, 3, 4, 5, 6, 7] := rfl
  rw [hrange, ← List.countP_eq_length_filter]
  simp only [List.countP_cons, List.countP_nil]
  generalize b.getLsbD 0 = b0
  generalize b.getLsbD 1 = b1
  generalize b.getLsbD 2 = b2
  generalize b.getLsbD 3 = b3
  generalize b.getLsbD 4 = b4
  generalize b.getLsbD 5 = b5
  generalize b.getLsbD 6 = b6
  generalize b.getLsbD 7 = b7
  revert b0 b1 b2 b3 b4 b5 b6 b7
  decide

end Sys2Proof.Machine

namespace Sys2Proof.Proofs
open Sys2Proof.Machine Sys2Proof.Machine.State

/-- Settles O23: the port chooses among the places that take part, and counts those it passes over. -/
theorem grantFollowsOrderAndAge : Obligations.GrantFollowsOrderAndAge := by
  refine ⟨fun s h => ⟨memoryGrant_of_none (grantDue_of_none h), fun mine => grantFirst_of_none mine (grantDue_of_none h)⟩,
    ?grant, ?first, fun s p r => ⟨rfl, rfl⟩⟩
  case grant =>
    intro s p r n takes hs hpath hfree hr htakes hfirst
    obtain ⟨hmem, hrising, hheld, rfl⟩ := Mp.taking_of_takesPart htakes
    have hdue : s.grantDue (s.mp.taking s.freeCount) = some p := by
      rw [grantDue_of_free _ hpath hfree]
      exact Mp.choice_of_isFirst _ _ hrising takes p hmem hfirst
    obtain ⟨q, hq⟩ := grantDue_held_some hpath hfree (p := p) (by simp [hr])
    refine ⟨s.mp.grant (s.mp.taking s.freeCount) p r, ?_, Mp.grants_grant _ _ takes p r hmem hheld⟩
    rw [memoryGrant_of_some hq, grant_eq hdue hr, settle_of_served]
    · exact fun _ _ _ => rfl
    · exact hs.2
  case first =>
    intro s p r hpath hfree hr hfirst
    have hdue : s.grantDue s.mp.held = some p := by
      rw [grantDue_of_free _ hpath hfree]
      exact Mp.choice_of_isFirst _ _ s.mp.held_rising _ p s.mp.mem_held hfirst
    exact ⟨s.mp.grant s.mp.held p r, Mp.grants_grant _ _ _ p r s.mp.mem_held (fun _ hq => hq),
      fun mine hm => (grantFirst_of_some mine hdue hr).trans (if_neg (by simp [hm])),
      fun mine hm => (grantFirst_of_some mine hdue hr).trans (if_pos hm)⟩

/-- Settles O24: a write lands byte by byte, each enabled byte with the parity of its ones. -/
theorem writeChangesEnabledBytesOnly : Obligations.WriteChangesEnabledBytesOnly := by
  refine ⟨fun m f h => by simp [Memory.after, h], fun m f be x a h => ?_, fun b => ?_⟩
  · have hafter : m.after f = m.writeWord f.req.word be x f.sense := by simp [Memory.after, h]
    rw [hafter]
    refine ⟨fun k hk ha hbe => ?_, fun hall => m.writeWord_disabled _ _ _ hall⟩
    rw [ha]
    exact m.writeWord_enabled _ _ _ hk hbe
  · have hones := ones_mod_two b
    simp only [parityBit]
    cases hb : oddOnes b <;> rw [hb] at hones <;> simp only [Bool.not_true, Bool.not_false, Bool.toNat_true, Bool.toNat_false] at hones ⊢ <;> omega

end Sys2Proof.Proofs
end

