-- ==== Sys2Proof/Proofs/Heads.lean ====
section
set_option Elab.async false
/-!
RESULT. The head of the queue: what is taken, and what its completion leaves of the queue (O25, O27, O28).
-/
namespace Sys2Proof.Machine

/-! ### The control words -/

theorem eq_wordAt_iff (w : WordAddr) (a : Nat) (h : a < 0x800000) : w = wordAt a ↔ w.toNat = a / 4 := by
  unfold wordAt
  rw [← BitVec.toNat_inj, BitVec.toNat_ofNat, Nat.mod_eq_of_lt (by omega)]

/-- The control words, by the byte address of their word (R176, R216). -/
theorem controlAt_iff (w : WordAddr) (c : ControlWord) : controlAt w = some c ↔
    (4 * w.toNat, c) ∈ [(0x80, ControlWord.seal), (0x84, .report), (0x88, .acknowledge), (0x8C, .standby),
      (0x90, .profileReload), (0x94, .reelStop), (0x98, .restart), (0xA0, .play)] := by
  have hword : ∀ n, n < 0x800000 → (4 * w.toNat = 4 * (n / 4) ↔ w = wordAt n) := fun n hn => by
    rw [eq_wordAt_iff w n hn]
    omega
  simp only [List.mem_cons, Prod.mk.injEq, List.not_mem_nil, or_false]
  rw [hword 0x80 (by omega), hword 0x84 (by omega), hword 0x88 (by omega), hword 0x8C (by omega), hword 0x90 (by omega),
    hword 0x94 (by omega), hword 0x98 (by omega), hword 0xA0 (by omega)]
  unfold controlAt
  split_ifs with h1 h2 h3 h4 h5 h6 h7 h8 <;> subst_vars <;> simp_all [wordAt] <;> exact eq_comm

theorem controlOf_iff (t : HostTransfer) (c : ControlWord) : controlOf t = some c ↔
    (t.write = true ∧ t.be = fullWord ∧ t.addr.toNat < 0x800000
      ∧ (t.addr.toNat / 4 * 4, c) ∈ [(0x80, ControlWord.seal), (0x84, .report), (0x88, .acknowledge), (0x8C, .standby),
          (0x90, .profileReload), (0x94, .reelStop), (0x98, .restart), (0xA0, .play)]) := by
  have hguard : (t.write && region t == .plain && isFull t) = true
      ↔ t.write = true ∧ t.be = fullWord ∧ t.addr.toNat < 0x800000 := by
    simp [isFull, ← region_plain_iff]
    tauto
  unfold controlOf
  by_cases h : (t.write && region t == .plain && isFull t) = true
  · obtain ⟨hwrite, hfull, hplain⟩ := hguard.mp h
    have hword : 4 * (wordOfTransfer t).toNat = t.addr.toNat / 4 * 4 := by
      simp only [wordOfTransfer, wordAt, BitVec.toNat_ofNat]
      omega
    rw [if_pos h, controlAt_iff, hword]
    simp [hwrite, hfull, hplain]
  · rw [if_neg h]
    refine ⟨(fun hc => by cases hc), ?_⟩
    rintro ⟨hwrite, hfull, hplain, -⟩
    exact absurd (hguard.mpr ⟨hwrite, hfull, hplain⟩) h

namespace State

/-! ### The head taken -/

/-- A head that the AQ may take, served with an effect that leaves the bus in its place. -/
theorem takeIf_ready {s x : State} {t : HostTransfer} {kind : HostTransfer → Bool} {k : HostTransfer → State → State}
    (hs : s.settled) (h : s.headReady t) (hk : kind t = true) (hx : k t s = x)
    (hup : x.up.waiting = s.up.waiting := by rfl) (haq : x.aq = { s.aq with taken := true } := by rfl)
    (hflight : x.mp.inFlight = s.mp.inFlight := by rfl) : s.takeIf kind k = x.endStep := by
  rw [takeIf_run s kind k t (headToTake_of_ready s t h) hk, hx, settle_of_served]
  · rw [hup, hflight]
    exact directServed_flying s hs.1
  · intro _ ht
    rw [haq] at ht
    cases ht

theorem takeIf_atPort {s : State} (kind : HostTransfer → Bool) (k : HostTransfer → State → State)
    (h : ∃ w ∈ s.up.waiting, w.place = .atPort) : s.takeIf kind k = s :=
  takeIf_portTaken s kind k ((portTaken_iff s).mpr h)

/-- A host write that meets no walk and no hit (R140). -/
theorem ctHostWrite_of_none {s : State} (w : WordAddr) (hwalk : s.ct.walk = none) (hhit : s.ct.hit = none) :
    s.ctHostWrite w = s.setCt (s.ct.invalidate w) := by
  unfold ctHostWrite
  simp only [setCt, Ct.invalidate, hwalk, hhit]
  cases s.ct.current <;> rfl

/-! ### The head's completion -/

theorem headWriting.inFlightFor {s : State} {f : InFlight} {t : HostTransfer} (h : s.headWriting f t) :
    s.inFlightFor f .plainWrite := by
  obtain ⟨hflight, hreq, hdiscard, -, -⟩ := h
  exact ⟨hflight, by rw [hreq], hdiscard⟩

theorem headWriting.complete {s : State} {f : InFlight} {t : HostTransfer} (h : s.headWriting f t)
    (hwrite : f.req.op ≠ .read) : s.complete f = { s with mp := s.mp.freed, memory := s.memory.after f } := by
  obtain ⟨-, hreq, -, -, -⟩ := h
  exact complete_of_hostWrite s f hwrite (by rw [hreq]; rfl)

theorem headWriting.write {s : State} {f : InFlight} {t : HostTransfer} (h : s.headWriting f t) : f.req.op ≠ .read := by
  obtain ⟨-, hreq, -, -, -⟩ := h
  simp [hreq]

theorem headAction_eq {s : State} {f : InFlight} {t : HostTransfer} (h : s.headWriting f t) :
    s.headAction = match controlOf t with
      | some c => if s.spc.part = .running ∨ (s.spc.part = .passive ∧ c = .restart) then some (c, t.data) else none
      | none => none := by
  obtain ⟨-, -, -, hhead, htaken⟩ := h
  obtain ⟨rest, hq⟩ : ∃ rest, s.aq.queue = t :: rest := by
    cases hq : s.aq.queue with
    | nil => simp [hq] at hhead
    | cons u r =>
      simp only [hq, List.head?_cons, Option.some.injEq] at hhead
      exact ⟨r, by rw [hhead]⟩
  unfold headAction
  rw [hq]
  cases hc : controlOf t <;> simp [hc, htaken]

/-- A transfer that waits for the direct path stays where it is as the head leaves. -/
theorem nextUp_direct_mem (s : State) : ∀ w ∈ s.nextUp.waiting, w.place = .direct → w ∈ s.up.waiting := by
  intro w hw hd
  unfold nextUp at hw
  split at hw
  · split at hw
    · simp at hw
    · simp only [Option.mem_def, Option.some.injEq] at hw
      simp [← hw] at hd
  · exact hw

/-- The completion of a plain write without an action of its own. -/
theorem plainWriteCompletion_run {s : State} {f : InFlight} {t : HostTransfer} (h : s.headWriting f t)
    (ha : s.headAction = none) : exec .plainWriteCompletion s = .next (settle { s with
      memory := s.memory.after f, mp := s.mp.freed, aq := s.nextQueue, up := s.nextUp }) := by
  refine (if_neg (by simp [ha])).trans (congrArg Host.Outcome.next ?_)
  rw [onCompletion_run s _ _ f h.1 (by simp [h.inFlightFor.2.1]) h.2.2.1, h.complete h.write, headLeaves_eq]
  rfl

/-- Settling in PASSIVE, where nothing waits for the direct path: the held transfers leave, and one that waits is handed over. -/
theorem settle_passive {x : State} (hpart : x.spc.part = .passive) (htaken : x.aq.taken = false) (h : x.noDirect) :
    x.settle = x.dropHeldCanvas.handToPort.endStep := by
  rw [settle, startDirect_id x (fun w hw hd => absurd hd (h w hw)), servePassive, if_pos ⟨hpart, htaken⟩]

theorem handToPort_of_waiting {s : State} {t : HostTransfer} (hq : s.aq.queue = []) (hw : s.up.waiting = some ⟨t, .forPort⟩) :
    s.handToPort = { s with
      up := { s.up with waiting := some ⟨t, .atPort⟩ }
      mp := s.mp.asking placeAq { owner := .passive, op := opOf t, word := wordOfTransfer t } } := by
  simp only [handToPort, hq, hw]
  rfl

/-- The head leaves after a read has been answered. -/
theorem headLeaves_of_answered {s : State} (h : s.up.waiting = none) :
    s.headLeaves = { s with aq := { queue := s.aq.queue.tail, taken := false } } := by
  simp only [headLeaves, h]
  rfl

theorem plainReadDone_eq {s : State} {t : HostTransfer} {rest : List HostTransfer} (d : Delivered)
    (hq : s.aq.queue = t :: rest) : s.plainReadDone d = { s with
      aq := { queue := rest, taken := false }
      up := { s.up with waiting := none, answer := some { ready := !d.error, data := some d.data } }
      ru := if d.error then s.ru.report .readParity .busTransfer (BitVec.ofNat 24 (4 * (wordOfTransfer t).toNat)) else s.ru } := by
  simp only [plainReadDone, hq]
  rw [headLeaves_of_answered rfl]
  cases d.error <;> simp [answerHost, setUp, hq] <;> rfl

end State
end Sys2Proof.Machine

namespace Sys2Proof.Proofs
open Sys2Proof.Machine Sys2Proof.Machine.State

/-- Settles O25: with no walk and no hit the write takes only the entries of its word from the cache. -/
theorem plainWriteTakenAsksItsWrite : Obligations.PlainWriteTakenAsksItsWrite := by
  intro s t hs hready hwrite hplain hwalk hhit
  refine congrArg Host.Outcome.next (takeIf_ready hs hready ?_ ?_)
  · simp [isPlainWrite, hwrite, (region_plain_iff t).mpr hplain]
  · rw [takePlainWrite, ctHostWrite_of_none _ (by exact hwalk) (by exact hhit)]
    simp only [opOf, hwrite, if_true]
    rfl

/-- Settles O27: a read stops its hold timer, a canvas transfer is offered to the CT. -/
theorem readsAndCanvasTransfersTaken : Obligations.ReadsAndCanvasTransfersTaken := by
  refine ⟨?plain, ?write, ?read, ?atPort⟩
  case plain =>
    intro s t hs hready hwrite hplain
    exact congrArg Host.Outcome.next (takeIf_ready hs hready (by simp [isPlainRead, hwrite, (region_plain_iff t).mpr hplain]) rfl)
  case write =>
    intro s t hs hready hwrite hlow hhigh
    exact congrArg Host.Outcome.next
      (takeIf_ready hs hready (by simp [isCanvasWrite, hwrite, (region_canvas_iff t).mpr ⟨hlow, hhigh⟩]) rfl)
  case read =>
    intro s t hs hready hwrite hlow hhigh
    exact congrArg Host.Outcome.next
      (takeIf_ready hs hready (by simp [isCanvasRead, hwrite, (region_canvas_iff t).mpr ⟨hlow, hhigh⟩]) rfl)
  case atPort =>
    intro s c hc h
    simp only [List.mem_cons, List.not_mem_nil, or_false] at hc
    obtain rfl | rfl | rfl | rfl := hc <;> exact congrArg Host.Outcome.next (takeIf_atPort _ _ h)

/-- Settles O28: the head leaves, and PASSIVE lets the held transfers behind it go. -/
theorem plainTransfersComplete : Obligations.PlainTransfersComplete := by
  refine ⟨?write, ?passiveWrite, ?read, ?passiveRead, fun t c => controlOf_iff t c⟩
  case write =>
    intro s f t hs hpart h hcontrol
    have ha : s.headAction = none := by
      rw [headAction_eq h]
      split
      next c hc => exact if_neg (by simp_all)
      next => rfl
    rw [plainWriteCompletion_run h ha]
    refine congrArg Host.Outcome.next (settle_of_noDirect hpart (fun w hw hd => ?_))
    exact directServed_inFlight s hs.1 f h.1 h.2.2.1 (by simp [h.inFlightFor.2.1]) w (nextUp_direct_mem s w hw hd) hd
  case passiveWrite =>
    intro s v f t held rest hs hpart h hcontrol hqueue hheld hrest hv
    have ha : s.headAction = none := by
      rw [headAction_eq h]
      split
      next c hc => exact if_neg (by simp_all)
      next => rfl
    have htaken : s.nextQueue.taken = false := by
      unfold nextQueue
      split <;> rfl
    have hrun : exec .plainWriteCompletion s = .next v.handToPort.endStep := by
      rw [plainWriteCompletion_run h ha, settle_passive (by exact hpart) (by exact htaken) ?_]
      · rw [dropHeldCanvas_of_append (by exact hqueue) hheld hrest, hv]
        simp only [htaken]
      · exact fun w hw hd => directServed_inFlight s hs.1 f h.1 h.2.2.1 (by simp [h.inFlightFor.2.1]) w
          (nextUp_direct_mem s w hw hd) hd
    have hvq : v.aq.queue = rest := by rw [hv]
    refine ⟨fun hno => ?_, fun x hnil hx => ?_⟩
    · rw [hrun, handToPort_id]
      intro hq w hw
      exact hno.elim (fun hne => absurd (hvq ▸ hq) hne) (fun hall => hall w hw)
    · rw [hrun, handToPort_of_waiting (hvq.trans hnil) hx]
  case read =>
    intro s f t rest hs hf hop hq hrest
    refine congrArg Host.Outcome.next (onCompletion_finds hs hf (by simp) rfl ?_ (fun w hw => by cases hw) ?_)
    · rw [delivered_of_read s f hop, complete_of_read s f hop, plainReadDone_eq _ (by exact hq)]
      cases hbad : s.readError f
      · simp [ruAfterRead_of_good s f hbad]
      · simp [ruAfterRead_of_bad s f hbad]
    · exact fun hp _ => ⟨hrest hp, fun _ w hw => by cases hw⟩
  case passiveRead =>
    intro s f t held rest hs hpart hf hop hq hheld hrest
    refine congrArg Host.Outcome.next ?_
    rw [onCompletion_run s _ _ f hf.1 (by simp [hf.2.1]) hf.2.2, delivered_of_read s f hop, complete_of_read s f hop,
      plainReadDone_eq _ (by exact hq), settle_passive (by exact hpart) rfl (fun w hw => by cases hw),
      dropHeldCanvas_of_append rfl hheld hrest, handToPort_id]
    · cases hbad : s.readError f <;> cases held.all (fun x => x.write) <;>
        simp [ruAfterRead_of_good, ruAfterRead_of_bad, hbad]
    · intro _ w hw
      dsimp only at hw
      split at hw <;> simp at hw

end Sys2Proof.Proofs
end

