-- ==== Sys2Proof/Proofs/ControlWords.lean ====
section
set_option Elab.async false
/-!
RESULT. The control words and the cue lines, the reel stop and the profile reload aside (O29, O31, O32, O35 to O37).
-/
namespace Sys2Proof.Machine

theorem tset_comm {α : Type} {n : Nat} (v : Vector α n) {i j : Fin n} (x y : α) (h : i ≠ j) :
    tset (tset v i x) j y = tset (tset v j y) i x :=
  table_ext (fun k => by
    by_cases hi : i = k
    · subst hi
      rw [tget_tset_ne _ _ (Ne.symm h), tget_tset_same, tget_tset_same]
    · by_cases hj : j = k
      · subst hj
        rw [tget_tset_same, tget_tset_ne _ _ hi, tget_tset_same]
      · rw [tget_tset_ne _ _ hj, tget_tset_ne _ _ hi, tget_tset_ne _ _ hi, tget_tset_ne _ _ hj])

namespace State

/-! ### A control word acted on -/

/-- A control word whose action leaves the bus, the queue and the part state. -/
theorem controlWord {s x : State} {f : InFlight} {t : HostTransfer} {c : ControlWord}
    {want : ControlWord → Word → Bool} {act : State → Word → State} (hs : s.settled) (h : s.headWriting f t)
    (hr : s.spc.part = .running) (hc : controlOf t = some c) (hw : want c t.data = true)
    (hx : act { s with memory := s.memory.after f, mp := s.mp.freed, aq := s.nextQueue, up := s.nextUp } t.data = x)
    (hup : x.up = s.nextUp := by rfl) (hpart : x.spc.part = s.spc.part := by rfl) : s.controlDone want act = x.endStep :=
  controlDone_finds hs h hr hc hw hx (by rw [hup]; exact fun _ h => h) (passiveServed_of_ne (by simp [hpart, hr]))

/-- A control word whose action keeps the invariants. -/
theorem controlWord_of_keeps {s x : State} {f : InFlight} {t : HostTransfer} {c : ControlWord}
    {want : ControlWord → Word → Bool} {act : State → Word → State} (hs : s.settled) (h : s.headWriting f t)
    (hr : s.spc.part = .running) (hc : controlOf t = some c) (hw : want c t.data = true)
    (hx : act { s with memory := s.memory.after f, mp := s.mp.freed, aq := s.nextQueue, up := s.nextUp } t.data = x)
    (hkeeps : State.Keeps { s with memory := s.memory.after f, mp := s.mp.freed, aq := s.nextQueue, up := s.nextUp } x) :
    s.controlDone want act = x.endStep := by
  have hcarried : ¬f.carried := by
    rintro (hd | hd)
    · simp [h.2.2.1] at hd
    · simp [h.inFlightFor.2.1] at hd
  have hcomplete := (complete_keeps s f h.1 hcarried).trans (headLeaves_keeps _)
  rw [h.complete h.write, headLeaves_eq] at hcomplete
  have hall := hcomplete.trans hkeeps
  have ha : s.headAction = some (c, t.data) := by
    rw [headAction_eq h, hc]
    exact if_pos (.inl hr)
  rw [controlDone_run s want act c t.data f ha hw h.1 h.inFlightFor.2.1 h.2.2.1, h.complete h.write, headLeaves_eq]
  exact (congrArg settle hx).trans (settle_of_keeps hs (by simp [hr]) hall)

/-! ### The seal word -/

theorem sealDrawn_of_entries {s : State} {i : Fin 8} {b : Batch} (x : Word) (hi : s.jc.openDrawn = some i)
    (hb : s.jc.at i = some b) (he : b.entries ≠ []) : s.sealDrawn x = { s with
      jc := { s.jc with
        slots := tset s.jc.slots i (some { b with
          phase := .sealed, sealOrder := some s.jc.sealCounter
          tag := some (x.setWidth 16), takeover := some (x.getLsbD 31) })
        sealCounter := s.jc.sealCounter + 1 } } := by
  have hcount : s.jc.entryCount i ≠ 0 := by simp [Jc.entryCount, hb, he]
  simp only [sealDrawn, hi, if_neg hcount]
  unfold Jc.sealBatch
  rw [Jc.modify_of_at _ hb]
  rfl

theorem sealDrawn_of_none {s : State} (x : Word)
    (h : s.jc.openDrawn = none ∨ ∃ i b, s.jc.openDrawn = some i ∧ s.jc.at i = some b ∧ b.entries = []) : s.sealDrawn x = s := by
  obtain hnone | ⟨i, b, hi, hb, he⟩ := h
  · simp only [sealDrawn, hnone]
  · have hcount : s.jc.entryCount i = 0 := by simp [Jc.entryCount, hb, he]
    simp only [sealDrawn, hi, if_pos hcount]

/-- Without the takeover flag, or in IDLE, the seal word stops no reel (R19, R113). -/
theorem actSeal_of_noStop {s : State} {x : Word} (h : x.getLsbD 31 = false ∨ s.rp.state = .idle) :
    s.actSeal x = s.cancelStandby.sealDrawn x := by
  unfold actSeal
  dsimp only
  split
  next htake =>
    have hidle : s.rp.state = .idle := h.resolve_left (by simpa [sealTakeover, flagBit] using htake)
    exact if_pos (by simp [hidle])
  next => rfl

/-! ### Standby -/

theorem quiet_iff (s : State) : s.quiet = true ↔ s.partQuiet := by
  simp [quiet, and_assoc]

theorem enterStandby_eq (s : State) : s.enterStandby = s.standbyEntered := by
  unfold enterStandby standbyEntered
  dsimp only
  rw [snapshot_loseMarks]
  by_cases hq : s.aq.queue = []
  · rw [if_pos (by simpa [setSpc] using hq), if_pos hq, if_pos hq]
    rfl
  · rw [if_neg (by simpa [setSpc] using hq), if_neg hq, if_neg hq, wake_eq]
    rfl

theorem standbyEntered_awake {s : State} : s.standbyEntered.spc.part ≠ .passive := by
  unfold standbyEntered
  dsimp only
  split <;> simp

/-! ### Cues -/

theorem takeCue_of_start {s : State} {n : Fin 4} (src : CueSource) (h : s.rp.state = .idle)
    (he : (tget s.rp.directory n).enabled = true) : s.takeCue src n = s.playStarted n :=
  (if_pos h).trans ((if_pos he).trans (playStart_eq n (by simp [h])))

theorem takeCue_of_busy {s : State} {n : Fin 4} (src : CueSource) (h : s.rp.state ≠ .idle)
    (he : (tget s.rp.directory n).enabled = true) : s.takeCue src n = { s with
      spc := s.spcCancelled, ru := s.ruCancelled, rp := { s.rp with pendingCue := some n } } := by
  refine (if_neg h).trans ((if_pos he).trans ?_)
  rw [keepCue, cancelStandby_eq]
  rfl

theorem takeCue_of_disabled {s : State} {n : Fin 4} (src : CueSource) (he : (tget s.rp.directory n).enabled = false) :
    s.takeCue src n = { s with rp := { s.rp with lastIgnored := some { source := src, reel := some n } } } := by
  have hcue : ¬(tget s.rp.directory n).enabled = true := by simp [he]
  by_cases h : s.rp.state = .idle
  · exact (if_pos h).trans (if_neg hcue)
  · exact (if_neg h).trans (if_neg hcue)

theorem actPlay_of_reel {s : State} {x : Word} {n : Fin 4} (h : x.toNat = n.val) : s.actPlay x = s.takeCue .playWord n := by
  unfold actPlay
  rw [dif_pos (by omega)]
  exact congrArg _ (Fin.ext h)

/-! ### Restart -/

theorem discardInFlight_eq (s : State) (mine : Owner → Bool) : s.discardInFlight mine = { s with
    mp := { s.mp with inFlight := s.mp.inFlight.map (fun f => if mine f.req.owner then { f with discard := true } else f) } } := by
  have hsame : ∀ x, x = s.mp.inFlight → s = { s with mp := { s.mp with inFlight := x } } := by
    rintro _ rfl
    rfl
  unfold discardInFlight
  cases hf : s.mp.inFlight with
  | none => exact hsame _ hf.symm
  | some f =>
    dsimp only
    split
    next h => simp [h, setMp]
    next h => exact hsame _ (by simp [h, hf])

theorem isAbandoned_iff (o : Owner) :
    o.isAbandoned = true ↔ o ∈ [Owner.profileRead, .dirRead, .segRead, .walkFlag, .hitFlag] := by
  simp [Owner.isAbandoned, or_assoc]

theorem jcRestarted_eq (s : State) : s.jc.restarted = s.jcRestarted := by
  unfold Jc.restarted jcRestarted
  cases s.jc.openDrawn <;> rfl

/-- The port at the acceptance of a restart, before the root read is asked (R183, R184). -/
def mpRestarted (m : Mp) : Mp :=
  { (m.withdrawn placeSpc).withdrawn placeCt with
    sense := .odd, check := true
    inFlight := m.inFlight.map (fun f =>
      if f.req.owner ∈ [Owner.profileRead, .dirRead, .segRead, .walkFlag, .hitFlag] then { f with discard := true } else f) }

/-- Everything that an acceptance gives the blocks (R201), before the transfer that waits is handed on and the root is asked. -/
theorem acceptRestart_steps (s : State) : s.acceptRestart = askRoot (handWaiting
    { (s.grantFirst (fun _ => true)).restarted with mp := mpRestarted (s.grantFirst (fun _ => true)).mp }) := by
  unfold acceptRestart
  dsimp only
  rw [snapshot_loseMarks, discardInFlight_eq]
  simp only [isAbandoned_iff]
  refine congrArg (fun x => askRoot (handWaiting x)) ?_
  simp only [withdraw, setMp, setSpc, setJc, setRp, setCt, setPu, jcRestarted_eq, restarted]
  rfl

theorem mpRestarted_asking (m : Mp) : (mpRestarted m).asking placeSpc (readOf .rootRead (wordAt 0)) =
    { (m.withdrawn placeCt).asking placeSpc (readOf .rootRead (wordAt 0)) with
      sense := .odd, check := true
      inFlight := m.inFlight.map (fun f =>
        if f.req.owner ∈ [Owner.profileRead, .dirRead, .segRead, .walkFlag, .hitFlag] then { f with discard := true } else f) } := by
  have hne : placeSpc ≠ placeCt := by decide
  simp only [mpRestarted, Mp.asking, Mp.withdrawn, tset_comm _ _ _ hne, tset_tset]

theorem handWaiting_of_ne {s : State} (h : ∀ w ∈ s.up.waiting, w.place ≠ .forPort) : s.handWaiting = s := by
  unfold handWaiting
  split
  next t hw => exact absurd rfl (h _ hw)
  next => rfl

theorem handWaiting_of_forPort {s : State} {x : HostTransfer} (h : s.up.waiting = some ⟨x, .forPort⟩) :
    s.handWaiting = { s with
      up := { s.up with waiting := some ⟨x, .atPort⟩ }
      mp := s.mp.asking placeAq { owner := .passive, op := opOf x, word := wordOfTransfer x } } := by
  simp only [handWaiting, h]
  rfl

theorem acceptRestart_eq {s : State} (h : ∀ w ∈ s.up.waiting, w.place ≠ .forPort) :
    s.acceptRestart = (s.grantFirst (fun _ => true)).restarted := by
  rw [acceptRestart_steps, handWaiting_of_ne (by simpa [restarted] using h)]
  refine (congrArg (fun m => { (s.grantFirst (fun _ => true)).restarted with mp := m })
    (mpRestarted_asking (s.grantFirst (fun _ => true)).mp)).trans ?_
  rfl

theorem grantFirst_setUp (s : State) (u : Up) (mine : Place → Bool) :
    State.grantFirst { s with up := u } mine = { s.grantFirst mine with up := u } := by
  unfold grantFirst
  rw [show State.grantDue { s with up := u } s.mp.held = s.grantDue s.mp.held from rfl]
  cases hdue : s.grantDue s.mp.held with
  | none => rfl
  | some p =>
    cases hm : mine p
    · simp [hm]
    · cases Config.grantBeforeEvent s.freeCount <;> cases hr : tget s.mp.requests p <;>
        simp [hm, hr, setFreeCount, grantAt, setMp]

theorem acceptRestart_of_forPort {s : State} {x : HostTransfer} (h : s.up.waiting = some ⟨x, .forPort⟩) :
    s.acceptRestart = { State.restarted (State.grantFirst { s with up := { s.up with waiting := some ⟨x, .atPort⟩ } } (fun _ => true)) with
      mp := (State.restarted (State.grantFirst { s with up := { s.up with waiting := some ⟨x, .atPort⟩ } } (fun _ => true))).mp.asking
        placeAq { owner := .passive, op := opOf x, word := wordOfTransfer x } } := by
  have hne : placeAq ≠ placeSpc := by decide
  have hcomm : ((mpRestarted (s.grantFirst (fun _ => true)).mp).asking placeAq
        { owner := .passive, op := opOf x, word := wordOfTransfer x }).asking placeSpc (readOf .rootRead (wordAt 0))
      = ((mpRestarted (s.grantFirst (fun _ => true)).mp).asking placeSpc (readOf .rootRead (wordAt 0))).asking placeAq
        { owner := .passive, op := opOf x, word := wordOfTransfer x } := by
    simp only [Mp.asking, tset_comm _ _ _ hne]
  rw [mpRestarted_asking] at hcomm
  rw [acceptRestart_steps, handWaiting_of_forPort (x := x) (by simpa [restarted] using h),
    grantFirst_setUp s { s.up with waiting := some ⟨x, .atPort⟩ }]
  refine Eq.trans (b := { (s.grantFirst (fun _ => true)).restarted with
    up := { (s.grantFirst (fun _ => true)).up with waiting := some ⟨x, .atPort⟩ }
    mp := ((mpRestarted (s.grantFirst (fun _ => true)).mp).asking placeAq
        { owner := .passive, op := opOf x, word := wordOfTransfer x }).asking placeSpc (readOf .rootRead (wordAt 0)) }) rfl ?_
  have hup : (s.grantFirst (fun _ => true)).up = s.up := by simp
  rw [hcomm, hup]
  rfl

theorem restarted_part (s : State) : s.restarted.spc.part ≠ .passive := by simp [restarted]

end State
end Sys2Proof.Machine

namespace Sys2Proof.Proofs
open Sys2Proof.Machine Sys2Proof.Machine.State

/-- Settles O29: the seal word cancels a pending standby, and seals the batch that has an entry. -/
theorem sealWordSealsOrSealsNothing : Obligations.SealWordSealsOrSealsNothing := by
  refine ⟨fun s f t i b hs hpart h hc hstop hi hb he => ?_, fun s f t hs hpart h hc hstop hnone => ?_⟩
  · refine congrArg Host.Outcome.next (controlWord hs h hpart hc rfl ?_)
    refine (actSeal_of_noStop (by exact hstop)).trans ?_
    rw [cancelStandby_eq, sealDrawn_of_entries _ (by exact hi) (by exact hb) he]
    rfl
  · refine congrArg Host.Outcome.next (controlWord hs h hpart hc rfl ?_)
    refine (actSeal_of_noStop (by exact hstop)).trans ?_
    rw [cancelStandby_eq, sealDrawn_of_none _ (by exact hnone)]
    rfl

/-- Settles O31: both words make a snapshot due with what they name. -/
theorem reportAndAcknowledgeWords : Obligations.ReportAndAcknowledgeWords :=
  ⟨fun _ _ _ hs hpart h hc => congrArg Host.Outcome.next (controlWord hs h hpart hc rfl rfl),
    fun _ _ _ hs hpart h hc => congrArg Host.Outcome.next (controlWord hs h hpart hc rfl rfl)⟩

/-- Settles O32: a quiet part enters STANDBY, and is woken by what is still queued; otherwise the standby pends. -/
theorem standbyWordEntersOrPends : Obligations.StandbyWordEntersOrPends := by
  intro s f t hs hpart h hc
  have henter : s.partQuiet → exec .standbyWord s = .next (State.endStep (State.standbyEntered { s with
      memory := s.memory.after f, mp := s.mp.freed, aq := s.nextQueue, up := s.nextUp })) := fun hquiet => by
    refine congrArg Host.Outcome.next (controlDone_finds hs h hpart hc rfl ?_ (fun _ hw => hw)
      (passiveServed_of_ne standbyEntered_awake))
    exact (if_pos ((quiet_iff _).mpr hquiet)).trans (enterStandby_eq _)
  refine ⟨fun hquiet hq => ?_, fun hquiet hq => ?_, fun hquiet => ?_⟩
  · rw [henter hquiet, standbyEntered, if_pos hq, if_pos hq]
    rfl
  · rw [henter hquiet, standbyEntered, if_neg hq, if_neg hq, ← hpart]
    rfl
  · refine congrArg Host.Outcome.next (controlWord hs h hpart hc rfl ?_)
    exact if_neg (fun hq => hquiet ((quiet_iff _).mp hq))

/-- Settles O35: the acceptance gives every block its value of R201, and hands on the transfer that waits. -/
theorem restartWordIsAcceptedOrRefused : Obligations.RestartWordIsAcceptedOrRefused := by
  have hwait : ∀ s : State, (∀ w ∈ s.up.waiting, w.place ≠ .forPort) → ∀ w ∈ s.nextUp.waiting, w.place ≠ .forPort := by
    intro s h w hw
    unfold nextUp at hw
    split at hw
    · split at hw
      · simp at hw
      · simp only [Option.mem_def, Option.some.injEq] at hw
        simp [← hw]
    · exact h w hw
  have hrun : ∀ (s x : State) (f : InFlight) (t : HostTransfer), s.settled → s.headWriting f t → controlOf t = some .restart →
      (s.spc.part = .running ∨ s.spc.part = .passive) →
      State.actRestart { s with memory := s.memory.after f, mp := s.mp.freed, aq := s.nextQueue, up := s.nextUp } = x →
      x.spc.part ≠ .passive → x.noDirect → exec .restartWord s = .next x.endStep := by
    intro s x f t hs h hc hpart hx hxpart hxdirect
    have ha : s.headAction = some (.restart, t.data) := by
      rw [headAction_eq h, hc]
      exact if_pos (hpart.imp_right (fun hp => ⟨hp, rfl⟩))
    refine congrArg Host.Outcome.next ?_
    rw [controlDone_run s _ _ .restart t.data f ha rfl h.1 h.inFlightFor.2.1 h.2.2.1, h.complete h.write, headLeaves_eq]
    exact (congrArg settle hx).trans (settle_of_noDirect hxpart hxdirect)
  have hdirect : ∀ (s : State) (f : InFlight) (t : HostTransfer), s.settled → s.headWriting f t →
      ∀ w ∈ s.nextUp.waiting, w.place ≠ .direct := fun s f t hs h =>
    nextUp_direct s (directServed_inFlight s hs.1 f h.1 h.2.2.1 (by simp [h.inFlightFor.2.1]))
  refine ⟨?quiet, ?refused, ?arrived, ?queued, ?handed⟩
  case quiet =>
    intro s f t hs hpart h hc hquiet hw
    refine hrun s _ f t hs h hc (.inl hpart) ?_ (restarted_part _) (by simpa [restarted, noDirect] using hdirect s f t hs h)
    exact (if_pos (.inr ((quiet_iff _).mpr hquiet))).trans (acceptRestart_eq (by exact hwait s hw))
  case refused =>
    intro s f t hs hpart h hc hquiet
    refine hrun s _ f t hs h hc (.inl hpart) (if_neg ?_) (by show s.spc.part ≠ _; simp [hpart]) (hdirect s f t hs h)
    rintro (hp | hq)
    · exact absurd hp (by show s.spc.part ≠ _; simp [hpart])
    · exact hquiet ((quiet_iff _).mp hq)
  case arrived =>
    intro s f w hs hpart hf hop hw hc
    refine congrArg Host.Outcome.next (onCompletion_finds hs hf (by simp) rfl ?_ ?_ (passiveServed_of_ne (restarted_part _)))
    · rw [complete_of_hostWrite s f hop (by rw [hf.2.1]; rfl)]
      simp only [passiveDone, hw]
      refine (if_pos (by simp [isRestartWrite, hc, hpart])).trans ?_
      rw [acceptRestart_eq (fun v hv => by cases hv), answerCarried_eq, if_neg hop]
    · exact fun v hv => by simp [restarted] at hv
  case queued =>
    intro s f t hs hpart h hc hw
    refine hrun s _ f t hs h hc (.inr hpart) ?_ (restarted_part _) (by simpa [restarted, noDirect] using hdirect s f t hs h)
    exact (if_pos (.inl hpart)).trans (acceptRestart_eq (by exact hwait s hw))
  case handed =>
    intro s s1 f t x hs hpart h hc hw hs1
    have hup : s.nextUp = s.up := by simp [nextUp, hw]
    have hx : State.actRestart { s with memory := s.memory.after f, mp := s.mp.freed, aq := s.nextQueue, up := s.nextUp }
        = { s1 with mp := s1.mp.asking placeAq { owner := .passive, op := opOf x, word := wordOfTransfer x } } := by
      refine (if_pos (.inl hpart)).trans ((acceptRestart_of_forPort (by rw [hup]; exact hw)).trans ?_)
      rw [hs1, hup]
    refine hrun s _ f t hs h hc (.inr hpart) hx ?_ ?_
    · show s1.spc.part ≠ .passive
      rw [hs1]
      exact restarted_part _
    · intro v hv
      simp only [hs1, restarted, grantFirst_frame, Option.mem_def, Option.some.injEq] at hv
      simp [← hv]

/-- Settles O36: the play word is a cue for its reel, and out of range above. -/
theorem playWordIsACue : Obligations.PlayWordIsACue := by
  intro s f t hs hpart h hc
  refine ⟨fun n hn he hidle => ?_, fun n hn he hbusy => ?_, fun n hn he => ?_, fun hn => ?_⟩
  · exact congrArg Host.Outcome.next (controlWord hs h hpart hc rfl
      ((actPlay_of_reel hn).trans (takeCue_of_start _ (by exact hidle) (by exact he))))
  · exact congrArg Host.Outcome.next (controlWord hs h hpart hc rfl
      ((actPlay_of_reel hn).trans (takeCue_of_busy _ (by exact hbusy) (by exact he))))
  · exact congrArg Host.Outcome.next (controlWord hs h hpart hc rfl
      ((actPlay_of_reel hn).trans (takeCue_of_disabled _ (by exact he))))
  · exact congrArg Host.Outcome.next (controlWord hs h hpart hc rfl (dif_neg (Nat.not_lt.mpr hn)))

/-- Settles O37: the part state decides what an edge on a cue line is. -/
theorem cueLineEdgeByPartState : Obligations.CueLineEdgeByPartState := by
  intro s n hs
  have hrun : ∀ x : State, s.rp.watching = true → s.cueOnLine n = x → x.settle = x.endStep →
      exec (.cueLineEdge n) s = .next x.endStep := fun x hw hx hsettle =>
    (if_pos hw).trans (congrArg Host.Outcome.next (by rw [hx, hsettle]))
  refine ⟨fun hw => if_neg (by simp [hw]), fun hw hpart he hidle => hrun _ hw ?_ (settle_apart hs),
    fun hw hpart he hbusy => hrun _ hw ?_ (settle_apart hs), fun hw hpart he => hrun _ hw ?_ (settle_apart hs),
    fun sub hw hpart => hrun _ hw ?_ (settle_apart hs), fun hw hpart he hidle hpending => hrun _ hw ?_ ?_⟩
  · simp only [cueOnLine, hpart]
    exact takeCue_of_start _ hidle he
  · simp only [cueOnLine, hpart]
    exact takeCue_of_busy _ hbusy he
  · obtain hpart | hpart := hpart
    · simp only [cueOnLine, hpart]
      exact takeCue_of_disabled _ he
    · simp only [cueOnLine, hpart]
      exact if_neg (by simp [he])
  · simp only [cueOnLine, hpart]
    rfl
  · simp only [cueOnLine, hpart, he, if_true, wake_eq]
    rw [takeCue_of_start _ (by exact hidle) (by exact he), playStarted, spcCancelled_of_not (by exact hpending),
      ruCancelled_of_not (by exact hpending)]
    rfl
  · exact settle_of_served _ (directServed_flying s hs.1) (passiveServed_of_ne (by simp))

end Sys2Proof.Proofs
end

