-- ==== Sys2Proof/Proofs/ReelStop.lean ====
section
set_option Elab.async false
/-!
RESULT. The reel stop and the reel abort, with the recheck of the drawn write that waits (O30, O34).
-/
namespace Sys2Proof.Machine

/-! ### Reports that a snapshot already asked for does not change -/

theorem Ru.raise_dueStatus (u : Ru) (c : Cause) :
    ({ u with dueStatus := true } : Ru).raise c = { u.raise c with dueStatus := true } := by
  unfold Ru.raise
  by_cases h : u.isSet c = true
  · rw [if_pos h, if_pos (by exact h)]
  · rw [if_neg h, if_neg (by exact h)]

theorem Ru.count_dueStatus (u : Ru) (k : CounterKind) :
    ({ u with dueStatus := true } : Ru).count k = { u.count k with dueStatus := true } := by
  unfold Ru.count
  dsimp only
  split_ifs
  · rfl
  · rfl
  · exact Ru.raise_dueStatus { u with counters := tset u.counters k.index { tget u.counters k.index with flag := true } } _

theorem Ru.report_dueStatus (u : Ru) (k : FaultKind) (o : FaultOrigin) (a : Addr) :
    ({ u with dueStatus := true } : Ru).report k o a = { u.report k o a with dueStatus := true } := by
  unfold Ru.report
  cases u.fault <;> exact Ru.raise_dueStatus { u with fault := some _, dueFault := true } .fault

/-! ### The recheck of a waiting drawn write -/

theorem eligible_or_inRelease_iff (p : Player) (b : Batch) : (eligible p b || b.inRelease) = true ↔
    b.inRelease = true ∨ (b.phase = .sealed ∧ (b.isReel = true ∨ p = .idle)) := by
  rw [Bool.or_eq_true, eligible_iff]
  exact Or.comm

namespace State

theorem canFree_iff (s : State) : s.canFree = true ↔ s.jc.mayFree s.rp.state := by
  unfold canFree
  rw [Jc.any_iff]
  simp only [eligible_or_inRelease_iff]

theorem dropDrawn_eq (s : State) (a : Addr) : s.dropDrawn a = s.drawnDropped a := by
  unfold dropDrawn
  rw [headLeaves_eq]
  rfl

theorem entryComing_iff (s : State) (r : Requester) : s.entryComing r = true ↔ r ∈ s.jc.waiters.take s.jc.free := by
  simp [entryComing]

/-- The drawn write goes on waiting, or is dropped (R25, R28). -/
theorem recheckDrawn_of_stays {s : State} {ok : Bool} (hok : ok = true ↔ s.jc.mayFree s.rp.state)
    (h : s.drawnStays s.jc.waiters s.jc) : s.recheckDrawn ok = s := by
  unfold recheckDrawn
  split
  next w hw =>
    have hstays := h w hw
    split
    next hslot => exact if_pos (by rw [Bool.or_eq_true, hok]; simpa [hslot] using hstays)
    next hentry => exact if_pos (by rw [Bool.or_eq_true, hok, entryComing_iff]; simpa [hentry] using hstays)
    next => rfl
  next => rfl

theorem recheckDrawn_of_fails {s : State} {ok : Bool} {w : Staged} (hok : ok = true ↔ s.jc.mayFree s.rp.state)
    (hw : s.jc.drawn = some w) (h : ¬s.drawnStays s.jc.waiters s.jc) : s.recheckDrawn ok = s.drawnDropped w.canvas := by
  have hfails : ¬(w.wait = .base ∨ (w.wait = .slot ∧ s.jc.drawnCount < 6)
      ∨ (w.wait = .entry ∧ .aq ∈ s.jc.waiters.take s.jc.free) ∨ s.jc.mayFree s.rp.state) := fun hs =>
    h (fun v hv => by
      rw [hw, Option.mem_some_iff] at hv
      exact hv ▸ hs)
  rw [← dropDrawn_eq]
  simp only [recheckDrawn, hw]
  split
  next hslot => exact if_neg (by rw [Bool.or_eq_true, hok]; simpa [hslot] using hfails)
  next hentry => exact if_neg (by rw [Bool.or_eq_true, hok, entryComing_iff]; simpa [hentry] using hfails)
  next hbase => exact absurd (.inl hbase) hfails

end State

/-! ### The slots at a reel stop -/

theorem Jc.mapBatches_figures (j : Jc) (g : Batch → Batch) (hentries : ∀ b, (g b).entries = b.entries)
    (horigin : ∀ b, (g b).origin = b.origin) (hphase : ∀ b, (g b).phase = b.phase) :
    (j.mapBatches g).inUse = j.inUse ∧ (j.mapBatches g).drawnCount = j.drawnCount
      ∧ ∀ p, (j.mapBatches g).mayFree p ↔ j.mayFree p := by
  have hat : ∀ i, (j.mapBatches g).at i = (j.at i).map g := fun i => j.at_mapBatches g i
  refine ⟨?_, ?_, fun p => ?_⟩
  · unfold Jc.inUse
    congr 1
    refine List.map_congr_left (fun i _ => ?_)
    unfold Jc.entryCount
    rw [hat]
    cases j.at i <;> simp [hentries]
  · unfold Jc.drawnCount Jc.countOf
    congr 2
    funext i
    unfold Jc.slotHas
    rw [hat]
    cases j.at i <;> simp [Batch.isDrawn, horigin]
  · unfold Jc.mayFree
    refine exists_congr (fun i => ?_)
    rw [hat]
    cases j.at i <;> simp [Batch.inRelease, Batch.isReel, Batch.isDrawn, horigin, hphase]

/-- What a stop leaves of a batch that the RE has taken and not yet flipped (R43). -/
def Batch.holdCleared (b : Batch) : Batch := if b.awaitsFlip then { b with hold := 1 } else b

theorem Batch.holdCleared_entries (b : Batch) : b.holdCleared.entries = b.entries := by
  unfold Batch.holdCleared
  split <;> rfl

theorem Batch.holdCleared_origin (b : Batch) : b.holdCleared.origin = b.origin := by
  unfold Batch.holdCleared
  split <;> rfl

theorem Batch.holdCleared_phase (b : Batch) : b.holdCleared.phase = b.phase := by
  unfold Batch.holdCleared
  split <;> rfl

/-- A slot at a reel stop: the discard, and then the cleared hold (R31, R43). -/
theorem stoppedSlot_eq (x : Option Batch) :
    State.stoppedSlot x = (x.filter (fun b => !b.discardable)).map Batch.holdCleared := by
  cases x with
  | none => rfl
  | some b =>
    cases hd : b.isDrawn <;> cases hp : b.phase <;>
      simp [State.stoppedSlot, Batch.discardable, Batch.holdCleared, Batch.awaitsFlip, Batch.isReel, Batch.isOpen,
        Batch.isSealed, hd, hp, Option.filter]

theorem stoppedSlot_inRelease (x : Option Batch) :
    (∃ b ∈ State.stoppedSlot x, (b.isReel && b.inRelease) = true) ↔ ∃ b ∈ x, (b.isReel && b.inRelease) = true := by
  cases x with
  | none => simp [State.stoppedSlot]
  | some b =>
    cases hd : b.isDrawn <;> cases hp : b.phase <;>
      simp [State.stoppedSlot, Batch.isReel, Batch.inRelease, Batch.isDrawn, hp] <;> simp_all [Batch.isDrawn]

namespace State

/-! ### The stop -/

/-- The journal after a reel stop (R18, R31, R43). -/
def jcStopped (s : State) : Jc :=
  { s.jc with
    slots := tmap stoppedSlot s.jc.slots
    lowFlag := s.jc.lowFlag && decide (Jc.free { s.jc with slots := tmap stoppedSlot s.jc.slots } ≤ s.jc.almostFull)
    reel := none, reelOpen := none, waiters := s.jc.waiters.filter (fun r => r != .rp) }

/-- What a stop and an abort leave before the player changes state; the RP's fields are given. -/
def reelLeft (s : State) (rp : Rp) : State :=
  { s with
    jc := s.jcStopped, re := { s.re with hold := 0 }, rp := rp, pu := { s.pu with heldReel := none }
    mp := { s.mp.withdrawn placeRp with
      inFlight := s.mp.inFlight.map (fun f =>
        if f.req.owner ∈ [Owner.header, .pairRead, .baseReel] then { f with discard := true } else f) }
    ct := { s.ct with
      offerRp := none
      current := s.ct.current.map (fun q => if q.kind = .reelUpdate then { q with discard := true } else q) } }

theorem jcStopped_at (s : State) (i : Fin 8) : s.jcStopped.at i = stoppedSlot (s.jc.at i) := by
  simp [jcStopped, Jc.at]

theorem jcStopped_reelInRelease (s : State) : s.jcStopped.reelInRelease = s.jc.reelInRelease := by
  unfold Jc.reelInRelease
  rw [Bool.eq_iff_iff, Jc.any_iff, Jc.any_iff]
  refine exists_congr (fun i => ?_)
  rw [jcStopped_at]
  exact stoppedSlot_inRelease _

/-- The state after a reel stop, the drawn write that waits aside (R113). -/
def stopped (s : State) : State :=
  { s.reelLeft s.rpStopped with
    ru := if s.rp.state = s.rpStopped.state then s.ru else { s.ru with dueStatus := true } }

theorem isReelRead_iff (o : Owner) : o.isReelRead = true ↔ o ∈ [Owner.header, .pairRead, .baseReel] := by
  cases o <;> simp [Owner.isReelRead]

theorem stoppedFrom_stopped (s : State) : s.stoppedFrom s.stopped :=
  ⟨rfl, rfl, jcStopped_at s, rfl, rfl, rfl, fun q hq => by simp [stopped, reelLeft, hq],
    fun h => by simp [stopped, reelLeft, h], rfl, rfl, rfl, rfl, rfl, rfl, rfl, rfl, rfl, rfl⟩

/-- What is withdrawn and discarded for the reel, before the drawn write is rechecked (R18, R31). -/
def reelWithdrawn (s : State) : State := s.withdrawReel.setJc s.withdrawReel.jc.discardReels

theorem withdrawReel_eq (s : State) : s.withdrawReel = { s with
    jc := { s.jc with reel := none, reelOpen := none, waiters := s.jc.waiters.filter (fun r => r != .rp) }
    pu := { s.pu with heldReel := none }
    mp := { s.mp.withdrawn placeRp with
      inFlight := s.mp.inFlight.map (fun f =>
        if f.req.owner ∈ [Owner.header, .pairRead, .baseReel] then { f with discard := true } else f) }
    ct := { s.ct with
      offerRp := none
      current := s.ct.current.map (fun q => if q.kind = .reelUpdate then { q with discard := true } else q) } } := by
  unfold withdrawReel
  dsimp only
  rw [discardInFlight_eq]
  simp only [isReelRead_iff]
  rfl

theorem clearHold_reelWithdrawn (s : State) (rp : Rp) : s.reelWithdrawn.clearHold.setRp rp = s.reelLeft rp := by
  have hslots : tmap (Option.map Batch.holdCleared) (tmap (Option.filter (fun b => !b.discardable)) s.jc.slots)
      = tmap stoppedSlot s.jc.slots :=
    table_ext (fun i => by simp [tmap, stoppedSlot_eq])
  have hfree : Jc.free { s.jc with slots := tmap (Option.filter (fun b => !b.discardable)) s.jc.slots }
      = Jc.free { s.jc with slots := tmap stoppedSlot s.jc.slots } := by
    unfold Jc.free
    rw [← hslots]
    exact congrArg (512 - ·) ((Jc.mapBatches_figures { s.jc with slots := tmap (Option.filter (fun b => !b.discardable)) s.jc.slots }
      _ Batch.holdCleared_entries Batch.holdCleared_origin Batch.holdCleared_phase).1).symm
  unfold reelWithdrawn
  rw [withdrawReel_eq]
  refine Eq.trans (b := { s.reelLeft rp with jc := { s.jc with
    slots := tmap (Option.map Batch.holdCleared) (tmap (Option.filter (fun b => !b.discardable)) s.jc.slots)
    lowFlag := s.jc.lowFlag
      && decide (Jc.free { s.jc with slots := tmap (Option.filter (fun b => !b.discardable)) s.jc.slots } ≤ s.jc.almostFull)
    reel := none, reelOpen := none, waiters := s.jc.waiters.filter (fun r => r != .rp) } }) rfl ?_
  rw [hslots, hfree]
  rfl

/-! ### The drawn write that a stop may drop -/

/-- The drawn write that waits is dropped with the fault at an address, or stays. -/
def dropsDrawn (s : State) : Option Addr → State
  | none => s
  | some a => s.drawnDropped a

/-- A snapshot asked for, and the Reel Player's fields, stand beside the drop of the drawn write. -/
theorem dropsDrawn_player (s : State) (o : Option Addr) (rp : Rp) :
    { s.dropsDrawn o with rp := rp, ru := { (s.dropsDrawn o).ru with dueStatus := true } }
      = dropsDrawn { s with rp := rp, ru := { s.ru with dueStatus := true } } o := by
  cases o with
  | none => rfl
  | some a =>
    simp only [dropsDrawn, drawnDropped, Ru.report_dueStatus, Ru.count_dueStatus]
    rfl

theorem dropsDrawn_frame (s : State) (o : Option Addr) :
    (s.dropsDrawn o).spc = s.spc ∧ (s.dropsDrawn o).rp = s.rp ∧ (s.dropsDrawn o).re = s.re
      ∧ (s.dropsDrawn o).jc.slots = s.jc.slots := by
  cases o <;> exact ⟨rfl, rfl, rfl, rfl⟩

/-- What the drawn write that waits comes to at a reel stop. -/
def dropsAtStop (s : State) (o : Option Addr) : Prop :=
  (s.drawnStays (s.jc.waiters.filter (fun r => r != .rp)) s.jcStopped → o = none)
    ∧ ∀ w, s.jc.drawn = some w → ¬s.drawnStays (s.jc.waiters.filter (fun r => r != .rp)) s.jcStopped → o = some w.canvas

/-- The RP at a stop or abort, in the state in which it is taken. -/
def rpLeft (s : State) (aborted : Bool) : Rp :=
  { s.rp with
    pendingCue := if aborted then s.rp.pendingCue else none, unflipped := 0, finalFlipped := false, header := none
    step := .none, endedDue := aborted }

theorem reelWithdrawn_mapBatches (s : State) : s.reelWithdrawn.jc.mapBatches Batch.holdCleared = s.jcStopped :=
  congrArg State.jc (clearHold_reelWithdrawn s s.rp)

/-- The figures that decide on the drawn write are those after the stop. -/
theorem reelWithdrawn_drawnStays (s : State) : s.reelWithdrawn.drawnStays s.reelWithdrawn.jc.waiters s.reelWithdrawn.jc
    ↔ s.drawnStays (s.jc.waiters.filter (fun r => r != .rp)) s.jcStopped := by
  obtain ⟨hinUse, hdrawn, hmay⟩ := s.reelWithdrawn.jc.mapBatches_figures _ Batch.holdCleared_entries
    Batch.holdCleared_origin Batch.holdCleared_phase
  rw [reelWithdrawn_mapBatches] at hinUse hdrawn hmay
  have hjc : s.reelWithdrawn.jc.drawn = s.jc.drawn ∧ s.reelWithdrawn.jc.waiters = s.jc.waiters.filter (fun r => r != .rp)
      ∧ s.reelWithdrawn.rp = s.rp := by
    unfold reelWithdrawn
    rw [withdrawReel_eq]
    exact ⟨rfl, rfl, rfl⟩
  obtain ⟨hw, hwaiters, hrp⟩ := hjc
  unfold drawnStays Jc.free
  rw [hw, hwaiters, hrp, hdrawn, hinUse]
  simp only [hmay]

theorem stopReel_eq (s : State) (aborted : Bool) : ∃ o, s.dropsAtStop o ∧
    s.stopReel aborted = if s.jc.reelInRelease then ((s.reelLeft (s.rpLeft aborted)).dropsDrawn o).setPlayer .stopping
      else ((s.reelLeft (s.rpLeft aborted)).dropsDrawn o).rpIdle := by
  have hrp : s.reelWithdrawn.rp = s.rp := by
    unfold reelWithdrawn
    rw [withdrawReel_eq]
    rfl
  have hcore : ∃ o, s.dropsAtStop o ∧ s.withdrawReel.discardReels = s.reelWithdrawn.dropsDrawn o := by
    by_cases hstays : s.drawnStays (s.jc.waiters.filter (fun r => r != .rp)) s.jcStopped
    · exact ⟨none, ⟨fun _ => rfl, fun _ _ h => absurd hstays h⟩,
        recheckDrawn_of_stays (canFree_iff _) ((reelWithdrawn_drawnStays s).mpr hstays)⟩
    · have hdrawn : s.reelWithdrawn.jc.drawn = s.jc.drawn := by
        unfold reelWithdrawn
        rw [withdrawReel_eq]
        rfl
      cases hw : s.jc.drawn with
      | none => exact absurd (fun w h => by simp [hw] at h) hstays
      | some w =>
        refine ⟨some w.canvas, ⟨fun h => absurd h hstays, fun v hv _ => ?_⟩,
          recheckDrawn_of_fails (canFree_iff _) (hdrawn.trans hw) (fun h => hstays ((reelWithdrawn_drawnStays s).mp h))⟩
        rw [hw, Option.some.injEq] at hv
        rw [hv]
  obtain ⟨o, ho, hdiscard⟩ := hcore
  refine ⟨o, ho, ?_⟩
  have hleft : ∀ rp, (s.reelWithdrawn.dropsDrawn o).clearHold.setRp rp = (s.reelLeft rp).dropsDrawn o := fun rp => by
    rw [← clearHold_reelWithdrawn]
    cases o <;> rfl
  have hrpLeft : ({ (s.reelWithdrawn.dropsDrawn o).clearHold.rp with
      pendingCue := if aborted then (s.reelWithdrawn.dropsDrawn o).clearHold.rp.pendingCue else none
      unflipped := 0, finalFlipped := false, header := none, step := .none, endedDue := aborted } : Rp) = s.rpLeft aborted := by
    have : (s.reelWithdrawn.dropsDrawn o).clearHold.rp = s.rp := by
      rw [← hrp]
      cases o <;> rfl
    rw [this]
    rfl
  unfold stopReel
  dsimp only
  rw [hdiscard, hrpLeft, hleft]
  have hslots : ((s.reelLeft (s.rpLeft aborted)).dropsDrawn o).jc.reelInRelease = s.jc.reelInRelease := by
    rw [← jcStopped_reelInRelease s]
    cases o <;> rfl
  rw [hslots]

/-! ### The entry to IDLE -/

theorem setPlayer_of_ne {s : State} {p : Player} (h : s.rp.state ≠ p) : s.setPlayer p = { s with
    rp := { s.rp with state := p }, ru := { s.ru with dueStatus := true } } :=
  if_neg h

theorem standbyCheck_eq {s : State} (hpart : s.spc.part = .running) :
    s.standbyCheck = if s.spc.standbyPending = true ∧ s.partQuiet then s.standbyEntered else s := by
  unfold standbyCheck
  by_cases h : s.spc.standbyPending = true ∧ s.partQuiet
  · rw [if_pos h, if_pos (by rw [Bool.and_eq_true, Bool.and_eq_true, quiet_iff]; exact ⟨⟨h.1, by simp [hpart]⟩, h.2⟩),
      enterStandby_eq]
  · rw [if_neg h, if_neg]
    rw [Bool.and_eq_true, Bool.and_eq_true, quiet_iff]
    exact fun hq => h ⟨hq.1.1, hq.2⟩

/-- In RUNNING, IDLE checks a pending standby and then serves a pending cue (R111, R115, R202). -/
theorem standbyCheck_servePending {s : State} (hpart : s.spc.part = .running) : s.standbyCheck.servePending = s.atIdle := by
  rw [standbyCheck_eq hpart]
  unfold atIdle
  split
  next h => exact servePending_of_none h.2.2.2.1
  next => rfl

theorem rpIdle_of_ended {s : State} (hpart : s.spc.part = .running) (h : s.rp.state ≠ .idle) (he : s.rp.endedDue = true) :
    s.rpIdle = s.reelEnded.atIdle := by
  unfold rpIdle
  dsimp only
  rw [setPlayer_of_ne h, if_pos (by exact he)]
  exact standbyCheck_servePending (s := s.reelEnded) hpart

theorem rpIdle_of_not {s : State} (hpart : s.spc.part = .running) (h : s.rp.state ≠ .idle) (he : s.rp.endedDue = false) :
    s.rpIdle = State.atIdle { s with rp := { s.rp with state := .idle }, ru := { s.ru with dueStatus := true } } := by
  unfold rpIdle
  dsimp only
  rw [setPlayer_of_ne h, if_neg (by simp [he])]
  exact standbyCheck_servePending (s := { s with rp := { s.rp with state := .idle }, ru := { s.ru with dueStatus := true } }) hpart

theorem atIdle_of_noCue {s : State} (h : s.rp.pendingCue = none) :
    s.atIdle = if s.spc.standbyPending = true ∧ s.partQuiet then s.standbyEntered else s := by
  unfold atIdle
  rw [servePending_of_none h]

/-! ### Reel stop and reel abort -/

theorem reelStopped_of_dropsAtStop {s : State} {o : Option Addr} (h : s.dropsAtStop o) : s.reelStopped (s.stopped.dropsDrawn o) := by
  obtain ⟨hstays, hdrops⟩ := h
  refine ⟨s.stopped, stoppedFrom_stopped s, fun hs => ?_, fun w hw hs => ?_⟩
  · rw [hstays hs]
    rfl
  · rw [hdrops w hw hs]
    rfl

/-- A stop of a reel, and the standby that may follow (R113, R202). -/
theorem stopReel_stops {s : State} (hpart : s.spc.part = .running) (h : s.rp.state ≠ .idle) : ∃ u, s.reelStopped u ∧
    s.stopReel false = if u.spc.standbyPending = true ∧ u.partQuiet then u.standbyEntered else u := by
  obtain ⟨o, ho, heq⟩ := stopReel_eq s false
  refine ⟨_, reelStopped_of_dropsAtStop ho, ?_⟩
  obtain ⟨hspc, hrp, -, -⟩ := dropsDrawn_frame (s.reelLeft (s.rpLeft false)) o
  obtain ⟨-, hrpStopped, -, -⟩ := dropsDrawn_frame s.stopped o
  rw [heq]
  cases hserved : s.jc.reelInRelease with
  | true =>
    have hstate : s.rpStopped.state = .stopping := if_pos hserved
    have hbusy : ¬((s.stopped.dropsDrawn o).spc.standbyPending = true ∧ (s.stopped.dropsDrawn o).partQuiet) := by
      rintro ⟨-, -, hidle, -, -⟩
      rw [hrpStopped] at hidle
      exact absurd (hstate.symm.trans hidle) (by decide)
    rw [if_pos rfl, if_neg hbusy]
    by_cases hs : s.rp.state = .stopping
    · rw [setPlayer, if_pos (by rw [hrp]; exact hs)]
      have hleft : s.rpLeft false = s.rpStopped := by
        unfold rpLeft rpStopped
        rw [if_pos hserved, ← hs]
        rfl
      rw [stopped, hstate, if_pos hs, hleft]
      rfl
    · rw [setPlayer_of_ne (by rw [hrp]; exact hs), dropsDrawn_player, stopped, hstate, if_neg hs, hrp, rpStopped, if_pos hserved]
      rfl
  | false =>
    have hstate : s.rpStopped.state = .idle := if_neg (by simp [hserved])
    rw [if_neg (by simp), rpIdle_of_not (by rw [hspc]; exact hpart) (by rw [hrp]; exact h) (by rw [hrp]; rfl), dropsDrawn_player]
    have hx : ({ s.reelLeft (s.rpLeft false) with
        rp := { ((s.reelLeft (s.rpLeft false)).dropsDrawn o).rp with state := .idle }
        ru := { (s.reelLeft (s.rpLeft false)).ru with dueStatus := true } } : State) = s.stopped := by
      rw [hrp, stopped, hstate, if_neg h, rpStopped, hserved]
      rfl
    rw [hx]
    exact atIdle_of_noCue (by rw [hrpStopped]; rfl)

/-- What an abort adds to a stop `u` of the reel: the pending cue is kept, and the reel counts as ended (R116). -/
def abortEnd (s u : State) : State :=
  { u with
    rp := { u.rp with pendingCue := s.rp.pendingCue, endedDue := s.jc.reelInRelease }
    ru := if s.jc.reelInRelease then u.ru else u.ru.raise .reelEnded }

theorem dropsDrawn_rp (s : State) (o : Option Addr) (rp : Rp) :
    { s.dropsDrawn o with rp := rp } = dropsDrawn { s with rp := rp } o := by
  cases o <;> rfl

/-- What a stop and an abort do alike, as an abort (R116). -/
theorem stopReel_aborts {s : State} (hpart : s.spc.part = .running) (h : s.rp.state ≠ .idle) : ∃ u, s.reelStopped u
    ∧ ((s.abortEnd u).rp.state = .stopping → s.stopReel true = s.abortEnd u)
    ∧ ((s.abortEnd u).rp.state ≠ .stopping → s.stopReel true = (s.abortEnd u).atIdle) := by
  obtain ⟨o, ho, heq⟩ := stopReel_eq s true
  obtain ⟨hspc, hrp, -, -⟩ := dropsDrawn_frame (s.reelLeft (s.rpLeft true)) o
  obtain ⟨-, hrpStopped, -, -⟩ := dropsDrawn_frame s.stopped o
  refine ⟨_, reelStopped_of_dropsAtStop ho, ?_⟩
  rw [heq]
  cases hserved : s.jc.reelInRelease with
  | true =>
    have hstate : s.rpStopped.state = .stopping := if_pos hserved
    have hend : (s.abortEnd (s.stopped.dropsDrawn o)).rp.state = .stopping := by
      rw [abortEnd, hrpStopped]
      exact hstate
    refine ⟨fun _ => ?_, fun hne => absurd hend hne⟩
    rw [if_pos rfl, abortEnd, hserved, if_pos rfl, hrpStopped]
    refine Eq.trans ?_ (dropsDrawn_rp s.stopped o _).symm
    by_cases hs : s.rp.state = .stopping
    · rw [setPlayer, if_pos (by rw [hrp]; exact hs), stopped, hstate, if_pos hs, rpStopped, if_pos hserved, rpLeft, ← hs]
      rfl
    · rw [setPlayer_of_ne (by rw [hrp]; exact hs), dropsDrawn_player, hrp, stopped, hstate, if_neg hs, rpStopped, if_pos hserved]
      rfl
  | false =>
    have hstate : s.rpStopped.state = .idle := if_neg (by simp [hserved])
    have hend : (s.abortEnd (s.stopped.dropsDrawn o)).rp.state = .idle := by
      rw [abortEnd, hrpStopped]
      exact hstate
    refine ⟨fun hs => absurd (hend.symm.trans hs) (by simp), fun _ => ?_⟩
    rw [if_neg (by simp), rpIdle_of_ended (by rw [hspc]; exact hpart) (by rw [hrp]; exact h) (by rw [hrp]; rfl)]
    have hplayer := dropsDrawn_player (s.reelLeft (s.rpLeft true)) o
      { s.rpLeft true with state := .idle, endedDue := false }
    have hstopped : ({ s.reelLeft (s.rpLeft true) with
        rp := { s.rpLeft true with state := .idle, endedDue := false }
        ru := { (s.reelLeft (s.rpLeft true)).ru with dueStatus := true } } : State)
        = { s.stopped with rp := { s.rpStopped with pendingCue := s.rp.pendingCue, endedDue := false } } := by
      rw [stopped, hstate, if_neg h, rpStopped, hserved]
      rfl
    rw [hstopped] at hplayer
    refine congrArg atIdle ?_
    rw [abortEnd, hserved, if_neg (by simp), hrpStopped, reelEnded, hrp]
    refine (congrArg (fun t : State => { t with ru := t.ru.raise .reelEnded }) hplayer).trans ?_
    cases o <;> rfl

/-- An abort of a reel (R116). -/
theorem reelAbort_aborts {s : State} (hpart : s.spc.part = .running) (h : s.rp.state ≠ .idle) : ∃ u, s.abortedFrom u
    ∧ (u.rp.state = .stopping → s.reelAbort = u) ∧ (u.rp.state ≠ .stopping → s.reelAbort = u.atIdle) := by
  obtain ⟨u, hu, hstop, hidle⟩ := stopReel_aborts (s := { s with
    mp := { s.mp with cut := none }, ru := s.ru.report .reelAborted .reelUpdate (BitVec.ofNat 24 s.rp.readAddr) }) hpart h
  exact ⟨_, ⟨u, hu, rfl⟩, hstop, hidle⟩

/-- A stop leaves the SPC. -/
theorem reelStopped_spc {s u : State} (h : s.reelStopped u) : u.spc = s.spc := by
  obtain ⟨v, hv, hstays, hdrops⟩ := h
  obtain ⟨-, -, -, -, -, -, -, -, -, -, -, hspc, -⟩ := hv
  by_cases hd : s.drawnStays (s.jc.waiters.filter (fun r => r != .rp)) v.jc
  · rw [hstays hd, hspc]
  · cases hw : s.jc.drawn with
    | none => exact absurd (fun w h => by simp [hw] at h) hd
    | some w =>
      rw [hdrops w hw hd]
      exact hspc

theorem cutAtStop_eq (s : State) : s.stopCut = s.cutAtStop := by
  have hflip : s.reelFlipDue = true ↔ s.re.state = .armed ∧ s.re.hold = 0 ∧ ∃ i ∈ s.re.current, ∃ b ∈ s.jc.at i, b.isReel = true := by
    unfold reelFlipDue currentBatch
    cases hi : s.re.current with
    | none => simp
    | some i => cases hb : s.jc.at i <;> simp [hb, and_assoc]
  unfold stopCut cutAtStop
  cases hs : s.rp.state
  case loading => simp
  case waiting =>
    simp only [Bool.and_eq_true, hflip, decide_eq_true_eq]
    simp
    exact if_congr And.comm rfl rfl
  all_goals simp

theorem reelStop_eq {s : State} (h : s.rp.state ≠ .idle) : s.reelStop = s.atStop.stopReel false := by
  unfold reelStop atStop
  rw [if_neg h, cutAtStop_eq]
  rfl

end State
end Sys2Proof.Machine

namespace Sys2Proof.Proofs
open Sys2Proof.Machine Sys2Proof.Machine.State

/-- Settles O30: the takeover seals the batch and stops the reel; no standby pends any more. -/
theorem takeoverSealsAndStopsTheReel : Obligations.TakeoverSealsAndStopsTheReel := by
  intro s s1 f t j hs hpart h hc htake hj hs1
  have hsealed : State.sealDrawn (State.cancelStandby { s with
      memory := s.memory.after f, mp := s.mp.freed, aq := s.nextQueue, up := s.nextUp }) t.data = s1 := by
    rw [cancelStandby_eq, hs1]
    obtain ⟨i, b, hi, hb, he, rfl⟩ | ⟨hnone, rfl⟩ := hj
    · rw [sealDrawn_of_entries _ (by exact hi) (by exact hb) he, htake]
      rfl
    · rw [sealDrawn_of_none _ (by exact hnone)]
      rfl
  have hkeeps : State.Keeps { s with
      memory := s.memory.after f, mp := s.mp.freed, aq := s.nextQueue, up := s.nextUp } s1.reelStop := by
    rw [← hsealed]
    exact (cancelStandby_keeps _).trans ((sealDrawn_keeps _ _).trans (reelStop_keeps _))
  have htakeover : exec .takeover s = .next s1.reelStop.endStep := by
    refine congrArg Host.Outcome.next (controlWord_of_keeps hs h hpart hc (by simp [sealTakeover, flagBit, htake]) ?_ hkeeps)
    exact congrArg reelStop hsealed
  refine ⟨fun hidle => ?_, fun hbusy => ?_, ?_⟩
  · rw [htakeover, reelStop, if_pos (by simpa [hs1] using hidle)]
  · have hpart1 : s1.atStop.spc.part = .running := by simp [atStop, hs1, spcCancelled, hpart]
    obtain ⟨u, hu, heq⟩ := stopReel_stops hpart1 (by simpa [atStop, hs1] using hbusy)
    have hpending : u.spc.standbyPending = false := by
      rw [reelStopped_spc hu]
      simp [atStop, hs1, spcCancelled]
    refine ⟨u, ?_, hu⟩
    rw [htakeover, reelStop_eq (by simpa [hs1] using hbusy), heq, if_neg (by simp [hpending])]
  · rw [htakeover]
    refine congrArg Host.Outcome.next (controlWord_of_keeps hs h hpart hc rfl ?_ hkeeps)
    exact (if_pos htake).trans (congrArg reelStop hsealed)

/-- Settles O34: in IDLE the word has no effect; otherwise the reel stops, and a pending standby may find the part quiet. -/
theorem reelStopWordStopsTheReel : Obligations.ReelStopWordStopsTheReel := by
  intro s s1 f t hs hpart h hc hs1
  have hrun : exec .reelStopWord s = .next s1.reelStop.endStep :=
    congrArg Host.Outcome.next (controlWord_of_keeps hs h hpart hc rfl (by rw [hs1]) (by rw [hs1]; exact reelStop_keeps _))
  refine ⟨fun hidle => ?_, fun hbusy => ?_⟩
  · rw [hrun, reelStop, if_pos (by simpa [hs1] using hidle)]
  · have hpart1 : s1.atStop.spc.part = .running := by simp [atStop, hs1, hpart]
    obtain ⟨u, hu, heq⟩ := stopReel_stops hpart1 (by simpa [atStop, hs1] using hbusy)
    have hspc : u.spc = s.spc := by
      rw [reelStopped_spc hu]
      simp [atStop, hs1]
    rw [reelStop_eq (by simpa [hs1] using hbusy), heq] at hrun
    refine ⟨u, hu, fun hpending hquiet => ?_, fun hno => ?_⟩
    · rw [hrun, if_pos ⟨by rw [hspc]; exact hpending, hquiet⟩]
    · rw [hrun, if_neg]
      rintro ⟨hpending, hquiet⟩
      exact hno.elim (fun hp => by simp [← hspc, hpending] at hp) (fun hq => hq hquiet)

end Sys2Proof.Proofs
end

