-- ==== Sys2Proof/Proofs/Translations.lean ====
section
set_option Elab.async false
/-!
SUPPORT. The Canvas Translator's steps as the statements write them: the checks, the walk's and the hit's decisions, and the ends of
a request. The statements' relations determine the next state of the model's operation.
-/
namespace Sys2Proof.Machine

/-! ### The checks -/

theorem SegFields.check_of_unfit {f : SegFields} {n pixel : Nat}
    (h : ¬(1 ≤ f.length ∧ f.length ≤ 64 ∧ f.slotBase + f.length ≤ n)) : f.check n pixel = .bad .segmentBad :=
  if_pos (by simpa [← f.fits_iff] using h)

theorem SegFields.check_of_beyond {f : SegFields} {n pixel : Nat}
    (h : 1 ≤ f.length ∧ f.length ≤ 64 ∧ f.slotBase + f.length ≤ n) (hr : ¬(pixel < f.length ∨ f.ring = true)) :
    f.check n pixel = .bad .pixelBeyond := by
  unfold SegFields.check
  rw [if_neg (by simp [(f.fits_iff n).mpr h]), if_pos (by simpa [← f.reaches_iff] using hr)]

theorem SegFields.check_of_passes {f : SegFields} {n pixel : Nat}
    (h : 1 ≤ f.length ∧ f.length ≤ 64 ∧ f.slotBase + f.length ≤ n) (hr : pixel < f.length ∨ f.ring = true) :
    f.check n pixel = .slot (f.frameSlot pixel) :=
  SegFields.check_eq_slot ((f.fits_iff n).mpr h) ((f.reaches_iff pixel).mpr hr)

namespace State

theorem translate_of_translates {s : State} {f : SegFields} {pixel : Nat} {t : Translation} (h : s.translates f pixel t) :
    s.translate f pixel = .done (.ok t) := by
  obtain ⟨hpos, hle, hsegment, hreach, hslot, hrail, hpending, hvalid, hprofile⟩ := h
  obtain ⟨slot, rail, profile⟩ := t
  dsimp only at hslot hrail hprofile
  subst hslot hrail hprofile
  exact translate_eq_ok ((f.fits_iff _).mpr ⟨hpos, hle, hsegment⟩) ((f.reaches_iff _).mpr hreach) hpending hvalid

theorem translate_of_translationFails {s : State} {f : SegFields} {pixel : Nat} {k : FaultKind}
    (h : s.translationFails f pixel k) : s.translate f pixel = .done (.bad k) := by
  unfold translationFails at h
  unfold translate
  split_ifs at h with hfits hreach
  · obtain ⟨hpending, hvoid, rfl⟩ := h
    rw [SegFields.check_of_passes hfits hreach]
    simp [Pu.answer, hpending, hvoid]
  · rw [h, SegFields.check_of_beyond hfits hreach]
  · rw [h, SegFields.check_of_unfit hfits]

theorem translate_of_asksProfile {s : State} {f : SegFields} {pixel : Nat} (h : s.asksProfile f pixel) :
    s.translate f pixel = .held := by
  obtain ⟨hpos, hle, hsegment, hreach, hpending⟩ := h
  unfold translate
  rw [SegFields.check_of_passes ⟨hpos, hle, hsegment⟩ hreach]
  simp [Pu.answer, hpending]

/-! ### The cache -/

theorem putFront_eq (c : Ct) (e : CacheEntry) : c.putFront e = { c with cache := cacheWith c.cache e } := rfl

theorem setKnown_eq (c : Ct) (zone segment : Nat) : c.setKnown zone segment = { c with
    cache := c.cache.map (fun e => if e.zone = zone ∧ e.segment = segment then { e with known := true } else e) } := by
  unfold Ct.setKnown
  refine congrArg (fun l => { c with cache := l }) (List.map_congr_left (fun e _ => ?_))
  simp [CacheEntry.isFor]

theorem walkFill_eq (s : State) (q : CtReq) (k : Walk) : s.walkFill q k = { s with
    ct := { s.ct with cache := s.cacheFilled q k } } := by
  unfold walkFill cacheFilled
  split <;> rfl

theorem isWrite_iff (q : CtReq) : q.isWrite = true ↔ q.kind ≠ .canvasRead := by
  unfold CtReq.isWrite
  cases q.kind <;> simp

theorem walkRead_eq (s : State) (k : Walk) (step : WalkStep) (o : Owner) (w : WordAddr) : s.walkRead k step o w = { s with
    ct := { s.ct with walk := some (s.walkAsking k step w) }, mp := s.mp.asking placeCt (readOf o w) } := rfl

/-! ### A walk's decisions -/

theorem walkSegment_of_sought {s t : State} {q : CtReq} {k : Walk} (h : s.segmentSought q k t) : s.walkSegment q k = t := by
  unfold walkSegment
  obtain ⟨hbeyond, rfl⟩ | ⟨hin, a, w, ha, hw, ⟨habove, rfl⟩ | ⟨hwindow, rfl⟩⟩ := h
  · exact if_pos hbeyond
  · refine (if_neg (Nat.not_le.mpr hin)).trans (if_neg ?_)
    simp [entryInWindow, segEntryAddr, ← ha]
    omega
  · subst hw ha
    refine (if_neg (Nat.not_le.mpr hin)).trans ((if_pos ?_).trans rfl)
    simpa [entryInWindow, segEntryAddr] using hwindow

theorem walkComplete_eq (s : State) (q : CtReq) (k : Walk) (r : TrResult) : s.walkComplete q k r = State.ctFinish { s with
    ct := { s.ct with cache := s.cacheFilled q k } } q r := by
  rw [walkComplete, walkFill_eq]

/-- Whether a result is a translation. -/
theorem passed_iff (r : TrResult) : passed r = true ↔ ∃ x, r = .ok x := by
  cases r <;> simp [passed]

theorem markWord_eq (x : Word) (changes : Bool) : markWord x changes = if changes then x ||| 6 else x ||| 2 := by
  cases changes <;> rfl

/-- The walk's decision with the result of its checks (R133 step 3). -/
theorem walkDecide_asks {s : State} {q : CtReq} {k : Walk} {r : TrResult} {changes : Bool}
    (hchanges : changes = true ↔ (SegFields.ofWords k.seg1 k.seg2).changed = false ∧ q.kind ≠ .canvasRead ∧ ∃ x, r = .ok x)
    (hmark : (SegFields.ofWords k.seg1 k.seg2).touched = false ∨ changes = true) (hstale : k.stale = false)
    (hprotected : s.up.protects k.segWord = false) : s.walkDecide q k r = { s with
      ct := { s.ct with walk := some { k with step := .segFlag, wroteChanged := changes, result := some r } }
      mp := s.mp.asking placeCt (writeOf .walkFlag k.segWord (if changes then k.seg1 ||| 6 else k.seg1 ||| 2)) } := by
  have hc : (!(SegFields.ofWords k.seg1 k.seg2).changed && q.isWrite && passed r) = changes := by
    rw [Bool.eq_iff_iff, hchanges, Bool.and_eq_true, Bool.and_eq_true, isWrite_iff, passed_iff, Bool.not_eq_true', and_assoc]
  unfold walkDecide
  dsimp only
  rw [hc, if_neg (by obtain h | h := hmark <;> simp [h]), if_neg (by simp [hstale, hprotected]), markWord_eq]
  rfl

theorem walkDecide_completes {s : State} {q : CtReq} {k : Walk} {r : TrResult} {changes : Bool}
    (hchanges : changes = true ↔ (SegFields.ofWords k.seg1 k.seg2).changed = false ∧ q.kind ≠ .canvasRead ∧ ∃ x, r = .ok x)
    (hnone : ((SegFields.ofWords k.seg1 k.seg2).touched = true ∧ changes = false) ∨ k.stale = true
      ∨ s.up.protects k.segWord = true) : s.walkDecide q k r = State.ctFinish { s with
        ct := { s.ct with cache := s.cacheFilled q { k with wroteChanged := changes } } } q r := by
  have hc : (!(SegFields.ofWords k.seg1 k.seg2).changed && q.isWrite && passed r) = changes := by
    rw [Bool.eq_iff_iff, hchanges, Bool.and_eq_true, Bool.and_eq_true, isWrite_iff, passed_iff, Bool.not_eq_true', and_assoc]
  have hcomplete : s.walkComplete q { k with wroteChanged := changes, result := some r } r = State.ctFinish { s with
      ct := { s.ct with cache := s.cacheFilled q { k with wroteChanged := changes } } } q r := walkComplete_eq _ _ _ _
  unfold walkDecide
  dsimp only
  rw [hc]
  obtain ⟨htouched, hno⟩ | hdropped := hnone
  · rw [if_pos (by simp [htouched, hno])]
    exact hcomplete
  · split
    · exact hcomplete
    · rw [if_pos (by simpa using hdropped)]
      exact hcomplete

theorem walkCheck_of_decided {s t : State} {q : CtReq} {k : Walk} {f : SegFields} (h : s.segmentDecided q k f t) :
    s.walkCheck q k = t := by
  obtain ⟨rfl, r, hr, changes, hchanges, hnext⟩ := h
  have htranslate : s.translate (SegFields.ofWords k.seg1 k.seg2) (pixelOf q.canvas) = .done r := by
    obtain ⟨x, hx, rfl⟩ | ⟨x, hx, rfl⟩ := hr
    · exact translate_of_translates hx
    · exact translate_of_translationFails hx
  unfold walkCheck
  rw [htranslate]
  obtain ⟨hmark, hstale, hprotected, rfl⟩ | ⟨hnone, rfl⟩ := hnext
  · exact walkDecide_asks hchanges hmark hstale hprotected
  · exact walkDecide_completes hchanges hnone

theorem walkCheck_of_asksProfile {s : State} {q : CtReq} {k : Walk}
    (h : s.asksProfile (SegFields.ofWords k.seg1 k.seg2) (pixelOf q.canvas)) :
    s.walkCheck q k = { s with ct := { s.ct with walk := some { k with step := .profile } } } := by
  unfold walkCheck
  rw [translate_of_asksProfile h]
  rfl

/-! ### A hit's decisions -/

theorem hitCheck_of_decided {s t : State} {q : CtReq} {h : Hit} (hd : s.hitDecided q h t) : s.hitCheck q h = t := by
  unfold hitCheck
  obtain ⟨x, hx, rfl⟩ | ⟨x, hx, hpass⟩ := hd
  · rw [translate_of_translationFails hx]
  · rw [translate_of_translates hx]
    dsimp only
    unfold hitPass
    obtain ⟨hno, rfl⟩ | ⟨hwrite, hknown, hover, c, rfl, hprotected⟩ := hpass
    · refine if_pos ?_
      rw [Bool.or_eq_true, Bool.or_eq_true, Bool.not_eq_true', ← Bool.not_eq_true, isWrite_iff, not_not, or_assoc]
      exact hno
    · rw [if_neg (by simp [(isWrite_iff q).mpr hwrite, hknown, hover]), setKnown_eq]
      obtain ⟨hp, rfl⟩ | ⟨hp, rfl⟩ := hprotected
      · exact if_pos hp
      · exact if_neg (by simp [hp])

theorem hitCheck_of_asksProfile {s : State} {q : CtReq} {h : Hit} (ha : s.asksProfile h.fields (pixelOf q.canvas)) :
    s.hitCheck q h = { s with ct := { s.ct with hit := some h } } := by
  unfold hitCheck
  rw [translate_of_asksProfile ha]
  rfl

/-! ### Questions that the PU holds -/

theorem answerQuestion_of_answered {s t : State} (h : s.profileAnswered t) : s.answerQuestion = t := by
  obtain ⟨q, hq, ⟨k, hk, hstep, hd⟩ | ⟨hwalk, h, hh, hres, hd⟩⟩ := h
  · simp only [answerQuestion, hq, hk]
    exact (if_pos hstep).trans (walkCheck_of_decided hd)
  · simp only [answerQuestion, hq, hwalk, hh]
    exact (if_pos (by simp [hres])).trans (hitCheck_of_decided hd)

/-- Where every question stays held, nothing is answered. -/
theorem answerQuestion_of_held {s : State} (h : s.questionHeld s.pu) : s.answerQuestion = s := by
  cases hq : s.ct.current with
  | none => simp only [answerQuestion, hq]
  | some q =>
    cases hk : s.ct.walk with
    | some k =>
      simp only [answerQuestion, hq, hk]
      split
      next hstep =>
        refine (walkCheck_of_asksProfile ((h q hq).1 k hk hstep)).trans ?_
        rw [← hstep, ← hk]
      next => rfl
    | none =>
      cases hhit : s.ct.hit with
      | some g =>
        simp only [answerQuestion, hq, hk, hhit]
        split
        next hres =>
          refine (hitCheck_of_asksProfile ((h q hq).2 hk g hhit (by simpa using hres))).trans ?_
          rw [← hhit]
        next => rfl
      | none => simp only [answerQuestion, hq, hk, hhit]

/-! ### The ends of a request -/

theorem ctFault_of_discard {s : State} {q : CtReq} (x : FaultKind) (h : q.discard = true) : s.ctFault q x = s.discardEnded :=
  (if_pos h).trans (ctEndDiscarded_eq s)

/-- The Report Unit when a translation faults (R131). -/
def ruFaulted (s : State) (o : FaultOrigin) (q : CtReq) (x : FaultKind) : Ru :=
  if x = .walkParity then s.ru.report x o q.canvas else (s.ru.report x o q.canvas).count .translate

theorem ctFault_eq {s : State} {q : CtReq} (x : FaultKind) (h : q.discard = false) : s.ctFault q x = State.answerFault { s with
    ct := s.ctIdle, ru := s.ruFaulted q.kind.origin q x } q.kind := by
  unfold ctFault ruFaulted
  rw [if_neg (by simp [h])]
  dsimp only
  split <;> rfl

theorem ctFault_drawn {s : State} {q : CtReq} (x : FaultKind) (h : q.discard = false) (hk : q.kind = .drawnWrite) :
    s.ctFault q x = { s with ct := s.ctIdle, ru := s.ruFaulted .drawnWrite q x, aq := s.nextQueue, up := s.nextUp } := by
  rw [ctFault_eq x h, hk]
  exact headLeaves_eq _

theorem ctFault_read {s : State} {q : CtReq} (x : FaultKind) (h : q.discard = false) (hk : q.kind = .canvasRead) :
    s.ctFault q x = { s with
      ct := s.ctIdle, ru := s.ruFaulted .canvasRead q x, aq := { queue := s.aq.queue.tail, taken := false }
      up := { s.up with waiting := none, answer := some { ready := false, data := some 0 } } } := by
  rw [ctFault_eq x h, hk]
  exact (headLeaves_of_answered (s := State.answerHost { s with ct := s.ctIdle, ru := s.ruFaulted .canvasRead q x } false (some 0))
    rfl).trans rfl

theorem updateDone_of_update {s : State} {n : Nat} (h : s.rp.step = .update n) : s.updateDone = s.loadPair (n + 1) := by
  simp only [updateDone, h]

theorem ctFault_reel {s : State} {q : CtReq} {n : Nat} (x : FaultKind) (h : q.discard = false) (hk : q.kind = .reelUpdate)
    (hn : s.rp.step = .update n) :
    s.ctFault q x = State.loadPair { s with ct := s.ctIdle, ru := s.ruFaulted .reelUpdate q x } (n + 1) := by
  rw [ctFault_eq x h, hk]
  exact updateDone_of_update hn

theorem ctHand_of_discard {s : State} {q : CtReq} (t : Translation) (h : q.discard = true) : s.ctHand q t = s.discardEnded :=
  (if_pos h).trans (ctEndDiscarded_eq s)

/-- The PU forms the value, or holds the write (R165). -/
theorem transform_drawn (s : State) (q : CtReq) (t : Translation) : s.transform .aq q t = State.stageDrawn { s with
    pu := { s.pu with heldDrawn := heldFor q t s.pu.heldDrawn } } (stagedOf q t) := by
  unfold transform heldFor stagedOf
  cases t.profile.finished (viewOf q.canvas) (Pixel.ofWord q.value) <;> rfl

theorem transform_reel (s : State) (q : CtReq) (t : Translation) : s.transform .rp q t = State.stageEntry { s with
    pu := { s.pu with heldReel := heldFor q t s.pu.heldReel } } .rp (stagedOf q t) := by
  unfold transform heldFor stagedOf
  cases t.profile.finished (viewOf q.canvas) (Pixel.ofWord q.value) <;> rfl

theorem ctHand_drawn {s : State} {q : CtReq} (t : Translation) (h : q.discard = false) (hk : q.kind = .drawnWrite) :
    s.ctHand q t = State.stageDrawn { s with
      ct := s.ctIdle, pu := { s.pu with heldDrawn := heldFor q t s.pu.heldDrawn } } (stagedOf q t) := by
  unfold ctHand
  rw [if_neg (by simp [h]), hk]
  exact transform_drawn _ q t

theorem ctHand_reel {s : State} {q : CtReq} (t : Translation) (h : q.discard = false) (hk : q.kind = .reelUpdate) :
    s.ctHand q t = State.stageEntry (s.reelHanded q t) .rp (stagedOf q t) := by
  unfold ctHand
  rw [if_neg (by simp [h]), hk]
  exact transform_reel _ q t

theorem bufferWord_eq (s : State) (f : Nat) : s.re.slotWord s.re.select f = s.bufferWord s.re.select f := by
  unfold Re.slotWord bufferWord
  cases s.re.select <;> rfl

theorem ctHand_read_found {s : State} {q : CtReq} {t : Translation} {v : Stored} (h : q.discard = false)
    (hk : q.kind = .canvasRead) (hv : s.jc.drawnLookup t.frameSlot = some v) : s.ctHand q t = { s with
      ct := s.ctIdle, up := s.readAnswer t.profile.order v true, aq := { queue := s.aq.queue.tail, taken := false } } := by
  unfold ctHand readBackFor
  rw [if_neg (by simp [h]), hk]
  simp only [show s.ctFree.jc = s.jc from rfl, hv]
  exact headLeaves_of_answered (by rfl)

theorem ctHand_read_asks {s : State} {q : CtReq} {t : Translation} (h : q.discard = false)
    (hk : q.kind = .canvasRead) (hv : s.jc.drawnLookup t.frameSlot = none) : s.ctHand q t = { s with
      ct := s.ctIdle, jc := { s.jc with readBack := some { order := t.profile.order, canvas := q.canvas } }
      mp := s.mp.asking placeAq (readOf .canvasRead (s.bufferWord s.re.select t.frameSlot)) } := by
  unfold ctHand readBackFor
  rw [if_neg (by simp [h]), hk]
  simp only [show s.ctFree.jc = s.jc from rfl, hv]
  rw [← bufferWord_eq]
  rfl

end State
end Sys2Proof.Machine
end

