-- ==== Sys2Proof/Proofs/CtRequests.lean ====
section
set_option Elab.async false
/-!
RESULT. The Canvas Translator takes a request: a miss begins a walk, a hit uses the cached entry (O38, O39).
-/
namespace Sys2Proof.Machine

/-! ### Canvas addresses and write-back words -/

/-- The fields of a canvas address (R122). -/
theorem canvas_fields {a : Addr} {first offset : Nat} {v : View}
    (hv : (first, v) ∈ [(0x800000, View.replace), (0x900000, .level), (0xA00000, .add)]) (ho : offset < 0x100000)
    (ha : a.toNat = first + offset) :
    viewOf a = v ∧ zoneOf a = offset / 16384 ∧ segmentOf a = offset / 256 % 64 ∧ pixelOf a = offset / 4 % 64 := by
  have hoffset : canvasOffset a = offset ∧ viewOf a = v := by
    simp only [List.mem_cons, Prod.mk.injEq, List.not_mem_nil, or_false] at hv
    unfold canvasOffset viewOf
    obtain ⟨rfl, rfl⟩ | ⟨rfl, rfl⟩ | ⟨rfl, rfl⟩ := hv
    · exact ⟨by omega, if_pos (by omega)⟩
    · exact ⟨by omega, (if_neg (by omega)).trans (if_pos (by omega))⟩
    · exact ⟨by omega, (if_neg (by omega)).trans (if_neg (by omega))⟩
  unfold zoneOf segmentOf pixelOf
  rw [hoffset.1]
  exact ⟨hoffset.2, rfl, rfl, rfl⟩

/-- The flag word of a hit write-back, for each of its fields (R217, R219). -/
theorem writeBack_bits (present reverse ring : Bool) (p : Fin 16) :
    let n := present.toNat + 2 + 4 + 8 * reverse.toNat + 16 * ring.toNat + 256 * p.val
    n < 2 ^ 12 ∧ n.testBit 0 = present ∧ n.testBit 1 = true ∧ n.testBit 2 = true ∧ n.testBit 3 = reverse ∧ n.testBit 4 = ring
      ∧ n.testBit 5 = false ∧ n.testBit 6 = false ∧ n.testBit 7 = false ∧ n / 2 ^ 8 % 2 ^ 4 = p.val := by
  revert present reverse ring p
  decide

theorem SegFields.writeBackWord_toNat (f : SegFields) : f.writeBackWord.toNat
    = f.present.toNat + 2 + 4 + 8 * f.reverse.toNat + 16 * f.ring.toNat + 256 * f.profile.val := by
  obtain ⟨hlt, -⟩ := writeBack_bits f.present f.reverse f.ring f.profile
  unfold SegFields.writeBackWord
  rw [BitVec.toNat_ofNat, Nat.mod_eq_of_lt (Nat.lt_trans hlt (by norm_num))]

theorem SegFields.ofWords_writeBackWord (f : SegFields) (x : Word) : SegFields.ofWords f.writeBackWord x
    = { f with touched := true, changed := true, slotBase := field x 11 0, length := field x 22 16 } := by
  obtain ⟨-, h0, h1, h2, h3, h4, -, -, -, hp⟩ := writeBack_bits f.present f.reverse f.ring f.profile
  have hprofile : bits f.writeBackWord 11 8 % 16 = f.profile.val := by
    unfold bits
    rw [f.writeBackWord_toNat, hp]
    exact Nat.mod_eq_of_lt f.profile.isLt
  unfold SegFields.ofWords
  simp only [SegFields.mk.injEq]
  unfold flagBit BitVec.getLsbD
  rw [f.writeBackWord_toNat]
  exact ⟨h0, h1, h2, h3, h4, Fin.ext hprofile, bits_eq_field x 11 0, bits_eq_field x 22 16⟩

theorem SegFields.writeBackWord_unassigned (f : SegFields) {n : Nat} (h : n ∈ [5, 6, 7] ∨ 12 ≤ n) :
    f.writeBackWord.getLsbD n = false := by
  obtain ⟨hlt, -, -, -, -, -, h5, h6, h7, -⟩ := writeBack_bits f.present f.reverse f.ring f.profile
  unfold BitVec.getLsbD
  rw [f.writeBackWord_toNat]
  obtain h | h := h
  · simp only [List.mem_cons, List.not_mem_nil, or_false] at h
    obtain rfl | rfl | rfl := h
    · exact h5
    · exact h6
    · exact h7
  · exact Nat.testBit_lt_two_pow (Nat.lt_of_lt_of_le hlt (Nat.pow_le_pow_right (by norm_num) h))

/-! ### The request that the CT takes -/

theorem Ct.take_of_picked {c d : Ct} {q : CtReq} (h : c.picked = some (q, d)) :
    ∃ r, c.choice = some r ∧ c.offer r = some q ∧ c.take r q = { d with current := some q } := by
  unfold Ct.picked at h
  split at h
  next => cases h
  next x ha hr =>
    cases h
    exact ⟨.aq, by simp [Ct.choice, ha, hr], ha, by simp [Ct.take, Ct.lastAfter, hr]⟩
  next x ha hr =>
    cases h
    exact ⟨.rp, by simp [Ct.choice, ha, hr], hr, by simp [Ct.take, Ct.lastAfter, ha]⟩
  next x y ha hr =>
    split at h
    next hl =>
      cases h
      exact ⟨.aq, by simp [Ct.choice, ha, hr, hl], ha, by simp [Ct.take, Ct.lastAfter, ha, hr]⟩
    next hl =>
      cases h
      exact ⟨.rp, by simp [Ct.choice, ha, hr, hl], hr, by simp [Ct.take, Ct.lastAfter, ha, hr]⟩

theorem Ct.picked_fields {c d : Ct} {q : CtReq} (h : c.picked = some (q, d)) :
    d.cache = c.cache ∧ d.dirBase = c.dirBase ∧ d.slotCount = c.slotCount := by
  unfold Ct.picked at h
  split at h
  next => cases h
  next =>
    cases h
    exact ⟨rfl, rfl, rfl⟩
  next =>
    cases h
    exact ⟨rfl, rfl, rfl⟩
  next =>
    split at h <;> cases h <;> exact ⟨rfl, rfl, rfl⟩

namespace State

theorem takeRequest_of_none {s : State} (h : s.ct.current.isSome = true ∨ (s.ct.offerAq = none ∧ s.ct.offerRp = none)) :
    s.takeRequest = s := by
  unfold takeRequest
  split
  next r hcur hchoice =>
    obtain h | ⟨ha, hr⟩ := h
    · simp [hcur] at h
    · simp [Ct.choice, ha, hr] at hchoice
  next => rfl

/-- The state in which the CT has taken a request. -/
def holding (s : State) (c : Ct) (q : CtReq) : State := { s with ct := { c with current := some q } }

/-- The taking of a request is what the CT then begins. -/
theorem ctTaken_run {s : State} {q : CtReq} {c : Ct} (hcur : s.ct.current = none) (h : s.ct.picked = some (q, c)) :
    exec .ctRequestTaken s = .next ((s.holding c q).ctBegin q).settle ∧ s.Keeps ((s.holding c q).ctBegin q) := by
  obtain ⟨r, hchoice, hoffer, htake⟩ := Ct.take_of_picked h
  have hbegin : s.ctTake r q = (s.holding c q).ctBegin q := by
    unfold ctTake setCt
    rw [htake]
    rfl
  refine ⟨congrArg Host.Outcome.next ?_, hbegin ▸ ctTake_keeps s r q⟩
  simp only [takeRequest, hcur, hchoice, hoffer, hbegin]

/-- A request taken in RUNNING. -/
theorem ctTaken_running {s x : State} {q : CtReq} {c : Ct} (hs : s.settled) (hpart : s.spc.part = .running)
    (hcur : s.ct.current = none) (h : s.ct.picked = some (q, c)) (hx : (s.holding c q).ctBegin q = x) :
    exec .ctRequestTaken s = .next x.endStep := by
  obtain ⟨hrun, hkeeps⟩ := ctTaken_run hcur h
  rw [hx] at hrun hkeeps
  rw [hrun, settle_of_keeps hs (by simp [hpart]) hkeeps]

/-- A request taken with an effect that leaves the bus, the queue and the part state. -/
theorem ctTaken_apart {s x : State} {q : CtReq} {c : Ct} (hs : s.settled) (hcur : s.ct.current = none)
    (h : s.ct.picked = some (q, c)) (hx : (s.holding c q).ctBegin q = x) (hup : x.up = s.up := by rfl)
    (haq : x.aq = s.aq := by rfl) (hflight : x.mp.inFlight = s.mp.inFlight := by rfl)
    (hpart : x.spc.part = s.spc.part := by rfl) : exec .ctRequestTaken s = .next x.endStep := by
  obtain ⟨hrun, -⟩ := ctTaken_run hcur h
  rw [hrun, hx, settle_apart hs hup haq hflight hpart]

theorem ctBegin_miss {s : State} {q : CtReq} {c : Ct} (h : s.ct.picked = some (q, c))
    (hl : s.ct.lookup (zoneOf q.canvas) (segmentOf q.canvas) = none) : (s.holding c q).ctBegin q = (s.holding c q).walkStart q := by
  have hl : (s.holding c q).ct.lookup (zoneOf q.canvas) (segmentOf q.canvas) = none := by
    rw [← hl]
    unfold Ct.lookup
    rw [← (Ct.picked_fields h).1]
    rfl
  simp only [ctBegin, hl]

/-- The hit of a request just taken on a cached entry (R138). -/
def hitOf (e : CacheEntry) : Hit :=
  { fields := e.fields, flagWord := e.sources.getD 2 0, known := e.known, overtaken := false, result := none }

theorem ctBegin_hit {s : State} {q : CtReq} {c : Ct} {e : CacheEntry} (h : s.ct.picked = some (q, c))
    (hl : s.ct.lookup (zoneOf q.canvas) (segmentOf q.canvas) = some e) :
    (s.holding c q).ctBegin q = (s.holding { c with cache := cacheWith s.ct.cache e } q).hitCheck q (hitOf e) := by
  have hl : (s.holding c q).ct.lookup (zoneOf q.canvas) (segmentOf q.canvas) = some e := by
    rw [← hl]
    unfold Ct.lookup
    rw [← (Ct.picked_fields h).1]
    rfl
  simp only [ctBegin, hl, hitStart, putFront_eq]
  rw [← (Ct.picked_fields h).1]
  rfl

theorem walkStart_of_window {s : State} {q : CtReq} {w : WordAddr} (hw : w = wordAt (s.ct.dirBase + 8 * zoneOf q.canvas))
    (h : s.ct.dirBase + 8 * zoneOf q.canvas + 7 ≤ 0x7FFFFF) : s.walkStart q = { s with
      ct := { s.ct with walk := some { step := .dirFirst, dir1 := 0, dir2 := 0, seg1 := 0, seg2 := 0, bad := false, segWord := 0,
                                       sources := [w], stale := s.writeInService w, wroteChanged := false, result := none } }
      mp := s.mp.asking placeCt (readOf .dirRead w) } := by
  subst hw
  unfold walkStart
  dsimp only
  rw [if_pos (by simpa [entryInWindow, dirEntryAddr] using h)]
  rfl

theorem walkStart_of_above {s : State} {q : CtReq} (h : 0x7FFFFF < s.ct.dirBase + 8 * zoneOf q.canvas + 7) :
    s.walkStart q = s.ctFault q .zoneAbsent :=
  if_neg (by simp [entryInWindow, dirEntryAddr]; omega)

/-- The checks read the slot count, the rail groups and the profiles alone. -/
theorem translates_congr {s u : State} {f : SegFields} {pixel : Nat} {t : Translation} (h : s.translates f pixel t)
    (hslots : u.ct.slotCount = s.ct.slotCount) (hll : u.ll = s.ll := by rfl) (hpu : u.pu = s.pu := by rfl) :
    u.translates f pixel t := by
  unfold translates at h ⊢
  rw [hslots, hll, hpu]
  exact h

theorem translationFails_congr {s u : State} {f : SegFields} {pixel : Nat} {k : FaultKind} (h : s.translationFails f pixel k)
    (hslots : u.ct.slotCount = s.ct.slotCount) (hpu : u.pu = s.pu := by rfl) : u.translationFails f pixel k := by
  unfold translationFails at h ⊢
  rw [hslots, hpu]
  exact h

theorem asksProfile_congr {s u : State} {f : SegFields} {pixel : Nat} (h : s.asksProfile f pixel)
    (hslots : u.ct.slotCount = s.ct.slotCount) (hpu : u.pu = s.pu := by rfl) : u.asksProfile f pixel := by
  unfold asksProfile at h ⊢
  rw [hslots, hpu]
  exact h

end State
end Sys2Proof.Machine

namespace Sys2Proof.Proofs
open Sys2Proof.Machine Sys2Proof.Machine.State

/-- Settles O38: a miss begins a walk where the directory entry lies in the plain window, and faults otherwise. -/
theorem ctMissBeginsAWalk : Obligations.CtMissBeginsAWalk := by
  refine ⟨fun s h => congrArg Host.Outcome.next (takeRequest_of_none h), ?miss, fun a first offset v => canvas_fields⟩
  intro s q c hs hcur hpick hlookup
  have hbase := (Ct.picked_fields hpick).2.1
  have hmiss := ctBegin_miss hpick hlookup
  have hfault : 0x7FFFFF < s.ct.dirBase + 8 * zoneOf q.canvas + 7 →
      (s.holding c q).ctBegin q = (s.holding c q).ctFault q .zoneAbsent := fun h =>
    hmiss.trans (walkStart_of_above (by rw [← hbase] at h; exact h))
  refine ⟨fun w hw h => ?_, fun h hkind hdiscard hpart => ?_, fun h hpart => ?_⟩
  · refine ctTaken_apart hs hcur hpick ?_
    rw [← hbase] at hw h
    exact hmiss.trans (walkStart_of_window hw h)
  · refine ctTaken_running hs hpart hcur hpick ((hfault h).trans ?_)
    rw [ctFault_drawn _ hdiscard hkind, ruFaulted, if_neg (by simp)]
    rfl
  · exact ctTaken_running hs hpart hcur hpick (hfault h)

/-- Settles O39: a hit is decided by the checks on the cached fields, unless its profile is pending. -/
theorem ctHitUsesTheCachedEntry : Obligations.CtHitUsesTheCachedEntry := by
  refine ⟨?writeBack, ?found, ?asks, ?fails, ?held, ?decided,
    fun f x => ⟨f.ofWords_writeBackWord x, fun n h => f.writeBackWord_unassigned h⟩⟩
  case writeBack =>
    intro s q c e t hs hcur hpick hlookup ht hkind hknown hprotected
    refine ctTaken_apart hs hcur hpick ((ctBegin_hit hpick hlookup).trans ?_)
    refine hitCheck_of_decided (.inr ⟨t, translates_congr (by exact ht) (Ct.picked_fields hpick).2.2,
      .inr ⟨?_, hknown, rfl, _, rfl, .inr ⟨hprotected, ?_⟩⟩⟩)
    · obtain h | h := hkind <;> simp [h]
    · simp only [hitOf, holding, hknown, Bool.and_eq_true, beq_iff_eq]
  case found =>
    intro s q c e t v hs hcur hpick hlookup ht hkind hdiscard hpart hv
    refine ctTaken_running hs hpart hcur hpick ((ctBegin_hit hpick hlookup).trans ?_)
    refine hitCheck_of_decided (.inr ⟨t, translates_congr (by exact ht) (Ct.picked_fields hpick).2.2, .inl ⟨.inl hkind, ?_⟩⟩)
    rw [ctHand_read_found hdiscard hkind (by exact hv)]
    rfl
  case asks =>
    intro s q c e t hs hcur hpick hlookup ht hkind hdiscard hv
    refine ctTaken_apart hs hcur hpick ((ctBegin_hit hpick hlookup).trans ?_)
    refine hitCheck_of_decided (.inr ⟨t, translates_congr (by exact ht) (Ct.picked_fields hpick).2.2, .inl ⟨.inl hkind, ?_⟩⟩)
    rw [ctHand_read_asks hdiscard hkind (by exact hv), ← bufferWord_eq]
    rfl
  case fails =>
    intro s q c e k hs hcur hpick hlookup hk hkind hdiscard hpart
    have hwalk : k ≠ .walkParity := by
      rintro rfl
      unfold translationFails at hk
      split_ifs at hk
      simp at hk
    refine ctTaken_running hs hpart hcur hpick ((ctBegin_hit hpick hlookup).trans ?_)
    refine hitCheck_of_decided (.inl ⟨k, translationFails_congr (by exact hk) (Ct.picked_fields hpick).2.2, ?_⟩)
    rw [ctFault_drawn _ hdiscard hkind, ruFaulted, if_neg hwalk]
    rfl
  case held =>
    intro s q c e hs hcur hpick hlookup hasks
    refine ctTaken_apart hs hcur hpick ((ctBegin_hit hpick hlookup).trans ?_)
    exact hitCheck_of_asksProfile (asksProfile_congr (by exact hasks) (Ct.picked_fields hpick).2.2)
  case decided =>
    intro s t q c e hs hpart hcur hpick hlookup hd
    exact ctTaken_running hs hpart hcur hpick ((ctBegin_hit hpick hlookup).trans (hitCheck_of_decided hd))

end Sys2Proof.Proofs
end

