-- ==== Sys2Proof/Proofs/Walks.lean ====
section
set_option Elab.async false
/-!
RESULT. The reads of a walk, its flag-word writes, and the hit write-back (O40 to O43).
-/
namespace Sys2Proof.Machine.State

/-! ### A walk goes on -/

theorem walkOn_of {s : State} {q : CtReq} {k : Walk} (g : State → CtReq → Walk → State) (hq : s.ct.current = some q)
    (hk : s.ct.walk = some k) : s.walkOn g = g s q k := by
  simp only [walkOn, hq, hk]

/-- The completion of a walk's read in RUNNING. -/
theorem walkRead_running {s x : State} {f : InFlight} {o : Owner} {q : CtReq} {k : Walk} {mine : Owner → Bool}
    (hs : s.settled) (hpart : s.spc.part = .running) (hf : s.inFlightFor f o) (ho : o ≠ .direct) (hm : mine o = true)
    (hop : f.req.op = .read) (hq : s.ct.current = some q) (hk : s.ct.walk = some k)
    (hx : State.walkReadDone { s with mp := s.mp.freed, ru := s.ruAfterRead f } q k
      { data := s.dataOf f, error := s.readError f } = x) :
    s.onCompletion mine (fun d _ t => t.walkOn (fun u q k => u.walkReadDone q k d)) = x.endStep := by
  have hcomplete := complete_of_read s f hop
  have hwalk : (s.complete f).walkOn (fun u q k => u.walkReadDone q k (s.delivered f)) = x := by
    rw [hcomplete, delivered_of_read s f hop]
    exact (walkOn_of _ (by exact hq) (by exact hk)).trans hx
  refine completion_of_keeps hs hf ho hm (by simp [hpart]) hwalk ?_
  rw [← hx, hcomplete]
  exact walkReadDone_keeps _ q k _ (by simp [hq])

/-- The completion of a walk's read with an effect that leaves the bus, the queue and the part state. -/
theorem walkRead_apart {s x : State} {f : InFlight} {o : Owner} {q : CtReq} {k : Walk} {mine : Owner → Bool}
    (hs : s.settled) (hf : s.inFlightFor f o) (ho : o ≠ .direct) (hm : mine o = true)
    (hop : f.req.op = .read) (hq : s.ct.current = some q) (hk : s.ct.walk = some k)
    (hx : State.walkReadDone { s with mp := s.mp.freed, ru := s.ruAfterRead f } q k
      { data := s.dataOf f, error := s.readError f } = x) (hup : x.up = s.up := by rfl) (haq : x.aq = s.aq := by rfl)
    (hpart : x.spc.part = s.spc.part := by rfl) :
    s.onCompletion mine (fun d _ t => t.walkOn (fun u q k => u.walkReadDone q k d)) = x.endStep :=
  readCompletion_apart hs hf ho hm hop ((walkOn_of _ (by exact hq) (by exact hk)).trans hx) hup haq hpart

/-- A read without error leaves the Report Unit. -/
theorem readDone_of_good {s : State} {f : InFlight} (h : s.readError f = false) :
    ({ s with mp := s.mp.freed, ru := s.ruAfterRead f } : State) = { s with mp := s.mp.freed } := by
  rw [ruAfterRead_of_good s f h]

/-! ### The directory entry -/

theorem walkReadDone_dirFirst {s : State} {q : CtReq} {k : Walk} (d : Delivered) (h : k.step = .dirFirst) :
    s.walkReadDone q k d = s.walkRead { k with dir1 := d.data, bad := d.error } .dirSecond .dirRead
      (wordAt (s.ct.dirBase + 8 * zoneOf q.canvas + 4)) := by
  simp only [walkReadDone, h]
  rfl

theorem walkReadDone_dirSecond {s : State} {q : CtReq} {k : Walk} (d : Delivered) (h : k.step = .dirSecond) :
    s.walkReadDone q k d = if k.bad || d.error then s.ctFault q .walkParity else s.walkDirectory q { k with dir2 := d.data } := by
  simp only [walkReadDone, h]

theorem walkReadDone_segFirst {s : State} {q : CtReq} {k : Walk} (d : Delivered) (h : k.step = .segFirst) :
    s.walkReadDone q k d = s.walkRead { k with seg1 := d.data, bad := d.error } .segSecond .segRead
      (wordAt (segTableBase k.dir2 + 8 * segmentOf q.canvas + 4)) := by
  simp only [walkReadDone, h]
  rfl

theorem walkReadDone_segSecond {s : State} {q : CtReq} {k : Walk} (d : Delivered) (h : k.step = .segSecond) :
    s.walkReadDone q k d = if k.bad || d.error then s.ctFault q .walkParity else s.walkEntry q { k with seg2 := d.data } := by
  simp only [walkReadDone, h]

theorem walkDirectory_absent {s : State} {q : CtReq} {k : Walk} (h : k.dir1.getLsbD 0 = false) :
    s.walkDirectory q k = s.ctFault q .zoneAbsent :=
  if_pos (by rw [dirPresent, flagBit, h]; rfl)

theorem walkDirectory_segment {s : State} {q : CtReq} {k : Walk} (h : k.dir1.getLsbD 0 = true)
    (hno : k.dir1.getLsbD 1 = true ∨ k.stale = true
      ∨ s.up.protects (wordAt (s.ct.dirBase + 8 * zoneOf q.canvas)) = true) : s.walkDirectory q k = s.walkSegment q k := by
  unfold walkDirectory
  rw [if_neg (by rw [dirPresent, flagBit, h]; simp), if_pos (by simpa [dirTouched, flagBit, dirEntryAddr, or_assoc] using hno)]

theorem walkDirectory_marks {s : State} {q : CtReq} {k : Walk} (h : k.dir1.getLsbD 0 = true) (htouched : k.dir1.getLsbD 1 = false)
    (hstale : k.stale = false) (hprotected : s.up.protects (wordAt (s.ct.dirBase + 8 * zoneOf q.canvas)) = false) :
    s.walkDirectory q k = { s with
      ct := { s.ct with walk := some { k with step := .dirFlag } }
      mp := s.mp.asking placeCt (writeOf .walkFlag (wordAt (s.ct.dirBase + 8 * zoneOf q.canvas)) (k.dir1 ||| 2)) } := by
  unfold walkDirectory
  rw [if_neg (by rw [dirPresent, flagBit, h]; simp),
    if_neg (by rw [dirTouched, flagBit, dirEntryAddr, htouched, hstale, hprotected]; simp)]
  rfl

theorem walkEntry_absent {s : State} {q : CtReq} {k : Walk} (h : k.seg1.getLsbD 0 = false) :
    s.walkEntry q k = s.ctFault q .segmentAbsent :=
  if_pos (by rw [SegFields.ofWords, flagBit, h]; rfl)

theorem walkEntry_present {s : State} {q : CtReq} {k : Walk} (h : k.seg1.getLsbD 0 = true) :
    s.walkEntry q k = s.walkCheck q k :=
  if_neg (by rw [SegFields.ofWords, flagBit, h]; simp)

theorem discardEnded_frame (s : State) :
    s.discardEnded.up = s.up ∧ s.discardEnded.aq = s.aq ∧ s.discardEnded.spc.part = s.spc.part := by
  unfold discardEnded
  split <;> exact ⟨rfl, rfl, rfl⟩

/-! ### The hit write-back -/

theorem hitDone_of {s : State} {q : CtReq} {h : Hit} {t : Translation} (hq : s.ct.current = some q) (hh : s.ct.hit = some h)
    (ht : h.result = some t) : s.hitDone = s.ctHand q t := by
  simp only [hitDone, hq, hh, ht]

end Sys2Proof.Machine.State

namespace Sys2Proof.Proofs
open Sys2Proof.Machine Sys2Proof.Machine.State

/-- Settles O40: the second word decides the directory entry, by its parity, its flags and the segment sought. -/
theorem directoryReadGoesOnOrFaults : Obligations.DirectoryReadGoesOnOrFaults := by
  refine ⟨?first, ?faults, ?parity, ?marks, ?segment, ?ends, ?sought, ?fault, fun x => ⟨bits_eq_field x 14 8, baseField_eq x⟩⟩
  case first =>
    intro s f q k w hs hf hop hq hk hstep hw
    refine congrArg Host.Outcome.next (walkRead_apart hs hf (by simp) rfl hop hq hk ?_)
    rw [walkReadDone_dirFirst _ hstep, hw]
    rfl
  case faults =>
    intro s f q k x hs hpart hf hop hq hk hstep hkind hdiscard hbad herror hx
    refine congrArg Host.Outcome.next (walkRead_running hs hpart hf (by simp) rfl hop hq hk ?_)
    rw [walkReadDone_dirSecond _ hstep, if_neg (by simp [hbad, herror]), readDone_of_good herror]
    obtain ⟨habsent, rfl⟩ | ⟨hpresent, htouched, hbeyond, rfl⟩ := hx
    · rw [walkDirectory_absent (by exact habsent), ctFault_drawn _ hdiscard hkind, ruFaulted, if_neg (by simp)]
      rfl
    · rw [walkDirectory_segment (by exact hpresent) (.inl (by exact htouched)),
        walkSegment_of_sought (.inl ⟨by exact hbeyond, rfl⟩), ctFault_drawn _ hdiscard hkind, ruFaulted, if_neg (by simp)]
      rfl
  case parity =>
    intro s f q k hs hpart hf hop hq hk hstep hkind hdiscard hbad
    refine congrArg Host.Outcome.next (walkRead_running hs hpart hf (by simp) rfl hop hq hk ?_)
    rw [walkReadDone_dirSecond _ hstep, if_pos (by simpa using hbad), ctFault_drawn _ hdiscard hkind, ruFaulted, if_pos rfl]
    rfl
  case marks =>
    intro s f q k w hs hf hop hq hk hstep hbad herror hpresent htouched hstale hw hprotected
    refine congrArg Host.Outcome.next (walkRead_apart hs hf (by simp) rfl hop hq hk ?_)
    rw [walkReadDone_dirSecond _ hstep, if_neg (by simp [hbad, herror]), readDone_of_good herror,
      walkDirectory_marks (by exact hpresent) (by exact htouched) (by exact hstale) (by rw [hw] at hprotected; exact hprotected), hw]
  case segment =>
    intro s f q k w hs hf hop hq hk hstep hbad herror hpresent hno hin hwindow hw
    refine congrArg Host.Outcome.next (walkRead_apart hs hf (by simp) rfl hop hq hk ?_)
    rw [walkReadDone_dirSecond _ hstep, if_neg (by simp [hbad, herror]), readDone_of_good herror,
      walkDirectory_segment (by exact hpresent) (by exact hno)]
    exact walkSegment_of_sought (.inr ⟨hin, _, w, rfl, hw, .inr ⟨hwindow, rfl⟩⟩)
  case ends =>
    intro s s1 f q k hs hpart hf hop hq hk hstep hs1
    have hrun : ∀ x, s1.walkReadDone q k { data := s.dataOf f, error := s.readError f } = x →
        exec .directoryReadCompletion s = .next x.endStep := fun x hx =>
      congrArg Host.Outcome.next (walkRead_running hs hpart hf (by simp) rfl hop hq hk (by rw [← hs1]; exact hx))
    refine ⟨fun hbad herror habsent => hrun _ ?_, fun hbad hdiscard => hrun _ ?_, fun hbad hdiscard => hrun _ ?_⟩
    · rw [walkReadDone_dirSecond _ hstep, if_neg (by simp [hbad, herror]), walkDirectory_absent (by exact habsent)]
    · rw [walkReadDone_dirSecond _ hstep, if_pos (by simpa using hbad), ctFault_of_discard _ hdiscard]
    · rw [walkReadDone_dirSecond _ hstep, if_pos (by simpa using hbad)]
  case sought =>
    intro s t f q k k2 hs hpart hf hop hq hk hstep hbad herror hpresent hno hk2 ht
    refine congrArg Host.Outcome.next (walkRead_running hs hpart hf (by simp) rfl hop hq hk ?_)
    rw [walkReadDone_dirSecond _ hstep, if_neg (by simp [hbad, herror]), readDone_of_good herror,
      walkDirectory_segment (by exact hpresent) (by exact hno), ← hk2]
    exact walkSegment_of_sought ht
  case fault =>
    intro s q x
    refine ⟨fun h => ctFault_of_discard x h, fun o u h ho hu => ?_⟩
    have horigin : o = q.kind.origin := by
      simp only [List.mem_cons, Prod.mk.injEq, List.not_mem_nil, or_false] at ho
      obtain ⟨hk, rfl⟩ | ⟨hk, rfl⟩ | ⟨hk, rfl⟩ := ho <;> rw [hk] <;> rfl
    have hru : ∀ k, q.kind = k → u = s.ruFaulted k.origin q x := fun k hk => by
      rw [hu, horigin, hk]
      rfl
    refine ⟨fun hk => ?_, fun hk => ?_, fun n hk hn => ?_⟩
    · rw [ctFault_drawn x h hk, hru _ hk]
      rfl
    · rw [ctFault_read x h hk, hru _ hk]
      rfl
    · rw [ctFault_reel x h hk hn, hru _ hk]
      rfl

/-- Settles O41: the second word brings the checks of the segment entry, and their result the flag word or the end. -/
theorem segmentReadDecidesTheTranslation : Obligations.SegmentReadDecidesTheTranslation := by
  refine ⟨?first, ?absent, ?parity, ?ends, ?marks, ?found, ?fails, ?held, ?decided, ?fields⟩
  case first =>
    intro s f q k w hs hf hop hq hk hstep hw
    refine congrArg Host.Outcome.next (walkRead_apart hs hf (by simp) rfl hop hq hk ?_)
    rw [walkReadDone_segFirst _ hstep, hw]
    rfl
  case absent =>
    intro s f q k hs hpart hf hop hq hk hstep hkind hdiscard hbad herror habsent
    refine congrArg Host.Outcome.next (walkRead_running hs hpart hf (by simp) rfl hop hq hk ?_)
    rw [walkReadDone_segSecond _ hstep, if_neg (by simp [hbad, herror]), readDone_of_good herror,
      walkEntry_absent (by exact habsent), ctFault_drawn _ hdiscard hkind, ruFaulted, if_neg (by simp)]
    rfl
  case parity =>
    intro s f q k hs hpart hf hop hq hk hstep hkind hdiscard hbad
    refine congrArg Host.Outcome.next (walkRead_running hs hpart hf (by simp) rfl hop hq hk ?_)
    rw [walkReadDone_segSecond _ hstep, if_pos (by simpa using hbad), ctFault_drawn _ hdiscard hkind, ruFaulted, if_pos rfl]
    rfl
  case ends =>
    intro s s1 f q k hs hpart hf hop hq hk hstep hs1
    have hrun : ∀ x, s1.walkReadDone q k { data := s.dataOf f, error := s.readError f } = x →
        exec .segmentReadCompletion s = .next x.endStep := fun x hx =>
      congrArg Host.Outcome.next (walkRead_running hs hpart hf (by simp) rfl hop hq hk (by rw [← hs1]; exact hx))
    refine ⟨fun hbad herror habsent => hrun _ ?_, fun hbad hdiscard => hrun _ ?_, fun hbad hdiscard => hrun _ ?_⟩
    · rw [walkReadDone_segSecond _ hstep, if_neg (by simp [hbad, herror]), walkEntry_absent (by exact habsent)]
    · rw [walkReadDone_segSecond _ hstep, if_pos (by simpa using hbad), ctFault_of_discard _ hdiscard]
    · rw [walkReadDone_segSecond _ hstep, if_pos (by simpa using hbad)]
  case marks =>
    intro s f q k g t changes hs hf hop hq hk hstep hbad herror hg hpresent ht hchanges hmark hstale hprotected
    refine congrArg Host.Outcome.next (walkRead_apart hs hf (by simp) rfl hop hq hk ?_)
    rw [walkReadDone_segSecond _ hstep, if_neg (by simp [hbad, herror]), readDone_of_good herror,
      walkEntry_present (by rw [hg] at hpresent; exact hpresent)]
    subst hg
    refine walkCheck_of_decided ⟨rfl, .ok t, .inl ⟨t, ht, rfl⟩, changes, ?_, .inl ⟨by exact hmark, hstale, hprotected, rfl⟩⟩
    simp [hchanges]
  case found =>
    intro s f q k k2 t v hs hpart hf hop hq hk hstep hbad herror hk2 hpresent htouched ht hkind hdiscard hv
    refine congrArg Host.Outcome.next (walkRead_running hs hpart hf (by simp) rfl hop hq hk ?_)
    rw [walkReadDone_segSecond _ hstep, if_neg (by simp [hbad, herror]), readDone_of_good herror,
      walkEntry_present (by exact hpresent)]
    refine walkCheck_of_decided ⟨rfl, .ok t, .inl ⟨t, ht, rfl⟩, false, by simp [hkind], .inr ⟨.inl ⟨by exact htouched, rfl⟩, ?_⟩⟩
    rw [← hk2]
    refine Eq.symm ((ctHand_read_found hdiscard hkind (by exact hv)).trans ?_)
    rfl
  case fails =>
    intro s f q k k2 x hs hpart hf hop hq hk hstep hbad herror hk2 hpresent htouched hx hkind hdiscard
    have hwalk : x ≠ .walkParity := by
      rintro rfl
      unfold translationFails at hx
      split_ifs at hx
      simp at hx
    refine congrArg Host.Outcome.next (walkRead_running hs hpart hf (by simp) rfl hop hq hk ?_)
    rw [walkReadDone_segSecond _ hstep, if_neg (by simp [hbad, herror]), readDone_of_good herror,
      walkEntry_present (by exact hpresent)]
    refine walkCheck_of_decided ⟨rfl, .bad x, .inr ⟨x, hx, rfl⟩, false, by simp, .inr ⟨.inl ⟨by exact htouched, rfl⟩, ?_⟩⟩
    rw [← hk2]
    refine Eq.symm ((ctFault_drawn x hdiscard hkind).trans ?_)
    rw [ruFaulted, if_neg hwalk]
    rfl
  case held =>
    intro s f q k hs hf hop hq hk hstep hbad herror hpresent hasks
    refine congrArg Host.Outcome.next (walkRead_apart hs hf (by simp) rfl hop hq hk ?_)
    rw [walkReadDone_segSecond _ hstep, if_neg (by simp [hbad, herror]), readDone_of_good herror,
      walkEntry_present (by exact hpresent)]
    exact walkCheck_of_asksProfile hasks
  case decided =>
    intro s t f q k k2 g hs hpart hf hop hq hk hstep hbad herror hpresent hk2 hd
    refine congrArg Host.Outcome.next (walkRead_running hs hpart hf (by simp) rfl hop hq hk ?_)
    rw [walkReadDone_segSecond _ hstep, if_neg (by simp [hbad, herror]), readDone_of_good herror,
      walkEntry_present (by exact hpresent), ← hk2]
    exact walkCheck_of_decided hd
  case fields =>
    intro x y g hg
    subst hg
    refine ⟨rfl, rfl, rfl, rfl, rfl, ?_, bits_eq_field y 11 0, bits_eq_field y 22 16⟩
    show bits x 11 8 % 16 = _
    rw [← bits_eq_field]
    unfold bits
    omega

end Sys2Proof.Proofs
end

