-- ==== Sys2Proof/Proofs/Reports.lean ====
section
set_option Elab.async false
/-!
RESULT. The Report Unit's words, and its faults, counters and causes (O57, O58).
-/
namespace Sys2Proof.Machine

/-! ### Causes -/

theorem Cause.getLsbD_mask (c d : Cause) : c.mask.getLsbD d.bit = decide (d = c) := by
  cases c <;> cases d <;> rfl

theorem Cause.exists_bit {i : Nat} (h : i < 7) : ∃ c : Cause, c.bit = i := by
  have hall : ∀ i : Fin 7, ∃ c ∈ [Cause.fault, .journalLow, .reelEnded, .markLost, .counterOverflow, .standbyCancelled,
      .restartRefused], c.bit = i := by decide
  obtain ⟨c, -, hc⟩ := hall ⟨i, h⟩
  exact ⟨c, hc⟩

theorem Ru.raise_of_set {u : Ru} {c : Cause} (h : u.causes.getLsbD c.bit = true) : u.raise c = u := if_pos h

theorem Ru.raise_of_clear {u : Ru} {c : Cause} (h : u.causes.getLsbD c.bit = false) :
    u.raise c = { u with causes := u.causes ||| c.mask, dueStatus := true } := if_neg (by rw [isSet, h]; simp)

theorem exists_cause_iff (x y : BitVec 7) :
    x &&& y ≠ 0 ↔ ∃ c : Cause, x.getLsbD c.bit = true ∧ y.getLsbD c.bit = true := by
  constructor
  · intro h
    by_contra hnone
    refine h (BitVec.eq_of_getLsbD_eq fun i hi => ?_)
    obtain ⟨c, rfl⟩ := Cause.exists_bit hi
    have hclear : (x.getLsbD c.bit && y.getLsbD c.bit) = false := by
      by_contra hset
      exact hnone ⟨c, by simpa using hset⟩
    exact BitVec.getLsbD_and.trans (hclear.trans BitVec.getLsbD_zero.symm)
  · rintro ⟨c, hx, hy⟩ h
    have hbit := congrArg (fun z => z.getLsbD c.bit) h
    simp [hx, hy] at hbit

/-! ### Counters and faults -/

theorem Ru.count_below {u : Ru} {k : CounterKind} (h : (tget u.counters k.index).count.toNat < 65535) :
    u.count k = { u with
      counters := tset u.counters k.index { tget u.counters k.index with count := (tget u.counters k.index).count + 1 } } := by
  have hne : (tget u.counters k.index).count ≠ 65535 := fun he => by rw [he] at h; exact absurd h (by decide)
  rw [Ru.count, if_pos hne]

theorem Ru.count_full {u : Ru} {k : CounterKind} (h : (tget u.counters k.index).count.toNat = 65535) :
    u.count k = if (tget u.counters k.index).flag then u
      else Ru.raise { u with counters := tset u.counters k.index { tget u.counters k.index with flag := true } }
        .counterOverflow := by
  have he : (tget u.counters k.index).count = 65535 := BitVec.eq_of_toNat_eq h
  rw [Ru.count, if_neg (by simpa using he)]

/-- The more-count of a fault copy, saturating at 255. -/
theorem more_toNat (m : BitVec 8) : (if m = 255 then 255 else m + 1 : BitVec 8).toNat = min 255 (m.toNat + 1) := by
  split_ifs with h
  · subst h
    rfl
  · have : m.toNat ≠ 255 := fun he => h (BitVec.eq_of_toNat_eq he)
    rw [BitVec.toNat_add]
    have := m.isLt
    simp only [BitVec.reduceToNat]
    omega

end Sys2Proof.Machine
namespace Sys2Proof.Proofs
open Sys2Proof.Machine Sys2Proof.Machine.State

/-- Settles O58: a report, a count and a cause each touch fields of their own, and a full copy or a full counter decides the rest. -/
theorem reportsCountersAndCauses : Obligations.ReportsCountersAndCauses := by
  unfold Obligations.ReportsCountersAndCauses
  refine ⟨?empty, ?kept, ?count, ?raise, ?line⟩
  case empty =>
    intro u k o a h
    simp only [Ru.report, h]
  case kept =>
    intro u k o a c h
    refine ⟨_, more_toNat c.more, ?_⟩
    simp only [Ru.report, h]
  case count =>
    rintro u k c rfl
    refine ⟨fun h => ⟨_, ?_, Ru.count_below h⟩, fun h hflag => ?_, fun h hflag => ?_⟩
    · rw [BitVec.toNat_add]
      exact Nat.mod_eq_of_lt (by exact Nat.succ_lt_succ h)
    · rw [Ru.count_full h, if_pos hflag]
    · rw [Ru.count_full h, if_neg (by simp [hflag])]
  case raise =>
    intro u c
    refine ⟨Ru.raise_of_set, fun h => ⟨_, Ru.raise_of_clear h, fun d => ?_⟩⟩
    rw [BitVec.getLsbD_or, Cause.getLsbD_mask]
  case line =>
    intro s
    refine ⟨fun h => by rw [attention, h], fun h => by rw [attention, h], fun hbypass hpassive => ?_⟩
    rw [← exists_cause_iff]
    unfold attention
    cases hp : s.spc.part <;> simp_all

end Sys2Proof.Proofs
end

