-- ==== Sys2Proof/Proofs/Records.lean ====
section
set_option Elab.async false
/-!
RESULT. The words of the status area and the order in which they are written (O57).
-/
namespace Sys2Proof.Machine

/-! ### Words from their fields -/

theorem pack_eq (fields : List (Nat × Nat)) (n : Nat) (h : (fields.map (fun f => f.1 * 2 ^ f.2)).sum = n) :
    pack fields = BitVec.ofNat 32 n := by rw [pack, h]

/-- Two words of disjoint fields, one above the other. -/
theorem ofNat_or_above (a b : Nat) (h : a < 2 ^ 8) :
    BitVec.ofNat 32 a ||| BitVec.ofNat 32 (2 ^ 8 * b) = BitVec.ofNat 32 (a + 2 ^ 8 * b) := by
  rw [← BitVec.ofNat_or, Nat.or_comm, ← Nat.two_pow_add_eq_or_of_lt h, Nat.add_comm]

theorem statusWord1_eq (s : State) : s.statusWord1 = BitVec.ofNat 32 (s.spc.part.code + 2 ^ 4 * s.re.state.code
    + (if s.re.select = .b then 2 ^ 8 else 0) + (if s.mm.state = .lost then 2 ^ 9 else 0) + 2 ^ 12 * s.rp.state.code) := by
  have hselect : (s.re.select == .b).toNat * 2 ^ 8 = if s.re.select = .b then 2 ^ 8 else 0 := by cases s.re.select <;> rfl
  have hlost : (s.mm.state == .lost).toNat * 2 ^ 9 = if s.mm.state = .lost then 2 ^ 9 else 0 := by cases s.mm.state <;> rfl
  refine pack_eq _ _ ?_
  rw [← hselect, ← hlost]
  simp only [List.map_cons, List.map_nil, List.sum_cons, List.sum_nil]
  omega

theorem pack_three (a b c k l : Nat) : pack [(a, 0), (b, k), (c, l)] = BitVec.ofNat 32 (a + 2 ^ k * b + 2 ^ l * c) := by
  refine pack_eq _ _ ?_
  simp only [List.map_cons, List.map_nil, List.sum_cons, List.sum_nil, Nat.pow_zero, Nat.mul_one, Nat.add_zero]
  rw [Nat.mul_comm b, Nat.mul_comm c, Nat.add_assoc]

theorem jcStatusWord_eq (j : Jc) : j.statusWord
    = BitVec.ofNat 32 (j.inUse + 2 ^ 16 * (match j.openDrawn with | some i => j.entryCount i | none => 0)
        + 2 ^ 28 * ((List.finRange 8).filter (fun i => (j.at i).isSome)).length) := by
  have hslots : j.slotsInUse = ((List.finRange 8).filter (fun i => (j.at i).isSome)).length := by
    unfold Jc.slotsInUse Jc.countOf
    congr 2
    funext i
    cases h : j.at i <;> simp [Jc.slotHas, h]
  have hopen : j.openDrawnCount = (match j.openDrawn with | some i => j.entryCount i | none => 0) := rfl
  rw [← hslots, ← hopen]
  exact pack_three _ _ _ 16 28

theorem reelWord_eq (r : Rp) : r.reelWord
    = BitVec.ofNat 32 ((match r.reel with | some k => k.val + 2 ^ 2 | none => 0) + 2 ^ 8 * r.plays.toNat + 2 ^ 16 * r.frame) := by
  refine pack_eq _ _ ?_
  cases r.reel <;> simp <;> omega

/-- The part of the cue word that names the pending cue. -/
def Rp.cueField (r : Rp) : Nat := match r.pendingCue with | some k => k.val + 2 ^ 2 | none => 0

theorem Rp.cueField_lt (r : Rp) : r.cueField < 2 ^ 8 := by
  unfold Rp.cueField
  cases r.pendingCue <;> simp
  omega

theorem cueWord_eq (r : Rp) : r.cueWord
    = BitVec.ofNat 32 ((match r.pendingCue with | some k => k.val + 2 ^ 2 | none => 0)
        + match r.lastIgnored with
          | none => 0
          | some g => 2 ^ 8 + (if g.source = .playWord then 2 ^ 9 else 0)
              + match g.reel with | some k => 2 ^ 12 * k.val | none => 2 ^ 10) := by
  have hcue : pack [((r.pendingCue.getD 0).val, 0), (r.pendingCue.isSome.toNat, 2)] = BitVec.ofNat 32 r.cueField := by
    refine pack_eq _ _ ?_
    unfold Rp.cueField
    cases r.pendingCue <;> simp
  show _ = BitVec.ofNat 32 (r.cueField + _)
  unfold Rp.cueWord
  rw [hcue]
  cases r.lastIgnored with
  | none => rfl
  | some g =>
    have hignored : pack [(1, 8), ((g.source == .playWord).toNat, 9), (g.reel.isNone.toNat, 10), ((g.reel.getD 0).val, 12)]
        = BitVec.ofNat 32 (2 ^ 8 * (1 + (if g.source = .playWord then 2 else 0)
            + match g.reel with | some k => 2 ^ 4 * k.val | none => 4)) := by
      have hsource : (g.source == .playWord).toNat = if g.source = .playWord then 1 else 0 := by cases g.source <;> rfl
      refine pack_eq _ _ ?_
      simp only [List.map_cons, List.map_nil, List.sum_cons, List.sum_nil, hsource]
      split_ifs <;> cases g.reel <;> simp <;> omega
    simp only [hignored]
    rw [ofNat_or_above _ _ r.cueField_lt]
    congr 2
    split_ifs <;> cases g.reel <;> simp <;> omega

/-! ### The flags of the counter block -/

/-- The bits of word 0x04 of the counter block: the kind of the capture, and from bit 8 the overflow flags. -/
def Ru.flagBits (u : Ru) (kind : CaptureKind) (k : Fin 16) : Bool :=
  if k.val = 0 then kind == .automatic
  else if h : 8 ≤ k.val then (tget u.counters ⟨k.val - 8, by omega⟩).flag else false

theorem flagWord_eq (u : Ru) (kind : CaptureKind) :
    pack ((((kind == .automatic).toNat, 0)) :: (List.finRange 8).map (fun i => ((tget u.counters i).flag.toNat, 8 + i.val)))
      = BitVec.ofNat 32 (Nat.ofBits (u.flagBits kind)) := by
  refine pack_eq _ _ ?_
  have hrange : List.finRange 8 = [0, 1, 2, 3, 4, 5, 6, 7] := rfl
  simp [hrange, Nat.ofBits_succ, Ru.flagBits]
  omega

theorem flagWord_getLsbD (u : Ru) (kind : CaptureKind) (k : Nat) :
    (BitVec.ofNat 32 (Nat.ofBits (u.flagBits kind))).getLsbD k = if h : k < 16 then u.flagBits kind ⟨k, h⟩ else false := by
  rw [BitVec.getLsbD_ofNat]
  split_ifs with h
  · rw [Nat.testBit_ofBits_lt _ _ h]
    simp
    omega
  · rw [Nat.testBit_ofBits_ge _ _ (by omega)]
    simp

namespace State

/-! ### The order of the records -/

theorem beginDueRecord_fault_eq {s : State} {base : Nat} (hwriting : s.ru.writing = none) (hbase : s.ru.base = some base)
    (h : s.ru.dueFault = true) : s.beginDueRecord = s.beginFault base := by
  simp only [beginDueRecord, hwriting, hbase, if_pos h]

theorem beginDueRecord_status_eq {s : State} {base : Nat} (hwriting : s.ru.writing = none) (hbase : s.ru.base = some base)
    (hf : s.ru.dueFault = false) (h : s.ru.dueStatus = true) : s.beginDueRecord = s.beginStatus base := by
  simp only [beginDueRecord, hwriting, hbase, hf, if_pos h, Bool.false_eq_true, if_false]

theorem beginDueRecord_counters_eq {s : State} {base : Nat} {kind : CaptureKind} (hwriting : s.ru.writing = none)
    (hbase : s.ru.base = some base) (hf : s.ru.dueFault = false) (hs : s.ru.dueStatus = false)
    (h : s.ru.dueCounters = some kind) : s.beginDueRecord = s.beginCounters kind base := by
  simp only [beginDueRecord, hwriting, hbase, hf, hs, h, Bool.false_eq_true, if_false]

theorem beginDueRecord_of_none {s : State} (h : s.ru.writing ≠ none ∨ s.ru.base = none
    ∨ (s.ru.dueFault = false ∧ s.ru.dueStatus = false ∧ s.ru.dueCounters = none)) : s.beginDueRecord = s := by
  unfold beginDueRecord
  rcases h with h | h | ⟨hf, hs, hc⟩
  · cases hw : s.ru.writing <;> simp_all
  · rw [h]
    cases s.ru.writing <;> rfl
  · simp only [hf, hs, hc, Bool.false_eq_true, if_false]
    cases s.ru.writing <;> cases s.ru.base <;> rfl

theorem endStep_eq (s : State) : s.endStep = { s.beginDueRecord with
    mp := { s.beginDueRecord.mp with completing := s.beginDueRecord.mp.completing
      && (!s.beginDueRecord.mp.held.isEmpty || s.beginDueRecord.followsUp) } } := rfl

/-- The moment of a completion goes on at the end of a step. -/
theorem endStep_of_stays {s : State} (h : s.beginDueRecord.mp.completing = false
    ∨ (∃ p, tget s.beginDueRecord.mp.requests p ≠ none) ∨ s.beginDueRecord.canFollow) : s.endStep = s.beginDueRecord := by
  have hkeep : (s.beginDueRecord.mp.completing
      && (!s.beginDueRecord.mp.held.isEmpty || s.beginDueRecord.followsUp)) = s.beginDueRecord.mp.completing := by
    rcases h with h | ⟨p, h⟩ | h
    · rw [h, Bool.false_and]
    · have hheld : s.beginDueRecord.mp.held.isEmpty = false := by
        rw [List.isEmpty_eq_false_iff]
        exact List.ne_nil_of_mem (a := p) (List.mem_filter.2 ⟨mem_places p, Option.isSome_iff_ne_none.2 h⟩)
      rw [hheld]
      simp
    · rw [(followsUp_iff _).2 h]
      simp
  rw [endStep_eq, hkeep]

/-- The moment of a completion ends. -/
theorem endStep_of_ends {s : State} (hnone : ∀ p, tget s.beginDueRecord.mp.requests p = none)
    (h : ¬s.beginDueRecord.canFollow) :
    s.endStep = { s.beginDueRecord with mp := { s.beginDueRecord.mp with completing := false } } := by
  have hheld : s.beginDueRecord.mp.held = [] := by simp [Mp.held, Mp.holds, hnone]
  have hfollow : s.beginDueRecord.followsUp = false := by
    rw [← Bool.not_eq_true, followsUp_iff]
    exact h
  rw [endStep_eq, hheld, hfollow, show (!([] : List Place).isEmpty || false) = false from rfl, Bool.and_false]

end State
end Sys2Proof.Machine
namespace Sys2Proof.Proofs
open Sys2Proof.Machine Sys2Proof.Machine.State

/-- Settles O57: a record is begun in the order of the due marks, each word asks the next, and its words are those of the layout. -/
theorem recordsAreWrittenWordByWord : Obligations.RecordsAreWrittenWordByWord := by
  unfold Obligations.RecordsAreWrittenWordByWord
  refine ⟨?written, fun s => beginDueRecord_of_none, ?begun, ?status, ?fault, ?counters, ?codes, ?ends⟩
  case written =>
    intro s f w hs hf hop hw
    refine ⟨fun h => congrArg Host.Outcome.next (writeCompletion_apart hs hf (by simp) rfl hop ?_),
      fun h => congrArg Host.Outcome.next (writeCompletion_apart hs hf (by simp) rfl hop ?_)⟩
    · simp only [statusDone, hw, if_pos h]
      rfl
    · simp only [statusDone, hw, if_neg (Nat.not_lt.2 h)]
      rfl
  case begun =>
    intro s base hwriting hbase
    exact ⟨fun h => (beginDueRecord_fault_eq hwriting hbase h).trans rfl,
      fun hf h => (beginDueRecord_status_eq hwriting hbase hf h).trans rfl,
      fun kind hf hst h => (beginDueRecord_counters_eq hwriting hbase hf hst h).trans rfl⟩
  case status =>
    intro s n w hw
    refine ⟨rfl, (hw 0x00).trans rfl, (hw 0x2C).trans rfl, (hw 0x04).trans (statusWord1_eq s), fun h => ?_,
      fun r tag o h => ?_, fun r k i h => ?_, (hw 0x10).trans (jcStatusWord_eq s.jc), (hw 0x14).trans (reelWord_eq s.rp),
      (hw 0x18).trans (cueWord_eq s.rp), (hw 0x1C).trans rfl, (hw 0x20).trans rfl, (hw 0x24).trans rfl, (hw 0x28).trans rfl⟩
    all_goals
      have h2 : w 0x08 = s.re.flipWords.1 := hw 0x08
      have h3 : w 0x0C = s.re.flipWords.2 := hw 0x0C
      rw [h2, h3]
      simp only [Re.flipWords, h]
    · exact ⟨trivial, trivial⟩
    · refine ⟨pack_eq _ _ ?_, (pack_eq _ tag.toNat (by simp)).trans ?_⟩
      · cases o <;> simp
      · exact BitVec.ofNat_toNat 32 tag
    · refine ⟨pack_eq _ _ (by simp), pack_eq _ _ (by simp; omega)⟩
  case fault =>
    intro u
    refine ⟨fun h => by rw [Ru.faultWords, h], fun f h => ?_⟩
    rw [Ru.faultWords, h]
    have hword : pack [(f.kind.code, 0), (f.origin.code, 8)] = BitVec.ofNat 32 (f.kind.code + 2 ^ 8 * f.origin.code) :=
      pack_eq _ _ (by simp; omega)
    simp only [hword]
  case counters =>
    intro u n kind w hw
    have hflags : ∀ k, (w 0x04).getLsbD k = if h : k < 16 then u.flagBits kind ⟨k, h⟩ else false := by
      intro k
      rw [show w 0x04 = _ from (hw 0x04).trans (flagWord_eq u kind)]
      exact flagWord_getLsbD u kind k
    refine ⟨rfl, (hw 0x00).trans rfl, (hw 0x3C).trans rfl, ?_, fun i => ⟨?_, ?_⟩, fun k hk => ?_, (hw 0x28).trans rfl,
      (hw 0x2C).trans rfl, (hw 0x30).trans rfl, (hw 0x34).trans rfl, (hw 0x38).trans rfl⟩
    · rw [hflags]
      simp [Ru.flagBits]
    · rw [hflags, dif_pos (by omega)]
      simp [Ru.flagBits]
    · fin_cases i <;> exact hw _
    · rw [hflags]
      split_ifs with h
      · simp only [Ru.flagBits]
        rw [if_neg (by omega), dif_neg (by omega)]
      · rfl
  case codes =>
    exact ⟨rfl, fun _ => rfl, rfl, rfl, rfl, rfl, rfl, rfl, rfl⟩
  case ends =>
    rintro s t rfl
    exact ⟨endStep_of_stays, endStep_of_ends⟩

end Sys2Proof.Proofs
end

