-- ==== Sys2Proof/Proofs/Placement.lean ====
section
set_option Elab.async false
/-!
SUPPORT. The journal's OPEN batches, entries and lookups (R11 to R17, R24 to R29): what each question says, and what staging,
allocation and placement do, for the drawn write and the reel update alike.
-/
namespace Sys2Proof.Machine

/-! ### OPEN batches -/

namespace Jc

theorem at_of_find {j : Jc} {p : Batch → Bool} {i : Fin 8} (h : j.find p = some i) : ∃ b, j.at i = some b ∧ p b = true :=
  (slotHas_iff j p i).mp (List.find?_some h)

theorem not_of_find_none {j : Jc} {p : Batch → Bool} (h : j.find p = none) (i : Fin 8) : ∀ b ∈ j.at i, ¬p b = true :=
  fun b hb hp => List.find?_eq_none.mp h i (mem_slotList i) ((slotHas_iff j p i).mpr ⟨b, hb, hp⟩)

theorem openDrawn_at {j : Jc} {i : Fin 8} (h : j.openDrawn = some i) :
    ∃ b, j.at i = some b ∧ b.phase = .opened ∧ b.isDrawn = true := by
  obtain ⟨b, hb, hp⟩ := at_of_find h
  exact ⟨b, hb, by simpa [Batch.isOpen, and_comm] using hp⟩

theorem openReel_at {j : Jc} {i : Fin 8} (h : j.openReel = some i) :
    ∃ b, j.at i = some b ∧ b.phase = .opened ∧ b.isReel = true := by
  obtain ⟨b, hb, hp⟩ := at_of_find h
  exact ⟨b, hb, by simpa [Batch.isOpen, and_comm] using hp⟩

theorem not_openDrawn {j : Jc} (h : j.openDrawn = none) (i : Fin 8) :
    ∀ b ∈ j.at i, ¬(b.phase = .opened ∧ b.isDrawn = true) := fun b hb hp =>
  not_of_find_none h i b hb (by simp [Batch.isOpen, hp.1, hp.2])

theorem not_openReel {j : Jc} (h : j.openReel = none) (i : Fin 8) :
    ∀ b ∈ j.at i, ¬(b.phase = .opened ∧ b.isReel = true) := fun b hb hp =>
  not_of_find_none h i b hb (by simp [Batch.isOpen, hp.1, hp.2])

/-- A batch changed without its property stays where it is found. -/
theorem find_put {j : Jc} {p : Batch → Bool} {i : Fin 8} {b : Batch} (c : Batch) (hb : j.at i = some b) (hp : p c = p b) :
    (j.put i (some c)).find p = j.find p := by
  have hslots : (j.put i (some c)).slotHas p = j.slotHas p := by
    funext k
    by_cases hk : k = i
    · subst hk
      rw [slotHas_put_same, hp]
      simp [slotHas, hb]
    · exact slotHas_put_ne j p _ hk
  rw [find, find, hslots]

/-- A batch put into the lowest-numbered of the FREE slots, none of the others having the property, is the one found. -/
theorem find_opened {j : Jc} {p : Batch → Bool} {i : Fin 8} (c : Batch) (hnone : j.find p = none) (hp : p c = true) :
    (j.put i (some c)).find p = some i := by
  have hothers : ∀ k, k ≠ i → (j.put i (some c)).slotHas p k = false := fun k hk => by
    rw [slotHas_put_ne j p _ hk]
    simpa using List.find?_eq_none.mp hnone k (mem_slotList k)
  cases hfound : (j.put i (some c)).find p with
  | none => exact absurd hp (not_of_find_none hfound i c (at_put_same j i _))
  | some k =>
    by_cases hk : k = i
    · rw [hk]
    · have := List.find?_some hfound
      rw [hothers k hk] at this
      exact absurd this (by simp)

/-- The lowest-numbered FREE slot (R6). -/
theorem lowestFree_of {j : Jc} {i : Fin 8} (hi : j.at i = none) (hlower : ∀ k, k < i → (j.at k).isSome = true) :
    j.lowestFree = some i := by
  have hsplit : ∀ i : Fin 8, ∃ l r, slotList = l ++ i :: r ∧ ∀ k ∈ l, k < i := by
    intro i
    refine ⟨slotList.take i.val, slotList.drop (i.val + 1), ?_, ?_⟩ <;> revert i <;> decide
  obtain ⟨l, r, hlist, hl⟩ := hsplit i
  refine List.find?_eq_some_iff_append.mpr ⟨by simp [hi], l, r, hlist, fun k hk => ?_⟩
  obtain ⟨b, hb⟩ := Option.isSome_iff_exists.mp (hlower k (hl k hk))
  simp [hb]

/-! ### Entries -/

theorem hasEntry_iff {j : Jc} {i : Fin 8} {b : Batch} (f : Nat) (hb : j.at i = some b) :
    j.hasEntry i f = true ↔ ∃ e ∈ b.entries, e.frameSlot = f := by
  simp [hasEntry, hb, Batch.entryFor]

theorem entryFree_iff (j : Jc) : j.entryFree = true ↔ j.waiters.length + j.inUse < 512 := by
  rw [entryFree, decide_eq_true_iff, free]
  omega

/-! ### Lookups -/

/-- The slot whose batch is younger than every other one of a list stays the best of it. -/
theorem foldl_younger_stays {j : Jc} {i : Fin 8} {b : Batch} (hi : j.at i = some b) (l : List (Fin 8))
    (h : ∀ k ∈ l, ∃ c, j.at k = some c ∧ c.order ≤ b.order) : l.foldl j.younger (some i) = some i := by
  induction l with
  | nil => rfl
  | cons k l ih =>
    obtain ⟨c, hc, hle⟩ := h k (by simp)
    have hstep : j.younger (some i) k = some i := by
      simp only [younger, hc, hi]
      exact if_neg (by omega)
    rw [List.foldl_cons, hstep]
    exact ih (fun k hk => h k (by simp [hk]))

/-- The slot whose batch is younger than every other one of a list comes out of it. -/
theorem foldl_younger {j : Jc} {i : Fin 8} {b : Batch} (hi : j.at i = some b) (l : List (Fin 8)) (hmem : i ∈ l)
    (h : ∀ k ∈ l, k ≠ i → ∃ c, j.at k = some c ∧ c.order < b.order) (acc : Option (Fin 8))
    (hacc : ∀ k ∈ acc, k ≠ i → ∃ c, j.at k = some c ∧ c.order < b.order) : l.foldl j.younger acc = some i := by
  induction l generalizing acc with
  | nil => simp at hmem
  | cons k l ih =>
    rw [List.foldl_cons]
    by_cases hk : k = i
    · subst hk
      have hstep : j.younger acc k = some k := by
        rcases acc with - | m
        · rfl
        · by_cases e : m = k
          · subst e
            simp [younger, hi]
          · obtain ⟨c, hc, hlt⟩ := hacc m rfl e
            simp only [younger, hi, hc]
            exact if_pos hlt
      rw [hstep]
      refine foldl_younger_stays hi l fun m hm => ?_
      by_cases e : m = k
      · exact ⟨b, e ▸ hi, le_rfl⟩
      · obtain ⟨c, hc, hlt⟩ := h m (by simp [hm]) e
        exact ⟨c, hc, hlt.le⟩
    · refine ih ((List.mem_cons.mp hmem).resolve_left (Ne.symm hk)) (fun m hm => h m (by simp [hm])) _ fun m hm hne => ?_
      obtain ⟨c, hc, hlt⟩ := h k (by simp) hk
      have hcases : m = k ∨ acc = some m := by
        rcases acc with - | n
        · exact .inl (by simpa [younger, eq_comm] using hm)
        · simp only [younger, hc] at hm
          split at hm
          · split_ifs at hm
            · exact .inl (by simpa [eq_comm] using hm)
            · exact .inr hm
          · exact .inl (by simpa [eq_comm] using hm)
      rcases hcases with rfl | hacc'
      · exact ⟨c, hc, hlt⟩
      · exact hacc m hacc' hne

theorem youngest_of_greatest {j : Jc} {p : Batch → Bool} {i : Fin 8} {b : Batch} (hi : j.at i = some b) (hp : p b = true)
    (h : ∀ k c, k ≠ i → j.at k = some c → p c = true → c.order < b.order) : j.youngest p = some i := by
  refine foldl_younger hi _ ?_ ?_ none (by simp)
  · exact List.mem_filter.mpr ⟨mem_slotList i, (slotHas_iff _ _ _).mpr ⟨b, hi, hp⟩⟩
  · intro k hk hne
    obtain ⟨c, hc, hpc⟩ := (slotHas_iff _ _ _).mp (List.mem_filter.mp hk).2
    exact ⟨c, hc, h k c hne hc hpc⟩

theorem youngest_of_none {j : Jc} {p : Batch → Bool} (h : ∀ k c, j.at k = some c → ¬p c = true) : j.youngest p = none := by
  have hempty : slotList.filter (j.slotHas p) = [] := List.filter_eq_nil_iff.mpr fun k _ hk => by
    obtain ⟨c, hc, hp⟩ := (slotHas_iff _ _ _).mp hk
    exact h k c hc hp
  rw [youngest, hempty]
  rfl

end Jc

theorem Batch.valueFor_of_answers {b : Batch} {f : Nat} {v : Stored} (h : b.answers f v) : b.valueFor f = some v := by
  obtain ⟨e, he, hef, hunique, hanswer⟩ := h
  cases hfound : b.entryFor f with
  | none => exact absurd hef (by simpa using List.find?_eq_none.mp hfound e he)
  | some x =>
    obtain rfl : x = e := hunique x (List.mem_of_find?_eq_some hfound) (by simpa using List.find?_some hfound)
    rcases hanswer with hs | ⟨hs, hv⟩ <;> simp [valueFor, Entry.answer, *]

theorem Batch.valueFor_of_silent {b : Batch} {f : Nat} (h : b.silent f) : b.valueFor f = none := by
  cases hfound : b.entryFor f with
  | none => simp [valueFor, hfound]
  | some x =>
    obtain ⟨hs, hv⟩ := h x (List.mem_of_find?_eq_some hfound) (by simpa using List.find?_some hfound)
    simp [valueFor, hfound, Entry.answer, hs, hv]

namespace Jc

/-- What the journal answers a requester with, by the OPEN batch and the batches past OPEN (R15, R16). -/
def lookupIn (j : Jc) (n : Nat) (mine : Batch → Bool) (l : Option (Fin 8)) : Option Stored :=
  (l.bind (j.valueAt n)).or (j.youngestValue n (fun b => mine b && !b.isOpen))

theorem drawnLookup_eq (j : Jc) (n : Nat) : j.drawnLookup n = j.lookupIn n Batch.isDrawn j.openDrawn := rfl

theorem reelLookup_eq (j : Jc) (n : Nat) : j.reelLookup n = j.lookupIn n Batch.isCurrentPlay j.openReel := rfl

theorem lookupIn_of_open {j : Jc} {n : Nat} {mine : Batch → Bool} {i : Fin 8} {b : Batch} {v : Stored} (hi : j.at i = some b)
    (h : b.answers n v) : j.lookupIn n mine (some i) = some v := by
  simp [lookupIn, valueAt, hi, Batch.valueFor_of_answers h]

theorem lookupIn_of_silent {j : Jc} {n : Nat} {mine : Batch → Bool} {l : Option (Fin 8)}
    (h : ∀ k ∈ l, ∀ c ∈ j.at k, c.silent n) :
    j.lookupIn n mine l = j.youngestValue n (fun b => mine b && !b.isOpen) := by
  have hopen : l.bind (j.valueAt n) = none := by
    rcases l with - | k
    · rfl
    · cases hk : j.at k with
      | none => simp [valueAt, hk]
      | some c => simp [valueAt, hk, Batch.valueFor_of_silent (h k rfl c hk)]
  simp [lookupIn, hopen]

theorem youngestValue_of_greatest {j : Jc} {n : Nat} {mine : Batch → Bool} {i : Fin 8} {b : Batch} {v : Stored}
    (hi : j.at i = some b) (hmine : mine b = true) (hphase : b.phase ≠ .opened) (h : b.answers n v)
    (hall : ∀ k c, k ≠ i → j.at k = some c → mine c = true → c.phase ≠ .opened →
      c.silent n ∨ c.sealOrder.getD 0 < b.sealOrder.getD 0) :
    j.youngestValue n (fun b => mine b && !b.isOpen) = some v := by
  have hvalue := Batch.valueFor_of_answers h
  have hyoungest : j.youngest (fun b => (mine b && !b.isOpen) && (b.valueFor n).isSome) = some i := by
    refine youngest_of_greatest hi (by simp [hmine, Batch.isOpen, hphase, hvalue]) fun k c hne hc hp => ?_
    obtain ⟨⟨hcm, hcp⟩, hcv⟩ : (mine c = true ∧ c.phase ≠ .opened) ∧ (c.valueFor n).isSome = true := by
      simpa [Batch.isOpen] using hp
    refine (hall k c hne hc hcm hcp).resolve_left fun hsilent => ?_
    rw [Batch.valueFor_of_silent hsilent] at hcv
    exact absurd hcv (by simp)
  rw [youngestValue, hyoungest]
  simp [valueAt, hi, hvalue]

theorem youngestValue_of_silent {j : Jc} {n : Nat} {mine : Batch → Bool}
    (h : ∀ k c, j.at k = some c → mine c = true → c.phase ≠ .opened → c.silent n) :
    j.youngestValue n (fun b => mine b && !b.isOpen) = none := by
  have hnone : j.youngest (fun b => (mine b && !b.isOpen) && (b.valueFor n).isSome) = none := by
    refine youngest_of_none fun k c hc hp => ?_
    obtain ⟨⟨hcm, hcp⟩, hcv⟩ : (mine c = true ∧ c.phase ≠ .opened) ∧ (c.valueFor n).isSome = true := by
      simpa [Batch.isOpen] using hp
    rw [Batch.valueFor_of_silent (h k c hc hcm hcp)] at hcv
    exact absurd hcv (by simp)
  rw [youngestValue, hnone]
  rfl

end Jc

namespace State

/-! ### Staging and allocation -/

theorem target_of_stagesInto {s : State} {r : Requester} {i : Fin 8} {b : Batch} (h : s.stagesInto r i b) :
    s.jc.target r = some i := by
  cases r <;> exact h.1

theorem stageEntry_of_entry {s : State} {r : Requester} {w : Staged} {i : Fin 8} {b : Batch} (h : s.stagesInto r i b)
    (he : ∃ e ∈ b.entries, e.frameSlot = w.frameSlot) : s.stageEntry r w = s.place r w := by
  simp only [stageEntry, target_of_stagesInto h]
  exact if_pos ((Jc.hasEntry_iff _ h.2).mpr he)

/-- A write that finds no entry is granted one, waits or fails (R13, R24, R25). -/
theorem stageEntry_of_noEntry {s : State} {r : Requester} {w : Staged} {i : Fin 8} {b : Batch} (h : s.stagesInto r i b)
    (hno : ∀ e ∈ b.entries, e.frameSlot ≠ w.frameSlot) :
    s.stageEntry r w = if s.jc.entryFree then (s.grantEntry i w).place r w
      else if s.canFree then s.waitEntry r w else s.failEntry r w := by
  simp only [stageEntry, target_of_stagesInto h]
  refine if_neg fun he => ?_
  obtain ⟨e, hmem, hslot⟩ := (Jc.hasEntry_iff _ h.2).mp he
  exact hno e hmem hslot

theorem grantEntry_eq {s : State} {i : Fin 8} {b : Batch} (w : Staged) (hb : s.jc.at i = some b) :
    s.grantEntry i w = s.granted i b { frameSlot := w.frameSlot, rail := w.rail, value := none, shown := none, newLoad := none } := by
  have hfree : (s.jc.put i (some { b with entries := b.entries ++ [w.newEntry] })).free = 512 - (s.jc.inUse + 1) := by
    have hput := Jc.inUse_put s.jc i { b with entries := b.entries ++ [w.newEntry] }
    have hcount : s.jc.entryCount i = b.entries.length := by simp [Jc.entryCount, hb]
    simp only [List.length_append, List.length_singleton] at hput
    rw [Jc.free]
    omega
  have hlow : (s.jc.put i (some { b with entries := b.entries ++ [w.newEntry] })).fallsLow = s.lowNow := by
    rw [Jc.fallsLow, hfree]
    rfl
  unfold grantEntry granted
  rw [Jc.modify_of_at _ hb]
  dsimp only
  rw [hlow]
  cases hnow : s.lowNow
  · rw [if_neg (by simp), Bool.or_false]
    rfl
  · rw [if_pos rfl, Bool.or_true]
    rfl

/-- The batch that has been granted an entry is still the one its requester stages into. -/
theorem stagesInto_granted {s : State} {r : Requester} {i : Fin 8} {b : Batch} (e : Entry) (h : s.stagesInto r i b) :
    (s.granted i b e).stagesInto r i { b with entries := b.entries ++ [e] } := by
  obtain ⟨hopen, hb⟩ := h
  refine ⟨?_, Jc.at_put_same s.jc i _⟩
  cases r
  · exact (Jc.find_put (p := fun b => b.isDrawn && b.isOpen) { b with entries := b.entries ++ [e] } hb rfl).trans hopen
  · exact (Jc.find_put (p := fun b => b.isReel && b.isOpen) { b with entries := b.entries ++ [e] } hb rfl).trans hopen

theorem waitEntry_eq (s : State) (r : Requester) (w : Staged) : s.waitEntry r w = { s with
    jc := { s.jc with
      drawn := if r = .aq then some { w with wait := .entry } else s.jc.drawn
      reel := if r = .rp then some { w with wait := .entry } else s.jc.reel
      waiters := s.jc.waiters ++ [r] } } := by
  cases r <;> rfl

theorem failReel_eq {s : State} {h : Header} {n : Nat} (hh : s.rp.header = some h) (hn : s.rp.step = .update n) :
    s.failReel = State.endFrame (s.reelFailed h n) := by
  unfold failReel truncate
  simp only [releaseReel, setPu_rp, setJc_rp, State.count, setRu_rp, hn, pairAddress, hh]
  rfl

/-! ### Placement -/

theorem placeStored_drawn {s : State} {w : Staged} {i : Fin 8} {b : Batch} (v : Stored) (h : s.stagesInto .aq i b) :
    s.placeStored .aq w v = s.drawnPlaced i b w.frameSlot v := by
  simp only [placeStored, target_of_stagesInto h, Jc.modify_of_at _ h.2]
  exact headLeaves_eq _

theorem placeStored_reel {s : State} {w : Staged} {i : Fin 8} {b : Batch} {n : Nat} (v : Stored) (h : s.stagesInto .rp i b)
    (hn : s.rp.step = .update n) : s.placeStored .rp w v = State.loadPair (s.reelPlaced i b w.frameSlot v) (n + 1) := by
  simp only [placeStored, target_of_stagesInto h, Jc.modify_of_at _ h.2]
  exact updateDone_of_update hn

theorem place_finished {s : State} {r : Requester} {w : Staged} {v : Stored} (h : w.payload = .finished v) :
    s.place r w = s.placeStored r w v := by
  simp only [place, h]

theorem place_combined {s : State} {r : Requester} {w : Staged} {v : Stored} {x : HeldWrite} (h : w.payload = .combine)
    (hv : s.jc.baseFor r w.frameSlot = some v) (hx : s.pu.held r = some x) :
    s.place r w = s.placeStored r w (x.combined v) := by
  simp only [place, h, hv, combineWith, hx]

theorem place_asks {s : State} {r : Requester} {w : Staged} (h : w.payload = .combine)
    (hv : s.jc.baseFor r w.frameSlot = none) : s.place r w = s.askBase r w := by
  simp only [place, h, hv]

/-- The entry granted to a finished value, and then placed: the last entry of its batch, with the value. -/
theorem jcPlaced_granted {s : State} {i : Fin 8} {b : Batch} {w : Staged} (v : Stored)
    (hno : ∀ e ∈ b.entries, e.frameSlot ≠ w.frameSlot) :
    ((s.granted i b { frameSlot := w.frameSlot, rail := w.rail, value := none, shown := none, newLoad := none }).jcPlaced i
      { b with entries := b.entries ++ [{ frameSlot := w.frameSlot, rail := w.rail, value := none, shown := none, newLoad := none }] }
      w.frameSlot v).slots = tset s.jc.slots i (some { b with entries := b.entries ++ [entryOf w v] }) := by
  have hmap : b.entries.map (fun e => if e.frameSlot = w.frameSlot then { e with value := some v } else e) = b.entries :=
    (List.map_congr_left fun e he => if_neg (hno e he)).trans (List.map_id _)
  simp only [jcPlaced, granted, tset_tset, List.map_append, hmap, List.map_cons, List.map_nil, if_true]
  rfl

/-! ### A batch opened, and the pairs of a frame -/

theorem openBatch_of_free {s : State} {i : Fin 8} (o : Origin) (hold : Nat) (hi : s.jc.at i = none)
    (hlower : ∀ k, k < i → (s.jc.at k).isSome = true) :
    s.openBatch o hold = { s with jc := s.jcWith i (some (Batch.fresh o hold)) } := by
  simp only [openBatch, Jc.lowestFree_of hi hlower]
  rfl

theorem loadPair_of_lt {s : State} {h : Header} {n : Nat} (hh : s.rp.header = some h) (hn : n < h.count) :
    s.loadPair n = { s with
      rp := { s.rp with step := .pairAddr n }
      mp := s.mp.asking placeRp (readOf .pairRead (wordAt (h.addr + 4 + 8 * n))) } := by
  have hcount : s.pairCount = h.count := by simp only [pairCount, hh]
  have haddr : s.pairAddress n = h.addr + 4 + 8 * n := by simp only [pairAddress, hh]
  rw [loadPair, if_pos (by rw [hcount]; exact hn), haddr]
  rfl

theorem loadPair_of_ge {s : State} {h : Header} {n : Nat} (hh : s.rp.header = some h) (hn : h.count ≤ n) :
    s.loadPair n = s.endFrame := by
  have hcount : s.pairCount = h.count := by simp only [pairCount, hh]
  exact if_neg (by rw [hcount]; exact Nat.not_lt.mpr hn)

/-! ### Handing on -/

theorem ctHand_drawn_staged {s : State} {q : CtReq} (t : Translation) (h : q.discard = false) (hk : q.kind = .drawnWrite) :
    s.ctHand q t = if s.jc.openDrawn.isSome then State.stageEntry (s.drawnHanded q t) .aq (stagedOf q t)
      else if s.jc.drawnCount < 6 then State.stageEntry (State.openBatch (s.drawnHanded q t) .drawn 1) .aq (stagedOf q t)
      else if s.canFree then { s.drawnHanded q t with jc := { s.jc with drawn := some { stagedOf q t with wait := .slot } } }
      else State.drawnDropped (s.drawnHanded q t) q.canvas := by
  rw [ctHand_drawn t h hk, stageDrawn, cancelStandby_eq, ← dropDrawn_eq]
  rfl

theorem ctHand_drawn_open {s : State} {q : CtReq} {i : Fin 8} (t : Translation) (h : q.discard = false)
    (hk : q.kind = .drawnWrite) (hi : s.jc.openDrawn = some i) :
    s.ctHand q t = State.stageEntry (s.drawnHanded q t) .aq (stagedOf q t) := by
  rw [ctHand_drawn_staged t h hk, hi]
  rfl

theorem payload_stagedOf {q : CtReq} {t : Translation} {v : Stored}
    (hv : t.profile.finished (viewOf q.canvas) (Pixel.ofWord q.value) = some v) : (stagedOf q t).payload = .finished v := by
  simp only [stagedOf, hv]

/-- A drawn write with a finished value and an entry in the OPEN drawn batch is placed as it is handed on (R10, R14). -/
theorem ctHand_drawn_placed {s : State} {q : CtReq} {t : Translation} {i : Fin 8} {b : Batch} {v : Stored}
    (h : q.discard = false) (hk : q.kind = .drawnWrite)
    (hv : t.profile.finished (viewOf q.canvas) (Pixel.ofWord q.value) = some v) (hi : s.jc.openDrawn = some i)
    (hb : s.jc.at i = some b) (he : ∃ e ∈ b.entries, e.frameSlot = t.frameSlot) : s.ctHand q t = { s with
      ct := s.ctIdle, spc := s.spcCancelled, ru := s.ruCancelled, jc := s.jcPlaced i b t.frameSlot v
      pu := { s.pu with heldDrawn := none }, aq := s.nextQueue, up := s.nextUp } := by
  have hinto : (s.drawnHanded q t).stagesInto .aq i b := ⟨hi, hb⟩
  rw [ctHand_drawn_open t h hk hi, stageEntry_of_entry hinto he, place_finished (payload_stagedOf hv),
    placeStored_drawn v hinto]
  rfl

end State
end Sys2Proof.Machine
end

