-- ==== Sys2Proof/Proofs/FlagWords.lean ====
section
set_option Elab.async false
/-!
RESULT. The writes of a walk's flag words and the hit write-back (O42, O43).
-/
namespace Sys2Proof.Machine.State

theorem walkFlagDone_dirFlag {s : State} {q : CtReq} {k : Walk} (h : k.step = .dirFlag) : s.walkFlagDone q k = s.walkSegment q k := by
  simp only [walkFlagDone, h]

theorem walkFlagDone_segFlag {s : State} {q : CtReq} {k : Walk} {r : TrResult} (h : k.step = .segFlag) (hr : k.result = some r) :
    s.walkFlagDone q k = State.ctFinish { s with ct := { s.ct with cache := s.cacheFilled q k } } q r := by
  simp only [walkFlagDone, h, hr]
  exact walkComplete_eq s q k r

/-- The completion of a walk's flag-word write in RUNNING. -/
theorem walkFlag_running {s x : State} {f : InFlight} {q : CtReq} {k : Walk} (hs : s.settled) (hpart : s.spc.part = .running)
    (hf : s.inFlightFor f .walkFlag) (hop : f.req.op ≠ .read) (hq : s.ct.current = some q) (hk : s.ct.walk = some k)
    (hx : State.walkFlagDone { s with mp := s.mp.freed, memory := s.memory.after f, pu := s.pu.after f } q k = x) :
    exec .flagWordWriteCompletion s = .next x.endStep := by
  have hwalk : (s.complete f).walkOn (fun u q k => u.walkFlagDone q k) = x := by
    rw [complete_of_write s f hop]
    exact (walkOn_of _ (by exact hq) (by exact hk)).trans hx
  refine congrArg Host.Outcome.next (completion_of_keeps hs hf (by simp) rfl (by simp [hpart]) hwalk ?_)
  rw [← hx, complete_of_write s f hop]
  exact walkFlagDone_keeps _ q k (by simp [hq])

/-- The completion of the hit write-back in RUNNING. -/
theorem hitFlag_running {s x : State} {f : InFlight} {q : CtReq} {h : Hit} {t : Translation} (hs : s.settled)
    (hpart : s.spc.part = .running) (hf : s.inFlightFor f .hitFlag) (hop : f.req.op ≠ .read) (hq : s.ct.current = some q)
    (hh : s.ct.hit = some h) (ht : h.result = some t)
    (hx : State.ctHand { s with mp := s.mp.freed, memory := s.memory.after f, pu := s.pu.after f } q t = x) :
    exec .hitWriteBackCompletion s = .next x.endStep := by
  have hhand : (s.complete f).hitDone = x := by
    rw [complete_of_write s f hop]
    exact (hitDone_of (by exact hq) (by exact hh) ht).trans hx
  refine congrArg Host.Outcome.next (completion_of_keeps hs hf (by simp) rfl (by simp [hpart]) hhand ?_)
  rw [← hhand]
  exact hitDone_keeps _

end Sys2Proof.Machine.State
namespace Sys2Proof.Proofs
open Sys2Proof.Machine Sys2Proof.Machine.State

/-- Settles O42: the step of the walk decides between the segment entry and the end, where a stale walk fills nothing. -/
theorem flagWordWriteContinuesTheWalk : Obligations.FlagWordWriteContinuesTheWalk := by
  unfold Obligations.FlagWordWriteContinuesTheWalk
  refine ⟨?segment, ?sought, ?placed, ?faulted, ?finished, fun s q x k => ⟨rfl, rfl⟩⟩
  case segment =>
    intro s f q k w hs hf hop hq hk hstep hin hwindow hw
    refine congrArg Host.Outcome.next (writeCompletion_apart hs hf (by simp) rfl hop ?_)
    refine (walkOn_of _ (by exact hq) (by exact hk)).trans ?_
    rw [walkFlagDone_dirFlag hstep]
    exact walkSegment_of_sought (.inr ⟨hin, _, w, rfl, hw, .inr ⟨hwindow, rfl⟩⟩)
  case sought =>
    intro s t f q k hs hpart hf hop hq hk hstep ht
    refine walkFlag_running hs hpart hf hop hq hk ?_
    rw [walkFlagDone_dirFlag hstep]
    exact walkSegment_of_sought ht
  case placed =>
    intro s f q k t i b v hs hpart hf hop hq hk hstep hr hkind hdiscard hv hi hb he
    refine walkFlag_running hs hpart hf hop hq hk ?_
    rw [walkFlagDone_segFlag hstep hr]
    exact ctHand_drawn_placed hdiscard hkind hv (by exact hi) (by exact hb) he
  case faulted =>
    intro s f q k x hs hpart hf hop hq hk hstep hr hx hkind hdiscard
    refine walkFlag_running hs hpart hf hop hq hk ?_
    rw [walkFlagDone_segFlag hstep hr]
    refine (ctFault_drawn x hdiscard hkind).trans ?_
    rw [ruFaulted, if_neg hx]
    rfl
  case finished =>
    intro s f q k r hs hpart hf hop hq hk hstep hr
    exact walkFlag_running hs hpart hf hop hq hk (walkFlagDone_segFlag hstep hr)

/-- Settles O43: the request is handed on, and its kind decides what that is. -/
theorem hitWriteBackHandsTheRequestOn : Obligations.HitWriteBackHandsTheRequestOn := by
  unfold Obligations.HitWriteBackHandsTheRequestOn
  refine ⟨?placed, ?discarded, ?handed, ?hands⟩
  case placed =>
    intro s f q h t i b v hs hpart hf hop hq hh ht hkind hdiscard hv hi hb he
    exact hitFlag_running hs hpart hf hop hq hh ht
      (ctHand_drawn_placed hdiscard hkind hv (by exact hi) (by exact hb) he)
  case discarded =>
    intro s f q h t hs hf hop hq hh ht hdiscard
    obtain ⟨hup, haq, hpart⟩ := discardEnded_frame { s with mp := s.mp.freed, memory := s.memory.after f, pu := s.pu.after f }
    refine congrArg Host.Outcome.next (writeCompletion_apart hs hf (by simp) rfl hop ?_ hup haq hpart)
    exact (hitDone_of (by exact hq) (by exact hh) ht).trans (ctHand_of_discard t hdiscard)
  case handed =>
    intro s f q h t hs hpart hf hop hq hh ht
    exact hitFlag_running hs hpart hf hop hq hh ht rfl
  case hands =>
    intro s q t
    refine ⟨fun h => ctHand_of_discard t h, fun i h hk hi => ctHand_drawn_open t h hk hi, fun i h hk hnone hcount hi hlower => ?_,
      fun h hk hnone hcount hfree => ?_, fun h hk hnone hcount hfree => ?_, fun h hk => ctHand_reel t h hk,
      fun v h hk hv => ctHand_read_found h hk hv, fun h hk hv => ctHand_read_asks h hk hv⟩
    all_goals rw [ctHand_drawn_staged t h hk, if_neg (by simp [hnone])]
    · rw [if_pos hcount, openBatch_of_free .drawn 1 (by exact hi) (by exact hlower)]
      rfl
    · rw [if_neg (Nat.not_lt.mpr hcount), if_pos ((canFree_iff s).mpr hfree)]
    · rw [if_neg (Nat.not_lt.mpr hcount), if_neg (fun hf => hfree ((canFree_iff s).mp hf))]

end Sys2Proof.Proofs
end

