-- ==== Sys2Proof/Proofs/Grants.lean ====
section
set_option Elab.async false
/-!
RESULT. Entries and slots granted to what waits, and the completions of the journal's reads (O44 to O47).
-/
namespace Sys2Proof.Machine.State

/-! ### The grant of an entry -/

/-- A granted entry's write is placed. -/
theorem grantWaiting_eq {s : State} {r : Requester} {w : Staged} {rest : List Requester} {i : Fin 8} {b : Batch}
    (hwaiters : s.jc.waiters = r :: rest) (hw : s.jc.staged r = some w) (h : s.stagesInto r i b) (hfree : s.jc.inUse < 512) :
    s.grantWaiting = State.settle (State.place
      (State.granted { s with jc := { s.jc with waiters := rest } } i b
        { frameSlot := w.frameSlot, rail := w.rail, value := none, shown := none, newLoad := none }) r w) := by
  have hpos : 0 < s.jc.free := Nat.sub_pos_of_lt hfree
  simp only [grantWaiting, hwaiters, hw, target_of_stagesInto h, if_pos hpos]
  rw [grantEntry_eq w (by exact h.2)]
  rfl

theorem grantedPlace_keeps {s : State} {i : Fin 8} {b : Batch} (rest : List Requester) (r : Requester) (w : Staged)
    (hb : s.jc.at i = some b) (hfree : s.jc.inUse < 512) : s.Keeps (State.place
      (State.granted { s with jc := { s.jc with waiters := rest } } i b
        { frameSlot := w.frameSlot, rail := w.rail, value := none, shown := none, newLoad := none }) r w) := by
  have hclear : s.Keeps (s.setJc { s.jc with waiters := rest }) := setJc_slots_keeps s _
  have hgrant := grantEntry_keeps (s.setJc { s.jc with waiters := rest }) i w (Nat.sub_pos_of_lt (by exact hfree))
  rw [grantEntry_eq w (by exact hb)] at hgrant
  exact hclear.trans (hgrant.trans (place_keeps _ r w))

/-- An entry granted to a drawn write with a finished value. -/
theorem place_granted_drawn {s : State} {w : Staged} {i : Fin 8} {b : Batch} {v : Stored} (h : s.stagesInto .aq i b)
    (hv : w.payload = .finished v) (hno : ∀ e ∈ b.entries, e.frameSlot ≠ w.frameSlot) :
    State.place (s.granted i b { frameSlot := w.frameSlot, rail := w.rail, value := none, shown := none, newLoad := none }) .aq w
      = { s with
        jc := { s.jc with
          slots := tset s.jc.slots i (some { b with entries := b.entries ++ [entryOf w v] })
          drawn := none, waiters := s.jc.waiters.filter (fun r => r != .aq), lowFlag := s.jc.lowFlag || s.lowNow }
        ru := if s.lowNow then s.ru.raise .journalLow else s.ru
        pu := { s.pu with heldDrawn := none }, aq := s.nextQueue, up := s.nextUp } := by
  rw [place_finished hv, placeStored_drawn v (stagesInto_granted _ h), ← jcPlaced_granted v hno]
  rfl

/-- An entry granted to a reel update with a finished value, in a frame with a next pair. -/
theorem place_granted_reel {s : State} {w : Staged} {i : Fin 8} {b : Batch} {v : Stored} {h : Header} {n : Nat}
    (hinto : s.stagesInto .rp i b) (hv : w.payload = .finished v) (hno : ∀ e ∈ b.entries, e.frameSlot ≠ w.frameSlot)
    (hh : s.rp.header = some h) (hn : s.rp.step = .update n) (hlt : n + 1 < h.count) :
    State.place (s.granted i b { frameSlot := w.frameSlot, rail := w.rail, value := none, shown := none, newLoad := none }) .rp w
      = { s with
        jc := { s.jc with
          slots := tset s.jc.slots i (some { b with entries := b.entries ++ [entryOf w v] })
          reel := none, waiters := s.jc.waiters.filter (fun r => r != .rp), lowFlag := s.jc.lowFlag || s.lowNow }
        ru := if s.lowNow then s.ru.raise .journalLow else s.ru
        pu := { s.pu with heldReel := none }, rp := { s.rp with step := .pairAddr (n + 1) }
        mp := s.mp.asking placeRp (readOf .pairRead (wordAt (h.addr + 4 + 8 * (n + 1)))) } := by
  rw [place_finished hv, placeStored_reel v (stagesInto_granted _ hinto) (by exact hn), loadPair_of_lt (by exact hh) hlt,
    ← jcPlaced_granted v hno]
  rfl

/-! ### The grant of a slot -/

theorem drawnSlotWaits_iff (s : State) : s.drawnSlotWaits = true ↔ ∃ w ∈ s.jc.drawn, w.wait = .slot := by
  unfold drawnSlotWaits
  cases s.jc.drawn <;> simp

/-- A slot granted to the drawn write: a fresh OPEN batch, into which the write is staged. -/
def drawnSlotGranted (s : State) (i : Fin 8) : State :=
  { s with jc := { s.jcWith i (some (Batch.fresh .drawn 1)) with drawn := none } }

theorem grantDrawnSlot_eq {s : State} {w : Staged} {i : Fin 8} (hw : s.jc.drawn = some w) (hi : s.jc.at i = none)
    (hlower : ∀ k, k < i → (s.jc.at k).isSome = true) : s.grantDrawnSlot = (s.drawnSlotGranted i).stageEntry .aq w := by
  simp only [grantDrawnSlot, hw]
  rw [openBatch_of_free .drawn 1 (by exact hi) (by exact hlower)]
  rfl

theorem grantSlot_drawn {s : State} {w : Staged} (hw : s.jc.drawn = some w) (hwait : w.wait = .slot)
    (hcount : s.jc.drawnCount < 6) : s.grantSlot = s.grantDrawnSlot.settle :=
  if_pos (by simp [(drawnSlotWaits_iff s).mpr ⟨w, hw, hwait⟩, hcount])

theorem drawnSlotGranted_stagesInto {s : State} {i : Fin 8} (hnone : s.jc.openDrawn = none) :
    (s.drawnSlotGranted i).stagesInto .aq i (Batch.fresh .drawn 1) :=
  ⟨Jc.find_opened (p := fun b => b.isDrawn && b.isOpen) (Batch.fresh .drawn 1) hnone rfl, jcWith_at s i _⟩

/-- A fresh batch brings no entry. -/
theorem drawnSlotGranted_inUse {s : State} {i : Fin 8} (hi : s.jc.at i = none) :
    (s.drawnSlotGranted i).jc.inUse = s.jc.inUse := by
  have hput := Jc.inUse_put s.jc i (Batch.fresh .drawn 1)
  have hcount : s.jc.entryCount i = 0 := by simp [Jc.entryCount, hi]
  rw [hcount] at hput
  exact hput

/-- The slot and the entry granted at once to a drawn write with a finished value. -/
theorem drawnSlotGranted_placed {s : State} {w : Staged} {i : Fin 8} {v : Stored} (hv : w.payload = .finished v)
    (hnone : s.jc.openDrawn = none) (hi : s.jc.at i = none) (hroom : s.jc.waiters.length + s.jc.inUse < 512) :
    (s.drawnSlotGranted i).stageEntry .aq w = { s with
      jc := { s.jc with
        slots := tset s.jc.slots i (some { Batch.fresh .drawn 1 with entries := [entryOf w v] })
        drawn := none, waiters := s.jc.waiters.filter (fun r => r != .aq), lowFlag := s.jc.lowFlag || s.lowNow }
      ru := if s.lowNow then s.ru.raise .journalLow else s.ru
      pu := { s.pu with heldDrawn := none }, aq := s.nextQueue, up := s.nextUp } := by
  have hinto := drawnSlotGranted_stagesInto (i := i) hnone
  have hlow : (s.drawnSlotGranted i).lowNow = s.lowNow := by
    unfold lowNow
    rw [drawnSlotGranted_inUse hi]
    rfl
  rw [stageEntry_of_noEntry hinto (by simp [Batch.fresh]),
    if_pos ((Jc.entryFree_iff _).mpr (by rw [drawnSlotGranted_inUse hi]; exact hroom)), grantEntry_eq w hinto.2,
    place_granted_drawn hinto hv (by simp [Batch.fresh]), hlow]
  simp only [drawnSlotGranted, jcWith, tset_tset]
  rfl

theorem grantSlot_reel {s : State} {o : ReelOpen} (hdrawn : ∀ w ∈ s.jc.drawn, w.wait ≠ .slot ∨ 6 ≤ s.jc.drawnCount)
    (ho : s.jc.reelOpen = some o) (hcount : s.jc.reelCount < 2) : s.grantSlot = (s.openReelBatch o).settle := by
  unfold grantSlot
  rw [if_neg]
  · simp only [ho, if_pos hcount]
  · rw [Bool.and_eq_true, drawnSlotWaits_iff, decide_eq_true_iff]
    rintro ⟨⟨w, hw, hwait⟩, hlt⟩
    rcases hdrawn w hw with h | h
    · exact h hwait
    · omega

/-- The OPEN reel batch is created in the lowest-numbered FREE slot (R6, R12). -/
theorem openReelBatch_eq {s : State} {i : Fin 8} (o : ReelOpen) (hi : s.jc.at i = none)
    (hlower : ∀ k, k < i → (s.jc.at k).isSome = true) : s.openReelBatch o = State.loadPair { s with
      jc := { s.jcWith i (some (Batch.fresh (.reel o.reel o.frame false) o.hold)) with reelOpen := none }
      rp := { s.rp with unflipped := s.rp.unflipped + 1 } } 0 := by
  unfold openReelBatch
  dsimp only
  rw [openBatch_of_free _ _ (by exact hi) (by exact hlower)]
  rfl

/-! ### Reads of the journal -/

theorem baseDone_eq {s : State} {r : Requester} {w : Staged} {h : HeldWrite} (d : Delivered) (word : WordAddr)
    (hw : s.jc.staged r = some w) (hh : s.pu.held r = some h) :
    s.baseDone r d word = State.placeStored { s with
      ru := if d.error then s.ru.report .readParity r.origin (byteAddr word) else s.ru } r w
        (h.combined (Stored.ofWord d.data)) := by
  simp only [baseDone, hw]
  cases d.error
  · simp only [Bool.false_eq_true, if_false, combineWith, hh]
  · simp only [if_true, combineWith, State.report, setRu_pu, hh]
    rfl

/-- The Report Unit after a read whose parity error is counted, and reported at an address. -/
theorem ru_parityRead (s : State) (f : InFlight) (o : FaultOrigin) (a : Addr) :
    (if s.readError f then (s.ruAfterRead f).report .readParity o a else s.ruAfterRead f)
      = if s.readError f then (s.ru.count .parity).report .readParity o a else s.ru := by
  cases h : s.readError f
  · rw [ruAfterRead_of_good s f h]
    rfl
  · rw [ruAfterRead_of_bad s f h]
    rfl

/-- A base read's completion, as the journal sees it. -/
theorem baseDone_read {s : State} {f : InFlight} {r : Requester} {w : Staged} {h : HeldWrite} (hop : f.req.op = .read)
    (hw : s.jc.staged r = some w) (hh : s.pu.held r = some h) :
    (s.complete f).baseDone r (s.delivered f) f.req.word = State.placeStored { s with
      mp := s.mp.freed
      ru := if s.readError f then (s.ru.count .parity).report .readParity r.origin (byteAddr f.req.word) else s.ru } r w
        (h.combined (Stored.ofWord (s.dataOf f))) := by
  rw [complete_of_read s f hop, delivered_of_read s f hop, baseDone_eq _ _ (by exact hw) (by exact hh), ← ru_parityRead]

/-- The completion of a base read in RUNNING, for the requester whose read it is. -/
theorem baseRead_running {s x : State} {f : InFlight} {r : Requester} {w : Staged} {h : HeldWrite} (hs : s.settled)
    (hpart : s.spc.part = .running) (hf : s.inFlightFor f r.baseOwner) (hop : f.req.op = .read)
    (hw : s.jc.staged r = some w) (hh : s.pu.held r = some h)
    (hx : State.placeStored { s with
      mp := s.mp.freed
      ru := if s.readError f then (s.ru.count .parity).report .readParity r.origin (byteAddr f.req.word) else s.ru } r w
        (h.combined (Stored.ofWord (s.dataOf f))) = x) :
    exec .baseReadCompletion s = .next x.endStep := by
  have hdone : (s.complete f).baseDone (baseRequester f.req.owner) (s.delivered f) f.req.word = x := by
    rw [hf.2.1, show baseRequester r.baseOwner = r by cases r <;> rfl, baseDone_read hop hw hh, hx]
  refine congrArg Host.Outcome.next
    (completion_of_keeps hs hf (by cases r <;> simp [Requester.baseOwner]) (by cases r <;> rfl) (by simp [hpart]) hdone ?_)
  rw [← hdone]
  exact baseDone_keeps _ _ _ _

theorem readBackDone_eq {s : State} {q : ReadBack} (d : Delivered) (hq : s.jc.readBack = some q) : s.readBackDone d = { s with
    jc := { s.jc with readBack := none }, up := s.readAnswer q.order (Stored.ofWord d.data) (!d.error)
    aq := { queue := s.aq.queue.tail, taken := false }
    ru := if d.error then s.ru.report .readParity .canvasRead q.canvas else s.ru } := by
  simp only [readBackDone, hq]
  rw [headLeaves_of_answered (by rfl)]
  cases d.error <;> rfl

end Sys2Proof.Machine.State
namespace Sys2Proof.Proofs
open Sys2Proof.Machine Sys2Proof.Machine.State

/-- Settles O44: the oldest waiting request takes the entry; a new one goes by what is free beyond the waiting. -/
theorem entryGrantServesTheLongestWaiting : Obligations.EntryGrantServesTheLongestWaiting := by
  unfold Obligations.EntryGrantServesTheLongestWaiting
  refine ⟨?drawn, ?reel, ?either, ?stages, fun j i => ⟨fun h => Jc.openDrawn_at h, fun h => Jc.openReel_at h,
    fun h => Jc.not_openDrawn h i, fun h => Jc.not_openReel h i⟩⟩
  case drawn =>
    intro s w rest i b v hs hpart hwaiters hw hv hi hb hno hfree
    have hkeeps := grantedPlace_keeps rest .aq w hb hfree
    have hplace := place_granted_drawn (s := { s with jc := { s.jc with waiters := rest } }) ⟨hi, hb⟩ hv hno
    rw [hplace] at hkeeps
    refine congrArg Host.Outcome.next ?_
    rw [grantWaiting_eq (i := i) (b := b) hwaiters (by exact hw) ⟨hi, hb⟩ hfree, hplace]
    exact settle_of_keeps hs (by simp [hpart]) hkeeps
  case reel =>
    intro s w rest i b v h n hs hwaiters hw hv hi hb hno hfree hh hn hlt
    refine congrArg Host.Outcome.next ?_
    rw [grantWaiting_eq (i := i) (b := b) hwaiters (by exact hw) ⟨hi, hb⟩ hfree,
      place_granted_reel (s := { s with jc := { s.jc with waiters := rest } }) ⟨hi, hb⟩ hv hno hh hn hlt]
    exact settle_apart hs
  case either =>
    intro s r w rest i b hs hpart hwaiters hw hinto hfree
    refine congrArg Host.Outcome.next ?_
    rw [grantWaiting_eq hwaiters (by cases r <;> exact hw) hinto hfree]
    exact settle_of_keeps hs (by simp [hpart]) (grantedPlace_keeps rest r w hinto.2 hfree)
  case stages =>
    intro s r w i b hinto
    refine ⟨stageEntry_of_entry hinto, fun hno hlt => ?_, fun hno hge hfree => ?_, fun hno hge hfree => ?_⟩
    · rw [stageEntry_of_noEntry hinto hno, if_pos ((Jc.entryFree_iff _).mpr hlt), grantEntry_eq w hinto.2]
    · rw [stageEntry_of_noEntry hinto hno, if_neg (fun h => absurd ((Jc.entryFree_iff _).mp h) (by omega)),
        if_pos ((canFree_iff s).mpr hfree), waitEntry_eq]
    · rw [stageEntry_of_noEntry hinto hno, if_neg (fun h => absurd ((Jc.entryFree_iff _).mp h) (by omega)),
        if_neg (fun h => hfree ((canFree_iff s).mp h))]
      refine ⟨?_, ?_⟩
      · rintro rfl
        exact dropDrawn_eq s w.canvas
      · rintro h n rfl hh hn
        exact failReel_eq hh hn

/-- Settles O45: the requester decides the new batch, and a reel batch its first pair or its seal. -/
theorem slotGrantOpensABatch : Obligations.SlotGrantOpensABatch := by
  unfold Obligations.SlotGrantOpensABatch
  refine ⟨?drawn, ?reel, ?staged, ?ended⟩
  case drawn =>
    intro s w i v hs hpart hw hwait hv hcount hnone hi hlower hroom
    have hkeeps := grantDrawnSlot_keeps s hcount
    have hplaced := (grantDrawnSlot_eq hw hi hlower).trans (drawnSlotGranted_placed hv hnone hi hroom)
    rw [hplaced] at hkeeps
    refine congrArg Host.Outcome.next ?_
    rw [grantSlot_drawn hw hwait hcount, hplaced]
    exact settle_of_keeps hs (by simp [hpart]) hkeeps
  case reel =>
    intro s o i h hs hdrawn ho hcount hi hlower hh hpos
    refine congrArg Host.Outcome.next ?_
    rw [grantSlot_reel hdrawn ho hcount, openReelBatch_eq o hi hlower, loadPair_of_lt (by exact hh) hpos]
    exact settle_apart hs
  case staged =>
    intro s w i hs hpart hw hwait hcount hi hlower
    have hkeeps := grantDrawnSlot_keeps s hcount
    rw [grantDrawnSlot_eq hw hi hlower] at hkeeps
    refine congrArg Host.Outcome.next ?_
    rw [grantSlot_drawn hw hwait hcount, grantDrawnSlot_eq hw hi hlower]
    exact settle_of_keeps hs (by simp [hpart]) hkeeps
  case ended =>
    intro s o i h hs hpart hdrawn ho hcount hi hlower hh hzero
    have hkeeps := openReelBatch_keeps s o hcount
    rw [openReelBatch_eq o hi hlower, loadPair_of_ge (by exact hh) (by omega)] at hkeeps
    refine congrArg Host.Outcome.next ?_
    rw [grantSlot_reel hdrawn ho hcount, openReelBatch_eq o hi hlower, loadPair_of_ge (by exact hh) (by omega)]
    exact settle_of_keeps hs (by simp [hpart]) hkeeps

/-- Settles O46: the held write is combined with the data as read; placement goes by the value the journal holds. -/
theorem baseReadPlacesTheHeldWrite : Obligations.BaseReadPlacesTheHeldWrite := by
  unfold Obligations.BaseReadPlacesTheHeldWrite
  refine ⟨?drawn, ?reel, ?running, ?placeDrawn, ?placeReel, ?lookup⟩
  case drawn =>
    intro s f w h i b hs hpart hf hop hw hh hi hb
    exact baseRead_running (r := .aq) hs hpart hf hop hw hh (placeStored_drawn _ ⟨hi, hb⟩)
  case reel =>
    intro s f w h i b hd n hs hf hop hw hh hi hb hhd hn hlt
    refine congrArg Host.Outcome.next (readCompletion_apart hs hf (by simp) rfl hop ?_)
    rw [← complete_of_read s f hop, ← delivered_of_read s f hop, hf.2.1]
    refine (baseDone_read (r := .rp) hop hw hh).trans
      ((placeStored_reel (i := i) (b := b) _ (by exact ⟨hi, hb⟩) (by exact hn)).trans ?_)
    rw [loadPair_of_lt (by exact hhd) hlt]
    rfl
  case running =>
    intro s f w h i b n hs hpart hf hop hw hh hinto hn
    exact baseRead_running (r := .rp) hs hpart hf hop hw hh (placeStored_reel _ hinto hn)
  case placeDrawn =>
    intro s w i b hinto
    exact ⟨fun v hv => (place_finished hv).trans (placeStored_drawn v hinto),
      fun v h hc hv hh => (place_combined (r := .aq) hc hv hh).trans (placeStored_drawn _ hinto),
      fun hc hv => (place_asks (r := .aq) hc hv).trans (by rw [askBase, bufferWord_eq]; rfl)⟩
  case placeReel =>
    intro s w i b n hinto hn
    exact ⟨fun v hv => (place_finished hv).trans (placeStored_reel v hinto hn),
      fun v h hc hv hh => (place_combined (r := .rp) hc hv hh).trans (placeStored_reel _ hinto hn),
      fun hc hv => (place_asks (r := .rp) hc hv).trans (by rw [askBase, bufferWord_eq]; rfl)⟩
  case lookup =>
    intro j n mine l x hx
    obtain rfl : x = j.lookupIn n mine l := by
      rcases hx with ⟨rfl, rfl, rfl⟩ | ⟨rfl, rfl, rfl⟩
      · exact j.drawnLookup_eq n
      · exact j.reelLookup_eq n
    refine ⟨?_, fun i b v hsilent hi hmine hphase hv hall => ?_, fun hsilent hall => ?_⟩
    · rintro i b v rfl hi hv
      exact Jc.lookupIn_of_open hi hv
    · rw [Jc.lookupIn_of_silent hsilent]
      exact Jc.youngestValue_of_greatest hi hmine hphase hv hall
    · rw [Jc.lookupIn_of_silent hsilent]
      exact Jc.youngestValue_of_silent hall

/-- Settles O47: the data goes back to the host as the levels it stands for, and the head leaves. -/
theorem canvasReadAnsweredFromTheShownBuffer : Obligations.CanvasReadAnsweredFromTheShownBuffer := by
  unfold Obligations.CanvasReadAnsweredFromTheShownBuffer
  intro s f q hs hpart hf hop hq
  have hrun : ∀ x, State.readBackDone { s with mp := s.mp.freed, ru := s.ruAfterRead f }
      { data := s.dataOf f, error := s.readError f } = x → exec .canvasReadMemoryCompletion s = .next x.endStep := by
    intro x hx
    have hdone : (s.complete f).readBackDone (s.delivered f) = x := by
      rw [complete_of_read s f hop, delivered_of_read s f hop]
      exact hx
    refine congrArg Host.Outcome.next (completion_of_keeps hs hf (by simp) rfl (by simp [hpart]) hdone ?_)
    rw [← hdone]
    exact readBackDone_keeps _ _
  refine ⟨fun herror => hrun _ ?_, fun herror => hrun _ ?_⟩
  · rw [readBackDone_eq _ (by exact hq), herror, ruAfterRead_of_good s f herror]
    rfl
  · rw [readBackDone_eq _ (by exact hq), herror, ruAfterRead_of_bad s f herror]
    rfl

end Sys2Proof.Proofs
end

