-- ==== Sys2Proof/Proofs/Retirement.lean ====
section
set_option Elab.async false
/-!
RESULT. The second pass and the retirement of its batch (O51).
-/
namespace Sys2Proof.Machine.State

/-! ### The recheck of a waiting reel update -/

theorem recheckReel_of_stays {s : State} {ok : Bool} (hok : ok = true ↔ s.jc.mayFree s.rp.state)
    (h : s.reelStays s.jc.waiters s.jc) : s.recheckReel ok = s := by
  unfold recheckReel
  split
  next w hw =>
    refine if_neg fun hfails => ?_
    simp only [Bool.and_eq_true, Bool.not_eq_true', beq_iff_eq, Bool.or_eq_false_iff] at hfails
    obtain ⟨hentry, hcoming, hfree⟩ := hfails
    rcases h w hw with hwait | hin | hmay
    · exact hwait hentry
    · simp [(entryComing_iff s .rp).mpr hin] at hcoming
    · simp [hok.mpr hmay] at hfree
  next => rfl

theorem recheckReel_of_fails {s : State} {ok : Bool} {h : Header} {n : Nat} (hok : ok = true ↔ s.jc.mayFree s.rp.state)
    (hno : ¬s.reelStays s.jc.waiters s.jc) (hh : s.rp.header = some h) (hn : s.rp.step = .update n) :
    s.recheckReel ok = State.endFrame (s.reelFailed h n) := by
  rw [← failReel_eq hh hn]
  unfold recheckReel
  split
  next w hw =>
    refine if_pos ?_
    by_contra hstays
    refine hno fun v hv => ?_
    rw [hw, Option.mem_some_iff] at hv
    subst hv
    simpa [entryComing_iff, hok, imp_iff_not_or] using hstays
  next hw => exact absurd (fun w hmem => by simp [hw] at hmem) hno

/-! ### The pending standby -/

theorem standbyCheck_of_quiet {s : State} (hpending : s.spc.standbyPending = true) (hpart : s.spc.part = .running)
    (hquiet : s.partQuiet) : s.standbyCheck = s.standbyEntered := by
  rw [standbyCheck_eq hpart, if_pos ⟨hpending, hquiet⟩]

theorem standbyCheck_of_not {s : State} (h : s.spc.standbyPending = false ∨ s.spc.part ≠ .running ∨ ¬s.partQuiet) :
    s.standbyCheck = s := by
  refine if_neg fun hq => ?_
  simp only [Bool.and_eq_true, beq_iff_eq] at hq
  obtain ⟨⟨hpending, hpart⟩, hquiet⟩ := hq
  rcases h with h | h | h
  · simp [hpending] at h
  · exact h hpart
  · exact h ((quiet_iff s).mp hquiet)

/-! ### The second pass -/

theorem secondPassNext_of_entry {s : State} {i : Fin 8} {b : Batch} {e : Entry} {v : Stored} (hi : s.re.current = some i)
    (hb : s.jc.at i = some b) (he : b.entries[s.re.position]? = some e) (hv : e.shown = some v) :
    s.secondPassNext = { s with mp := s.mp.asking placeRe (writeOf .secondPassWrite
      (s.bufferWord (otherBuf s.re.select) e.frameSlot) v.toWord) } := by
  unfold secondPassNext
  rw [currentBatch_of hi hb]
  dsimp only
  rw [he]
  dsimp only
  rw [askSecondPass, hiddenWord_eq, hv]
  rfl

theorem secondPassNext_of_end {s : State} {i : Fin 8} {b : Batch} (hi : s.re.current = some i)
    (hb : s.jc.at i = some b) (he : b.entries[s.re.position]? = none) : s.secondPassNext = s.retire i b := by
  unfold secondPassNext
  rw [currentBatch_of hi hb]
  dsimp only
  rw [he]

/-- The batch of a slot has left the table, and the engine is IDLE. -/
def slotRetired (s : State) (i : Fin 8) : State :=
  { s with jc := s.jcRetired i, re := { s.re with state := .idle, current := none, position := 0 } }

theorem retire_eq (s : State) (i : Fin 8) (b : Batch) : s.retire i b =
    if b.isReel && s.rp.state == .stopping then
      (((s.slotRetired i).recheckDrawn (s.slotRetired i).canFree).recheckReel (s.slotRetired i).canFree).standbyCheck.rpIdle
    else (((s.slotRetired i).recheckDrawn (s.slotRetired i).canFree).recheckReel (s.slotRetired i).canFree).standbyCheck := rfl

/-- What the drawn write that waits comes to at a retirement. -/
def drawnRechecked (s t : State) : Prop :=
  (s.drawnStays s.jc.waiters s.jc ∧ t = s)
    ∨ ∃ w, s.jc.drawn = some w ∧ ¬s.drawnStays s.jc.waiters s.jc ∧ t = s.drawnDropped w.canvas

theorem recheckDrawn_of_rechecked {s t : State} (h : s.drawnRechecked t) : s.recheckDrawn s.canFree = t := by
  rcases h with ⟨hstays, rfl⟩ | ⟨w, hw, hfails, rfl⟩
  · exact recheckDrawn_of_stays (canFree_iff _) hstays
  · exact recheckDrawn_of_fails (canFree_iff _) hw hfails

theorem drawnRechecked_frame {s t : State} (h : s.drawnRechecked t) :
    t.spc = s.spc ∧ t.rp = s.rp ∧ t.jc.reel = s.jc.reel ∧ (t.jc.mayFree t.rp.state ↔ s.jc.mayFree s.rp.state) := by
  rcases h with ⟨-, rfl⟩ | ⟨w, -, -, rfl⟩
  · exact ⟨rfl, rfl, rfl, Iff.rfl⟩
  · exact ⟨rfl, rfl, rfl, Iff.rfl⟩

end Sys2Proof.Machine.State
namespace Sys2Proof.Proofs
open Sys2Proof.Machine Sys2Proof.Machine.State

/-- Settles O51: the pass goes on to the next entry or retires the batch, whose freed slot the waiting requests then meet. -/
theorem secondPassRetiresTheBatch : Obligations.SecondPassRetiresTheBatch := by
  unfold Obligations.SecondPassRetiresTheBatch
  refine ⟨?pass, ?retires⟩
  case pass =>
    intro s f i b hs hpart hf hop hi hb
    refine ⟨fun x w hx hw => congrArg Host.Outcome.next (writeCompletion_apart hs hf (by simp) rfl hop ?_), fun hlen => ?_⟩
    · exact (secondPassNext_of_entry (by exact hi) (by exact hb) (by exact hx) hw).trans rfl
    · have hnone : b.entries[s.re.position + 1]? = none := List.getElem?_eq_none (by omega)
      have hdone : (s.complete f).secondPassDone = State.retire { s with
          mp := s.mp.freed, memory := s.memory.after f, pu := s.pu.after f
          re := { s.re with position := s.re.position + 1 } } i b := by
        rw [complete_of_write s f hop]
        exact secondPassNext_of_end (by exact hi) (by exact hb) (by exact hnone)
      refine congrArg Host.Outcome.next (completion_of_keeps hs hf (by simp) rfl (by simp [hpart]) hdone ?_)
      rw [← hdone]
      exact secondPassDone_keeps _
  case retires =>
    rintro s s1 s2 i b hpart rfl hs2
    change (s.slotRetired i).drawnRechecked s2 at hs2
    obtain ⟨hspc, hrp, hreel, hmay⟩ := drawnRechecked_frame hs2
    have hok : (s.slotRetired i).canFree = true ↔ s2.jc.mayFree s2.rp.state := (canFree_iff _).trans hmay.symm
    have hstate : s2.rp.state = s.rp.state := by rw [hrp]; rfl
    have hpart2 : s2.spc.part = .running := by rw [hspc]; exact hpart
    have hpending : s2.spc.standbyPending = s.spc.standbyPending := by rw [hspc]; rfl
    have hgoesOn : (b.isDrawn = true ∨ s.rp.state ≠ .stopping) → ¬(b.isReel && s.rp.state == .stopping) = true := by
      rintro (h | h) <;> simp [Batch.isReel, h]
    refine ⟨fun hstays hon => ⟨fun hp hquiet => ?_, fun hnot => ?_⟩, fun hstays hb hstopping => ⟨fun hended => ?_, fun hended => ?_⟩,
      fun h n t hfails hh hn ht hon => ⟨fun hp hp2 hquiet => ?_, fun hnot => ?_⟩⟩
    all_goals rw [retire_eq, recheckDrawn_of_rechecked hs2]
    · rw [if_neg (hgoesOn hon), recheckReel_of_stays hok hstays, standbyCheck_of_quiet (by rw [hpending]; exact hp) hpart2 hquiet]
    · rw [if_neg (hgoesOn hon), recheckReel_of_stays hok hstays, standbyCheck_of_not (by rw [hpending]; exact hnot.imp_right .inr)]
    · have hbusy : s2.rp.state ≠ .idle := by simp [hstate, hstopping]
      rw [if_pos (by simp [hb, hstopping]), recheckReel_of_stays hok hstays,
        standbyCheck_of_not (.inr (.inr fun hq => hbusy hq.2.1)),
        rpIdle_of_ended hpart2 hbusy (by rw [hrp]; exact hended)]
    · have hbusy : s2.rp.state ≠ .idle := by simp [hstate, hstopping]
      rw [if_pos (by simp [hb, hstopping]), recheckReel_of_stays hok hstays,
        standbyCheck_of_not (.inr (.inr fun hq => hbusy hq.2.1)),
        rpIdle_of_not hpart2 hbusy (by rw [hrp]; exact hended), hrp]
      rfl
    · rw [if_neg (hgoesOn hon), recheckReel_of_fails hok hfails (by rw [hrp]; exact hh) (by rw [hrp]; exact hn), ← ht,
        standbyCheck_of_quiet hp hp2 hquiet]
    · rw [if_neg (hgoesOn hon), recheckReel_of_fails hok hfails (by rw [hrp]; exact hh) (by rw [hrp]; exact hn), ← ht,
        standbyCheck_of_not hnot]

end Sys2Proof.Proofs
end

