-- ==== Sys2Proof/Proofs/Marks.lean ====
section
set_option Elab.async false
/-!
RESULT. The marks that are counted, delivered or missed (O52, O54).
-/
namespace Sys2Proof.Machine

theorem Ru.count_interval (u : Ru) (k : CounterKind) : (u.count k).interval = u.interval := by
  unfold Ru.count
  dsimp only
  split_ifs
  · rfl
  · rfl
  · unfold Ru.raise
    split_ifs <;> rfl

namespace State

/-! ### A delivered mark -/

theorem goodAfter_eq (s : State) : s.goodAfter = if s.mm.lossTimer = none then 1 else s.mm.good + 1 := by
  unfold goodAfter
  cases s.mm.lossTimer <;> rfl

theorem lostFrameMark_counted {s : State} (hstate : s.mm.state = .lost) (h : s.mm.lossTimer = none ∨ s.mm.good ≠ 2) :
    s.frameMark = { s with
      mm := { s.mm with good := if s.mm.lossTimer = none then 1 else s.mm.good + 1, lossTimer := some s.mm.lossWindow } } := by
  have hgood : s.goodAfter ≠ 3 := by
    rw [goodAfter_eq]
    split_ifs with hnone
    · decide
    · have := h.resolve_left hnone
      omega
  have hmark : s.frameMark = s.lostFrameMark := by simp only [frameMark, hstate]
  rw [hmark, lostFrameMark, if_neg hgood, goodAfter_eq]
  rfl

/-- A mark is delivered, by whichever command (R77, R78, R81). -/
theorem exec_of_delivers {s u : State} {c : Instr} (h : s.delivers c u) : exec c s = .next u.deliverMark.settle := by
  obtain ⟨rfl, hwatching, hok, rfl⟩ | ⟨rfl, hwatching, hlost, htimer, hgood, rfl⟩ | ⟨rfl, htimer, rfl⟩ := h
  · show execFrameMark s = _
    rw [execFrameMark, if_pos hwatching]
    simp only [frameMark, hok]
    rfl
  · have hthird : s.goodAfter = 3 := by rw [goodAfter_eq, if_neg htimer, hgood]
    show execFrameMark s = _
    rw [execFrameMark, if_pos hwatching]
    simp only [frameMark, hlost]
    rw [lostFrameMark, if_pos hthird]
    rfl
  · exact if_pos (Option.isSome_iff_ne_none.mpr htimer)

/-- A delivered mark leaves all but the Mark Monitor and the status record's due mark. -/
theorem delivers_frame {s u : State} {c : Instr} (h : s.delivers c u) :
    u = { s with mm := u.mm, ru := u.ru } ∧ s.Keeps u := by
  obtain ⟨-, -, -, rfl⟩ | ⟨-, -, -, -, -, rfl⟩ | ⟨-, -, rfl⟩ := h
  · exact ⟨rfl, setMm_keeps s _⟩
  · exact ⟨rfl, (setMm_keeps s { s.mm with state := .ok, good := 0, paceTimer := none, lossTimer := some s.mm.lossWindow }).trans
      (snapshot_keeps _)⟩
  · exact ⟨rfl, setMm_keeps s _⟩

/-- What a delivered mark comes to, where the part is not PASSIVE. -/
theorem exec_delivered {s u x : State} {c : Instr} (hs : s.settled) (hpart : s.spc.part ≠ .passive) (h : s.delivers c u)
    (hx : u.deliverMark = x) : exec c s = .next x.endStep := by
  rw [exec_of_delivers h]
  refine congrArg Host.Outcome.next ?_
  rw [← hx]
  exact settle_of_keeps hs hpart ((delivers_frame h).2.trans (deliverMark_keeps u))

/-! ### The mark at the Report Unit and at the Release Engine -/

theorem ruMark_eq (s : State) : s.ruMark = { s with ru := ruMarked s.ru.interval s.ru } := by
  have hkind : (some (s.ru.dueCounters.getD .automatic) : Option CaptureKind)
      = if s.ru.dueCounters = some .manual then some .manual else some .automatic := by
    rcases s.ru.dueCounters with - | k
    · rfl
    · cases k <;> rfl
  unfold ruMark ruMarked
  split_ifs with hzero hfull hbelow hbelow
  · rfl
  · omega
  · rw [hkind, if_pos (by assumption)]
    rfl
  · rw [hkind, if_neg (by assumption)]
    rfl
  · rfl
  · omega
  · omega

theorem slips_iff (s : State) : s.isSlip = true ↔ s.slips := by
  unfold isSlip
  cases h : s.re.state <;> simp [slips, h]

/-- A mark that flips nothing: it may be a slip, and takes the hold remaining down. -/
theorem reMark_of_noFlip {s : State} (hpart : s.spc.part = .running) (hblanking : s.re.state ≠ .blanking)
    (hno : ¬(s.re.state = .armed ∧ s.re.hold = 0)) :
    s.reMark = State.holdDown { s with ru := if s.slips then s.ru.count .slip else s.ru } := by
  unfold reMark
  rw [if_neg (by simp [hpart]), if_neg hno, if_neg hblanking]
  by_cases h : s.slips
  · rw [if_pos ((slips_iff s).mpr h), if_pos h]
    rfl
  · rw [if_neg (fun hs => h ((slips_iff s).mp hs)), if_neg h]

theorem holdZeroNotice_of_not {s : State} (h : ¬(s.rp.state = .ending ∧ s.rp.finalFlipped = true)) : s.holdZeroNotice = s :=
  if_neg h

/-- After the flip of the final batch the hold-zero notice ends the reel (R111). -/
theorem holdZeroNotice_of_final {s : State} (hpart : s.spc.part = .running) (hending : s.rp.state = .ending)
    (hfinal : s.rp.finalFlipped = true) :
    s.holdZeroNotice = State.atIdle (State.reelEnded { s with rp := { s.rp with finalFlipped := false } }) := by
  unfold holdZeroNotice
  rw [if_pos ⟨hending, hfinal⟩]
  exact rpIdle_of_ended hpart (by simp [hending]) rfl

theorem holdDown_of_noNotice {s : State}
    (h : ¬(s.re.hold = 1 ∧ s.lastFlipIsReel = true ∧ s.rp.state = .ending ∧ s.rp.finalFlipped = true)) :
    s.holdDown = { s with re := { s.re with hold := s.re.hold - 1 } } := by
  unfold holdDown
  split_ifs with hzero hone
  · simp [hzero]
    rw [← hzero]
  · exact holdZeroNotice_of_not fun hr => h ⟨hone.1, hone.2, hr⟩
  · rfl

theorem holdDown_of_final {s : State} (hpart : s.spc.part = .running) (hone : s.re.hold = 1) (hreel : s.lastFlipIsReel = true)
    (hending : s.rp.state = .ending) (hfinal : s.rp.finalFlipped = true) :
    s.holdDown = State.atIdle (State.reelEnded { s with
      re := { s.re with hold := 0 }, rp := { s.rp with finalFlipped := false } }) := by
  unfold holdDown
  rw [if_neg (by simp [hone])]
  dsimp only
  rw [if_pos ⟨hone, hreel⟩, holdZeroNotice_of_final (by exact hpart) (by exact hending) (by exact hfinal)]
  simp only [setRe, hone]

end State
end Sys2Proof.Machine
namespace Sys2Proof.Proofs
open Sys2Proof.Machine Sys2Proof.Machine.State

/-- Settles O52: the MM's state decides whether the mark is counted or delivered; a delivered one without a flip takes the hold down. -/
theorem marksAreCountedOrDelivered : Obligations.MarksAreCountedOrDelivered := by
  unfold Obligations.MarksAreCountedOrDelivered
  refine ⟨fun s h => if_neg (by simp [h]), fun s h => if_neg (by simp [h]), fun s hs hwatching hlost h => ?counted,
    ?delivered, fun s => ?lastFlip, ?starting⟩
  case counted =>
    show execFrameMark s = _
    rw [execFrameMark, if_pos hwatching, lostFrameMark_counted hlost h]
    exact congrArg Host.Outcome.next (settle_apart hs)
  case delivered =>
    intro s u c hs hpart hblanking hno h
    obtain ⟨hu, -⟩ := delivers_frame h
    have hre : u.re = s.re := by rw [hu]
    have hrp : u.rp = s.rp := by rw [hu]
    have hspc : u.spc = s.spc := by rw [hu]
    have hlast : u.lastFlipIsReel = s.lastFlipIsReel := by rw [hu]; rfl
    have hslips : u.slips ↔ s.slips := by rw [hu]; rfl
    have hmark : u.deliverMark = State.ruMark (State.holdDown { u with ru := if u.slips then u.ru.count .slip else u.ru }) := by
      rw [deliverMark, reMark_of_noFlip (by rw [hspc]; exact hpart) (by rw [hre]; exact hblanking) (by rw [hre]; exact hno)]
    have hinterval : (if u.slips then u.ru.count .slip else u.ru).interval = u.ru.interval := by
      split_ifs
      · exact Ru.count_interval _ _
      · rfl
    refine ⟨fun hnotFinal => ?_, fun r hone hreel hending hfinal hr => ?_⟩
    all_goals refine exec_delivered hs (by simp [hpart]) h (hmark.trans ?_)
    · rw [holdDown_of_noNotice (by
          show ¬(u.re.hold = 1 ∧ u.lastFlipIsReel = true ∧ u.rp.state = .ending ∧ u.rp.finalFlipped = true)
          rw [hre, hlast, hrp]
          exact hnotFinal), ruMark_eq, ruDelivered]
      simp only [hinterval, hre]
    · rw [holdDown_of_final (by rw [← hspc] at hpart; exact hpart) (by exact hre ▸ hone) (by exact hlast.trans hreel)
        (by exact hrp ▸ hending) (by exact hrp ▸ hfinal), ruMark_eq, hr]
      simp only [hslips, hre, hrp]
  case lastFlip =>
    unfold lastFlipIsReel
    rcases s.re.lastFlipped with - | ⟨x, o⟩
    · simp
    · cases o <;> simp
  case starting =>
    intro s u sub c hs hpart h
    obtain ⟨hu, -⟩ := delivers_frame h
    have hspc : u.spc = s.spc := by rw [hu]
    refine exec_delivered hs (by simp [hpart]) h ?_
    rw [deliverMark, reMark, if_pos (by simp [hspc, hpart]), ruMark_eq]

/-- Settles O54: the MM's state decides; each branch is read off the definition. -/
theorem lossWindowExpiryDeclaresTheLoss : Obligations.LossWindowExpiryDeclaresTheLoss := by
  unfold Obligations.LossWindowExpiryDeclaresTheLoss
  have hexpiry : ∀ s x : State, s.mm.lossTimer ≠ none → s.lossExpiry = x → exec .lossWindowExpiry s = .next x.settle := by
    rintro s _ h rfl
    exact if_pos (Option.isSome_iff_ne_none.mpr h)
  refine ⟨fun s h => if_neg (by simp [h]), fun s hs htimer hok => ?_, fun s hs htimer hlost => ?_,
    fun s hs hwatching htimer hlost => ?_⟩
  · rw [hexpiry s _ htimer (by simp only [lossExpiry, hok]; rfl)]
    exact congrArg Host.Outcome.next (settle_apart hs)
  · rw [hexpiry s (s.setMm { s.mm with good := 0, lossTimer := none }) htimer (by rw [lossExpiry, hlost])]
    exact congrArg Host.Outcome.next (settle_apart hs)
  · show execFrameMark s = _
    rw [execFrameMark, if_pos hwatching, lostFrameMark_counted hlost (.inl htimer), if_pos htimer]
    exact congrArg Host.Outcome.next (settle_apart hs)

end Sys2Proof.Proofs
end

