-- ==== Sys2Proof/Proofs/Flips.lean ====
section
set_option Elab.async false
/-!
RESULT. The flip at a delivered mark (O53): what the notices of the Reel Player leave of the engine's pass, and the Load
Limiter's totals.
-/
namespace Sys2Proof.Machine

/-! ### The Load Limiter -/

/-- The loads of a list of entries, set one after the other (R70). -/
def setLoads (t : List (Nat × Nat)) (es : List Entry) : List (Nat × Nat) :=
  es.foldl (fun t e => Sparse.set 0 t e.frameSlot (e.newLoad.getD 0)) t

theorem get_setLoads_of_ne {f : Nat} (es : List Entry) (t : List (Nat × Nat)) (h : ∀ e ∈ es, e.frameSlot ≠ f) :
    Sparse.get 0 (setLoads t es) f = Sparse.get 0 t f := by
  induction es generalizing t with
  | nil => rfl
  | cons e es ih =>
    refine (ih _ fun x hx => h x (by simp [hx])).trans ?_
    exact Sparse.get_set_ne 0 t _ (h e (by simp))

theorem get_setLoads_of_mem {e : Entry} {n : Nat} (es : List Entry) (t : List (Nat × Nat))
    (hdistinct : es.Pairwise (fun e g => e.frameSlot ≠ g.frameSlot)) (he : e ∈ es) (hn : e.newLoad = some n) :
    Sparse.get 0 (setLoads t es) e.frameSlot = n := by
  induction es generalizing t with
  | nil => simp at he
  | cons x es ih =>
    obtain ⟨hx, hes⟩ := List.pairwise_cons.mp hdistinct
    rcases List.mem_cons.mp he with rfl | hmem
    · refine (get_setLoads_of_ne es _ fun g hg => (hx g hg).symm).trans ?_
      rw [Sparse.get_set_same, hn]
      rfl
    · exact ih _ hes hmem

theorem Ll.applied_loads (l : Ll) (b : Batch) : (l.applied b).loads = setLoads l.loads b.entries := rfl

namespace State

/-! ### What the notices leave of the second pass -/

/-- The engine is in the second pass of the batch of a slot as `r` has it, but for the hold remaining. -/
def inPass (s : State) (r : Re) (i : Fin 8) (b : Batch) : Prop :=
  (∃ n, s.re = { r with hold := n }) ∧ r.state = .secondPass
    ∧ ∃ c, s.jc.at i = some c ∧ c.phase = .secondPass ∧ c.entries = b.entries ∧ c.isDrawn = b.isDrawn

theorem inPass.of_frame {s t : State} {r : Re} {i : Fin 8} {b : Batch} (h : s.inPass r i b) (hre : t.re = s.re)
    (hat : t.jc.at i = s.jc.at i) : t.inPass r i b := by
  unfold inPass
  rw [hre, hat]
  exact h

theorem inPass.cannotTake {s : State} {r : Re} {i : Fin 8} {b : Batch} (h : s.inPass r i b) : ¬s.canTake = true := by
  obtain ⟨⟨n, hre⟩, hstate, -⟩ := h
  rw [canTake_iff]
  rintro ⟨hidle, -, -⟩
  rw [hre] at hidle
  exact absurd (hstate.symm.trans hidle) (by decide)

theorem inPass.takeIfEligible {s : State} {r : Re} {i : Fin 8} {b : Batch} (h : s.inPass r i b) : s.takeIfEligible = s :=
  if_neg h.cannotTake

theorem inPass.takeFirst {s : State} {r : Re} {i : Fin 8} {b : Batch} (h : s.inPass r i b) : s.takeFirst = s :=
  if_neg h.cannotTake

theorem Batch.toEarlier_frame (b : Batch) :
    b.toEarlier.phase = b.phase ∧ b.toEarlier.entries = b.entries ∧ b.toEarlier.isDrawn = b.isDrawn := by
  unfold Batch.toEarlier
  cases h : b.origin <;> simp [Batch.isDrawn, h]

theorem inPass.playStarted {s : State} {r : Re} {i : Fin 8} {b : Batch} (n : Fin 4) (h : s.inPass r i b) :
    (s.playStarted n).inPass r i b := by
  obtain ⟨hre, hstate, c, hc, hphase, hentries, horigin⟩ := h
  obtain ⟨hp, he, ho⟩ := Batch.toEarlier_frame c
  refine ⟨hre, hstate, c.toEarlier, ?_, hp.trans hphase, he.trans hentries, ho.trans horigin⟩
  show (s.jc.mapBatches Batch.toEarlier).at i = _
  rw [Jc.at_mapBatches, hc]
  rfl

theorem inPass.servePending {s : State} {r : Re} {i : Fin 8} {b : Batch} (h : s.inPass r i b) (hidle : s.rp.state = .idle) :
    s.servePending.inPass r i b ∧ s.servePending.rp.state ≠ .ending := by
  cases hcue : s.rp.pendingCue with
  | none =>
    rw [servePending_of_none hcue]
    exact ⟨h, by simp [hidle]⟩
  | some n =>
    cases he : (tget s.rp.directory n).enabled with
    | true =>
      rw [servePending_of_enabled hcue hidle he, h.takeIfEligible]
      refine ⟨inPass.playStarted n (h.of_frame rfl rfl), ?_⟩
      simp [State.playStarted, rpStarted]
    | false =>
      rw [servePending_of_disabled hcue he, h.takeIfEligible]
      exact ⟨h.of_frame rfl rfl, by simp [hidle]⟩

theorem inPass.atIdle {s : State} {r : Re} {i : Fin 8} {b : Batch} (h : s.inPass r i b) (hidle : s.rp.state = .idle) :
    s.atIdle.inPass r i b ∧ s.atIdle.rp.state ≠ .ending := by
  unfold State.atIdle
  split_ifs
  · exact ⟨h.of_frame rfl rfl, by simp [standbyEntered, hidle]⟩
  · exact h.servePending hidle

/-- After a stop of the reel: the engine's hold is 0, the slots are those of the stop, and the RP is in STOPPING or IDLE. -/
theorem reelStopped_frame {s t : State} (h : s.reelStopped t) : t.re = { s.re with hold := 0 }
    ∧ (∀ i, t.jc.at i = stoppedSlot (s.jc.at i)) ∧ (t.rp.state = .stopping ∨ t.rp.state = .idle) := by
  obtain ⟨v, ⟨hrp, hre, hat, -⟩, hstays, hdrops⟩ := h
  have hv : v.re = { s.re with hold := 0 } ∧ (∀ i, v.jc.at i = stoppedSlot (s.jc.at i))
      ∧ (v.rp.state = .stopping ∨ v.rp.state = .idle) := by
    refine ⟨hre, hat, ?_⟩
    rw [hrp]
    unfold rpStopped
    cases s.jc.reelInRelease
    · exact .inr rfl
    · exact .inl rfl
  by_cases hd : s.drawnStays (s.jc.waiters.filter (fun r => r != .rp)) v.jc
  · rw [hstays hd]
    exact hv
  · cases hw : s.jc.drawn with
    | none => exact absurd (fun w h => by simp [hw] at h) hd
    | some w =>
      rw [hdrops w hw hd]
      exact hv

theorem inPass.reelAbort {s : State} {r : Re} {i : Fin 8} {b : Batch} (hpart : s.spc.part = .running) (hbusy : s.rp.state ≠ .idle)
    (h : s.inPass r i b) : s.reelAbort.inPass r i b ∧ s.reelAbort.rp.state ≠ .ending := by
  obtain ⟨u, ⟨v, hv, hu⟩, hstopping, hidle⟩ := reelAbort_aborts hpart hbusy
  obtain ⟨hre, hat, hstate⟩ := reelStopped_frame hv
  obtain ⟨⟨n, hr⟩, hsecond, c, hc, hphase, hentries, horigin⟩ := h
  have hslot : stoppedSlot (some c) = some c := by simp [stoppedSlot, hphase]
  have hpass : u.inPass r i b := by
    refine ⟨⟨0, ?_⟩, hsecond, c, ?_, hphase, hentries, horigin⟩
    · rw [hu]
      exact hre.trans (by rw [hr])
    · rw [hu]
      exact (hat i).trans (by rw [hc, hslot])
  have hu' : u.rp.state = v.rp.state := by rw [hu]
  rcases hstate with hs | hs
  · rw [hstopping (hu'.trans hs)]
    exact ⟨hpass, by simp [hu', hs]⟩
  · rw [hidle (by simp [hu', hs])]
    exact hpass.atIdle (hu'.trans hs)

theorem inPass.beginFrame {s : State} {r : Re} {i : Fin 8} {b : Batch} (hpart : s.spc.part = .running) (h : s.inPass r i b) :
    s.beginFrame.inPass r i b ∧ s.beginFrame.rp.state ≠ .ending := by
  have hplayer : ∀ p, (s.setPlayer p).inPass r i b ∧ (s.setPlayer p).spc.part = .running ∧ (s.setPlayer p).rp.state = p := by
    intro p
    unfold setPlayer
    split_ifs with hp
    · exact ⟨h, hpart, hp⟩
    · exact ⟨h.of_frame rfl rfl, hpart, rfl⟩
  obtain ⟨hloading, hrunning, hstate⟩ := hplayer .loading
  unfold State.beginFrame
  dsimp only
  split_ifs
  · exact ⟨hloading.of_frame rfl rfl, by simp [askHeader, hstate]⟩
  · rw [hloading.takeFirst]
    exact hloading.reelAbort hrunning (by simp [hstate])
  · unfold setPlayer
    split_ifs with hp
    · exact ⟨h.of_frame rfl rfl, by rw [hp]; simp⟩
    · exact ⟨h.of_frame rfl rfl, by simp⟩

theorem inPass.noticed {s t : State} {r : Re} {i : Fin 8} {b : Batch} (hpart : s.spc.part = .running) (h : s.inPass r i b)
    (hn : s.noticed b t) : t.inPass r i b := by
  obtain ⟨-, rfl⟩ | ⟨-, -, rfl⟩ | ⟨-, -, -, rfl⟩ | ⟨-, -, a, -, -, ht⟩ | ⟨-, -, rfl⟩ | ⟨-, -, rfl⟩ | ⟨-, -, last, -, hlast⟩ := hn
  · exact h
  · exact h
  · exact h
  · rw [ht]
    split_ifs <;> exact h.of_frame rfl rfl
  · exact h.of_frame rfl rfl
  · exact (inPass.beginFrame (by exact hpart) (by exact h.of_frame rfl rfl)).1
  · obtain ⟨-, rfl⟩ | ⟨-, -, rfl⟩ := hlast
    · exact h.of_frame rfl rfl
    · exact (inPass.atIdle (by exact h.of_frame rfl rfl) (by rfl)).1

/-! ### The flip -/

theorem meetStop_of_cut {s t : State} {a : Nat} (hcut : s.mp.cut = some a) (h : s.meetsStop a t) : s.meetStop = t := by
  simp only [meetStop, hcut, h, lateAbort]
  rfl

/-- The RP is told of the flip of a reel batch, and after that of the final one of the hold that has come to 0 (R96, R111). -/
theorem tellFlip_of_noticed {s t : State} {r : Re} {i : Fin 8} {b : Batch} (hpart : s.spc.part = .running) (hpass : s.inPass r i b)
    (h : s.noticed b t) : s.tellFlip b = t := by
  have htold : ∀ {x : State}, b.isReel = true → s.flipNotice = x → x.rp.state ≠ .ending → s.tellFlip b = x := by
    rintro x hreel rfl hne
    unfold tellFlip
    rw [if_pos hreel, holdZeroNotice_of_not (fun hr => hne hr.1), ite_self]
  obtain ⟨hdrawn, rfl⟩ | ⟨hreel, hidle, rfl⟩ | ⟨hreel, hstopping, hcut, rfl⟩ | ⟨hreel, hstopping, a, hcut, habove, ht⟩
    | ⟨hreel, hloading, rfl⟩ | ⟨hreel, hwaiting, rfl⟩ | ⟨hreel, hending, last, hlast, hcases⟩ := h
  · exact if_neg (by simp [Batch.isReel, hdrawn])
  · exact htold hreel (by simp only [flipNotice, hidle]) (by simp [hidle])
  · refine htold hreel ?_ (by simp [hstopping])
    simp only [flipNotice, hstopping, stoppedNotice]
    cases hc : t.mp.cut with
    | none => rfl
    | some a => exact if_neg (Nat.not_lt.mpr (hcut a hc))
  · refine htold hreel ?_ ?_
    · simp only [flipNotice, hstopping, stoppedNotice, hcut, if_pos habove]
      exact meetStop_of_cut hcut ht
    · rw [ht]
      split_ifs <;> simp [hstopping]
  · exact htold hreel (by simp only [flipNotice, hloading]; rfl) (by simp [hloading])
  · exact htold hreel (by simp only [flipNotice, hwaiting]; rfl)
      (inPass.beginFrame (by exact hpart) (by exact hpass.of_frame rfl rfl)).2
  · have hnotice : s.flipNotice = { s with rp := { s.rp with unflipped := s.rp.unflipped - 1, finalFlipped := last } } := by
      have hlast' : (s.rp.finalFlipped || s.rp.unflipped - 1 == 0) = last := by
        rw [hlast]
        congr 1
      unfold flipNotice
      split <;> simp_all [setRp]
    unfold tellFlip
    rw [if_pos hreel, hnotice]
    obtain ⟨hnot, rfl⟩ | ⟨hfinal, hhold, rfl⟩ := hcases
    · by_cases hzero : b.hold - 1 = 0
      · rw [if_pos hzero, holdZeroNotice_of_not]
        rintro ⟨-, hf⟩
        have hf : last = true := hf
        rcases hnot with hl | hl
        · simp [hl] at hf
        · omega
      · rw [if_neg hzero]
    · rw [if_pos (by omega), holdZeroNotice_of_final (by exact hpart) (by exact hending) (by exact hfinal)]

/-- A retirement reads of its batch only the origin. -/
theorem retire_congr {s : State} (i : Fin 8) {b c : Batch} (h : c.isDrawn = b.isDrawn) : s.retire i c = s.retire i b := by
  have hreel : c.isReel = b.isReel := by rw [Batch.isReel, h, Batch.isReel]
  rw [retire_eq, retire_eq, hreel]

/-- The flip, with the snapshot it asks for. -/
def flippedDue (s : State) (i : Fin 8) (b : Batch) : State :=
  { s.flipped i b with ru := { s.ru with dueStatus := true } }

theorem flip_eq {s : State} {i : Fin 8} {b : Batch} (hi : s.re.current = some i) (hb : s.jc.at i = some b) :
    s.flip = ((s.flippedDue i b).tellFlip b).secondPassNext := by
  have hrecord : flipRecord b = { release := b.release.getD 0, origin := match b.origin with
      | .drawn => .drawn (b.tag.getD 0) (b.takeover.getD false)
      | .reel n k _ => .reel n k } := by
    unfold flipRecord
    cases b.origin <;> rfl
  have hother : s.re.select.other = otherBuf s.re.select := by cases s.re.select <;> rfl
  unfold flip
  rw [currentBatch_of hi hb]
  dsimp only
  rw [hrecord, hother]
  rfl

theorem flippedDue_inPass (s : State) (i : Fin 8) (b : Batch) :
    (s.flippedDue i b).inPass (s.flipped i b).re i b :=
  ⟨⟨_, rfl⟩, rfl, _, jcWith_at s i _, rfl, rfl, rfl⟩

end State
end Sys2Proof.Machine
namespace Sys2Proof.Proofs
open Sys2Proof.Machine Sys2Proof.Machine.State

/-- Settles O53: one lemma for the flip at a delivered mark serves the three kinds of mark. -/
theorem flipAtAMark : Obligations.FlipAtAMark := by
  unfold Obligations.FlipAtAMark
  refine ⟨?flips, ?loads⟩
  case flips =>
    intro s u t v c i b hs hpart h harmed hhold hi hb ht hv
    obtain ⟨hu, -⟩ := delivers_frame h
    have hre : u.re = s.re := by rw [hu]
    have hjc : u.jc = s.jc := by rw [hu]
    have hspc : u.spc = s.spc := by rw [hu]
    obtain rfl : t = u.flippedDue i b := ht
    have hpart2 : (u.flippedDue i b).spc.part = .running := by rw [← hspc] at hpart; exact hpart
    have hpass := inPass.noticed hpart2 (u.flippedDue_inPass i b) hv
    have hmark : u.deliverMark = v.secondPassNext.ruMark := by
      rw [deliverMark, reMark, if_neg (by simp [hspc, hpart]), if_pos (by rw [hre]; exact ⟨harmed, hhold⟩),
        flip_eq (i := i) (b := b) (by rw [hre]; exact hi) (by rw [hjc]; exact hb),
        tellFlip_of_noticed hpart2 (u.flippedDue_inPass i b) hv]
    obtain ⟨⟨n, hr⟩, -, d, hd, -, hentries, horigin⟩ := hpass
    have hcurrent : v.re.current = some i := by
      rw [hr]
      exact (congrArg Re.current hre).trans hi
    have hposition : v.re.position = 0 := by rw [hr]; rfl
    refine ⟨fun e rest x he hx => ?_, fun r he hret => ?_⟩
    all_goals refine exec_delivered hs (by simp [hpart]) h (hmark.trans ?_)
    · have hword : v.bufferWord (otherBuf v.re.select) e.frameSlot = s.bufferWord s.re.select e.frameSlot := by
        unfold bufferWord
        rw [hr]
        simp only [flipped, hre]
        cases s.re.select <;> rfl
      rw [secondPassNext_of_entry (e := e) hcurrent hd (by rw [hposition, hentries, he]; rfl) hx, ruMark_eq, hword]
    · rw [secondPassNext_of_end hcurrent hd (by rw [hposition, hentries, he]; rfl),
        retire_congr (b := { b with phase := .secondPass }) i horigin, ← hret, ruMark_eq]
  case loads =>
    intro l b x y hdistinct hx hy
    refine ⟨fun e n he hn => ?_, fun f hf => ?_, fun g => ?_, rfl, rfl⟩
    · rw [Ll.applied_loads]
      exact get_setLoads_of_mem _ _ hdistinct he hn
    · rw [Ll.applied_loads]
      exact get_setLoads_of_ne _ _ hf
    · simp [Ll.applied, sumOf, hx, hy]

end Sys2Proof.Proofs
end

