-- ==== Sys2Proof/Proofs/Frames.lean ====
section
set_option Elab.async false
/-!
RESULT. The update pairs of a frame, its end, and the frame after it (O56).
-/
namespace Sys2Proof.Machine.State

/-! ### The next frame -/

/-- The RP in LOADING, a snapshot asked for where it was not yet. -/
def loadingFrame (s : State) : State :=
  { s with
    rp := { s.rp with state := .loading }
    ru := if s.rp.state = .waiting then { s.ru with dueStatus := true } else s.ru }

theorem setPlayer_loading {s : State} (h : s.rp.state = .loading ∨ s.rp.state = .waiting) :
    s.setPlayer .loading = s.loadingFrame := by
  unfold loadingFrame
  rcases h with h | h
  · rw [setPlayer, if_pos h, if_neg (by simp [h]), ← h]
  · rw [setPlayer_of_ne (by simp [h]), if_pos h]

theorem beginFrame_reads {s : State} (h : s.rp.state = .loading ∨ s.rp.state = .waiting) (hfew : s.rp.unflipped < 2)
    (hwindow : s.rp.readAddr ≤ 0x7FFFFC) : s.beginFrame = { s with
      rp := { s.rp with state := .loading, step := .header }
      mp := s.mp.asking placeRp (readOf .header (wordAt s.rp.readAddr))
      ru := if s.rp.state = .waiting then { s.ru with dueStatus := true } else s.ru } := by
  unfold beginFrame
  rw [if_pos hfew, setPlayer_loading h]
  exact (if_pos (by exact hwindow)).trans rfl

theorem beginFrame_aborts {s : State} (h : s.rp.state = .loading ∨ s.rp.state = .waiting) (hfew : s.rp.unflipped < 2)
    (habove : 0x7FFFFC < s.rp.readAddr) : s.beginFrame = s.loadingFrame.takeFirst.reelAbort := by
  unfold beginFrame
  rw [if_pos hfew, setPlayer_loading h]
  exact if_neg (Nat.not_le.mpr habove)

theorem beginFrame_waits {s : State} (h : s.rp.state = .loading ∨ s.rp.state = .waiting) (hfull : 2 ≤ s.rp.unflipped) :
    s.beginFrame = { s with
      rp := { s.rp with state := .waiting, step := .none }
      ru := if s.rp.state = .loading then { s.ru with dueStatus := true } else s.ru } := by
  unfold beginFrame
  rw [if_neg (Nat.not_lt.mpr hfull)]
  rcases h with h | h
  · rw [setPlayer_of_ne (by simp [setRp, h]), if_pos h]
    rfl
  · rw [setPlayer, if_pos (by exact h), if_neg (by simp [h]), ← h]
    rfl

/-- Outside IDLE the eligible batches are those of the reels, whatever the RP's state. -/
theorem takesNext_loading {s : State} {i : Fin 8} {b : Batch} {n : Nat} (h : s.rp.state = .loading ∨ s.rp.state = .waiting)
    (hnext : s.takesNext i b) : State.takesNext { s.loadingFrame with freeCount := n } i b := by
  obtain ⟨hb, hsealed, helig, hall⟩ := hnext
  have hbusy : s.rp.state ≠ .idle := by rcases h with h | h <;> simp [h]
  refine ⟨hb, hsealed, .inl (helig.resolve_right hbusy), fun k hk c hc hcs hce => ?_⟩
  exact hall k hk c hc hcs (.inl (hce.resolve_right (by simp [loadingFrame])))

theorem eligibleExists_loading {s : State} (h : s.rp.state = .loading ∨ s.rp.state = .waiting) :
    s.loadingFrame.eligibleExists = s.eligibleExists := by
  have hbusy : (s.rp.state == .idle) = false := by rcases h with h | h <;> simp [h]
  have helig : ∀ b, eligible .loading b = eligible s.rp.state b := fun b => by
    rw [eligible, eligible, hbusy]
    rfl
  show s.jc.any (eligible .loading) = s.jc.any (eligible s.rp.state)
  rw [funext helig]

theorem taken_freeCount (s : State) (i : Fin 8) (b : Batch) (n : Nat) :
    State.taken { s with freeCount := n } i b = { s.taken i b with freeCount := n } := by
  unfold taken
  split_ifs <;> rfl

/-- Where the engine can take a batch at the moment of an abort, the free value of log entry 43 says which is first. -/
theorem takeFirst_of_takesNext {s : State} {i : Fin 8} {b : Batch} (h : s.rp.state = .loading ∨ s.rp.state = .waiting)
    (hidle : s.re.state = .idle) (hpart : s.spc.part = .running) (hnext : s.takesNext i b) :
    s.loadingFrame.takeFirst = { (if Config.takeBeforeAbort s.freeCount then s.loadingFrame.taken i b else s.loadingFrame) with
      freeCount := s.freeCount + 1 } := by
  have hcan : s.loadingFrame.canTake = true :=
    s.loadingFrame.canTake_iff.mpr ⟨hidle, hpart, (eligibleExists_loading h).trans (eligibleExists_of_takesNext hnext)⟩
  have htake : (s.loadingFrame.setFreeCount (s.freeCount + 1)).takeBatch
      = { s.loadingFrame.taken i b with freeCount := s.freeCount + 1 } :=
    (takeBatch_of_takesNext (takesNext_loading h hnext)).trans (taken_freeCount _ _ _ _)
  unfold takeFirst
  rw [if_pos hcan]
  show (if Config.takeBeforeAbort s.freeCount = true then (s.loadingFrame.setFreeCount (s.freeCount + 1)).takeBatch
    else s.loadingFrame.setFreeCount (s.freeCount + 1)) = _
  rw [htake]
  split_ifs <;> rfl

theorem takeFirst_of_not {s : State} (h : s.rp.state = .loading ∨ s.rp.state = .waiting)
    (hno : s.re.state ≠ .idle ∨ s.spc.part ≠ .running ∨ s.eligibleExists = false) :
    s.loadingFrame.takeFirst = s.loadingFrame := by
  refine if_neg fun hcan => ?_
  obtain ⟨hidle, hpart, helig⟩ := s.loadingFrame.canTake_iff.mp hcan
  rw [eligibleExists_loading h] at helig
  rcases hno with hn | hn | hn
  · exact hn hidle
  · exact hn hpart
  · simp [hn] at helig

/-! ### The end of a frame -/

theorem endFrame_eq {s : State} {i : Fin 8} {b : Batch} (hi : s.jc.openReel = some i) (hb : s.jc.at i = some b) :
    s.endFrame = State.advance { s with
      jc := { s.jc with
        slots := tset s.jc.slots i (some { b with phase := .sealed, sealOrder := some s.jc.sealCounter })
        sealCounter := s.jc.sealCounter + 1 } } := by
  simp only [endFrame, sealReel, hi, Jc.sealBatch, Jc.modify_of_at _ hb]
  rfl

/-- The three ways on from the end of a frame (R108). -/
theorem advance_eq {s : State} {n : Fin 4} {h : Header} (hreel : s.rp.reel = some n) (hh : s.rp.header = some h) :
    s.advance = if s.rp.frame + 1 < (tget s.rp.directory n).frames then
        State.beginFrame { s with rp := { s.rp with
          header := none, step := .none, frame := s.rp.frame + 1, readAddr := h.addr + 4 * (1 + 2 * h.count) } }
      else if s.lastPlay (tget s.rp.directory n) then
        State.setPlayer { s with rp := { s.rp with header := none, step := .none } } .ending
      else State.beginFrame { s with
        jc := s.jc.mapBatches Batch.toEarlier
        rp := { s.rp with
          header := none, step := .none, frame := 0, readAddr := (tget s.rp.directory n).start, plays := s.rp.plays + 1 } } := by
  unfold advance
  rw [hreel, hh]
  rfl

section frameEnd
variable {s : State} {n : Fin 4} {h : Header} {i : Fin 8} {b : Batch} (hreel : s.rp.reel = some n) (hh : s.rp.header = some h)
  (hi : s.jc.openReel = some i) (hb : s.jc.at i = some b)
include hreel hh hi hb

theorem endFrame_nextFrame (hmore : s.rp.frame + 1 < (tget s.rp.directory n).frames) :
    s.endFrame = State.beginFrame { s.frameSealed i b with
      rp := { (s.frameSealed i b).rp with frame := s.rp.frame + 1, readAddr := h.addr + 4 * (1 + 2 * h.count) } } := by
  rw [endFrame_eq hi hb, advance_eq (by exact hreel) (by exact hh), if_pos hmore]
  rfl

theorem endFrame_ends (hlast : (tget s.rp.directory n).frames ≤ s.rp.frame + 1) (hloops : (tget s.rp.directory n).loops < 15)
    (hplays : s.rp.plays.toNat = (tget s.rp.directory n).loops) (hstate : s.rp.state ≠ .ending) :
    s.endFrame = { s.frameSealed i b with
      rp := { (s.frameSealed i b).rp with state := .ending }, ru := { s.ru with dueStatus := true } } := by
  rw [endFrame_eq hi hb, advance_eq (by exact hreel) (by exact hh), if_neg (Nat.not_lt.mpr hlast), if_pos (by simp [lastPlay, hloops, hplays]), setPlayer_of_ne (by exact hstate)]
  rfl

theorem endFrame_nextPlay (hlast : (tget s.rp.directory n).frames ≤ s.rp.frame + 1)
    (hagain : 15 ≤ (tget s.rp.directory n).loops ∨ s.rp.plays.toNat ≠ (tget s.rp.directory n).loops) :
    s.endFrame = State.beginFrame { s.frameSealed i b with
      jc := (s.frameSealed i b).jc.mapBatches Batch.toEarlier
      rp := { (s.frameSealed i b).rp with frame := 0, readAddr := (tget s.rp.directory n).start, plays := s.rp.plays + 1 } } := by
  have hno : ¬(decide ((tget s.rp.directory n).loops < 15) && s.rp.plays.toNat == (tget s.rp.directory n).loops) = true := by
    rw [Bool.and_eq_true, decide_eq_true_iff, beq_iff_eq]
    rintro ⟨hloops, hplays⟩
    rcases hagain with hl | hp
    · omega
    · exact hp hplays
  rw [endFrame_eq hi hb, advance_eq (by exact hreel) (by exact hh), if_neg (Nat.not_lt.mpr hlast), lastPlay, if_neg hno]
  rfl

end frameEnd

/-! ### The pairs -/

theorem reportPair_eq (s : State) (d : Delivered) (a : Nat) : s.reportPair d a = { s with
    ru := if d.error then s.ru.report .readParity .reelUpdate (BitVec.ofNat 24 a) else s.ru } := by
  unfold reportPair
  split <;> rfl

theorem updateAddressGood_iff (x : Word) :
    updateAddressGood x = true ↔ 0x800000 ≤ x.toNat ∧ x.toNat ≤ 0xAFFFFF ∧ x.toNat % 4 = 0 := by
  simp [updateAddressGood, and_assoc]

theorem offerUpdate_held {s : State} (n : Nat) (a v : Word) (h : ∃ q ∈ s.ct.current, q.kind = .reelUpdate) :
    s.offerUpdate n a v = { s with rp := { s.rp with step := .held n a v } } := by
  obtain ⟨q, hq, hk⟩ := h
  exact if_pos (by rw [Option.mem_def.mp hq]; simp [hk])

theorem offerUpdate_given {s : State} (n : Nat) (a v : Word) (h : ∀ q ∈ s.ct.current, q.kind ≠ .reelUpdate) :
    s.offerUpdate n a v = { s with
      rp := { s.rp with step := .update n }
      ct := { s.ct with
        offerRp := some { kind := .reelUpdate, canvas := a.setWidth 24, value := v, discard := false } } } := by
  have hno : s.ct.current.any (fun q => q.kind == .reelUpdate) = false := by
    cases hq : s.ct.current with
    | none => rfl
    | some q => simpa using h q hq
  exact (if_neg (by simp [hno])).trans rfl

/-- The completion of a pair word's read, in RUNNING. -/
theorem pairRead_running {s x : State} {f : InFlight} (hs : s.settled) (hpart : s.spc.part = .running)
    (hf : s.inFlightFor f .pairRead) (hop : f.req.op = .read)
    (hx : State.pairReadDone { s with mp := s.mp.freed, ru := s.ruAfterRead f } { data := s.dataOf f, error := s.readError f } = x) :
    exec .updatePairReadCompletion s = .next x.endStep := by
  have hdone : (s.complete f).pairReadDone (s.delivered f) = x := by
    rw [complete_of_read s f hop, delivered_of_read s f hop]
    exact hx
  refine congrArg Host.Outcome.next (completion_of_keeps hs hf (by simp) rfl (by simp [hpart]) hdone ?_)
  rw [← hdone]
  exact pairReadDone_keeps _ _

theorem pairReadDone_address {s : State} {h : Header} {n : Nat} (d : Delivered) (hh : s.rp.header = some h)
    (hn : s.rp.step = .pairAddr n) : s.pairReadDone d = { s with
      rp := { s.rp with step := .pairValue n d.data d.error }
      ru := if d.error then s.ru.report .readParity .reelUpdate (BitVec.ofNat 24 (h.addr + 4 + 8 * n)) else s.ru
      mp := s.mp.asking placeRp (readOf .pairRead (wordAt (h.addr + 4 + 8 * n + 4))) } := by
  simp only [pairReadDone, hn, pairAddress, hh, reportPair_eq]
  rfl

theorem pairReadDone_value {s : State} {h : Header} {n : Nat} {a : Word} {bad : Bool} (d : Delivered)
    (hh : s.rp.header = some h) (hn : s.rp.step = .pairValue n a bad) : s.pairReadDone d = State.pairDone { s with
      ru := if d.error then s.ru.report .readParity .reelUpdate (BitVec.ofNat 24 (h.addr + 4 + 8 * n + 4)) else s.ru }
        n a d.data (bad || d.error) := by
  simp only [pairReadDone, hn, pairAddress, hh, reportPair_eq]

theorem pairDone_bad {s : State} {bad : Bool} (n : Nat) (a v : Word) (h : bad = true) : s.pairDone n a v bad = s.loadPair (n + 1) :=
  if_pos h

theorem pairDone_good {s : State} {a : Word} (n : Nat) (v : Word)
    (h : 0x800000 ≤ a.toNat ∧ a.toNat ≤ 0xAFFFFF ∧ a.toNat % 4 = 0) : s.pairDone n a v false = s.offerUpdate n a v :=
  (if_neg (by simp)).trans (if_pos ((updateAddressGood_iff a).mpr h))

theorem pairDone_skipped {s : State} {a : Word} {h : Header} (n : Nat) (v : Word) (hh : s.rp.header = some h)
    (ha : ¬(0x800000 ≤ a.toNat ∧ a.toNat ≤ 0xAFFFFF ∧ a.toNat % 4 = 0)) :
    s.pairDone n a v false = State.loadPair { s with
      ru := (s.ru.report .reelUpdateBad .reelUpdate (BitVec.ofNat 24 (h.addr + 4 + 8 * n))).count .translate } (n + 1) := by
  refine (if_neg (by simp)).trans ((if_neg (fun hg => ha ((updateAddressGood_iff a).mp hg))).trans ?_)
  simp only [badUpdate, pairAddress, hh]
  rfl

end Sys2Proof.Machine.State
namespace Sys2Proof.Proofs
open Sys2Proof.Machine Sys2Proof.Machine.State

/-- Settles O56: the words of a pair bring the next word, the hand-over or the next pair, and the last pair the end of the frame. -/
theorem pairReadsGoToTheTranslator : Obligations.PairReadsGoToTheTranslator := by
  unfold Obligations.PairReadsGoToTheTranslator
  refine ⟨?pairs, fun s h n hh => ⟨loadPair_of_lt hh, loadPair_of_ge hh⟩, ?frameEnds, ?frames,
    fun j i => ⟨Jc.at_mapBatches j _ i, rfl⟩, ?earlier⟩
  case pairs =>
    intro s f h i u hs hpart hf hop hh
    have hrun : ∀ x, State.pairReadDone { s with mp := s.mp.freed, ru := s.ruAfterRead f }
        { data := s.dataOf f, error := s.readError f } = x → exec .updatePairReadCompletion s = .next x.endStep :=
      fun x hx => pairRead_running hs hpart hf hop hx
    refine ⟨fun hn hu => hrun _ ?_, fun a hn herror hlow hhigh halign hheld => hrun _ ?_,
      fun a hn herror hlow hhigh halign hfree => hrun _ ?_, fun a hn herror hbad => hrun _ ?_, fun a bad hn hbad hu => hrun _ ?_⟩
    · rw [pairReadDone_address _ (by exact hh) (by exact hn), hu, ← ru_parityRead]
    · rw [pairReadDone_value _ (by exact hh) (by exact hn), herror, ruAfterRead_of_good s f herror]
      exact (pairDone_good _ _ ⟨hlow, hhigh, halign⟩).trans (offerUpdate_held _ _ _ hheld)
    · rw [pairReadDone_value _ (by exact hh) (by exact hn), herror, ruAfterRead_of_good s f herror]
      exact (pairDone_good _ _ ⟨hlow, hhigh, halign⟩).trans (offerUpdate_given _ _ _ hfree)
    · rw [pairReadDone_value _ (by exact hh) (by exact hn), herror, ruAfterRead_of_good s f herror]
      exact pairDone_skipped _ _ (by exact hh) hbad
    · rw [pairReadDone_value _ (by exact hh) (by exact hn), pairDone_bad _ _ _ (by simpa using hbad), hu, ← ru_parityRead]
  case frameEnds =>
    rintro s t n h i b e hreel hh hi hb rfl rfl
    exact ⟨endFrame_nextFrame hreel hh hi hb, endFrame_ends hreel hh hi hb, endFrame_nextPlay hreel hh hi hb⟩
  case frames =>
    intro s h
    refine ⟨beginFrame_reads h, fun hfew habove t ht => ?_, beginFrame_waits h⟩
    obtain rfl : t = s.loadingFrame := ht
    refine ⟨fun hno => ?_, fun i b hidle hpart hnext => ?_⟩
    · rw [beginFrame_aborts h hfew habove, takeFirst_of_not h hno]
    · rw [beginFrame_aborts h hfew habove, takeFirst_of_takesNext h hidle hpart hnext]
  case earlier =>
    intro b
    refine ⟨fun h => ?_, fun n k x h => ?_⟩
    · simp only [Batch.toEarlier, h]
    · simp only [Batch.toEarlier, h]

end Sys2Proof.Proofs
end

