-- ==== Sys2Proof/Proofs/Headers.lean ====
section
set_option Elab.async false
/-!
RESULT. The header reads of the Reel Player, and the abort at one (O55).
-/
namespace Sys2Proof.Machine.State

/-! ### The header read -/

theorem headerFails_iff (d : Delivered) (a : Nat) :
    headerFails d a = true ↔ d.error = true ∨ 0x7FFFFF < a + 8 * bits d.data 7 0 := by
  rw [headerFails, Bool.or_eq_true, decide_eq_true_iff]
  rfl

/-- A header as the statements give it. -/
theorem header_ofWord (x : Word) (a : Nat) :
    Header.ofWord x a = { count := bits x 7 0, hold := if bits x 15 8 = 0 then 1 else bits x 15 8, addr := a } := rfl

theorem headerDone_aborts {s : State} {d : Delivered} (h : headerFails d s.rp.readAddr = true) : s.headerDone d = s.reelAbort :=
  if_pos h

/-- The RP with the header in hand. -/
def headerTaken (s : State) (h : Header) : State := { s with rp := { s.rp with header := some h, step := .slot } }

theorem headerDone_asks {s : State} {d : Delivered} {n : Fin 4} (hreel : s.rp.reel = some n)
    (h : ¬headerFails d s.rp.readAddr = true) : s.headerDone d =
      (s.headerTaken (Header.ofWord d.data s.rp.readAddr)).askReelBatch
        { reel := n, frame := s.rp.frame, hold := (Header.ofWord d.data s.rp.readAddr).hold } := by
  refine (if_neg h).trans ?_
  rw [hreel]
  rfl

theorem askReelBatch_opens {s : State} {i : Fin 8} (o : ReelOpen) (hcount : s.jc.reelCount < 2) (hi : s.jc.at i = none)
    (hlower : ∀ k, k < i → (s.jc.at k).isSome = true) : s.askReelBatch o = State.loadPair { s with
      jc := { s.jcWith i (some (Batch.fresh (.reel o.reel o.frame false) o.hold)) with reelOpen := none }
      rp := { s.rp with unflipped := s.rp.unflipped + 1 } } 0 :=
  (if_pos hcount).trans (openReelBatch_eq o hi hlower)

theorem askReelBatch_waits {s : State} (o : ReelOpen) (hcount : 2 ≤ s.jc.reelCount) :
    s.askReelBatch o = { s with jc := { s.jc with reelOpen := some o } } :=
  if_neg (Nat.not_lt.mpr hcount)

/-- A header read that no stop has cut off meets none. -/
theorem meetHeader_of_kept {s : State} {f : InFlight} {o : Owner} (h : s.inFlightFor f o) : s.meetHeader = s := by
  unfold meetHeader
  rw [h.1]
  cases s.mp.cut with
  | none => rfl
  | some a => exact if_neg fun hm => absurd (h.2.2.symm.trans hm.2.1) (by simp)

/-- The completion of a header read with an effect that leaves the bus, the queue and the part state. -/
theorem header_apart {s x : State} {f : InFlight} (hs : s.settled) (hf : s.inFlightFor f .header) (hop : f.req.op = .read)
    (hx : State.headerDone { s with mp := s.mp.freed, ru := s.ruAfterRead f } { data := s.dataOf f, error := s.readError f } = x)
    (hup : x.up = s.up := by rfl) (haq : x.aq = s.aq := by rfl) (hpart : x.spc.part = s.spc.part := by rfl) :
    exec .headerReadCompletion s = .next x.endStep := by
  show execHeaderReadCompletion s = _
  rw [execHeaderReadCompletion, meetHeader_of_kept hf]
  exact congrArg Host.Outcome.next (readCompletion_apart hs hf (by simp) rfl hop hx hup haq hpart)

theorem header_running {s x : State} {f : InFlight} (hs : s.settled) (hpart : s.spc.part = .running) (hf : s.inFlightFor f .header)
    (hop : f.req.op = .read)
    (hx : State.headerDone { s with mp := s.mp.freed, ru := s.ruAfterRead f } { data := s.dataOf f, error := s.readError f } = x) :
    exec .headerReadCompletion s = .next x.endStep := by
  have hdone : (s.complete f).headerDone (s.delivered f) = x := by
    rw [complete_of_read s f hop, delivered_of_read s f hop]
    exact hx
  show execHeaderReadCompletion s = _
  rw [execHeaderReadCompletion, meetHeader_of_kept hf]
  refine congrArg Host.Outcome.next (completion_of_keeps hs hf (by simp) rfl (by simp [hpart]) hdone ?_)
  rw [← hdone]
  exact headerDone_keeps _ _

/-! ### A header read that a stop has cut off -/

theorem meetsStop_exists (s : State) (a : Nat) : ∃ v, s.meetsStop a v := ⟨_, rfl⟩

/-- The free value of a stop and an abort at the same moment touches neither the port nor the memory. -/
theorem meetsStop_frame {s v : State} {a : Nat} (h : s.meetsStop a v) :
    v.mp = s.mp ∧ v.memory = s.memory ∧ v.up = s.up ∧ v.aq = s.aq ∧ v.spc = s.spc ∧ v.pu = s.pu := by
  rw [h]
  split_ifs <;> exact ⟨rfl, rfl, rfl, rfl, rfl, rfl⟩

/-- The completion of a cut-off header read is discarded. -/
theorem header_discarded {s v : State} {f : InFlight} (hs : s.settled) (hpart : s.spc.part = .running)
    (hf : s.mp.inFlight = some f) (howner : f.req.owner = .header) (hop : f.req.op = .read) (hd : f.discard = true)
    (hmeet : s.meetHeader = v) (hmp : v.mp = s.mp) (hmemory : v.memory = s.memory) (hup : v.up = s.up) (hspc : v.spc = s.spc) :
    exec .headerReadCompletion s = .next (State.endStep { v with
      mp := s.mp.freed, ru := if s.readError f then v.ru.count .parity else v.ru }) := by
  have hcomplete : v.complete f = { v with
      mp := s.mp.freed, ru := if s.readError f then v.ru.count .parity else v.ru } := by
    rw [complete_of_read v f hop, ruAfterRead, readError, hmemory, hmp]
    rfl
  have hdirect : s.noDirect := directServed_running s hs.1 (by simp [hpart]) (by simp [hpart])
  show execHeaderReadCompletion s = _
  rw [execHeaderReadCompletion, hmeet, onCompletion_discard _ _ _ f (by rw [hmp]; exact hf) (by rw [howner]; rfl) hd, hcomplete]
  refine congrArg Host.Outcome.next (settle_of_noDirect ?_ ?_)
  · show v.spc.part ≠ .passive
    simp [hspc, hpart]
  · show ∀ w ∈ v.up.waiting, w.place ≠ .direct
    rw [hup]
    exact hdirect

theorem meetHeader_of_cut {s : State} {f : InFlight} {a : Nat} (hf : s.mp.inFlight = some f) (howner : f.req.owner = .header)
    (hd : f.discard = true) (hcut : s.mp.cut = some a) :
    s.meetHeader = if headerFails (s.delivered f) a then s.meetStop else s := by
  simp [meetHeader, hf, hcut, howner, hd]

/-! ### An abort that leaves nothing of the reel -/

theorem isDrawn_of_noReel {j : Jc} (h : j.reelCount = 0) (i : Fin 8) : ∀ b ∈ j.at i, b.isDrawn = true := by
  intro b hb
  have hnone : slotList.filter (j.slotHas Batch.isReel) = [] := List.eq_nil_of_length_eq_zero h
  have hi := List.filter_eq_nil_iff.mp hnone i (mem_slotList i)
  rw [Jc.slotHas_iff] at hi
  by_contra hd
  exact hi ⟨b, hb, by simpa [Batch.isReel] using hd⟩

/-- Where no reel batch exists, a stop leaves the journal's slots. -/
theorem jcStopped_of_noReel {s : State} (h : s.jc.reelCount = 0) (hreel : s.jc.reel = none) (hopen : s.jc.reelOpen = none)
    (hwaiters : s.jc.waiters = []) :
    s.jcStopped = { s.jc with lowFlag := s.jc.lowFlag && decide (s.jc.free ≤ s.jc.almostFull) } := by
  have hslots : tmap stoppedSlot s.jc.slots = s.jc.slots := by
    refine table_ext fun i => ?_
    rw [tget_tmap]
    cases hb : tget s.jc.slots i with
    | none => rfl
    | some b => exact if_pos (isDrawn_of_noReel h i b hb)
  have hfilter : s.jc.waiters.filter (fun r => r != .rp) = s.jc.waiters := by
    rw [hwaiters]
    rfl
  rw [jcStopped, hslots, hfilter, ← hreel, ← hopen]

theorem reelInRelease_of_noReel {j : Jc} (h : j.reelCount = 0) : j.reelInRelease = false := by
  rw [← Bool.not_eq_true, Jc.reelInRelease, Jc.any_iff]
  rintro ⟨i, b, hb, hp⟩
  simp [Batch.isReel, isDrawn_of_noReel h i b hb] at hp

section bareAbort
variable {s : State} (hstate : s.rp.state = .loading) (hcount : s.jc.reelCount = 0) (hdrawn : s.jc.drawn = none)
  (hreel : s.jc.reel = none) (hopen : s.jc.reelOpen = none) (hwaiters : s.jc.waiters = []) (hoffer : s.ct.offerRp = none)
  (hcurrent : ∀ q ∈ s.ct.current, q.kind ≠ .reelUpdate) (hheld : s.pu.heldReel = none) (hcue : s.rp.pendingCue = none)
  (hstandby : s.spc.standbyPending = false) (hflight : s.mp.inFlight = none)
include hstate hcount hdrawn hreel hopen hwaiters hoffer hcurrent hheld hcue hstandby hflight

/-- The RP is in IDLE again, with REEL_ENDED, and nothing else of the part is touched (R116). -/
theorem stopReel_bare : s.stopReel true = { s with
    jc := { s.jc with lowFlag := s.jc.lowFlag && decide (s.jc.free ≤ s.jc.almostFull) }
    re := { s.re with hold := 0 }
    rp := { s.rp with
      state := .idle, unflipped := 0, finalFlipped := false, header := none, step := .none, endedDue := false }
    mp := s.mp.withdrawn placeRp
    ru := Ru.raise { s.ru with dueStatus := true } .reelEnded } := by
  obtain ⟨o, ⟨hstays, -⟩, heq⟩ := stopReel_eq s true
  obtain rfl : o = none := hstays (fun w hw => by simp [hdrawn] at hw)
  have hct : ({ s.ct with
      offerRp := none
      current := s.ct.current.map (fun q => if q.kind = .reelUpdate then { q with discard := true } else q) } : Ct) = s.ct := by
    have hmap : s.ct.current.map (fun q => if q.kind = .reelUpdate then { q with discard := true } else q) = s.ct.current := by
      cases hq : s.ct.current with
      | none => rfl
      | some q => exact congrArg some (if_neg (hcurrent q hq))
    rw [hmap, ← hoffer]
  have hleft : s.reelLeft (s.rpLeft true) = { s with
      jc := { s.jc with lowFlag := s.jc.lowFlag && decide (s.jc.free ≤ s.jc.almostFull) }
      re := { s.re with hold := 0 }, rp := s.rpLeft true, mp := s.mp.withdrawn placeRp } := by
    have hfree : s.mp.inFlight.map (fun f =>
        if f.req.owner ∈ [Owner.header, .pairRead, .baseReel] then { f with discard := true } else f) = s.mp.inFlight := by
      rw [hflight]
      rfl
    rw [reelLeft, jcStopped_of_noReel hcount hreel hopen hwaiters, hct, hfree, ← hheld]
    rfl
  rw [heq, reelInRelease_of_noReel hcount, if_neg (by simp), dropsDrawn, hleft, rpIdle]
  dsimp only
  rw [setPlayer_of_ne (by simp [rpLeft, hstate]), if_pos (by rfl), standbyCheck_of_not (.inl (by exact hstandby)),
    servePending_of_none (by exact hcue)]
  rfl

end bareAbort

end Sys2Proof.Machine.State
namespace Sys2Proof.Proofs
open Sys2Proof.Machine Sys2Proof.Machine.State

/-- Settles O55: the header's checks decide between the batch, the wait and the abort, whose effect is followed to its end. -/
theorem headerReadOpensABatchOrAborts : Obligations.HeaderReadOpensABatchOrAborts := by
  unfold Obligations.HeaderReadOpensABatchOrAborts
  refine ⟨?reads, fun s hpart hbusy => reelAbort_aborts hpart hbusy, ?cut⟩
  case reads =>
    rintro s f x h hs hf hop rfl hh
    have hheader : Header.ofWord (s.dataOf f) s.rp.readAddr = h := (header_ofWord _ _).trans hh.symm
    have hcount : bits (s.dataOf f) 7 0 = h.count := by rw [hh]
    have haddr : h.addr = s.rp.readAddr := by rw [hh]
    have hnext : h.count = 0 → h.addr + 4 * (1 + 2 * h.count) = s.rp.readAddr + 4 := fun hzero => by rw [hzero, haddr]
    have hfails : headerFails { data := s.dataOf f, error := s.readError f } s.rp.readAddr = true
        ↔ s.readError f = true ∨ 0x7FFFFF < s.rp.readAddr + 8 * h.count := by
      rw [headerFails_iff, hcount]
    have hasks : ∀ n, s.readError f = false → s.rp.readAddr + 8 * h.count ≤ 0x7FFFFF → s.rp.reel = some n →
        State.headerDone { s with mp := s.mp.freed, ru := s.ruAfterRead f } { data := s.dataOf f, error := s.readError f }
          = (State.headerTaken { s with mp := s.mp.freed } h).askReelBatch { reel := n, frame := s.rp.frame, hold := h.hold } := by
      intro n herror hwindow hreel
      rw [ruAfterRead_of_good s f herror]
      refine (headerDone_asks (by exact hreel) fun hbad => ?_).trans ?_
      · rcases hfails.mp hbad with hb | hb
        · simp [herror] at hb
        · omega
      · rw [← hheader]
    refine ⟨fun n i herror hwindow hreel hcount2 hi hlower hpos => header_apart hs hf hop ?_,
      fun n herror hwindow hreel hfull => header_apart hs hf hop ?_,
      fun n i herror hzero hwindow hreel hcount2 hnone hi hlower hstate hmore hunflipped => header_apart hs hf hop ?_,
      fun hbad hstate hcount0 hdrawn hreel hopen hwaiters hoffer hcurrent hheld hcue hstandby => header_apart hs hf hop ?_,
      fun hbad hpart => header_running hs hpart hf hop (headerDone_aborts (hfails.mpr hbad)),
      fun n i herror hzero hwindow hpart hreel hcount2 hi hlower => header_running hs hpart hf hop ?_⟩
    · rw [hasks n herror hwindow hreel, askReelBatch_opens _ (by exact hcount2) (by exact hi) (by exact hlower),
        loadPair_of_lt (h := h) rfl hpos, haddr]
      rfl
    · rw [hasks n herror hwindow hreel, askReelBatch_waits _ (by exact hfull)]
      rfl
    · rw [hasks n herror (by omega) hreel, askReelBatch_opens _ (by exact hcount2) (by exact hi) (by exact hlower),
        loadPair_of_ge (h := h) rfl (by omega),
        endFrame_nextFrame (n := n) (h := h) (i := i) (b := Batch.fresh (.reel n s.rp.frame false) h.hold) (by exact hreel) (by rfl)
          (by exact Jc.find_opened (p := fun b => b.isReel && b.isOpen) (Batch.fresh (.reel n s.rp.frame false) h.hold) hnone rfl)
          (by exact jcWith_at s i _) (by exact hmore),
        beginFrame_reads (by exact .inl hstate) (by exact Nat.lt_of_le_of_lt (Nat.succ_le_succ (Nat.le_of_eq hunflipped)) (by decide))
          (by exact (hnext hzero).symm ▸ hwindow), if_neg (by exact fun hw => absurd (hstate.symm.trans hw) (by simp))]
      rw [hnext hzero]
      simp only [frameSealed, hunflipped, headerTaken, jcWith, tset_tset, ← hstate]
      rfl
    · refine (headerDone_aborts (by exact hfails.mpr hbad)).trans ((stopReel_bare (by exact hstate) (by exact hcount0) (by exact hdrawn) (by exact hreel) (by exact hopen)
        (by exact hwaiters) (by exact hoffer) (by exact hcurrent) (by exact hheld) (by exact hcue) (by exact hstandby)
        (by rfl)).trans ?_)
      rfl
    · rw [hasks n herror (by omega) hreel, askReelBatch_opens _ (by exact hcount2) (by exact hi) (by exact hlower),
        loadPair_of_ge (h := h) rfl (by omega)]
      rfl
  case cut =>
    rintro s u f a count hs hpart hf howner hop hd hcut hcount rfl
    have hmeet := meetHeader_of_cut hf howner hd hcut
    have hfails : headerFails (s.delivered f) a = true ↔ s.readError f = true ∨ 0x7FFFFF < a + 8 * count := by
      rw [delivered_of_read s f hop, headerFails_iff, hcount, bits_eq_field]
    refine ⟨fun herror hwindow => ?_, fun hbad => ?_⟩
    · rw [if_neg (fun hb => by rcases hfails.mp hb with hb | hb; · simp [herror] at hb
                               · omega)] at hmeet
      exact header_discarded hs hpart hf howner hop hd hmeet rfl rfl rfl rfl
    · obtain ⟨v, hv⟩ := meetsStop_exists s a
      obtain ⟨hmp, hmemory, hup, -, hspc, -⟩ := meetsStop_frame hv
      rw [if_pos (hfails.mpr hbad), meetStop_of_cut hcut hv] at hmeet
      exact ⟨v, hv, header_discarded hs hpart hf howner hop hd hmeet hmp hmemory hup hspc⟩

end Sys2Proof.Proofs
end

