-- ==== Sys2Proof/Proofs/Reloads.lean ====
section
set_option Elab.async false
/-!
RESULT. The profile reload word (O33).
-/
namespace Sys2Proof.Machine

/-! ### Profiles marked due -/

namespace Pu

theorem reloadOne_idle {u : Pu} (p : Fin 16) (h : u.load = none) : u.reloadOne p = { u with pending := tset u.pending p true } := by
  simp only [reloadOne, h]

theorem reloadOne_same {u : Pu} {l : Load} (h : u.load = some l) :
    u.reloadOne l.profile = { u with load := some { l with again := true } } := by
  simp only [reloadOne, h, if_true]

theorem reloadOne_other {u : Pu} {l : Load} {p : Fin 16} (h : u.load = some l) (hp : l.profile ≠ p) :
    u.reloadOne p = { u with pending := tset u.pending p true } := by
  simp only [reloadOne, h]
  exact if_neg hp

theorem reload_of_lt {u : Pu} {x : Word} {p : Fin 16} (h : x.toNat = p.val) : u.reload x = u.reloadOne p := by
  have hlt : x.toNat < 16 := by omega
  rw [reload, dif_pos hlt]
  exact congrArg u.reloadOne (Fin.ext h)

theorem reload_of_ge {u : Pu} {x : Word} (h : 16 ≤ x.toNat) : u.reload x = (List.finRange 16).foldl Pu.reloadOne u :=
  dif_neg (by omega)

/-- A list of profiles marked due while none is in load. -/
theorem foldl_reloadOne_idle (ps : List (Fin 16)) (u : Pu) (h : u.load = none) :
    ps.foldl Pu.reloadOne u = { u with pending := (ps.foldl Pu.reloadOne u).pending }
      ∧ ∀ q, tget (ps.foldl Pu.reloadOne u).pending q = (Decidable.decide (q ∈ ps) || tget u.pending q) := by
  induction ps generalizing u with
  | nil => exact ⟨rfl, fun q => by simp⟩
  | cons p ps ih =>
    obtain ⟨heq, hpending⟩ := ih (u.reloadOne p) (by rw [reloadOne_idle p h]; exact h)
    rw [List.foldl_cons]
    refine ⟨heq.trans (by rw [reloadOne_idle p h]), fun q => ?_⟩
    rw [hpending, reloadOne_idle p h]
    by_cases hq : q = p
    · simp [hq]
    · simp [hq, tget_tset_ne _ _ (Ne.symm hq)]

/-- A list of profiles marked due while one is in load. -/
theorem foldl_reloadOne_loading (ps : List (Fin 16)) (u : Pu) (l : Load) (h : u.load = some l) :
    ps.foldl Pu.reloadOne u = { u with
        pending := (ps.foldl Pu.reloadOne u).pending
        load := some { l with again := l.again || Decidable.decide (l.profile ∈ ps) } }
      ∧ ∀ q, tget (ps.foldl Pu.reloadOne u).pending q = ((Decidable.decide (q ∈ ps) && Decidable.decide (q ≠ l.profile)) || tget u.pending q) := by
  induction ps generalizing u l with
  | nil => exact ⟨by simp [← h], fun q => by simp⟩
  | cons p ps ih =>
    rw [List.foldl_cons]
    by_cases hp : l.profile = p
    · subst hp
      obtain ⟨heq, hpending⟩ := ih (u.reloadOne l.profile) { l with again := true } (by rw [reloadOne_same h])
      refine ⟨heq.trans (by rw [reloadOne_same h]; simp), fun q => ?_⟩
      rw [hpending, reloadOne_same h]
      by_cases hq : q = l.profile <;> simp [hq]
    · obtain ⟨heq, hpending⟩ := ih (u.reloadOne p) l (by rw [reloadOne_other h hp]; exact h)
      refine ⟨heq.trans (by rw [reloadOne_other h hp]; simp [hp]), fun q => ?_⟩
      rw [hpending, reloadOne_other h hp]
      by_cases hq : q = p
      · subst hq
        simp [Ne.symm hp]
      · simp [hq, tget_tset_ne _ _ (Ne.symm hq)]

theorem reload_all_idle {u : Pu} {x : Word} (hx : 16 ≤ x.toNat) (h : u.load = none) :
    u.reload x = { u with pending := Vector.replicate 16 true } := by
  obtain ⟨heq, hpending⟩ := foldl_reloadOne_idle (List.finRange 16) u h
  have hall : ((List.finRange 16).foldl Pu.reloadOne u).pending = Vector.replicate 16 true :=
    table_ext fun q => by simp [hpending]
  rw [reload_of_ge hx, heq, hall]

theorem reload_all_loading {u : Pu} {x : Word} {l : Load} (hx : 16 ≤ x.toNat) (h : u.load = some l) :
    u.reload x = { u with
      pending := tset (Vector.replicate 16 true) l.profile (tget u.pending l.profile)
      load := some { l with again := true } } := by
  obtain ⟨heq, hpending⟩ := foldl_reloadOne_loading (List.finRange 16) u l h
  have hall : ((List.finRange 16).foldl Pu.reloadOne u).pending
      = tset (Vector.replicate 16 true) l.profile (tget u.pending l.profile) :=
    table_ext fun q => by
      rw [hpending]
      by_cases hq : q = l.profile
      · simp [hq]
      · simp [hq, tget_tset_ne _ _ (Ne.symm hq)]
  rw [reload_of_ge hx, heq, hall]
  simp

end Pu

namespace State

/-- A question held stays held where the CT is left and no profile due is decided. -/
theorem questionHeld_of_due {s t : State} {u : Pu} (h : s.questionHeld u) (hct : t.ct = s.ct)
    (hdue : ∀ p, tget u.pending p = true → tget t.pu.pending p = true) : t.questionHeld t.pu := by
  intro q hq
  rw [hct] at hq
  obtain ⟨hwalk, hhit⟩ := h q hq
  refine ⟨fun k hk hstep => ?_, fun hnone g hg hres => ?_⟩
  · rw [hct] at hk
    obtain ⟨h1, h2, h3, h4, h5⟩ := hwalk k hk hstep
    exact ⟨h1, h2, by rw [hct]; exact h3, h4, hdue _ h5⟩
  · rw [hct] at hnone hg
    obtain ⟨h1, h2, h3, h4, h5⟩ := hhit hnone g hg hres
    exact ⟨h1, h2, by rw [hct]; exact h3, h4, hdue _ h5⟩

/-- The unit with its due profiles done with: no load begins. -/
theorem puRun_of_restDone {s : State} {v : Pu} (hload : s.pu.load = none) (h : s.pu.restDone v) :
    s.puRun = { s with pu := v } := by
  obtain ⟨hnone, rfl⟩ | ⟨⟨p, hp, hq, habove⟩, rfl⟩ := h
  · exact puRun_of_none hnone
  · exact puRun_of_above hload hp hq habove

theorem puRun_of_loading {s : State} (h : s.pu.load.isSome = true) : s.puRun = s := by
  obtain ⟨l, hl⟩ := Option.isSome_iff_exists.mp h
  unfold puRun
  rw [hl]

/-- The reload word in RUNNING: the unit's run, and the answer to a question that it may bring. -/
theorem reloadWord_run {s x : State} {f : InFlight} {t : HostTransfer} (hs : s.settled) (hpart : s.spc.part = .running)
    (h : s.headWriting f t) (hc : controlOf t = some .profileReload)
    (hx : State.answerQuestion (State.puRun { s with
      memory := s.memory.after f, mp := s.mp.freed, aq := s.nextQueue, up := s.nextUp, pu := s.pu.reload t.data }) = x) :
    exec .profileReloadWord s = .next x.endStep := by
  refine congrArg Host.Outcome.next (controlWord_of_keeps (act := fun t x => t.actReload x) hs h hpart hc rfl hx ?_)
  rw [← hx]
  exact actReload_keeps _ t.data

end State
end Sys2Proof.Machine
namespace Sys2Proof.Proofs
open Sys2Proof.Machine Sys2Proof.Machine.State

/-- Settles O33: the marked profiles are due, and the PU runs on from the first of them unless it is loading. -/
theorem reloadWordMakesProfilesDue : Obligations.ReloadWordMakesProfilesDue := by
  unfold Obligations.ReloadWordMakesProfilesDue
  intro s f t hs hpart hhead hc hheld
  have hdue : ∀ (p : Fin 16) (v : Vector Bool 16), (∀ q, tget v q = true → tget (tset v p true) q = true) := by
    intro p v q hq
    by_cases hp : q = p
    · simp [hp]
    · rw [tget_tset_ne _ _ (Ne.symm hp)]
      exact hq
  refine ⟨fun p hp hload hnone hwin => reloadWord_run hs hpart hhead hc ?_,
    fun hall hload hwin => reloadWord_run hs hpart hhead hc ?_,
    fun p l hp hload hsame => reloadWord_run hs hpart hhead hc ?_,
    fun p l hp hload hother => reloadWord_run hs hpart hhead hc ?_,
    fun l hall hload => reloadWord_run hs hpart hhead hc ?_,
    fun s1 u v hload hu hrest hs1 => ?_⟩
  · rw [Pu.reload_of_lt hp, Pu.reloadOne_idle p hload, puRun_of_due (p := p) (by exact hload) (by simp)
      (fun q hq => by simp [tget_tset_ne _ _ (ne_of_gt hq), hnone]) (by exact hwin)]
    exact answerQuestion_of_held (questionHeld_of_due hheld rfl (hdue p _))
  · rw [Pu.reload_all_idle hall hload, puRun_of_due (p := 0) (by exact hload) (by simp)
      (fun q hq => absurd hq (by simp)) (by exact hwin)]
    exact answerQuestion_of_held (questionHeld_of_due hheld rfl (fun q _ => by simp))
  · rw [Pu.reload_of_lt hp, ← hsame, Pu.reloadOne_same hload, puRun_of_loading (by rfl)]
    exact answerQuestion_of_held (questionHeld_of_due hheld rfl (fun q hq => hq))
  · rw [Pu.reload_of_lt hp, Pu.reloadOne_other hload hother, puRun_of_loading (by exact Option.isSome_iff_exists.mpr ⟨l, hload⟩)]
    exact answerQuestion_of_held (questionHeld_of_due hheld rfl (hdue p _))
  · rw [Pu.reload_all_loading hall hload, puRun_of_loading (by rfl)]
    refine answerQuestion_of_held (questionHeld_of_due hheld rfl (fun q hq => ?_))
    by_cases hl : q = l.profile
    · simpa [hl] using hq
    · simp [tget_tset_ne _ _ (Ne.symm hl)]
  · have hreload : s.pu.reload t.data = u := by
      obtain ⟨p, hp, rfl⟩ | ⟨hall, rfl⟩ := hu
      · rw [Pu.reload_of_lt hp, Pu.reloadOne_idle p hload]
      · exact Pu.reload_all_idle hall hload
    have hidle : u.load = none := by
      obtain ⟨p, -, rfl⟩ | ⟨-, rfl⟩ := hu <;> exact hload
    have hrun : State.puRun { s with
        memory := s.memory.after f, mp := s.mp.freed, aq := s.nextQueue, up := s.nextUp, pu := s.pu.reload t.data } = s1 := by
      rw [hreload, puRun_of_restDone (v := v) (by exact hidle) (by exact hrest), hs1]
    refine ⟨fun hv => reloadWord_run hs hpart hhead hc ?_, fun w hw => reloadWord_run hs hpart hhead hc ?_⟩
    · rw [hrun]
      refine answerQuestion_of_held ?_
      rw [hs1]
      exact hv
    · rw [hrun]
      exact answerQuestion_of_answered hw

end Sys2Proof.Proofs
end

