-- ==== Sys2Proof/Proofs/Spares.lean ====
section
set_option Elab.async false
/-!
SUPPORT. What follows a translation handed on or failed spares the Canvas Translator: its cache and its walk stay, one without a
request begins none, and the part in RUNNING or STANDBY stays there. In the order of the operations.
-/
namespace Sys2Proof.Machine.State

/-- The part state in which commands of the queue are served. -/
def served (s : State) : Prop := s.spc.part = .running ∨ s.spc.part = .standby

/-- The CT's cache and walk are those of `s`, and it has no request where it had none. -/
structure Spares (s t : State) : Prop where
  cache : t.ct.cache = s.ct.cache
  walk : t.ct.walk = s.ct.walk
  current : s.ct.current = none → t.ct.current = none
  part : s.served → t.served

namespace Spares

theorem refl (s : State) : s.Spares s := ⟨rfl, rfl, id, id⟩

theorem trans {s t u : State} (h : s.Spares t) (k : t.Spares u) : s.Spares u :=
  ⟨k.cache.trans h.cache, k.walk.trans h.walk, fun hc => k.current (h.current hc), fun hp => k.part (h.part hp)⟩

theorem of_frame {s t : State} (hct : t.ct = s.ct := by simp) (hpart : t.spc = s.spc := by simp) : s.Spares t :=
  ⟨by rw [hct], by rw [hct], by rw [hct]; exact id, by unfold served; rw [hpart]; exact id⟩

theorem ite {s t u : State} {c : Prop} [Decidable c] (ht : s.Spares t) (hu : s.Spares u) : s.Spares (if c then t else u) := by
  split <;> assumption

end Spares

section
variable (s : State)

/-! ### Standby, cues and the entry to IDLE -/

theorem standbyCheck_spares : s.Spares s.standbyCheck := by
  refine ⟨by simp, by simp, by simp, fun h => ?_⟩
  unfold standbyCheck
  split_ifs
  · rw [enterStandby_eq]
    unfold served standbyEntered
    by_cases hq : s.aq.queue = [] <;> simp [hq]
  · exact h

theorem cancelStandby_spares : s.Spares s.cancelStandby := by
  rw [cancelStandby_eq]
  refine ⟨rfl, rfl, id, fun h => ?_⟩
  unfold served spcCancelled
  exact h

theorem playStart_spares (n : Fin 4) : s.Spares (s.playStart n) := by
  unfold playStart
  exact (cancelStandby_spares s).trans .of_frame

theorem cueInIdle_spares (src : CueSource) (n : Fin 4) : s.Spares (s.cueInIdle src n) := by
  unfold cueInIdle
  exact .ite (playStart_spares s n) .of_frame

theorem servePending_spares : s.Spares s.servePending := by
  unfold servePending
  split
  · exact .refl s
  · exact Spares.trans .of_frame (cueInIdle_spares _ _ _)

theorem rpIdle_spares : s.Spares s.rpIdle := by
  unfold rpIdle
  dsimp only
  refine Spares.trans (t := s.setPlayer .idle) .of_frame (.trans ?_ ((standbyCheck_spares _).trans (servePending_spares _)))
  exact .ite .of_frame (.refl _)

/-! ### Stop and abort -/

theorem withdrawReel_spares : s.Spares s.withdrawReel := by
  rw [withdrawReel_eq]
  exact ⟨rfl, rfl, fun h => by simp [h], id⟩

theorem discardReels_spares : s.Spares s.discardReels := .of_frame

theorem clearHold_spares : s.Spares s.clearHold := .of_frame

theorem stopReel_spares (aborted : Bool) : s.Spares (s.stopReel aborted) := by
  unfold stopReel
  exact (withdrawReel_spares s).trans ((discardReels_spares _).trans ((clearHold_spares _).trans (Spares.trans .of_frame
    (.ite .of_frame (rpIdle_spares _)))))

theorem reelAbort_spares : s.Spares s.reelAbort := by
  unfold reelAbort
  exact Spares.trans .of_frame (stopReel_spares _ _)

/-! ### Frames -/

theorem beginFrame_spares : s.Spares s.beginFrame := by
  unfold beginFrame
  exact .ite (Spares.trans (t := s.setPlayer .loading) .of_frame (.ite .of_frame (Spares.trans .of_frame (reelAbort_spares _))))
    .of_frame

theorem sealReel_spares : s.Spares s.sealReel := .of_frame

theorem advance_spares : s.Spares s.advance := by
  unfold advance
  dsimp only
  split
  · exact .ite (Spares.trans .of_frame (beginFrame_spares _))
      (.ite .of_frame (Spares.trans .of_frame (beginFrame_spares _)))
  · exact .refl s

theorem endFrame_spares : s.Spares s.endFrame := (sealReel_spares s).trans (advance_spares _)

theorem loadPair_spares (i : Nat) : s.Spares (s.loadPair i) := by
  unfold loadPair
  exact .ite .of_frame (endFrame_spares s)

theorem updateDone_spares : s.Spares s.updateDone := by
  unfold updateDone
  split
  · exact loadPair_spares s _
  · exact .refl s

theorem truncate_spares : s.Spares s.truncate := by
  unfold truncate
  split
  · exact Spares.trans .of_frame (endFrame_spares _)
  · exact .refl s

theorem failReel_spares : s.Spares s.failReel := by
  unfold failReel
  exact Spares.trans .of_frame (truncate_spares _)

/-! ### The Journal Controller -/

theorem placed_spares (r : Requester) : s.Spares (s.placed r) := by
  cases r with
  | aq => exact Spares.of_frame (t := s.releaseDrawn.headLeaves)
  | rp => exact Spares.trans (t := s.releaseReel) .of_frame (updateDone_spares _)

theorem placeStored_spares (r : Requester) (w : Staged) (v : Stored) : s.Spares (s.placeStored r w v) := by
  unfold placeStored
  split
  · exact Spares.trans .of_frame (placed_spares _ _)
  · exact .refl s

theorem combineWith_spares (r : Requester) (w : Staged) (base : Stored) : s.Spares (s.combineWith r w base) := by
  unfold combineWith
  split
  · exact placeStored_spares s _ _ _
  · exact .refl s

theorem place_spares (r : Requester) (w : Staged) : s.Spares (s.place r w) := by
  unfold place
  split
  · exact placeStored_spares s _ _ _
  · split
    · exact combineWith_spares s _ _ _
    · exact .of_frame

theorem failEntry_spares (r : Requester) (w : Staged) : s.Spares (s.failEntry r w) := by
  cases r with
  | aq => exact Spares.of_frame (t := s.dropDrawn w.canvas)
  | rp => exact failReel_spares s

theorem stageEntry_spares (r : Requester) (w : Staged) : s.Spares (s.stageEntry r w) := by
  unfold stageEntry
  split
  · exact .ite (place_spares s _ _) (.ite (Spares.trans .of_frame (place_spares _ _ _)) (.ite .of_frame (failEntry_spares s _ _)))
  · exact .refl s

theorem stageDrawn_spares (w : Staged) : s.Spares (s.stageDrawn w) := by
  unfold stageDrawn
  exact (cancelStandby_spares s).trans (.ite (stageEntry_spares _ _ _) (.ite (Spares.trans .of_frame (stageEntry_spares _ _ _))
    (.ite .of_frame .of_frame)))

theorem stage_spares (r : Requester) (w : Staged) : s.Spares (s.stage r w) := by
  cases r with
  | aq => exact stageDrawn_spares s w
  | rp => exact stageEntry_spares s _ w

theorem transform_spares (r : Requester) (q : CtReq) (t : Translation) : s.Spares (s.transform r q t) := by
  unfold transform
  split
  · exact stage_spares s _ _
  · exact Spares.trans .of_frame (stage_spares _ _ _)

/-! ### The end of the CT's request -/

theorem answerFault_spares (k : ReqKind) : s.Spares (s.answerFault k) := by
  cases k with
  | drawnWrite => exact Spares.of_frame (t := s.headLeaves)
  | canvasRead => exact Spares.of_frame (t := (s.answerHost false (some 0)).headLeaves)
  | reelUpdate => exact updateDone_spares s

theorem ctEndDiscarded_spares : s.ctFree.Spares s.ctEndDiscarded := by
  unfold ctEndDiscarded
  split
  · exact ⟨rfl, rfl, id, id⟩
  all_goals exact .refl _

theorem ctFault_spares (q : CtReq) (k : FaultKind) : s.ctFree.Spares (s.ctFault q k) := by
  unfold ctFault
  dsimp only
  refine .ite (ctEndDiscarded_spares s) ?_
  have hreport : s.ctFree.Spares (s.ctFree.report k q.kind.origin q.canvas) := .of_frame
  exact (hreport.trans (.ite (.refl _) .of_frame)).trans (answerFault_spares _ _)

theorem ctHand_spares (q : CtReq) (t : Translation) : s.ctFree.Spares (s.ctHand q t) := by
  unfold ctHand
  refine .ite (ctEndDiscarded_spares s) ?_
  split
  · exact transform_spares _ _ _ _
  · exact .of_frame
  · exact transform_spares _ _ _ _

theorem ctFinish_spares (q : CtReq) (r : TrResult) : s.ctFree.Spares (s.ctFinish q r) := by
  cases r with
  | ok t => exact ctHand_spares s q t
  | bad k => exact ctFault_spares s q k

end

end Sys2Proof.Machine.State
end

