-- ==== Sys2Proof/Proofs/ProfileReads.lean ====
section
set_option Elab.async false
/-!
RESULT. The profile reads, and the questions that a profile decided answers (O16).
-/
namespace Sys2Proof.Machine

theorem Profile.decided_eq (x : Nat) : Nat.ble x 5 = decide (x ≤ 5) := by
  rw [Bool.eq_iff_iff, Nat.ble_eq, decide_eq_true_iff]

/-- The host's owners of a transfer. -/
theorem Owner.isHost_iff (o : Owner) : o.isHost = true ↔ o ∈ [Owner.plainWrite, .plainRead, .passive, .direct] := by
  cases o <;> simp [Owner.isHost]

namespace State

/-! ### The read of a record's words -/

theorem profileReadDone_first {s : State} {l : Load} (d : Delivered) (hl : s.pu.load = some l) (hfirst : l.first = none) :
    s.profileReadDone d = { s with
      freeCount := s.profileCount l d.data
      pu := { s.pu with load := some { l with
        first := some (s.profileWord l d.data), bad := d.error
        asked := s.memory.readWord (wordAt (s.pu.base + 8 * l.profile.val + 4)) } }
      mp := s.mp.asking placeSpc (readOf .profileRead (wordAt (s.pu.base + 8 * l.profile.val + 4))) } := by
  simp only [profileReadDone, hl, hfirst]
  rfl

/-- The profile in load is decided by its record's two words (R153). -/
def profileDecided (s : State) (l : Load) (x : Word) (d : Delivered) : State :=
  { s with
    freeCount := s.profileCount l d.data
    pu := { s.pu with
      store := tset s.pu.store l.profile
        { valid := !(l.bad || d.error) && decide ((Profile.ofWords x (s.profileWord l d.data)).order.toNat ≤ 5)
          fields := Profile.ofWords x (s.profileWord l d.data) }
      pending := tset s.pu.pending l.profile l.again
      load := none } }

theorem profileReadDone_second {s : State} {l : Load} {x : Word} (d : Delivered) (hl : s.pu.load = some l)
    (hfirst : l.first = some x) :
    s.profileReadDone d = (s.profileDecided l x d).answerQuestion.puRun.answerQuestion.afterLoads := by
  simp only [profileReadDone, hl, hfirst, Pu.decide, Profile.decided_eq]
  rfl

/-! ### A question answered -/

/-- The CT holds no question for a profile. -/
def noQuestion (s : State) : Prop :=
  s.ct.current = none ∨ (∃ k, s.ct.walk = some k ∧ k.step ≠ .profile)
    ∨ (s.ct.walk = none ∧ ∀ h ∈ s.ct.hit, h.result ≠ none)

theorem answerQuestion_of_noQuestion {s : State} (h : s.noQuestion) : s.answerQuestion = s := by
  refine answerQuestion_of_held fun q hq => ?_
  rcases h with h | ⟨k, hk, hstep⟩ | ⟨hwalk, hhit⟩
  · rw [h] at hq
    exact absurd hq (by simp)
  · rw [hk]
    exact ⟨fun w hw hs => absurd (Option.mem_some_iff.mp hw ▸ hs) hstep, fun hn => absurd hn (by simp)⟩
  · rw [hwalk]
    exact ⟨fun w hw => absurd hw (by simp), fun _ g hg hr => absurd hr (hhit g hg)⟩

theorem noQuestion_of_ended {s t : State} (h : s.ctFree.Spares t) : t.noQuestion := .inl (h.current rfl)

theorem ctFree_served {s t : State} (h : s.ctFree.Spares t) (hs : s.served) : t.served := h.part hs

/-- An answered question is held no more, and the part stays in RUNNING or STANDBY. -/
theorem answered_of_profileAnswered {s t : State} (hs : s.served) (h : s.profileAnswered t) : t.noQuestion ∧ t.served := by
  have hfault : ∀ (u : State) (q : CtReq) (x : FaultKind), u.spc = s.spc → t = u.ctFault q x → t.noQuestion ∧ t.served := by
    rintro u q x hspc rfl
    exact ⟨noQuestion_of_ended (ctFault_spares u q x), ctFree_served (ctFault_spares u q x) (by unfold served; rwa [hspc])⟩
  have hhand : ∀ (u : State) (q : CtReq) (x : Translation), u.spc = s.spc → t = u.ctHand q x → t.noQuestion ∧ t.served := by
    rintro u q x hspc rfl
    exact ⟨noQuestion_of_ended (ctHand_spares u q x), ctFree_served (ctHand_spares u q x) (by unfold served; rwa [hspc])⟩
  obtain ⟨q, hq, ⟨k, hk, hstep, hf, r, -, changes, -, hcases⟩ | ⟨hwalk, g, hg, hres, hd⟩⟩ := h
  · rcases hcases with ⟨-, -, -, rfl⟩ | ⟨-, ht⟩
    · exact ⟨.inr (.inl ⟨_, rfl, by simp⟩), hs⟩
    · cases r with
      | ok x => exact hhand _ q x (by rfl) ht
      | bad x => exact hfault _ q x (by rfl) ht
  · rcases hd with ⟨x, -, ht⟩ | ⟨x, -, ⟨-, ht⟩ | ⟨-, -, -, c, hc, ⟨-, ht⟩ | ⟨-, ht⟩⟩⟩
    · exact hfault _ q x (by rfl) ht
    · exact hhand _ q x (by rfl) ht
    · exact hhand _ q x (by rfl) ht
    · rw [ht, hc]
      exact ⟨.inr (.inr ⟨hwalk, fun h hh => by rw [← Option.mem_some_iff.mp hh]; simp⟩), hs⟩

theorem puRun_ct (s : State) : s.puRun.ct = s.ct ∧ s.puRun.spc = s.spc := by simp

theorem notLoading_of_served {s : State} (h : s.served) : s.spc.part ≠ .starting .loadProfiles := by
  rcases h with h | h <;> simp [h]

/-- After an answer the Profile Unit runs on, and nothing is left to answer or to start. -/
theorem puRun_after_answer {t : State} (h : t.noQuestion ∧ t.served) : t.puRun.answerQuestion.afterLoads = t.puRun := by
  obtain ⟨hct, hspc⟩ := t.puRun_ct
  have hno : t.puRun.noQuestion := by
    unfold noQuestion
    rw [hct]
    exact h.1
  rw [answerQuestion_of_noQuestion hno, afterLoads_of_part]
  exact notLoading_of_served (by unfold served; rw [hspc]; exact h.2)

/-- The completion of a profile read with an effect that leaves the bus and the queue, and brings no PASSIVE. -/
theorem profileRead_apart {s x : State} {f : InFlight} (hs : s.settled) (hf : s.inFlightFor f .profileRead)
    (hop : f.req.op = .read)
    (hx : State.profileReadDone { s with mp := s.mp.freed, ru := s.ruAfterRead f }
      { data := s.dataOf f, error := s.readError f } = x)
    (hup : x.up = s.up) (hp : x.passiveServed) : exec .profileReadCompletion s = .next x.endStep :=
  congrArg Host.Outcome.next (readCompletion hs hf (by simp) rfl hop hx hup hp)

theorem profileRead_served {s x : State} {f : InFlight} (hs : s.settled) (hpart : s.served) (hf : s.inFlightFor f .profileRead)
    (hop : f.req.op = .read)
    (hx : State.profileReadDone { s with mp := s.mp.freed, ru := s.ruAfterRead f }
      { data := s.dataOf f, error := s.readError f } = x) : exec .profileReadCompletion s = .next x.endStep := by
  have hdone : (s.complete f).profileReadDone (s.delivered f) = x := by
    rw [complete_of_read s f hop, delivered_of_read s f hop]
    exact hx
  have hawake : s.spc.part ≠ .passive := by rcases hpart with h | h <;> simp [h]
  refine congrArg Host.Outcome.next (completion_of_keeps hs hf (by simp) rfl hawake hdone ?_)
  rw [← hdone]
  exact profileReadDone_keeps _ _

end State

theorem Pu.restDone_idle {u v : Pu} (hload : u.load = none) (h : u.restDone v) :
    v.load = none ∧ ∀ p, tget v.pending p = false := by
  obtain ⟨hnone, rfl⟩ | ⟨-, rfl⟩ := h
  · exact ⟨hload, hnone⟩
  · exact ⟨hload, fun p => by simp [Pu.allVoid]⟩

theorem setWidth_toNat_field (x : Word) : (x.setWidth 3 : BitVec 3).toNat = field x 2 0 := by
  simp [field]

end Sys2Proof.Machine
namespace Sys2Proof.Proofs
open Sys2Proof.Machine Sys2Proof.Machine.State

/-- Settles O16: after the second word the question held is answered or stays held; an answer spares what the PU then runs on from. -/
theorem profileReadDecidesTheProfile : Obligations.ProfileReadDecidesTheProfile := by
  unfold Obligations.ProfileReadDecidesTheProfile
  refine ⟨?first, ?second, ?runs, ?word, ?own, ?other, ?fields⟩
  case first =>
    intro s f l hs hf hop hl hfirst
    exact profileRead_apart hs hf hop (profileReadDone_first _ (by exact hl) hfirst) rfl
      (passiveServed_of_same hs.2 rfl rfl rfl)
  case second =>
    rintro s s1 f l x y u hs hf hop hl hfirst rfl hu hs1
    have hpu : s1.pu = u := by rw [hs1]
    have hct : s1.ct = s.ct := by rw [hs1]
    have hspc : s1.spc = s.spc := by rw [hs1]
    have hre : s1.re = s.re := by rw [hs1]
    have hmemory : s1.memory = s.memory := by rw [hs1]
    have hidle : s1.pu.load = none := by rw [hpu, hu]
    have hdone : State.profileReadDone { s with mp := s.mp.freed, ru := s.ruAfterRead f }
        { data := s.dataOf f, error := s.readError f } = s1.answerQuestion.puRun.answerQuestion.afterLoads := by
      rw [hs1, hu]
      exact profileReadDone_second _ (by exact hl) hfirst
    have hkept : s.questionHeld u → s1.answerQuestion = s1 := fun hheld =>
      answerQuestion_of_held (questionHeld_of_due hheld hct (fun p hp => by rw [hpu]; exact hp))
    have hrest : ∀ v, s.questionHeld u → u.restDone v → s1.answerQuestion.puRun = { s1 with pu := v } := fun v hheld hrest => by
      rw [hkept hheld, puRun_of_restDone hidle (by rw [hpu]; exact hrest)]
    have hquiet : ∀ v, s.questionHeld v → State.answerQuestion { s1 with pu := v } = { s1 with pu := v } := fun v hheld =>
      answerQuestion_of_held (questionHeld_of_due hheld hct (fun p hp => hp))
    have hupaq : s1.up = s.up ∧ s1.aq = s.aq := by rw [hs1]; exact ⟨rfl, rfl⟩
    obtain ⟨hup, haq⟩ := hupaq
    refine ⟨fun p hheld hp hq hwin => ?_, fun v hheld hv hheld2 hpart => ?_, fun v hheld hv hheld2 hpart hslots => ?_,
      fun t hpart ht => profileRead_served hs hpart hf hop (hdone.trans ?_),
      fun v t hpart hheld hv ht => profileRead_served hs hpart hf hop (hdone.trans ?_)⟩
    · refine profileRead_apart hs hf hop (hdone.trans ?_) hup (passiveServed_of_same hs.2 (by exact congrArg Spc.part hspc) haq hup)
      rw [hkept hheld, puRun_of_due hidle (by rw [hpu]; exact hp) (by rw [hpu]; exact hq) (by rw [hpu]; exact hwin),
        answerQuestion_of_held (questionHeld_of_due hheld (by exact hct) (fun r hr => by rw [hpu]; exact hr)),
        afterLoads_of_load (by rfl), hpu, hmemory]
    · refine profileRead_apart hs hf hop (hdone.trans ?_) hup (passiveServed_of_same hs.2 (by exact congrArg Spc.part hspc) haq hup)
      rw [hrest v hheld hv, hquiet v hheld2, afterLoads_of_part (by rw [← hspc] at hpart; exact hpart)]
    · obtain ⟨hload, hdue⟩ := Pu.restDone_idle (by rw [hu]) hv
      refine profileRead_apart hs hf hop (hdone.trans ?_) hup (passiveServed_of_ne (by simp))
      rw [hrest v hheld hv, hquiet v hheld2, afterLoads_of_done (by rw [← hspc] at hpart; exact hpart) (by exact hload)
        (by exact hdue) (by rw [← hre] at hslots; exact hslots), hspc, hre]
      rw [hs1]
    · rw [answerQuestion_of_answered ht]
      exact puRun_after_answer (answered_of_profileAnswered (by unfold served; rw [hspc]; exact hpart) ht)
    · obtain ⟨hno, hserved⟩ := answered_of_profileAnswered (by unfold served; exact hspc ▸ hpart) ht
      rw [hrest v hheld hv, answerQuestion_of_answered ht, afterLoads_of_part (notLoading_of_served hserved)]
  case runs =>
    intro s hload
    exact ⟨puRun_of_none, fun p hp hq => ⟨puRun_of_due hload hp hq, puRun_of_above hload hp hq⟩⟩
  case word =>
    intro s l x
    refine ⟨fun h => ⟨if_neg (by simp [h]), if_pos h⟩, fun h => ⟨if_neg h, ?_⟩⟩
    unfold profileWord
    simp [h]
  case own =>
    intro u f l be x w hl hop hw
    have hword : u.loadWord l = w := by
      rw [hw, Pu.loadWord, Pu.recordAddr]
      cases l.first <;> rfl
    refine ⟨fun ho hat => ?_, fun h => ?_⟩
    · have hhost : f.req.owner.isHost = false := by rw [← Bool.not_eq_true, Owner.isHost_iff]; exact ho
      rw [puAfter_of_own u f l be x hl hop hhost, if_pos (hat.trans hword.symm)]
    · by_cases hhost : f.req.owner.isHost = true
      · exact puAfter_of_host u f hhost
      · rw [puAfter_of_own u f l be x hl hop (by simpa using hhost), hword]
        exact if_neg (h.resolve_left fun ho => hhost ((Owner.isHost_iff _).mpr ho))
  case other =>
    rintro u f (h | h)
    · exact puAfter_of_idle u f h
    · exact puAfter_of_read u f h
  case fields =>
    rintro x y p rfl
    exact ⟨setWidth_toNat_field x, rfl, byteOf_toNat x 1, byteOf_toNat x 2, byteOf_toNat y 0, byteOf_toNat y 1, byteOf_toNat y 2⟩

end Sys2Proof.Proofs
end

