-- ==== Sys2Proof/Proofs/Overtaken.lean ====
section
set_option Elab.async false
/-!
RESULT. A plain write taken leaves no translation of the word it overwrites: not in the cache, not in the walk in flight, and no
write-back of the word before it (O26).
-/
namespace Sys2Proof.Machine.State

/-! ### What a host write does to the walk or the hit in flight -/

theorem ctHostWrite_of_free {s : State} (w : WordAddr) (h : s.ct.current = none) :
    s.ctHostWrite w = s.setCt (s.ct.invalidate w) := by
  unfold ctHostWrite
  simp only [setCt, Ct.invalidate, h]

theorem ctHostWrite_of_walk {s : State} {q : CtReq} {k : Walk} (w : WordAddr) (hq : s.ct.current = some q)
    (hk : s.ct.walk = some k) : s.ctHostWrite w = (s.setCt (s.ct.invalidate w)).hostWriteWalk q k w := by
  unfold ctHostWrite
  simp only [setCt, Ct.invalidate, hq, hk]

theorem ctHostWrite_of_hit {s : State} {q : CtReq} {h : Hit} (w : WordAddr) (hq : s.ct.current = some q)
    (hwalk : s.ct.walk = none) (hh : s.ct.hit = some h) :
    s.ctHostWrite w = (s.setCt (s.ct.invalidate w)).hostWriteHit q h w := by
  unfold ctHostWrite
  simp only [setCt, Ct.invalidate, hq, hwalk, hh]

section
variable {s : State} {q : CtReq} {k : Walk} {h : Hit} {w : WordAddr}

theorem ctAsked_iff : s.ctAsked = true ↔ tget s.mp.requests placeCt ≠ none := by
  simp [ctAsked, Mp.holds, Option.isSome_iff_ne_none]

theorem hostWriteWalk_of_other (hw : w ∉ k.sources) : s.hostWriteWalk q k w = s :=
  if_neg (by simpa using hw)

theorem hostWriteWalk_of_read (hw : w ∈ k.sources)
    (hno : (k.step ≠ .dirFlag ∧ k.step ≠ .segFlag) ∨ tget s.mp.requests placeCt = none) :
    s.hostWriteWalk q k w = { s with ct := { s.ct with walk := some { k with stale := true } } } := by
  refine (if_pos (by simpa using hw)).trans (if_neg ?_)
  rw [Bool.and_eq_true, ctAsked_iff, Bool.or_eq_true, beq_iff_eq, beq_iff_eq]
  tauto

/-- A flag write asked and not granted is withdrawn, and the walk goes on as if it had been done. -/
theorem hostWriteWalk_of_flag (hw : w ∈ k.sources) (hasked : tget s.mp.requests placeCt ≠ none)
    (hstep : k.step = .dirFlag ∨ k.step = .segFlag) :
    s.hostWriteWalk q k w = walkFlagDone { s with
      ct := { s.ct with walk := some { k with stale := true } }, mp := s.mp.withdrawn placeCt } q { k with stale := true } := by
  refine (if_pos (by simpa using hw)).trans (if_pos ?_)
  rwa [Bool.and_eq_true, ctAsked_iff, Bool.or_eq_true, beq_iff_eq, beq_iff_eq, and_iff_right hasked]

theorem hostWriteHit_of_other (hw : h.flagWord ≠ w) : s.hostWriteHit q h w = s := if_neg hw

theorem hostWriteHit_of_held (hw : h.flagWord = w) (hres : h.result = none) :
    s.hostWriteHit q h w = { s with ct := { s.ct with hit := some { h with overtaken := true } } } := by
  simp only [hostWriteHit, if_pos hw, hres]
  rfl

theorem hostWriteHit_of_granted (hw : h.flagWord = w) (hres : h.result ≠ none) (hnot : tget s.mp.requests placeCt = none) :
    s.hostWriteHit q h w = s := by
  obtain ⟨x, hx⟩ := Option.ne_none_iff_exists'.mp hres
  simp only [hostWriteHit, if_pos hw, hx]
  exact if_neg (fun ha => ctAsked_iff.mp ha hnot)

theorem hostWriteHit_of_asked {x : Translation} (hw : h.flagWord = w) (hres : h.result = some x)
    (hasked : tget s.mp.requests placeCt ≠ none) :
    s.hostWriteHit q h w = ctHand { s with mp := s.mp.withdrawn placeCt } q x := by
  simp only [hostWriteHit, if_pos hw, hres]
  exact if_pos (ctAsked_iff.mpr hasked)

/-! ### The cache stays, and a walk that goes on is stale -/

/-- The CT's cache is that of `s`, and a walk in flight that has the word among its sources is stale. -/
def Overtakes (w : WordAddr) (s u : State) : Prop :=
  u.ct.cache = s.ct.cache ∧ ∀ k, u.ct.walk = some k → w ∈ k.sources → k.stale = true

theorem overtakes_of_walk_none {u : State} (hcache : u.ct.cache = s.ct.cache) (hwalk : u.ct.walk = none) : Overtakes w s u :=
  ⟨hcache, fun k hk => by simp [hwalk] at hk⟩

theorem overtakes_of_stale {u : State} (hcache : u.ct.cache = s.ct.cache) (hwalk : u.ct.walk = some k) (hk : k.stale = true) :
    Overtakes w s u :=
  ⟨hcache, fun k' hk' _ => by rw [hwalk, Option.some.injEq] at hk'; rwa [← hk']⟩

/-- The request ended, whatever follows it. -/
theorem overtakes_of_ended {u : State} (h : s.ctFree.Spares u) : Overtakes w s u :=
  overtakes_of_walk_none h.cache h.walk

theorem walkSegment_overtakes (hk : k.stale = true) : Overtakes w s (s.walkSegment q k) := by
  unfold walkSegment
  dsimp only
  split_ifs
  · exact overtakes_of_ended (ctFault_spares s q _)
  · exact overtakes_of_stale rfl rfl (by simp [hk])
  · exact overtakes_of_ended (ctFault_spares s q _)

/-- A stale walk goes on stale, or ends without an entry in the cache. -/
theorem walkFlagDone_overtakes (hwalk : s.ct.walk = some k) (hk : k.stale = true) : Overtakes w s (s.walkFlagDone q k) := by
  unfold walkFlagDone
  split
  · exact walkSegment_overtakes hk
  · rw [walkComplete, walkFill, if_pos hk]
    exact overtakes_of_ended (ctFinish_spares s q _)
  · exact overtakes_of_stale rfl hwalk hk

theorem hostWriteWalk_overtakes (hwalk : s.ct.walk = some k) : Overtakes w s (s.hostWriteWalk q k w) := by
  by_cases hw : w ∈ k.sources
  · by_cases hflag : (k.step = .dirFlag ∨ k.step = .segFlag) ∧ tget s.mp.requests placeCt ≠ none
    · rw [hostWriteWalk_of_flag hw hflag.2 hflag.1]
      exact walkFlagDone_overtakes (s := { s with
        ct := { s.ct with walk := some { k with stale := true } }, mp := s.mp.withdrawn placeCt }) rfl rfl
    · rw [hostWriteWalk_of_read hw (by tauto)]
      exact overtakes_of_stale rfl rfl rfl
  · rw [hostWriteWalk_of_other hw]
    refine ⟨rfl, fun k' hk' hw' => absurd hw' ?_⟩
    rw [hwalk, Option.some.injEq] at hk'
    rwa [← hk']

theorem hostWriteHit_overtakes (hwalk : s.ct.walk = none) : Overtakes w s (s.hostWriteHit q h w) := by
  have hsame : Overtakes w s s := overtakes_of_walk_none rfl hwalk
  by_cases hw : h.flagWord = w
  · cases hres : h.result with
    | none =>
      rw [hostWriteHit_of_held hw hres]
      exact overtakes_of_walk_none rfl hwalk
    | some x =>
      by_cases hasked : tget s.mp.requests placeCt = none
      · rwa [hostWriteHit_of_granted hw (by simp [hres]) hasked]
      · rw [hostWriteHit_of_asked hw hres hasked]
        exact overtakes_of_ended (s := { s with mp := s.mp.withdrawn placeCt }) (ctHand_spares _ q x)
  · rwa [hostWriteHit_of_other hw]

/-- A host write leaves the cache without the entries of its word, and no fresh walk that read it. -/
theorem ctHostWrite_overtakes (hserves : s.walkServes) : Overtakes w (s.setCt (s.ct.invalidate w)) (s.ctHostWrite w) := by
  cases hq : s.ct.current with
  | none =>
    have hwalk : s.ct.walk = none := by
      by_contra h
      simpa [hq] using hserves (Option.isSome_iff_ne_none.mpr h)
    rw [ctHostWrite_of_free w hq]
    exact overtakes_of_walk_none rfl hwalk
  | some q =>
    cases hk : s.ct.walk with
    | some k =>
      rw [ctHostWrite_of_walk w hq hk]
      exact hostWriteWalk_overtakes hk
    | none =>
      cases hh : s.ct.hit with
      | some h =>
        rw [ctHostWrite_of_hit w hq hk hh]
        exact hostWriteHit_overtakes hk
      | none =>
        rw [ctHostWrite_of_none w hk hh]
        exact overtakes_of_walk_none rfl hk

end

/-! ### The write taken -/

theorem ask_endStep_requests (s : State) {p : Place} (r : Request) (hp : placeRu ≠ p) :
    tget (s.ask p r).endStep.mp.requests p = some r := by
  rw [(endStep_mp _).1, beginDueRecord_requests _ hp]
  simp [ask]

/-- The plain write taken in RUNNING: the CT meets the write, then the AQ asks it. -/
theorem plainWriteTaken_run {s x : State} {t : HostTransfer} (hs : s.settled) (hready : s.headReady t)
    (hpart : s.spc.part = .running) (hwrite : t.write = true) (hplain : t.addr.toNat < 0x800000)
    (hx : s.takeHead.ctHostWrite (wordOfTransfer t) = x) : exec .plainWriteTaken s = .next (x.ask placeAq
      { owner := .plainWrite, op := .write t.be t.data, word := wordOfTransfer t }).endStep := by
  have hkind : isPlainWrite t = true := by simp [isPlainWrite, hwrite, (region_plain_iff t).mpr hplain]
  have hop : opOf t = .write t.be t.data := if_pos hwrite
  refine congrArg Host.Outcome.next ?_
  rw [takeIf_run s _ _ t (headToTake_of_ready s t hready) hkind,
    settle_of_keeps hs (by simp [hpart]) (takePlainWrite_keeps s t), takePlainWrite, hx, hop]

end Sys2Proof.Machine.State

namespace Sys2Proof.Proofs
open Sys2Proof.Machine Sys2Proof.Machine.State

/-- Settles O26: the CT goes on from where the write meets it, and what its request's end sets off spares cache and walk (`Spares`). -/
theorem plainWriteTakenLeavesNoStaleTranslation : Obligations.PlainWriteTakenLeavesNoStaleTranslation := by
  unfold Obligations.PlainWriteTakenLeavesNoStaleTranslation
  rintro s s1 t r cache hs hready hpart hwrite hplain rfl rfl hs1
  have hrun : ∀ x, s.takeHead.ctHostWrite (wordOfTransfer t) = x → exec .plainWriteTaken s = .next (x.ask placeAq _).endStep :=
    fun x => plainWriteTaken_run hs hready hpart hwrite hplain
  have hfirst : s.takeHead.setCt (s.ct.invalidate (wordOfTransfer t)) = s1 := hs1.symm
  have hasks : s1.mp = s.mp := by rw [hs1]
  have hmeetsWalk : ∀ q k, s.ct.current = some q → s.ct.walk = some k →
      s.takeHead.ctHostWrite (wordOfTransfer t) = s1.hostWriteWalk q k (wordOfTransfer t) := fun q k hq hk => by
    rw [← hfirst]
    exact ctHostWrite_of_walk _ hq hk
  have hmeetsHit : ∀ q h, s.ct.current = some q → s.ct.walk = none → s.ct.hit = some h →
      s.takeHead.ctHostWrite (wordOfTransfer t) = s1.hostWriteHit q h (wordOfTransfer t) := fun q h hq hwalk hh => by
    rw [← hfirst]
    exact ctHostWrite_of_hit _ hq hwalk hh
  refine ⟨fun hserves => ?serves, fun q k k2 hq hk hk2 => ⟨fun hw => ?other, fun hw hno => ?read, ?flag⟩,
    fun q h hq hwalk hh => ⟨fun hno => ?apart, fun hw hres => ?held, fun x u hw hres hasked hu => ?handed⟩⟩
  case serves =>
    obtain ⟨hcache, hstale⟩ := ctHostWrite_overtakes (s := s.takeHead) (w := wordOfTransfer t) hserves
    have hct : ∀ x r, ((State.ask x placeAq r).endStep).ct = x.ct := fun x r => by simp [ask]
    have hfilter : (s.takeHead.ctHostWrite (wordOfTransfer t)).ct.cache
        = s.ct.cache.filter (fun e => !e.sources.contains (wordOfTransfer t)) := hcache
    refine ⟨_, hrun _ rfl, fun e he => ?_, fun e he hw => ?_, fun k hk => hstale k ?_, ask_endStep_requests _ _ (by decide)⟩
    · rw [hct, hfilter] at he
      simpa using (List.mem_filter.mp he).2
    · rw [hct, hfilter]
      exact List.mem_filter.mpr ⟨he, by simpa using hw⟩
    · rwa [hct] at hk
  case other =>
    rw [hrun s1 ((hmeetsWalk q k hq hk).trans (hostWriteWalk_of_other hw)), ← hasks]
    rfl
  case read =>
    rw [hrun _ ((hmeetsWalk q k hq hk).trans (hostWriteWalk_of_read hw (by rwa [hasks]))), hk2, ← hasks]
    rfl
  case flag =>
    intro s2 u hw hasked hs2 hu
    rw [← hasks] at hasked hs2
    refine hrun u ((hmeetsWalk q k hq hk).trans ?_)
    have hstep : k.step = .dirFlag ∨ k.step = .segFlag := hu.imp And.left And.left
    rw [hostWriteWalk_of_flag hw hasked hstep, ← hk2, ← hs2]
    obtain ⟨hdir, hsought⟩ | ⟨hseg, x, hx, rfl⟩ := hu
    · exact (walkFlagDone_dirFlag (by rwa [hk2])).trans (walkSegment_of_sought hsought)
    · rw [hk2]
      exact walkFlagDone_segFlag hseg hx
  case apart =>
    have hsame : s1.hostWriteHit q h (wordOfTransfer t) = s1 := by
      by_cases hw : h.flagWord = wordOfTransfer t
      · obtain ⟨hres, hnot⟩ := hno.resolve_left (not_not.mpr hw)
        exact hostWriteHit_of_granted hw hres (by rwa [hasks])
      · exact hostWriteHit_of_other hw
    rw [hrun s1 ((hmeetsHit q h hq hwalk hh).trans hsame), ← hasks]
    rfl
  case held =>
    rw [hrun _ ((hmeetsHit q h hq hwalk hh).trans (hostWriteHit_of_held hw hres)), ← hasks]
    rfl
  case handed =>
    rw [← hasks] at hasked hu
    exact hrun u ((hmeetsHit q h hq hwalk hh).trans ((hostWriteHit_of_asked hw hres hasked).trans hu.symm))

end Sys2Proof.Proofs
end
